-- ==== Sys2Proof/Word.lean ====
section
/-! DEFINITION. The word types of the TG-612 (0.6 Conventions: a word is 32 bits, addresses are byte addresses). -/

namespace Sys2Proof

/-- One byte of memory or of a record. -/
abbrev Byte := BitVec 8

/-- A lug number, a ring index or another 16-bit field. -/
abbrev Word16 := BitVec 16

/-- A 32-bit word, or a byte address. -/
abbrev Word32 := BitVec 32

/-- A set of heads H0 to H5; bit `h` stands for head `h` (R4, R23). -/
abbrev HeadSet := BitVec 6

/-- A set of saws S1 to S11; bit `k - 1` stands for saw S`k`, as in a decision record (R84, Table 12-7). -/
abbrev SawSet := BitVec 11

/-- A set of the eighteen notices of Table 11-1, by bit (R197). -/
abbrev NoticeSet := BitVec 18

/-- A set of sources 0 to 15; bit `s` stands for source `s` (R183). -/
abbrev SourceSet := BitVec 16

end Sys2Proof
end

