-- ==== Sys2Proof/Syntax.lean ====
section
/-! DEFINITION. The commands of the TG-612: one constructor of `Instr` for each row of spec/opcode_table.json, with the
operands the row's event brings from outside the part. -/

namespace Sys2Proof

/-- One byte lane of a write: its strobe and its data (R165). -/
structure Lane where
  strobe : Bool
  data   : Byte
  deriving DecidableEq, Repr

/-- The kind of a transaction (R165). -/
inductive TxnKind where
  | read
  | write
  deriving DecidableEq, Repr

/-- An upstream transaction as an agent issues it (R165). The lanes of a WRITE are the bytes of its beats in address
order, eight to a beat; a READ carries none. -/
structure Txn where
  source : Fin 16
  kind   : TxnKind
  addr   : Word32
  beats  : Nat
  lanes  : List Lane
  deriving DecidableEq, Repr

/-- What the two-wire line answers to one read attempt of the boot block (R202): whether EE_SDA is found held low before
the start condition, whether each of the three bytes the part sends is acknowledged, and the data bytes the EEPROM sends. -/
structure Attempt where
  sdaHeldLow      : Bool
  ackWriteAddress : Bool
  ackWordAddress  : Bool
  ackReadAddress  : Bool
  bytes           : List Byte
  deriving DecidableEq, Repr

/-- The commands: the operations and events of spec/opcode_table.json, each whole and indivisible. Saw operand `k` is saw
S(`k`+1). -/
inductive Instr where
  | deviceReset
  | bootStart
  | bootAttemptEnd (a : Attempt)
  | lugEvent
  | encPulse
  | sawHoldExpiry (k : Fin 11)
  | lampFlashToggle
  | headPresentRise (h : Fin 6)
  | headPresentFall (h : Fin 6)
  | headReadyRise (h : Fin 6)
  | headReadyFall (h : Fin 6)
  | upstreamAccept (t : Txn)
  | apertureWrite
  | planBankWrite
  | sliceWrite
  | sliceFold (h : Fin 6)
  | solveEnd
  | planSelect
  | admitHead (h : Fin 6)
  | release (h : Fin 6)
  | headCommandUnknown (h : Fin 6)
  | ovrProducer
  | overrideEntryTake
  | decConsumer
  | tallyCloseShift
  | tallySnapshot
  | tallyClear
  | tallyRequestRefused
  | notice
  | noticeEnable
  | trapClear
  | lineRestart
  | lugTableRestart
  | headMonitorRestart
  | intakeRestart
  | solverRestart
  | trimRestart
  | arbiterGrantOwn
  | memoryAnswer (ok : Bool)
  | ownTransactionAnswer (ok : Bool)
  | forwardedSideGrant
  deriving DecidableEq, Repr

end Sys2Proof
end

