-- ==== Sys2Proof/Config.lean ====
section
/-! DEFINITION. What the spec leaves open: free values. They have no body, so no proof can see what they are. -/

namespace Sys2Proof

/-- Whether the byte at address `a` of write `i` among those in flight at device reset `n` reaches memory. R180: "An own
write that was in flight may or may not have reached memory" (log 5). Free value. -/
opaque Config.resetLands : (n i a : Nat) → Bool

/-- Whether, at LUG event `n` of those where it shows, the commit at commit_pos is taken before the close timeout at
close_lugs. R6 orders only the late fire and the drop (log 6). Free value. -/
opaque Config.commitBeforeClose : (n : Nat) → Bool

end Sys2Proof
end

