-- ==== Sys2Proof/Machine/State.lean ====
section
/-! DEFINITION. The state of the TG-612 as plain data, block by block (Table 0-2), and the state right after reset. -/

namespace Sys2Proof.Machine

open Sys2Proof

/-- No command of this part stops the machine: the part's errors are notices, traps, answers and FAULT_N, all in State. -/
inductive Fault where
  deriving DecidableEq, Repr

/-- Why a command has no meaning. -/
inductive Refusal where
  /-- Raised by `exec` alone, for a row that has no meaning yet. Safe: it answers nothing. No arm uses it. -/
  | notModelled (mnemonic : String)
  deriving DecidableEq, Repr

/-- The contents of the memory behind the part: (address, byte) cells in the canonical form of `Memory.wf` (log 1). -/
abbrev Memory := List Host.Cell

/-! ### BOOT -/

/-- The condition of the part (R201, R205, R206). -/
inductive Condition where
  | deviceReset
  | booting
  | running
  | passive
  deriving DecidableEq, Repr

/-- The boot loader (R201, R202). -/
structure Boot where
  condition     : Condition
  attemptsEnded : Nat
  image         : List Byte
  deriving DecidableEq, Repr

/-! ### PLAN -/

/-- A plan bank, and likewise a tally bank: A or B. -/
inductive Bank where
  | a
  | b
  deriving DecidableEq, Repr

/-- The other one of the two banks. -/
def Bank.other : Bank → Bank
  | .a => .b
  | .b => .a

/-- A bank's shadow, bytes 0 to 207, and its binding count (R91). -/
structure PlanBank where
  shadow : Vector Byte 208
  count  : Nat
  deriving DecidableEq, Repr

/-- The plan store (R91). -/
structure PlanStore where
  bankA       : PlanBank
  bankB       : PlanBank
  active      : Option Bank
  pendingBank : Option Bank
  deriving DecidableEq, Repr

/-! ### LUG -/

/-- The grades G1 to G6. -/
inductive Grade where
  | g1
  | g2
  | g3
  | g4
  | g5
  | g6
  deriving DecidableEq, Repr

/-- What a segment's class field may hold once given: a segment class, or the working mark UNSCANNED (Table 1-1). -/
inductive SegMark where
  | empty
  | grade (g : Grade)
  | reject
  | unscanned
  deriving DecidableEq, Repr

/-- Board classes (0.5). -/
inductive BoardClass where
  | grade (g : Grade)
  | reman
  | trash
  deriving DecidableEq, Repr

/-- Board states, Table 1-2. -/
inductive BoardState where
  | free
  | scanning
  | queued
  | solving
  | solved
  | committed
  | trimmed
  | void
  deriving DecidableEq, Repr

/-- A segment accumulator (R4). -/
structure Acc where
  ps   : Nat
  ws   : Nat
  dc   : Nat
  mt   : Nat
  sl   : Nat
  prev : BitVec 8
  deriving DecidableEq, Repr

/-- A solution or a decision without its classes and station (R89, R4). `run` is the piece `a` to `b`, absent for REMAN
and TRASH. -/
structure Solution where
  cls         : BoardClass
  run         : Option (Nat × Nat)
  pieceLength : Nat
  value       : Nat
  bf10        : Nat
  saws        : SawSet
  boardLength : Nat
  deriving DecidableEq, Repr

/-- The disposition override's two values (R114). -/
inductive Disposition where
  | reman
  | trash
  deriving DecidableEq, Repr

/-- What one override asks (R114). -/
inductive OverrideWhat where
  | grade (g : Grade)
  | trim (a b : Nat)
  | disposition (d : Disposition)
  deriving DecidableEq, Repr

/-- An override present in a set, with the station of its entry (R114). -/
structure Override where
  what    : OverrideWhat
  station : Byte
  deriving DecidableEq, Repr

/-- The final decision frozen at commit (R4). -/
structure FinalDecision where
  decision : Solution
  classes  : Vector (Option SegMark) 12
  station  : Option Byte
  deriving DecidableEq, Repr

/-- A board's flags, Table 1-1. -/
structure BoardFlags where
  degraded        : Bool
  overridden      : Bool
  unsolved        : Bool
  overrideDropped : Bool
  lateSlices      : Bool
  scanTimeout     : Bool
  headLost        : Bool
  deriving DecidableEq, Repr

/-- A board record, Table 1-1 (R4). `overrides` is in the order the entries were taken, the most recent last (R114);
`station` is the recorded station. -/
structure Board where
  lug       : Word16
  state     : BoardState
  bank      : Option Bank
  expected  : HeadSet
  ended     : HeadSet
  lost      : HeadSet
  bad       : Vector Nat 6
  acc       : Vector Acc 12
  classes   : Vector (Option SegMark) 12
  solution  : Option Solution
  overrides : List Override
  station   : Option Byte
  final     : Option FinalDecision
  flags     : BoardFlags
  deriving DecidableEq, Repr

/-- The lug table (R1, R2, R3) and the geometry the boot loader hands it (R205). -/
structure LugTable where
  current      : Word16
  encCount     : Nat
  slipRef      : Bool
  boards       : Vector Board 32
  closeLugs    : Nat
  commitPos    : Nat
  trimPos      : Nat
  dropPos      : Nat
  countsPerLug : Nat
  deriving DecidableEq, Repr

/-! ### HEAD -/

/-- Head states, Table 2-1. -/
inductive HeadState where
  | absent
  | joining
  | waiting
  | active
  | leaving
  | parked
  deriving DecidableEq, Repr

/-- The answer to the last HEAD_COMMAND (R22). -/
inductive CommandResult where
  | none
  | accepted
  | refused
  deriving DecidableEq, Repr

/-- A head context (R22). -/
structure HeadCtx where
  state        : HeadState
  present      : Bool
  ready        : Bool
  admitPending : Bool
  last         : CommandResult
  badLast      : Nat
  deriving DecidableEq, Repr

/-- The head monitor (R22), heads_fitted (R23) and the common flash cycle (R30). -/
structure HeadMonitor where
  ctx      : Vector HeadCtx 6
  fitted   : HeadSet
  flashLit : Bool
  deriving DecidableEq, Repr

/-! ### ASM -/

/-- A HELD intake slot: the slice's 64 bytes and its arrival mark (R43). -/
structure HeldSlice where
  bytes : List Byte
  mark  : Bool
  deriving DecidableEq, Repr

/-- The scan assembler: each head's HELD slices, oldest first, and its granted credit (R43, R44). -/
structure Assembler where
  held    : Vector (List HeldSlice) 6
  granted : Vector Nat 6
  deriving DecidableEq, Repr

/-! ### SOLV -/

/-- The solve queue and the solve in progress (R66). -/
structure Solver where
  queue   : List Word16
  solving : Option Word16
  deriving DecidableEq, Repr

/-! ### OVR -/

/-- A batch in progress: its end and the index of the entry worked on (R107). -/
structure Batch where
  stop  : Word16
  index : Word16
  deriving DecidableEq, Repr

/-- The override unit (R107). `fetched` is an entry fetched and not yet taken: its bytes, or none where memory answered
ERROR; `statusOut` counts the status byte writes memory has not answered (R110). -/
structure OverrideUnit where
  ringSize  : Nat
  consumer  : Word16
  batch     : Option Batch
  fetched   : Option (Option (List Byte))
  statusOut : Nat
  deriving DecidableEq, Repr

/-! ### TRIM -/

/-- The armed fire (R125). -/
structure ArmedFire where
  lug  : Word16
  saws : SawSet
  deriving DecidableEq, Repr

/-- The trim output unit (R125). A channel is RELEASED (`none`) or HELD with its hold timer in ms. -/
structure TrimUnit where
  armed     : Option ArmedFire
  channels  : Vector (Option Nat) 11
  fireDelay : Nat
  sawHold   : Nat
  deriving DecidableEq, Repr

/-! ### DEC -/

/-- A decision record, Table 7-5 (R134). -/
structure DecRecord where
  lug      : Word16
  decision : Solution
  flags    : BoardFlags
  bank     : Bank
  station  : Option Byte
  classes  : Vector (Option SegMark) 12
  product  : Word16
  deriving DecidableEq, Repr

/-- The record being written and its slot (R136). -/
structure Writing where
  record : DecRecord
  slot   : Nat
  deriving DecidableEq, Repr

/-- The decision writer (R136). `announcing`: a DEC_PRODUCER write it requested is pending (R138). -/
structure DecisionWriter where
  ringSize       : Nat
  producer       : Word16
  consumerShadow : Word16
  list           : List DecRecord
  writing        : Option Writing
  announcing     : Bool
  deriving DecidableEq, Repr

/-! ### TALLY -/

/-- A tally cell (R145). -/
structure TallyCell where
  pieces : Nat
  bf10   : Nat
  deriving DecidableEq, Repr

/-- Tally bank states, Table 8-2. -/
inductive TallyState where
  | empty
  | opened
  | closed
  | full
  deriving DecidableEq, Repr

/-- A tally bank (R144, R145). The cell of class code `c` and length index `i` is cell 12 (`c` - 1) + `i` (R215). -/
structure TallyBank where
  state      : TallyState
  cells      : Vector TallyCell 96
  dropped    : Nat
  overridden : Nat
  degraded   : Nat
  unsolved   : Nat
  deriving DecidableEq, Repr

/-- What the tally needs from a dropped board (R144, R147). -/
structure TallyOffer where
  cls        : BoardClass
  lengthIdx  : Nat
  bf10       : Nat
  overridden : Bool
  degraded   : Bool
  unsolved   : Bool
  deriving DecidableEq, Repr

/-- Request status codes, Table 8-4. -/
inductive RequestStatus where
  | ok
  | refused
  | memoryError
  deriving DecidableEq, Repr

/-- A snapshot's progress: the bank under snapshot, image writes answered, and whether one was answered ERROR (R157). -/
structure Snapshot where
  bank     : Bank
  answered : Nat
  error    : Bool
  deriving DecidableEq, Repr

/-- The request in progress: code and bank field as taken, whether memory has answered the request write, the status once
the work has ended, and the snapshot (R144, R153). -/
structure TallyRequest where
  code          : BitVec 4
  bankField     : BitVec 2
  writeAnswered : Bool
  status        : Option RequestStatus
  snapshot      : Option Snapshot
  deriving DecidableEq, Repr

/-- The tally unit (R144). -/
structure Tally where
  bankA    : TallyBank
  bankB    : TallyBank
  holding  : List TallyOffer
  stranded : Nat
  request  : Option TallyRequest
  deriving DecidableEq, Repr

/-! ### NOTE -/

/-- The notice unit (R197). -/
structure NoticeUnit where
  word   : NoticeSet
  enable : NoticeSet
  deriving DecidableEq, Repr

/-! ### SRC -/

/-- A source context, Table 10-1 (R182). -/
structure SourceCtx where
  trapped   : Bool
  range     : Bool
  shape     : Bool
  ownedWord : Bool
  planBound : Bool
  mark      : Bool
  retries   : Nat
  accepted  : Word16
  deriving DecidableEq, Repr

/-- The source table (R182) and its configuration (R183). `maskCtrl` is the CTRL mask in force. -/
structure SourceTable where
  ctx        : Vector SourceCtx 16
  control    : Fin 16
  headSource : Vector (Fin 16) 6
  maxRetry   : Nat
  maskCtrl   : SourceSet
  maskPlanA  : SourceSet
  maskPlanB  : SourceSet
  maskOvr    : SourceSet
  deriving DecidableEq, Repr

/-! ### PATH -/

/-- Own transactions, Table 9-4. The status words take their data at issue; the others carry what they were requested
with (R173). `decProducer` says whether the decision writer requested it, or boot. -/
inductive OwnTxn where
  | notice
  | lineStatus
  | headStatus (h : Fin 6)
  | sourceStatus (s : Fin 16)
  | tallyStatus
  | noticeEnable (w : NoticeSet)
  | ovrConsumer (v : Word16)
  | decProducer (v : Word16) (byWriter : Bool)
  | tallyCompletion (w : Word32)
  | ovrStatus (slot : Nat) (status : Byte)
  | decRecord (slot : Nat) (bytes : List Byte)
  | imageLine (bank : Bank) (n : Nat) (bytes : List Byte)
  | ovrFetch (slot : Nat)
  deriving DecidableEq, Repr

/-- The responses of 0.7; a COMPLETE of a READ carries its data. -/
inductive Response where
  | complete (data : List Byte)
  | retry
  | refused
  deriving DecidableEq, Repr

/-- A settled response: whether a RETRY is counted against the source (R178, R189), and whether the write was given the
exhaustion outcome (R190). -/
structure Settled where
  response : Response
  counted  : Bool
  givenUp  : Bool
  deriving DecidableEq, Repr

/-- States of an upstream transaction in flight, Table 9-1. HELD counts the own writes to its line, pending at its
presentation, that memory has not yet answered (R175). IN_MEMORY remembers a write given the exhaustion outcome. -/
inductive UpState where
  | behind
  | held (n : Nat)
  | ready
  | inMemory (givenUp : Bool)
  | answered (r : Settled)
  deriving DecidableEq, Repr

/-- An upstream transaction in flight (R165). -/
structure UpTxn where
  txn   : Txn
  state : UpState
  deriving DecidableEq, Repr

/-- A response returned to a source (R166). -/
structure Returned where
  source  : Fin 16
  settled : Settled
  deriving DecidableEq, Repr

/-- Who issued a downstream transaction: a source, with whether the write began an override batch (R108) or carries a tally
request (R153); or a block of the part. -/
inductive Origin where
  | forwarded (source : Fin 16) (startsBatch startsTally : Bool)
  | own (k : OwnTxn)
  deriving DecidableEq, Repr

/-- A transaction on the wire of the downstream port: its kind, the address of its first beat, its beats, and the lanes of
a write (R165, R209). -/
structure Wire where
  kind  : TxnKind
  start : Nat
  beats : Nat
  lanes : List Lane
  deriving DecidableEq, Repr

/-- A downstream transaction memory has not answered (R177). -/
structure Down where
  origin : Origin
  wire   : Wire
  deriving DecidableEq, Repr

/-- The two sides of the downstream port (R176). -/
inductive Side where
  | forwarded
  | own
  deriving DecidableEq, Repr

/-- The aperture bases (R168). -/
structure Bases where
  ctrl  : Nat
  planA : Nat
  planB : Nat
  scan  : Nat
  ovr   : Nat
  dec   : Nat
  tally : Nat
  deriving DecidableEq, Repr

/-- The memory path unit (R165 to R176). `returned` holds the responses returned at the event last taken. -/
structure Path where
  flight      : List UpTxn
  queue       : List OwnTxn
  waiting     : List OwnTxn
  down        : List Down
  lastGranted : Side
  returned    : List Returned
  bases       : Bases
  scanSlots   : Nat
  deriving DecidableEq, Repr

/-! ### Line restart and pins -/

/-- Line restart requests each block has yet to take (R207). -/
structure Restart where
  lug  : Nat
  head : Nat
  asm  : Nat
  solv : Nat
  trim : Nat
  deriving DecidableEq, Repr

/-- The levels of the head inputs HEAD_PRESENT[0..5] and HEAD_READY[0..5] (Table 0-7). -/
structure Pins where
  present : HeadSet
  ready   : HeadSet
  deriving DecidableEq, Repr

/-- The state of the part, the memory behind it and the queue of commands. -/
structure State where
  boot      : Boot
  path      : Path
  src       : SourceTable
  head      : HeadMonitor
  asm       : Assembler
  lug       : LugTable
  solv      : Solver
  plan      : PlanStore
  ovr       : OverrideUnit
  trim      : TrimUnit
  dec       : DecisionWriter
  tally     : Tally
  note      : NoticeUnit
  restart   : Restart
  pins      : Pins
  mem       : Memory
  freeCount : Nat
  pending   : List Instr
  deriving DecidableEq, Repr

/-! ### The reset condition of each block -/

/-- R4: an accumulator's values at opening. -/
def Acc.opening : Acc :=
  { ps := 0, ws := 0, dc := 0, mt := 1023, sl := 0, prev := 0 }

/-- R7: every flag clear. -/
def BoardFlags.clear : BoardFlags :=
  { degraded := false, overridden := false, unsolved := false, overrideDropped := false, lateSlices := false,
    scanTimeout := false, headLost := false }

/-- A blank record for lug `n` in state `st`: the initial values of R7 with no bank and nothing expected. -/
def Board.blank (n : Word16) (st : BoardState) : Board :=
  { lug := n, state := st, bank := none, expected := 0, ended := 0, lost := 0, bad := Vector.replicate 6 0,
    acc := Vector.replicate 12 Acc.opening, classes := Vector.replicate 12 none, solution := none, overrides := [],
    station := none, final := none, flags := BoardFlags.clear }

/-- R21. The geometry is the boot loader's to hand (log 12). -/
def LugTable.reset : LugTable :=
  { current := 0, encCount := 0, slipRef := false, boards := Vector.replicate 32 (Board.blank 0 .free), closeLugs := 0,
    commitPos := 0, trimPos := 0, dropPos := 0, countsPerLug := 0 }

/-- R38: a head context in its reset condition. -/
def HeadCtx.reset : HeadCtx :=
  { state := .absent, present := false, ready := false, admitPending := false, last := .none, badLast := 0 }

/-- R38; the flash cycle's half is kept by a device reset (log 10). -/
def HeadMonitor.reset (flashLit : Bool) : HeadMonitor :=
  { ctx := Vector.replicate 6 HeadCtx.reset, fitted := 0, flashLit := flashLit }

/-- R64. -/
def Assembler.reset : Assembler :=
  { held := Vector.replicate 6 [], granted := Vector.replicate 6 0 }

/-- R66. -/
def Solver.reset : Solver :=
  { queue := [], solving := none }

/-- R105. -/
def PlanBank.reset : PlanBank :=
  { shadow := Vector.replicate 208 0, count := 0 }

/-- R105. -/
def PlanStore.reset : PlanStore :=
  { bankA := PlanBank.reset, bankB := PlanBank.reset, active := none, pendingBank := none }

/-- R124. -/
def OverrideUnit.reset : OverrideUnit :=
  { ringSize := 0, consumer := 0, batch := none, fetched := none, statusOut := 0 }

/-- R133. -/
def TrimUnit.reset : TrimUnit :=
  { armed := none, channels := Vector.replicate 11 none, fireDelay := 0, sawHold := 0 }

/-- R143. -/
def DecisionWriter.reset : DecisionWriter :=
  { ringSize := 0, producer := 0, consumerShadow := 0, list := [], writing := none, announcing := false }

/-- A tally bank in state `st` with every counter zero (R145, R164). -/
def TallyBank.zeroed (st : TallyState) : TallyBank :=
  { state := st, cells := Vector.replicate 96 { pieces := 0, bf10 := 0 }, dropped := 0, overridden := 0, degraded := 0,
    unsolved := 0 }

/-- R164. -/
def Tally.reset : Tally :=
  { bankA := TallyBank.zeroed .opened, bankB := TallyBank.zeroed .empty, holding := [], stranded := 0, request := none }

/-- R199, R200. -/
def NoticeUnit.reset : NoticeUnit :=
  { word := 0, enable := 0 }

/-- R196. -/
def SourceCtx.reset : SourceCtx :=
  { trapped := false, range := false, shape := false, ownedWord := false, planBound := false, mark := false, retries := 0,
    accepted := 0 }

/-- R196. The configuration is the boot loader's to hand (log 12). -/
def SourceTable.reset : SourceTable :=
  { ctx := Vector.replicate 16 SourceCtx.reset, control := 0, headSource := Vector.replicate 6 0, maxRetry := 0,
    maskCtrl := 0, maskPlanA := 0, maskPlanB := 0, maskOvr := 0 }

/-- R180. The bases are the boot loader's to hand (log 12). -/
def Path.reset : Path :=
  { flight := [], queue := [], waiting := [], down := [], lastGranted := .forwarded, returned := [],
    bases := { ctrl := 0, planA := 0, planB := 0, scan := 0, ovr := 0, dec := 0, tally := 0 }, scanSlots := 0 }

/-- No restart request is outstanding (log 17). -/
def Restart.reset : Restart :=
  { lug := 0, head := 0, asm := 0, solv := 0, trim := 0 }

/-- R201: the boot loader while RESET_N is low. -/
def Boot.reset : Boot :=
  { condition := .deviceReset, attemptsEnded := 0, image := [] }

/-- The part held in device reset (R201), memory with nothing listed, and no command waiting. -/
def State.reset : State :=
  { boot := Boot.reset, path := Path.reset, src := SourceTable.reset, head := HeadMonitor.reset false,
    asm := Assembler.reset, lug := LugTable.reset, solv := Solver.reset, plan := PlanStore.reset,
    ovr := OverrideUnit.reset, trim := TrimUnit.reset, dec := DecisionWriter.reset, tally := Tally.reset,
    note := NoticeUnit.reset, restart := Restart.reset, pins := { present := 0, ready := 0 }, mem := [], freeCount := 0,
    pending := [] }

end Sys2Proof.Machine
end

