-- ==== Sys2Proof/Machine/Formats.lean ====
section
/-! DEFINITION. Memory formats (chapter 12): little-endian fields, the codes of each table, the words and records the part
writes, and the fields it reads. -/

namespace Sys2Proof.Machine

open Sys2Proof

/-! ### Little-endian bytes (R208) -/

/-- R208: the number whose bytes these are, the first the least significant. -/
def leNat : List Byte → Nat
  | [] => 0
  | b :: bs => b.toNat + 256 * leNat bs

/-- R208: the `len` least significant bytes of `n`, the least significant first. -/
def leBytes (len n : Nat) : List Byte :=
  (List.range len).map fun i => BitVec.ofNat 8 (n / 256 ^ i)

/-- Byte `i` of a record; a record the part reads always holds it. -/
def byteAt (bs : List Byte) (i : Nat) : Nat :=
  (bs.getD i 0).toNat

/-- The 16-bit field at byte `i`. -/
def halfAt (bs : List Byte) (i : Nat) : Nat :=
  byteAt bs i + 256 * byteAt bs (i + 1)

/-- The 32-bit field at byte `i`. -/
def wordAt (bs : List Byte) (i : Nat) : Nat :=
  halfAt bs i + 65536 * halfAt bs (i + 2)

/-- A field of `width` bits placed at bit `shift` of a word. -/
def place (v width shift : Nat) : Nat :=
  v % 2 ^ width * 2 ^ shift

/-- The field of `width` bits at bit `shift` of a word. -/
def fieldOf (w : Word32) (shift width : Nat) : Nat :=
  w.toNat / 2 ^ shift % 2 ^ width

/-! ### Codes -/

/-- Grade G`k` is held as `k` (0.5). -/
def Grade.code : Grade → Nat
  | .g1 => 1
  | .g2 => 2
  | .g3 => 3
  | .g4 => 4
  | .g5 => 5
  | .g6 => 6

/-- The grade of a code 1 to 6. -/
def gradeOfCode : Nat → Option Grade
  | 1 => some .g1
  | 2 => some .g2
  | 3 => some .g3
  | 4 => some .g4
  | 5 => some .g5
  | 6 => some .g6
  | _ => none

/-- Table 4-2: segment class codes. An absent class and UNSCANNED do not occur in a record (R135). -/
def segCode : Option SegMark → Nat
  | some (.grade g) => g.code
  | some .reject => 7
  | some .empty | some .unscanned | none => 0

/-- Table 4-2: board class codes. -/
def BoardClass.code : BoardClass → Nat
  | .grade g => g.code
  | .reman => 7
  | .trash => 8

/-- A plan bank code: 0 none, 1 A, 2 B (R102). -/
def bankCode : Option Bank → Nat
  | none => 0
  | some .a => 1
  | some .b => 2

/-- A bank field of value 1 names A and 2 names B (R96, Table 8-3). -/
def bankOfField : Nat → Option Bank
  | 1 => some .a
  | 2 => some .b
  | _ => none

/-- The record code of a bank: 0 A, 1 B (Tables 7-5, 12-10). -/
def Bank.recordCode : Bank → Nat
  | .a => 0
  | .b => 1

/-- Table 2-1 codes. -/
def HeadState.code : HeadState → Nat
  | .absent => 0
  | .joining => 1
  | .waiting => 2
  | .active => 3
  | .leaving => 4
  | .parked => 5

/-- Lamp settings (R30). -/
inductive Lamp where
  | off
  | on
  | flash
  deriving DecidableEq, Repr

/-- Table 2-1: the lamp setting of each head state. -/
def HeadState.lamp : HeadState → Lamp
  | .absent => .off
  | .joining => .on
  | .waiting => .flash
  | .active => .off
  | .leaving => .flash
  | .parked => .on

/-- Table 2-2 codes. -/
def Lamp.code : Lamp → Nat
  | .off => 0
  | .on => 1
  | .flash => 2

/-- Table 2-2 codes. -/
def CommandResult.code : CommandResult → Nat
  | .none => 0
  | .accepted => 1
  | .refused => 2

/-- Table 8-2 codes. -/
def TallyState.code : TallyState → Nat
  | .empty => 0
  | .opened => 1
  | .closed => 2
  | .full => 3

/-- Table 8-4 codes. -/
def RequestStatus.code : RequestStatus → Nat
  | .ok => 0
  | .refused => 1
  | .memoryError => 2

/-! ### Words of the control block the part writes (Table 12-4) -/

/-- A plan bank is bound while it is active, pending, or its binding count is greater than 0 (R91). -/
def PlanStore.bound (p : PlanStore) (k : Bank) : Bool :=
  p.active == some k || p.pendingBank == some k ||
    match k with
    | .a => decide (0 < p.bankA.count)
    | .b => decide (0 < p.bankB.count)

/-- R102: 1 for bank A bound, 2 for B, 3 for both. -/
def PlanStore.boundMask (p : PlanStore) : Nat :=
  (p.bound .a).toNat + 2 * (p.bound .b).toNat

/-- LINE_STATUS (R1, R102). -/
def lineStatusWord (s : State) : Nat :=
  place s.lug.current.toNat 16 0 + place (bankCode s.plan.active) 2 16 + place (bankCode s.plan.pendingBank) 2 18 +
    place s.plan.boundMask 2 20

/-- The open bank, or none (R146). -/
def Tally.openBank (t : Tally) : Option Bank :=
  if t.bankA.state = .opened then some .a else if t.bankB.state = .opened then some .b else none

/-- TALLY_STATUS (R161). -/
def tallyStatusWord (t : Tally) : Nat :=
  place t.bankA.state.code 2 0 + place t.bankB.state.code 2 2 + place (bankCode t.openBank) 2 4 +
    place t.request.isSome.toNat 1 6 + place t.stranded 16 16

/-- HEAD_STATUS of a context (R22). -/
def headStatusWord (c : HeadCtx) : Nat :=
  place c.state.code 3 0 + place c.state.lamp.code 2 3 + place c.admitPending.toNat 1 5 + place c.last.code 2 6 +
    place c.badLast 8 8

/-- SOURCE_STATUS of a context (R182). -/
def sourceStatusWord (c : SourceCtx) : Nat :=
  place c.trapped.toNat 1 0 + place c.range.toNat 1 1 + place c.shape.toNat 1 2 + place c.ownedWord.toNat 1 3 +
    place c.planBound.toNat 1 4 + place c.mark.toNat 1 5 + place c.retries 8 8 + place c.accepted.toNat 16 16

/-- A TALLY_REQUEST completion: code and bank as taken, DONE set, the status (R153). -/
def tallyCompletionWord (q : TallyRequest) (st : RequestStatus) : Word32 :=
  BitVec.ofNat 32 (place q.code.toNat 4 0 + place q.bankField.toNat 2 4 + place 1 1 8 + place st.code 3 9)

/-! ### Decision record (Table 12-7) -/

/-- Table 12-7, byte 13. -/
def BoardFlags.byte (f : BoardFlags) : Nat :=
  place f.degraded.toNat 1 0 + place f.overridden.toNat 1 1 + place f.unsolved.toNat 1 2 +
    place f.overrideDropped.toNat 1 3 + place f.lateSlices.toNat 1 4 + place f.scanTimeout.toNat 1 5 +
    place f.headLost.toNat 1 6

/-- R213: the byte that holds the codes of segments 2`j` and 2`j` + 1. -/
def segByte (classes : Vector (Option SegMark) 12) (j : Nat) : Nat :=
  segCode (classes[2 * j]?.getD none) + 16 * segCode (classes[2 * j + 1]?.getD none)

/-- R213: a decision record's 32 bytes. -/
def DecRecord.bytes (r : DecRecord) : List Byte :=
  leBytes 2 r.lug.toNat ++
  [BitVec.ofNat 8 r.decision.cls.code,
   BitVec.ofNat 8 ((r.decision.run.map (·.1)).getD 255),
   BitVec.ofNat 8 ((r.decision.run.map (·.2)).getD 255),
   BitVec.ofNat 8 r.decision.pieceLength] ++
  leBytes 2 r.decision.saws.toNat ++ leBytes 2 r.decision.value ++ leBytes 2 r.decision.bf10 ++
  [BitVec.ofNat 8 r.decision.boardLength, BitVec.ofNat 8 r.flags.byte, BitVec.ofNat 8 r.bank.recordCode,
   r.station.getD 255] ++
  (List.range 6).map (fun j => BitVec.ofNat 8 (segByte r.classes j)) ++
  leBytes 2 r.product.toNat ++ List.replicate 8 0

/-! ### Tally image (Table 12-10, R215) -/

/-- A cell's 8 bytes in the image. -/
def TallyCell.bytes (c : TallyCell) : List Byte :=
  leBytes 3 c.pieces ++ [0] ++ leBytes 4 c.bf10

/-- R215: the 800 bytes of a bank's image. -/
def imageBytes (k : Bank) (b : TallyBank) : List Byte :=
  [BitVec.ofNat 8 k.recordCode, BitVec.ofNat 8 b.state.code, 0, 0] ++
  leBytes 4 b.dropped ++ leBytes 4 b.overridden ++ leBytes 4 b.degraded ++ leBytes 4 b.unsolved ++
  List.replicate 12 0 ++ b.cells.toList.flatMap TallyCell.bytes

/-- R157: the 13 image writes in image order, twelve of 64 bytes and one of 32. -/
def imageLines (k : Bank) (b : TallyBank) : List OwnTxn :=
  (List.range 13).map fun n => .imageLine k n (((imageBytes k b).drop (64 * n)).take 64)

/-! ### Slice (Table 12-5, R211) -/

/-- Byte 0. -/
def sliceKind (bs : List Byte) : Nat := byteAt bs 0

/-- Byte 1. -/
def sliceHead (bs : List Byte) : Nat := byteAt bs 1

/-- Bytes 2 and 3. -/
def sliceLug (bs : List Byte) : Word16 := BitVec.ofNat 16 (halfAt bs 2)

/-- Thickness word `n`, bytes 4 + 2`n` and 5 + 2`n`. -/
def sliceThickness (bs : List Byte) (n : Nat) : Nat := halfAt bs (4 + 2 * n)

/-- Grey byte `n`, byte 36 + `n`. -/
def sliceGrey (bs : List Byte) (n : Nat) : Nat := byteAt bs (36 + n)

/-- The XOR of all bytes of a slice (R51). -/
def xorAll (bs : List Byte) : Byte := bs.foldl (· ^^^ ·) 0

/-! ### Override entry (Table 12-6, R212) -/

/-- An override entry's fields. -/
structure Entry where
  lug     : Word16
  kind    : Nat
  grade   : Nat
  first   : Nat
  last    : Nat
  station : Byte
  deriving DecidableEq, Repr

/-- R212: the fields of a fetched entry. -/
def entryOf (bs : List Byte) : Entry :=
  { lug := BitVec.ofNat 16 (halfAt bs 0), kind := byteAt bs 2, grade := byteAt bs 3, first := byteAt bs 4,
    last := byteAt bs 5, station := bs.getD 6 0 }

/-! ### Plan bank (Tables 12-8, 12-9, R214) -/

/-- A bank's shadow. -/
abbrev Shadow := Vector Byte 208

/-- `x` clamped to `lo` to `hi`. -/
def clamp (lo hi x : Nat) : Nat := max lo (min hi x)

/-- Byte `i` of a shadow. -/
def planByte (p : Shadow) (i : Nat) : Nat := (p[i]?.getD 0).toNat

/-- The 16-bit field at byte `i` of a shadow. -/
def planHalf (p : Shadow) (i : Nat) : Nat := planByte p i + 256 * planByte p (i + 1)

/-- Bytes 0 and 1: product code. -/
def planProduct (p : Shadow) : Word16 := BitVec.ofNat 16 (planHalf p 0)

/-- Nominal thickness in quarter inches, clamped to 4 to 16 (Table 4-1, R86). -/
def planTq (p : Shadow) : Nat := clamp 4 16 (planByte p 2)

/-- Nominal width in inches, clamped to 2 to 12 (Table 4-1, R86). -/
def planWn (p : Shadow) : Nat := clamp 2 12 (planByte p 3)

/-- present_threshold, clamped to 1 to 1022 (Table 3-3). -/
def planPresent (p : Shadow) : Nat := clamp 1 1022 (planHalf p 4)

/-- wane_threshold, clamped to 0 to 1023 (Table 3-3). -/
def planWane (p : Shadow) : Nat := clamp 0 1023 (planHalf p 6)

/-- knot_threshold (Table 3-3). -/
def planKnot (p : Shadow) : Nat := planByte p 8

/-- Mode bit 0, invert. -/
def planInvert (p : Shadow) : Bool := (planByte p 9).testBit 0

/-- Mode bit 1, RUNS. -/
def planRuns (p : Shadow) : Bool := (planByte p 9).testBit 1

/-- Blind class: 1 to 6 give G1 to G6, every other value REJECT (Table 4-1). -/
def planBlind (p : Shadow) : SegMark :=
  match gradeOfCode (planByte p 10) with
  | some g => .grade g
  | none => .reject

/-- max_bad_slices (R63). -/
def planMaxBad (p : Shadow) : Nat := planByte p 11

/-- A grade rule as taken by the solve (R75, Table 4-1). -/
structure GradeRule where
  enabled    : Bool
  minWidth   : Nat
  maxWane    : Nat
  maxDefects : Nat
  minThick   : Nat
  deriving DecidableEq, Repr

/-- Grade rule `k`, bytes 16 + 8 (`k` - 1) on (Table 12-9); min_thick clamped to 0 to 1022. -/
def planRule (p : Shadow) (g : Grade) : GradeRule :=
  let at0 := 16 + 8 * (g.code - 1)
  { enabled := planByte p at0 != 0, minWidth := planByte p (at0 + 1), maxWane := planHalf p (at0 + 2),
    maxDefects := planHalf p (at0 + 4), minThick := clamp 0 1022 (planHalf p (at0 + 6)) }

/-- price[G`g`][`i`], two bytes at 64 + 24 (`g` - 1) + 2 `i`. -/
def planPrice (p : Shadow) (g : Grade) (i : Nat) : Nat := planHalf p (64 + 24 * (g.code - 1) + 2 * i)

end Sys2Proof.Machine
end

