-- ==== Sys2Proof/Machine/Flags.lean ====
section
/-! DEFINITION. The notices of Table 11-1 and the outputs of the part that are functions of its state. -/

namespace Sys2Proof.Machine

open Sys2Proof

/-- The notices, Table 11-1, in the order of their bits. -/
inductive Notice where
  | headWaiting
  | headLeaving
  | headLost
  | sourceTrapped
  | sliceCheck
  | sliceDiscarded
  | scanTimeout
  | solveQueueFull
  | unsolvedAtCommit
  | overrideRingFault
  | overridesDone
  | decisionOverrun
  | tallyRequestDone
  | tallyFull
  | tallyStranded
  | encoderSlip
  | memoryError
  | planSwitched
  deriving DecidableEq, Repr

/-- Table 11-1: the notice's bit. -/
def Notice.bit : Notice → Nat
  | .headWaiting => 0
  | .headLeaving => 1
  | .headLost => 2
  | .sourceTrapped => 3
  | .sliceCheck => 4
  | .sliceDiscarded => 5
  | .scanTimeout => 6
  | .solveQueueFull => 7
  | .unsolvedAtCommit => 8
  | .overrideRingFault => 9
  | .overridesDone => 10
  | .decisionOverrun => 11
  | .tallyRequestDone => 12
  | .tallyFull => 13
  | .tallyStranded => 14
  | .encoderSlip => 15
  | .memoryError => 16
  | .planSwitched => 17

/-- The set of one notice. -/
def Notice.mask (n : Notice) : NoticeSet := 1#18 <<< n.bit

/-- The notice is in the word (R197). -/
def NoticeUnit.has (u : NoticeUnit) (n : Notice) : Bool := u.word.getLsbD n.bit

/-- NOTICE_N is asserted, driven low, while the notice word and the enable have a notice in common (R200). -/
def State.noticeAsserted (s : State) : Bool := s.note.word &&& s.note.enable != 0

/-- FAULT_N is asserted from the event at which boot fails until the next device reset (R200, R206). -/
def State.faultAsserted (s : State) : Bool := s.boot.condition == .passive

/-- SAW[`k`+1] drives its saw while the channel is HELD (R125). -/
def State.sawDriven (s : State) (k : Fin 11) : Bool := s.trim.channels[k].isSome

/-- HEAD_LAMP[`h`]: dark for OFF, lit for ON, lit in the lit half of the common cycle for FLASH; all dark but in RUNNING,
and dark for an unfitted head (R30). -/
def State.lampLit (s : State) (h : Fin 6) : Bool :=
  s.boot.condition == .running && s.head.fitted.getLsbD h &&
    match s.head.ctx[h].state.lamp with
    | .off => false
    | .on => true
    | .flash => s.head.flashLit

end Sys2Proof.Machine
end

