-- ==== Sys2Proof/Machine/Ops.lean ====
section
/-! DEFINITION. The shared operations: the memory behind the part, the event in progress and what it raises and requests,
the own-write queue, the holds, the order of presentation and of responses, and the lookups of the lug table. -/

namespace Sys2Proof.Machine

open Sys2Proof

/-- What `exec` and `step` answer. -/
abbrev Result := Host.Outcome State Fault Refusal

/-! ### The memory behind the part (log 1) -/

/-- What a byte that nothing has written reads as. DESIGN CHOICE (log 1): the spec gives the memory no contents. Unsafe. -/
def Memory.unlisted : Byte := 0

/-- The byte at address `a`. -/
def Memory.read : Memory → Nat → Byte
  | [], _ => Memory.unlisted
  | (k, b) :: m, a => if a = k then b else Memory.read m a

/-- Byte `b` written at address `a`, keeping the canonical form. -/
def Memory.write : Memory → Nat → Byte → Memory
  | [], a, b => if b = Memory.unlisted then [] else [(a, b)]
  | (k, c) :: m, a, b =>
    if a < k then
      if b = Memory.unlisted then (k, c) :: m else (a, b) :: (k, c) :: m
    else if a = k then
      if b = Memory.unlisted then m else (a, b) :: m
    else (k, c) :: Memory.write m a b

/-- The canonical form: addresses strictly rising, and no byte equal to what an unlisted address reads as. -/
def Memory.wf : Memory → Bool
  | [] => true
  | [(_, b)] => decide (b ≠ Memory.unlisted)
  | (k, b) :: (k', b') :: m => decide (k < k') && decide (b ≠ Memory.unlisted) && Memory.wf ((k', b') :: m)

/-- The strobed lanes written from address `a` on. -/
def Memory.writeLanes (m : Memory) (a : Nat) : List Lane → Memory
  | [] => m
  | l :: ls => Memory.writeLanes (if l.strobe then m.write a l.data else m) (a + 1) ls

/-- `n` bytes from address `a` on. -/
def Memory.bytes (m : Memory) (a n : Nat) : List Byte :=
  (List.range n).map fun i => m.read (a + i)

/-- What memory does with a transaction it answers OK (R166): a write is placed, a read leaves it as it is. -/
def Memory.apply (m : Memory) (w : Wire) : Memory :=
  match w.kind with
  | .read => m
  | .write => m.writeLanes w.start w.lanes

/-! ### The event in progress -/

/-- An event in progress: the state as it stands, the own transactions requested so far, and the responses returned. -/
structure Ev where
  st       : State
  asked    : List OwnTxn
  returned : List Returned
  deriving DecidableEq, Repr

/-- The event begins at state `s`. -/
def Ev.start (s : State) : Ev := { st := s, asked := [], returned := [] }

/-- A change of the state inside the event. -/
def Ev.modify (e : Ev) (f : State → State) : Ev := { e with st := f e.st }

/-- A block requests an own transaction (R172). -/
def Ev.ask (e : Ev) (k : OwnTxn) : Ev := { e with asked := e.asked ++ [k] }

/-- R197: the notice joins the notice word, and an own write of NOTICE is requested. -/
def Ev.raise (e : Ev) (n : Notice) : Ev :=
  (e.modify fun s => { s with note := { s.note with word := s.note.word ||| n.mask } }).ask .notice

/-! ### Own transactions (R172, R173, Table 9-4) -/

/-- The status words of Table 9-4, whose data is taken at issue. -/
def OwnTxn.isStatusWord : OwnTxn → Bool
  | .notice | .lineStatus | .headStatus _ | .sourceStatus _ | .tallyStatus => true
  | .noticeEnable _ | .ovrConsumer _ | .decProducer _ _ | .tallyCompletion _ => false
  | .ovrStatus _ _ | .decRecord _ _ | .imageLine _ _ _ | .ovrFetch _ => false

/-- A SOURCE_STATUS write (R194). -/
def OwnTxn.isSourceStatus : OwnTxn → Bool
  | .sourceStatus _ => true
  | .notice | .lineStatus | .headStatus _ | .tallyStatus | .noticeEnable _ | .ovrConsumer _ => false
  | .decProducer _ _ | .tallyCompletion _ | .ovrStatus _ _ | .decRecord _ _ | .imageLine _ _ _ | .ovrFetch _ => false

/-- Own reads hold nothing (R175); every other own transaction is a write. -/
def OwnTxn.isWrite : OwnTxn → Bool
  | .ovrFetch _ => false
  | .notice | .lineStatus | .headStatus _ | .sourceStatus _ | .tallyStatus | .noticeEnable _ | .ovrConsumer _ => true
  | .decProducer _ _ | .tallyCompletion _ | .ovrStatus _ _ | .decRecord _ _ | .imageLine _ _ _ => true

/-- R172: the rank of a request among those of one event, by the rows of Table 9-4 and then by its word, slot or line. -/
def OwnTxn.rank : OwnTxn → Nat
  | .notice => 0
  | .lineStatus => 65536
  | .headStatus h => 2 * 65536 + h.val
  | .sourceStatus s => 3 * 65536 + s.val
  | .tallyStatus => 4 * 65536
  | .noticeEnable _ => 5 * 65536
  | .ovrConsumer _ => 6 * 65536
  | .decProducer _ _ => 7 * 65536
  | .tallyCompletion _ => 8 * 65536
  | .ovrStatus slot _ => 9 * 65536 + slot
  | .decRecord slot _ => 10 * 65536 + slot
  | .imageLine _ n _ => 11 * 65536 + n
  | .ovrFetch slot => 12 * 65536 + slot

/-- `k` put behind every request of its rank or a lower one. -/
def insertByRank (k : OwnTxn) : List OwnTxn → List OwnTxn
  | [] => [k]
  | j :: js => if k.rank < j.rank then k :: j :: js else j :: insertByRank k js

/-- The requests of one event in the order of R172. -/
def rankRequests : List OwnTxn → List OwnTxn → List OwnTxn
  | sorted, [] => sorted
  | sorted, k :: ks => rankRequests (insertByRank k sorted) ks

/-- One event requests one write of a status word, however often it changes it (R22, R161, R194, R197; log 7). -/
def oncePerWord : List OwnTxn → List OwnTxn
  | [] => []
  | k :: ks => if k.isStatusWord && decide (k ∈ ks) then oncePerWord ks else k :: oncePerWord ks

/-- R172: request `k` is for the same thing as the waiting request `j` and renews it: one status word, or OVR_CONSUMER, or the
completion of a tally request. -/
def OwnTxn.renews (k j : OwnTxn) : Bool :=
  match k, j with
  | .ovrConsumer _, .ovrConsumer _ => true
  | .tallyCompletion _, .tallyCompletion _ => true
  | _, _ => k.isStatusWord && decide (j = k)

/-- R172: a request enters the queue while it holds fewer than 16, and waits otherwise. At most one request waits for each
thing a block writes: a status word already waiting adds no second request, and a waiting OVR_CONSUMER or completion write
keeps its place and carries the newer value. That the newer value is the one carried, for these two as for a status word,
is a DESIGN CHOICE (log 23). A SOURCE_STATUS word already queued adds no second request (R194). -/
def Path.request (p : Path) (k : OwnTxn) : Path :=
  if p.waiting.any k.renews then { p with waiting := p.waiting.map fun j => if k.renews j then k else j }
  else if k.isSourceStatus && decide (k ∈ p.queue) then p
  else if p.queue.length < 16 then { p with queue := p.queue ++ [k] }
  else { p with waiting := p.waiting ++ [k] }

/-- Requests made in the order given. -/
def Path.requestAll (p : Path) : List OwnTxn → Path
  | [] => p
  | k :: ks => (p.request k).requestAll ks

/-- Table 12-3, 12-2: the first byte an own transaction covers. -/
def ownStart (s : State) : OwnTxn → Nat
  | .notice => s.path.bases.ctrl
  | .noticeEnable _ => s.path.bases.ctrl + 0x04
  | .lineStatus => s.path.bases.ctrl + 0x0C
  | .tallyCompletion _ => s.path.bases.ctrl + 0x10
  | .tallyStatus => s.path.bases.ctrl + 0x14
  | .ovrConsumer _ => s.path.bases.ctrl + 0x20
  | .decProducer _ _ => s.path.bases.ctrl + 0x24
  | .headStatus h => s.path.bases.ctrl + 0x60 + 4 * h.val
  | .sourceStatus i => s.path.bases.ctrl + 0x80 + 4 * i.val
  | .ovrStatus slot _ => s.path.bases.ovr + 8 * slot + 7
  | .decRecord slot _ => s.path.bases.dec + 32 * slot
  | .imageLine k n _ => s.path.bases.tally + 1024 * k.recordCode + 64 * n
  | .ovrFetch slot => s.path.bases.ovr + 8 * slot

/-- R173, R209: the bytes an own write carries, a status word's taken from the state at issue. -/
def ownBytes (s : State) : OwnTxn → List Byte
  | .notice => leBytes 4 s.note.word.toNat
  | .noticeEnable w => leBytes 4 w.toNat
  | .lineStatus => leBytes 4 (lineStatusWord s)
  | .tallyCompletion w => leBytes 4 w.toNat
  | .tallyStatus => leBytes 4 (tallyStatusWord s.tally)
  | .ovrConsumer v => leBytes 4 v.toNat
  | .decProducer v _ => leBytes 4 v.toNat
  | .headStatus h => leBytes 4 (headStatusWord s.head.ctx[h])
  | .sourceStatus i => leBytes 4 (sourceStatusWord s.src.ctx[i])
  | .ovrStatus _ st => [st]
  | .decRecord _ bs => bs
  | .imageLine _ _ bs => bs
  | .ovrFetch _ => []

/-- The lanes of `bs` placed at address `a` inside the beats that hold it, with the strobes of those bytes alone (R209). -/
def strobedLanes (a : Nat) (bs : List Byte) : List Lane :=
  List.replicate (a % 8) { strobe := false, data := 0 } ++ bs.map (fun b => { strobe := true, data := b }) ++
    List.replicate ((8 - (a + bs.length) % 8) % 8) { strobe := false, data := 0 }

/-- An own transaction as it is issued downstream: its beats cover its bytes and no others are strobed (R173, R209). -/
def ownWire (s : State) (k : OwnTxn) : Wire :=
  if k.isWrite then
    let lanes := strobedLanes (ownStart s k) (ownBytes s k)
    { kind := .write, start := ownStart s k / 8 * 8, beats := lanes.length / 8, lanes := lanes }
  else { kind := .read, start := ownStart s k / 8 * 8, beats := 1, lanes := [] }

/-- The 64-byte line of an address. -/
def lineOf (a : Nat) : Nat := a / 64

/-- The own writes pending, oldest first: in flight, queued, waiting (R172). A waiting one holds as R175 says. R160 lets a read
of an image line "not yet queued" return the earlier snapshot's data; that a line still waiting holds the read all the same
is a DESIGN CHOICE (log 29). -/
def pendingOwn (p : Path) : List OwnTxn :=
  (p.down.filterMap fun d =>
    match d.origin with
    | .own k => some k
    | .forwarded _ _ _ => none) ++ p.queue ++ p.waiting

/-- How many own writes to a 64-byte line are pending, those waiting among them (R175; log 29). -/
def holdsOn (s : State) (line : Nat) : Nat :=
  (pendingOwn s.path).countP fun k => k.isWrite && decide (lineOf (ownStart s k) = line)

/-! ### Upstream transactions (R165, R166, R175) -/

/-- R165: the first beat is at the address rounded down to a multiple of 8. -/
def txnStart (t : Txn) : Nat := t.addr.toNat / 8 * 8

/-- R165: the beats would cross a 64-byte line boundary. -/
def crossesLine (t : Txn) : Bool := decide (64 < txnStart t % 64 + 8 * t.beats)

/-- R175: a transaction presented while its line has pending own writes is held behind them, and is READY otherwise. -/
def presented (s : State) (t : Txn) : UpState :=
  match holdsOn s (lineOf (txnStart t)) with
  | 0 => .ready
  | n + 1 => .held (n + 1)

/-- R166: a transaction BEHIND is presented once its source has no earlier one BEHIND, HELD or READY. `blocked` are the
sources with such an earlier transaction. -/
def presentFrom (s : State) : List (Fin 16) → List UpTxn → List UpTxn
  | _, [] => []
  | blocked, u :: us =>
    match u.state with
    | .behind =>
      if u.txn.source ∈ blocked then u :: presentFrom s blocked us
      else { u with state := presented s u.txn } :: presentFrom s (u.txn.source :: blocked) us
    | .held _ | .ready => u :: presentFrom s (u.txn.source :: blocked) us
    | .inMemory _ | .answered _ => u :: presentFrom s blocked us

/-- R166: settled responses whose source has no earlier transaction without one. The transactions that stay in flight, and
the responses returned. `blocked` are the sources with an earlier transaction still in flight. -/
def returnFrom : List (Fin 16) → List UpTxn → List UpTxn × List Returned
  | _, [] => ([], [])
  | blocked, u :: us =>
    match u.state with
    | .answered r =>
      if u.txn.source ∈ blocked then
        let (kept, out) := returnFrom blocked us
        (u :: kept, out)
      else
        let (kept, out) := returnFrom blocked us
        (kept, { source := u.txn.source, settled := r } :: out)
    | .behind | .held _ | .ready | .inMemory _ =>
      let (kept, out) := returnFrom (u.txn.source :: blocked) us
      (u :: kept, out)

/-- The first transaction in flight that meets `p`, changed by `f`. -/
def changeFirst (p : UpTxn → Bool) (f : UpTxn → UpTxn) : List UpTxn → List UpTxn
  | [] => []
  | u :: us => if p u then f u :: us else u :: changeFirst p f us

/-- The transaction is READY. -/
def UpTxn.isReady (u : UpTxn) : Bool := u.state == .ready

/-- The transaction is of source `i` and IN_MEMORY. -/
def UpTxn.isInMemoryOf (i : Fin 16) (u : UpTxn) : Bool :=
  decide (u.txn.source = i) &&
    match u.state with
    | .inMemory _ => true
    | .behind | .held _ | .ready | .answered _ => false

/-- R175: memory has answered an own write to `line`. -/
def releaseHold (line : Nat) (u : UpTxn) : UpTxn :=
  if lineOf (txnStart u.txn) = line then
    match u.state with
    | .held n => { u with state := if n ≤ 1 then .ready else .held (n - 1) }
    | .behind | .ready | .inMemory _ | .answered _ => u
  else u

/-! ### Contexts whose changes are shown in a status word -/

/-- The fields of a head context that HEAD_STATUS shows: all but the two line levels (R22). -/
def HeadCtx.shown (c : HeadCtx) : HeadState × Bool × CommandResult × Nat :=
  (c.state, c.admitPending, c.last, c.badLast)

/-- R22: a change of head `h`'s context; a HEAD_STATUS write is requested when a shown field changes. -/
def Ev.changeHead (e : Ev) (h : Fin 6) (f : HeadCtx → HeadCtx) : Ev :=
  let c := e.st.head.ctx[h]
  let e1 := e.modify fun s => { s with head := { s.head with ctx := s.head.ctx.set h (f c) } }
  if (f c).shown = c.shown then e1 else e1.ask (.headStatus h)

/-- R194: a change of source `i`'s context; a SOURCE_STATUS write is requested when a field changes. -/
def Ev.changeSource (e : Ev) (i : Fin 16) (f : SourceCtx → SourceCtx) : Ev :=
  let c := e.st.src.ctx[i]
  let e1 := e.modify fun s => { s with src := { s.src with ctx := s.src.ctx.set i (f c) } }
  if f c = c then e1 else e1.ask (.sourceStatus i)

/-- The fields of the tally unit that TALLY_STATUS shows (R161); the open bank follows from the bank states. -/
def Tally.shown (t : Tally) : TallyState × TallyState × Bool × Nat :=
  (t.bankA.state, t.bankB.state, t.request.isSome, t.stranded)

/-- R161: a change of the tally unit; a TALLY_STATUS write is requested when a shown field changes. -/
def Ev.changeTally (e : Ev) (f : Tally → Tally) : Ev :=
  let e1 := e.modify fun s => { s with tally := f s.tally }
  if (f e.st.tally).shown = e.st.tally.shown then e1 else e1.ask .tallyStatus

/-! ### Returning responses (R166, R189) -/

/-- R189, R190: what a returned response makes of its source's retry count. -/
def SourceCtx.countResponse (c : SourceCtx) (r : Settled) : SourceCtx :=
  if r.givenUp then { c with retries := 0 }
  else
    match r.response with
    | .complete _ => { c with retries := 0 }
    | .retry => if r.counted then { c with retries := min 255 (c.retries + 1) } else c
    | .refused => c

/-- Each response in turn is reported to the source table (R167). -/
def Ev.countAll (e : Ev) : List Returned → Ev
  | [] => e
  | r :: rs => (e.changeSource r.source fun c => c.countResponse r.settled).countAll rs

/-- R166: the responses that can be returned are, in the order their sources issued the transactions. -/
def Ev.returnResponses (e : Ev) : Ev :=
  let out := returnFrom [] e.st.path.flight
  let e1 := e.modify fun s => { s with path := { s.path with flight := out.1 } }
  { e1.countAll out.2 with returned := e.returned ++ out.2 }

/-! ### The end of an event -/

/-- The event's requests are made in the order of R172, and the upstream port shows the responses returned. -/
def Ev.finish (e : Ev) : State :=
  { e.st with path :=
      { e.st.path.requestAll (oncePerWord (rankRequests [] e.asked)) with returned := e.returned } }

/-- The end of an event of the memory path: once its own requests are made, the transactions it freed are presented (R166:
the own writes a forwarded write causes have been requested when the next transaction is tested). -/
def Ev.finishPath (e : Ev) : State :=
  let s := e.finish
  { s with path := { s.path with flight := presentFrom s [] s.path.flight } }

/-! ### Lookups of the lug table (R3, R6) -/

/-- R3: the slot of a lug number. -/
def slotOf (n : Word16) : Fin 32 := ⟨n.toNat % 32, Nat.mod_lt _ (by decide)⟩

/-- R3: the lookup of lug `n`. -/
def State.lookup (s : State) (n : Word16) : Option (Fin 32) :=
  if s.lug.boards[slotOf n].state ≠ .free ∧ s.lug.boards[slotOf n].lug = n then some (slotOf n) else none

/-- The record at lug position `p`, if a live board is there (R6). -/
def State.boardAt (s : State) (p : Nat) : Option (Fin 32) :=
  s.lookup (s.lug.current - BitVec.ofNat 16 p)

/-- A board record put in its slot. -/
def State.setBoard (s : State) (i : Fin 32) (b : Board) : State :=
  { s with lug := { s.lug with boards := s.lug.boards.set i b } }

/-- A board record changed inside the event. -/
def Ev.changeBoard (e : Ev) (i : Fin 32) (f : Board → Board) : Ev :=
  e.modify fun s => s.setBoard i (f s.lug.boards[i])

/-- Every head. -/
def allHeads : List (Fin 6) := List.finRange 6

/-- Every segment. -/
def allSegments : List (Fin 12) := List.finRange 12

/-- Head `h` covers segments 2`h` and 2`h` + 1 (0.4). -/
def headOfSegment (j : Fin 12) : Fin 6 := ⟨j.val / 2, by omega⟩

/-- The set of one head. -/
def headBit (h : Fin 6) : HeadSet := 1#6 <<< h.val

/-! ### Plan banks -/

/-- A bank of the plan store. -/
def PlanStore.bank (p : PlanStore) : Bank → PlanBank
  | .a => p.bankA
  | .b => p.bankB

/-- A bank of the plan store replaced. -/
def PlanStore.setBank (p : PlanStore) (k : Bank) (v : PlanBank) : PlanStore :=
  match k with
  | .a => { p with bankA := v }
  | .b => { p with bankB := v }

/-- The shadow a board is graded with: its bank's (R19, R103). A record without a bank is never graded; it would read as a
bank of zeros. -/
def State.shadowOf (s : State) (k : Option Bank) : Shadow :=
  match k with
  | some k => (s.plan.bank k).shadow
  | none => PlanBank.reset.shadow

/-- R99: one record more, or one fewer, holds the bank. -/
def PlanStore.bind (p : PlanStore) (k : Bank) : PlanStore :=
  p.setBank k { p.bank k with count := (p.bank k).count + 1 }

/-- R99: a record that holds the bank, if any, is freed. -/
def PlanStore.unbind (p : PlanStore) (k : Option Bank) : PlanStore :=
  match k with
  | some k => p.setBank k { p.bank k with count := (p.bank k).count - 1 }
  | none => p

/-! ### Outcomes -/

/-- The command's event has been taken. -/
def Ev.done (e : Ev) : Result := .next e.finish

/-- The command's event, an event of the memory path, has been taken. -/
def Ev.donePath (e : Ev) : Result := .next e.finishPath

/-- The command's event does not arise in this state, or is not taken: nothing changes (log 2). -/
def notTaken (s : State) : Result := .next s

/-- The part is RUNNING. -/
def State.running (s : State) : Bool := s.boot.condition == .running

end Sys2Proof.Machine
end

