-- ==== Sys2Proof/Machine/Grading.lean ====
section
/-! DEFINITION. The arithmetic of the solve (chapter 4): segment classes, the trim search, the saw pattern, board measure,
and the unsolved solution (R12). -/

namespace Sys2Proof.Machine

open Sys2Proof

/-! ### Segment classes -/

/-- R74: wane per-mille. -/
def Acc.wanePerMille (a : Acc) : Nat := a.ws * 1000 / a.ps

/-- R75: the accumulator of a scanned segment with PS > 0 meets a rule. -/
def meetsRule (a : Acc) (r : GradeRule) : Bool :=
  r.enabled && decide (a.wanePerMille ≤ r.maxWane) && decide (a.dc ≤ r.maxDefects) && decide (r.minThick ≤ a.mt) &&
    decide (r.minWidth ≤ a.sl)

/-- The grades, best first. -/
def grades : List Grade := [.g1, .g2, .g3, .g4, .g5, .g6]

/-- R74, R76: the class of a scanned segment. -/
def classify (p : Shadow) (a : Acc) : SegMark :=
  if a.ps = 0 then .empty
  else
    match grades.find? fun g => meetsRule a (planRule p g) with
    | some g => .grade g
    | none => .reject

/-- Segment `i` is scanned and has PS > 0. A scanned segment's class is absent until the solve (R10). -/
def seenAt (marks : Vector (Option SegMark) 12) (acc : Vector Acc 12) (i : Fin 12) : Bool :=
  marks[i] == none && decide (0 < acc[i].ps)

/-- R77: some scanned segment of index greater than `j` has PS > 0. -/
def seenBeyond (marks : Vector (Option SegMark) 12) (acc : Vector Acc 12) (j : Fin 12) : Bool :=
  allSegments.any fun i => decide (j < i) && seenAt marks acc i

/-- R73, R77: the classes, given how a scanned segment is classed and what stands for a blind one. -/
def resolveClasses (scanned : Acc → SegMark) (blind : SegMark) (marks : Vector (Option SegMark) 12)
    (acc : Vector Acc 12) : Vector (Option SegMark) 12 :=
  Vector.ofFn fun j =>
    match marks[j] with
    | none => some (scanned acc[j])
    | some .unscanned => some (if seenBeyond marks acc j then blind else .empty)
    | some m => some m

/-- R73 to R77: the classes a solve gives. -/
def solveClasses (p : Shadow) (marks : Vector (Option SegMark) 12) (acc : Vector Acc 12) :
    Vector (Option SegMark) 12 :=
  resolveClasses (classify p) (planBlind p) marks acc

/-- R78: at least one UNSCANNED segment is given a blind class. -/
def degradedBy (marks : Vector (Option SegMark) 12) (acc : Vector Acc 12) : Bool :=
  allSegments.any fun j => marks[j] == some .unscanned && seenBeyond marks acc j

/-! ### Runs and material -/

/-- A material segment: its class is not EMPTY (0.5). -/
def isMaterial : Option SegMark → Bool
  | some .empty | none => false
  | some (.grade _) | some .reject | some .unscanned => true

/-- The class of segment `i`. -/
def classAt (classes : Vector (Option SegMark) 12) (i : Nat) : Option SegMark := classes[i]?.getD none

/-- The segments of a run. -/
def runSegments (a b : Nat) : List Nat := (List.range (b + 1 - a)).map (a + ·)

/-- Segment `i` has a graded class. -/
def isGraded (classes : Vector (Option SegMark) 12) (i : Nat) : Bool :=
  match classAt classes i with
  | some (.grade _) => true
  | some .empty | some .reject | some .unscanned | none => false

/-- R80: the run is valid. -/
def validRun (classes : Vector (Option SegMark) 12) (r : Nat × Nat) : Bool :=
  decide (r.1 ≤ r.2) && decide (r.2 ≤ 11) && (runSegments r.1 r.2).all (isGraded classes)

/-- The code of segment `i` if it is graded, and 0 otherwise. -/
def gradedCode (classes : Vector (Option SegMark) 12) (i : Nat) : Nat :=
  match classAt classes i with
  | some (.grade g) => g.code
  | some .empty | some .reject | some .unscanned | none => 0

/-- R80: the worst grade among the segments of a run, the grade of greatest code; none when no segment is graded. -/
def runGrade (classes : Vector (Option SegMark) 12) (r : Nat × Nat) : Option Grade :=
  gradeOfCode ((runSegments r.1 r.2).foldl (fun m i => max m (gradedCode classes i)) 0)

/-- R80: the 78 pairs. -/
def allRuns : List (Nat × Nat) :=
  (List.range 12).flatMap fun a => (List.range (12 - a)).map fun d => (a, a + d)

/-- R81: the value of a valid run, and 0 for a run that is not valid. -/
def runValue (p : Shadow) (classes : Vector (Option SegMark) 12) (r : Nat × Nat) : Nat :=
  if validRun classes r then
    match runGrade classes r with
    | some g => planPrice p g (r.2 - r.1)
    | none => 0
  else 0

/-- R82: candidate `r` goes before candidate `q`: greater value, then greater length, then smaller `a`. -/
def better (p : Shadow) (classes : Vector (Option SegMark) 12) (r q : Nat × Nat) : Bool :=
  let v := runValue p classes r
  let w := runValue p classes q
  decide (w < v) || (v == w && (decide (q.2 - q.1 < r.2 - r.1) || (r.2 - r.1 == q.2 - q.1 && decide (r.1 < q.1))))

/-- R81, R82: the best of the candidates met so far and run `r`. -/
def pick (p : Shadow) (classes : Vector (Option SegMark) 12) (best : Option (Nat × Nat)) (r : Nat × Nat) :
    Option (Nat × Nat) :=
  if runValue p classes r = 0 then best
  else
    match best with
    | none => some r
    | some q => if better p classes r q then some r else some q

/-- R82: the solution's piece, if there is a candidate. -/
def bestRun (p : Shadow) (classes : Vector (Option SegMark) 12) : Option (Nat × Nat) :=
  allRuns.foldl (pick p classes) none

/-! ### Saw pattern and board measure -/

/-- The saws S`k`, `k` = 1 to 11, that meet `f`. -/
def sawsWhere (f : Nat → Bool) : SawSet :=
  (List.range 11).foldl (fun acc i => if f (i + 1) then acc ||| (1#11 <<< i) else acc) 0

/-- Segments `k` - 1 and `k` are both material. -/
def materialBothSides (classes : Vector (Option SegMark) 12) (k : Nat) : Bool :=
  isMaterial (classAt classes (k - 1)) && isMaterial (classAt classes k)

/-- R84: the saw pattern of a board with a piece. -/
def pieceSaws (classes : Vector (Option SegMark) 12) (r : Nat × Nat) : SawSet :=
  sawsWhere fun k => !(decide (r.1 < k) && decide (k ≤ r.2)) && materialBothSides classes k

/-- R85: the saw pattern of a TRASH board. -/
def trashSaws (classes : Vector (Option SegMark) 12) : SawSet :=
  sawsWhere (materialBothSides classes)

/-- R87: board measure in tenths of a board-foot. -/
def bf10 (p : Shadow) (len : Nat) : Nat := (planTq p * planWn p * len * 10 + 24) / 48

/-- R88: 2 x (index of the last material segment + 1) ft. -/
def boardLength (classes : Vector (Option SegMark) 12) : Nat :=
  (List.range 12).foldl (fun m i => if isMaterial (classAt classes i) then 2 * (i + 1) else m) 0

/-! ### Solutions -/

/-- R82, R90: the solution or decision with class `g` and piece `r`. -/
def pieceSolution (p : Shadow) (classes : Vector (Option SegMark) 12) (g : Grade) (r : Nat × Nat) : Solution :=
  { cls := .grade g, run := some r, pieceLength := 2 * (r.2 - r.1 + 1), value := planPrice p g (r.2 - r.1),
    bf10 := bf10 p (2 * (r.2 - r.1 + 1)), saws := pieceSaws classes r, boardLength := boardLength classes }

/-- R85, R88: the solution or decision of a board sent whole to remanufacture or cut up. -/
def wholeSolution (p : Shadow) (classes : Vector (Option SegMark) 12) (d : Disposition) : Solution :=
  { cls := match d with
      | .reman => .reman
      | .trash => .trash,
    run := none, pieceLength := 0, value := 0, bf10 := bf10 p (boardLength classes),
    saws := match d with
      | .reman => 0
      | .trash => trashSaws classes,
    boardLength := boardLength classes }

/-- R80 to R83, R89: the solution of a solve. -/
def solveSolution (p : Shadow) (classes : Vector (Option SegMark) 12) : Solution :=
  match bestRun p classes with
  | some r =>
    match runGrade classes r with
    | some g => pieceSolution p classes g r
    | none => wholeSolution p classes .trash
  | none => wholeSolution p classes .trash

/-- R12: the classes of the unsolved solution. -/
def unsolvedClasses (marks : Vector (Option SegMark) 12) (acc : Vector Acc 12) : Vector (Option SegMark) 12 :=
  resolveClasses (fun a => if a.ps = 0 then .empty else .reject) .reject marks acc

/-- R11, R12, R15: the board with the unsolved solution and the flag UNSOLVED. -/
def Board.giveUnsolved (b : Board) (p : Shadow) : Board :=
  let classes := unsolvedClasses b.classes b.acc
  { b with classes := classes, solution := some (wholeSolution p classes .reman),
           flags := { b.flags with unsolved := true } }

end Sys2Proof.Machine
end

