-- ==== Sys2Proof/Machine/Overrides.lean ====
section
/-! DEFINITION. The override set and the standing decision, the taking of an override entry and the batch (chapter 6). -/

namespace Sys2Proof.Machine

open Sys2Proof

/-! ### The override set (R114 to R117) -/

/-- The grade override of a set. -/
def gradeOf (l : List Override) : Option Grade :=
  l.findSome? fun o =>
    match o.what with
    | .grade g => some g
    | .trim _ _ | .disposition _ => none

/-- The trim override's run. -/
def trimOf (l : List Override) : Option (Nat × Nat) :=
  l.findSome? fun o =>
    match o.what with
    | .trim a b => some (a, b)
    | .grade _ | .disposition _ => none

/-- The disposition override. -/
def dispositionOf (l : List Override) : Option Disposition :=
  l.findSome? fun o =>
    match o.what with
    | .disposition d => some d
    | .grade _ | .trim _ _ => none

/-- Two overrides of one of the three kinds: grade, trim, disposition. -/
def sameKind : OverrideWhat → OverrideWhat → Bool
  | .grade _, .grade _ => true
  | .trim _ _, .trim _ _ => true
  | .disposition _, .disposition _ => true
  | _, _ => false

/-- The set without its overrides of the kind of `w`. -/
def withoutKind (w : OverrideWhat) (l : List Override) : List Override :=
  l.filter fun o => !sameKind w o.what

/-- R116: the set after a FORCE override, which takes the tail. A grade or trim override removes the disposition; a
disposition removes the grade and trim. -/
def forceOverride (l : List Override) (o : Override) : List Override :=
  match o.what with
  | .grade _ | .trim _ _ => withoutKind (.disposition .reman) (withoutKind o.what l) ++ [o]
  | .disposition _ => [o]

/-- What a well-formed entry asks: `none` is CLEAR (R106, R116). -/
def Entry.asks (n : Entry) : Option OverrideWhat :=
  match n.kind with
  | 2 => (gradeOfCode n.grade).map .grade
  | 3 => some (.trim n.first n.last)
  | 4 => some (.disposition .reman)
  | 5 => some (.disposition .trash)
  | _ => none

/-- R116: the set after a well-formed entry. -/
def setAfter (l : List Override) (n : Entry) : List Override :=
  match n.asks with
  | some w => forceOverride l { what := w, station := n.station }
  | none => []

/-- The run contains a segment of class EMPTY. -/
def runHasEmpty (classes : Vector (Option SegMark) 12) (r : Nat × Nat) : Bool :=
  (runSegments r.1 r.2).any fun i => classAt classes i == some .empty

/-- The run contains a segment of class REJECT. -/
def runHasReject (classes : Vector (Option SegMark) 12) (r : Nat × Nat) : Bool :=
  (runSegments r.1 r.2).any fun i => classAt classes i == some .reject

/-- The solution has a piece (R115). -/
def hasPiece (sol : Option Solution) : Bool :=
  match sol with
  | some v => v.run.isSome
  | none => false

/-- R115: the set is valid for a board with these classes and this solution. -/
def validSet (classes : Vector (Option SegMark) 12) (sol : Option Solution) (l : List Override) : Bool :=
  match trimOf l with
  | some r => !runHasEmpty classes r && (!runHasReject classes r || (gradeOf l).isSome)
  | none => (gradeOf l).isNone || hasPiece sol

/-- R117: the standing decision formed from the solution and a valid set. A run without a graded segment has a grade
override in every valid set; the fallback to the solution serves no valid set. -/
def standingDecision (p : Shadow) (classes : Vector (Option SegMark) 12) (sol : Solution) (l : List Override) :
    Solution :=
  match dispositionOf l with
  | some d => wholeSolution p classes d
  | none =>
    if l = [] then sol
    else
      match (trimOf l).or sol.run with
      | some r =>
        match (gradeOf l).or (runGrade classes r) with
        | some g => pieceSolution p classes g r
        | none => sol
      | none => sol

/-! ### The end-of-solve check (R120) -/

/-- Step 1: a trim override whose run contains an EMPTY segment is removed. -/
def judgeEmpty (classes : Vector (Option SegMark) 12) (l : List Override) : List Override :=
  match trimOf l with
  | some r => if runHasEmpty classes r then withoutKind (.trim 0 0) l else l
  | none => l

/-- Step 2: a trim override whose run contains a REJECT segment is removed where no grade override is present. -/
def judgeReject (classes : Vector (Option SegMark) 12) (l : List Override) : List Override :=
  match trimOf l with
  | some r => if runHasReject classes r && (gradeOf l).isNone then withoutKind (.trim 0 0) l else l
  | none => l

/-- Step 3: a grade override is removed where no trim override is present and the solution has no piece. -/
def judgeGrade (sol : Option Solution) (l : List Override) : List Override :=
  if (gradeOf l).isSome && (trimOf l).isNone && !hasPiece sol then withoutKind (.grade .g1) l else l

/-- R120: the set that remains. -/
def judged (classes : Vector (Option SegMark) 12) (sol : Option Solution) (l : List Override) : List Override :=
  judgeGrade sol (judgeReject classes (judgeEmpty classes l))

/-- R120: the end-of-solve check of a board whose classes and solution have just been written. -/
def Board.endOfSolveCheck (b : Board) : Board :=
  let l := judged b.classes b.solution b.overrides
  let dropped := decide (l.length < b.overrides.length)
  { b with
    overrides := l
    station := match l.getLast? with
      | some o => some o.station
      | none => b.station
    flags := { b.flags with overrideDropped := b.flags.overrideDropped || dropped,
                            overridden := b.flags.overridden || !l.isEmpty } }

/-! ### Taking an entry (R112, R113, R118, R119) -/

/-- R112: the entry is malformed. -/
def Entry.malformed (n : Entry) : Bool :=
  !(decide (1 ≤ n.kind) && decide (n.kind ≤ 5)) || decide (15 < n.station.toNat) ||
    (n.kind == 2 && !(decide (1 ≤ n.grade) && decide (n.grade ≤ 6))) ||
    (n.kind == 3 && (decide (n.last < n.first) || decide (11 < n.last)))

/-- The outcomes written into an entry's status byte (Table 12-6). -/
inductive EntryStatus where
  | applied
  | attached
  | tooLate
  | noBoard
  | invalid
  deriving DecidableEq, Repr

/-- Table 12-6 codes. -/
def EntryStatus.code : EntryStatus → Byte
  | .applied => 1
  | .attached => 2
  | .tooLate => 3
  | .noBoard => 4
  | .invalid => 5

/-- R118, R119, Table 6-1: a well-formed entry against the board found. -/
def takeAgainst (b : Board) (n : Entry) : Board × EntryStatus :=
  match b.state with
  | .scanning | .queued | .solving => ({ b with overrides := setAfter b.overrides n }, .attached)
  | .solved =>
    if validSet b.classes b.solution (setAfter b.overrides n) then
      ({ b with overrides := setAfter b.overrides n, station := some n.station,
                flags := { b.flags with overridden := true } }, .applied)
    else (b, .invalid)
  | .committed | .trimmed => (b, .tooLate)
  | .void | .free => (b, .noBoard)

/-- R109, R112, R113: the take of an entry at the lug table and the status it is given. -/
def takeEntry (e : Ev) (data : Option (List Byte)) : Ev × EntryStatus :=
  match data with
  | none => (e, .invalid)
  | some bs =>
    let n := entryOf bs
    if n.malformed then (e, .invalid)
    else
      match e.st.lookup n.lug with
      | none => (e, .noBoard)
      | some i => (e.changeBoard i fun b => (takeAgainst b n).1, (takeAgainst e.st.lug.boards[i] n).2)

/-! ### The batch (R107 to R110) -/

/-- R106: the ring slot of an index. -/
def OverrideUnit.slot (u : OverrideUnit) (i : Word16) : Nat := i.toNat % u.ringSize

/-- The override unit changed inside the event. -/
def Ev.changeOvr (e : Ev) (f : OverrideUnit → OverrideUnit) : Ev :=
  e.modify fun s => { s with ovr := f s.ovr }

/-- R110: the end of a batch whose end index is `stop`. -/
def Ev.endBatch (e : Ev) (stop : Word16) : Ev :=
  ((e.changeOvr fun u => { u with consumer := stop, batch := none }).ask (.ovrConsumer stop)).raise .overridesDone

/-- R108: a producer value taken while the override unit is IDLE. An empty batch ends at once (R110). -/
def Ev.takeProducer (e : Ev) (w : Word32) : Ev :=
  let v : Word16 := w.setWidth 16
  let u := e.st.ovr
  if u.ringSize < (v - u.consumer).toNat then e.raise .overrideRingFault
  else if v = u.consumer then e.endBatch v
  else e.changeOvr fun u => { u with batch := some { stop := v, index := u.consumer } }

/-- R109: the fetch of the entry worked on. -/
def Ev.fetchEntry (e : Ev) : Ev :=
  match e.st.ovr.batch with
  | some b => e.ask (.ovrFetch (e.st.ovr.slot b.index))
  | none => e

/-- A status byte write is waiting for room in the own-write queue (R172). -/
def Path.statusWaiting (p : Path) : Bool :=
  p.waiting.any fun k =>
    match k with
    | .ovrStatus _ _ => true
    | _ => false

/-- R109: the entry at the batch's index has been given status `st`: its status write is queued, and the next entry, if
the batch has one, is fetched (log 8). -/
def Ev.entryTaken (e : Ev) (b : Batch) (st : EntryStatus) : Ev :=
  let e1 := (e.changeOvr fun u =>
      { u with fetched := none, statusOut := u.statusOut + 1, batch := some { b with index := b.index + 1 } }).ask
    (.ovrStatus (e.st.ovr.slot b.index) st.code)
  if b.index + 1 = b.stop then e1 else e1.fetchEntry

/-- OVERRIDE_ENTRY_TAKE (R109, R113): not taken while no entry is fetched, or while the previous entry's status write is
waiting (R172). -/
def execOverrideEntryTake (s : State) : Result :=
  if s.running && !s.path.statusWaiting then
    match s.ovr.batch, s.ovr.fetched with
    | some b, some data =>
      let (e, st) := takeEntry (Ev.start s) data
      (e.entryTaken b st).done
    | _, _ => notTaken s
  else notTaken s

/-- R110: a status write of the batch has been answered; the batch ends with the last one of a batch whose every entry has
been taken. -/
def Ev.statusAnswered (e : Ev) : Ev :=
  let e1 := e.changeOvr fun u => { u with statusOut := u.statusOut - 1 }
  match e1.st.ovr.batch with
  | some b => if b.index = b.stop ∧ e1.st.ovr.statusOut = 0 then e1.endBatch b.stop else e1
  | none => e1

end Sys2Proof.Machine
end

