-- ==== Sys2Proof/Machine/Decision.lean ====
section
/-! DEFINITION. The decision writer (R134 to R140): building a decision record, the pending output list, placement in the ring
and the announcements. -/

namespace Sys2Proof.Machine

open Sys2Proof

/-- R134: the record built from a committed board and its final decision. -/
def recordOf (s : State) (b : Board) (f : FinalDecision) (k : Bank) : DecRecord :=
  { lug := b.lug, decision := f.decision, flags := b.flags, bank := k, station := f.station, classes := f.classes,
    product := planProduct (s.plan.bank k).shadow }

/-- The decision writer changed inside the event. -/
def Ev.changeDec (e : Ev) (f : DecisionWriter → DecisionWriter) : Ev :=
  e.modify fun s => { s with dec := f s.dec }

/-- R138: the placement test's conditions but a record to place: IDLE, room in the ring, no DEC_PRODUCER write pending. -/
def DecisionWriter.mayPlace (d : DecisionWriter) : Bool :=
  d.writing.isNone && decide ((d.producer - d.consumerShadow).toNat < d.ringSize) && !d.announcing

/-- R138: the placement test, and the placement of the oldest record if it holds. -/
def Ev.placeRecord (e : Ev) : Ev :=
  match e.st.dec.list with
  | [] => e
  | r :: rest =>
    if e.st.dec.mayPlace then
      let slot := e.st.dec.producer.toNat % e.st.dec.ringSize
      (e.changeDec fun d =>
        { d with list := rest, producer := d.producer + 1, writing := some { record := r, slot := slot } }).ask
        (.decRecord slot r.bytes)
    else e

/-- R137: a record handed to the decision writer joins the list, and the placement test follows; with 8 in the list it is
dropped. -/
def Ev.handRecord (e : Ev) (r : DecRecord) : Ev :=
  if e.st.dec.list.length < 8 then
    (e.changeDec fun d => { d with list := d.list ++ [r] }).placeRecord
  else e.raise .decisionOverrun

/-- R139: memory has answered the record write of the output state. -/
def Ev.recordAnswered (e : Ev) : Ev :=
  ((e.ask (.decProducer e.st.dec.producer true)).changeDec fun d =>
    { d with writing := none, announcing := true }).placeRecord

/-- R138, R139: memory has answered a DEC_PRODUCER write. -/
def Ev.producerAnswered (e : Ev) (byWriter : Bool) : Ev :=
  (e.changeDec fun d => { d with announcing := d.announcing && !byWriter }).placeRecord

/-- R140: a DEC_CONSUMER value taken at the decision writer. -/
def Ev.takeConsumer (e : Ev) (w : Word32) : Ev :=
  let v : Word16 := w.setWidth 16
  if (e.st.dec.producer - v).toNat ≤ e.st.dec.ringSize then
    (e.changeDec fun d => { d with consumerShadow := v }).placeRecord
  else e

end Sys2Proof.Machine
end

