-- ==== Sys2Proof/Machine/Heads.lean ====
section
/-! DEFINITION. The head monitor (chapter 2): the tests, the commands, the admissions, and the edges that touch no board. -/

namespace Sys2Proof.Machine

open Sys2Proof

/-- Some board record that is SCANNING has head `h` in its expected set (R35). -/
def State.expectsHead (s : State) (h : Fin 6) : Bool :=
  s.lug.boards.any fun b => b.state == .scanning && b.expected.getLsbD h

/-- R35: head `h`, if LEAVING and expected by no SCANNING board, moves to PARKED. -/
def Ev.parkTest (e : Ev) (h : Fin 6) : Ev :=
  if e.st.head.ctx[h].state = .leaving && !e.st.expectsHead h then
    e.changeHead h fun c => { c with state := .parked }
  else e

/-- R35: at a close every LEAVING head is tested. -/
def Ev.parkTestAll (e : Ev) : Ev :=
  allHeads.foldl Ev.parkTest e

/-- R36: at the close of a board, each expected head's bad slices of last board is the board's count. -/
def Ev.recordBadCounts (e : Ev) (b : Board) : Ev :=
  allHeads.foldl
    (fun e (h : Fin 6) => if b.expected.getLsbD h then e.changeHead h fun c => { c with badLast := b.bad[h] } else e) e

/-- R34: each head with admission pending becomes ACTIVE. -/
def Ev.admitHeads (e : Ev) : Ev :=
  allHeads.foldl
    (fun e h =>
      if e.st.head.ctx[h].admitPending then e.changeHead h fun c => { c with state := .active, admitPending := false } else e) e

/-- R7: the heads that are ACTIVE. -/
def State.activeHeads (s : State) : HeadSet :=
  allHeads.foldl (fun acc h => if s.head.ctx[h].state = .active then acc ||| headBit h else acc) 0

/-- The head is fitted (R23). -/
def State.fittedHead (s : State) (h : Fin 6) : Bool := s.head.fitted.getLsbD h

/-! ### Commands (R31 to R33) -/

/-- R31: the answer to a command is placed in the last result, and HEAD_STATUS is rewritten even when it repeats. -/
def Ev.answerCommand (e : Ev) (h : Fin 6) (r : CommandResult) : Ev :=
  (e.changeHead h fun c => { c with last := r }).ask (.headStatus h)

/-- R32, Table 2-3: ADMIT taken at head `h`. -/
def Ev.takeAdmit (e : Ev) (h : Fin 6) : Ev :=
  let c := e.st.head.ctx[h]
  match c.state with
  | .waiting => (e.changeHead h fun c => { c with admitPending := true }).answerCommand h .accepted
  | .parked =>
    if c.ready then
      ((e.changeHead h fun c => { c with state := .waiting, admitPending := true }).answerCommand h .accepted).raise
        .headWaiting
    else e.answerCommand h .refused
  | .active => e.answerCommand h .accepted
  | .absent | .joining | .leaving => e.answerCommand h .refused

/-- R33, Table 2-4: RELEASE taken at head `h`. -/
def Ev.takeRelease (e : Ev) (h : Fin 6) : Ev :=
  let c := e.st.head.ctx[h]
  match c.state with
  | .active =>
    (((e.changeHead h fun c => { c with state := .leaving }).answerCommand h .accepted).raise .headLeaving).parkTest h
  | .waiting =>
    if c.admitPending then (e.changeHead h fun c => { c with admitPending := false }).answerCommand h .accepted
    else e.answerCommand h .refused
  | .leaving | .parked => e.answerCommand h .accepted
  | .absent | .joining => e.answerCommand h .refused

/-- R31: a HEAD_COMMAND value taken at head `h`. At an unfitted head R23 has every command answered REFUSED, and R31 has a
value of 0 leave the last result and HEAD_STATUS; that 0 is not answered there either is a DESIGN CHOICE (log 31). -/
def Ev.takeHeadCommand (e : Ev) (h : Fin 6) (w : Word32) : Ev :=
  if w = 1 then e.takeAdmit h
  else if w = 2 then e.takeRelease h
  else if w = 0 then e
  else e.answerCommand h .refused

/-! ### Edges (R24 to R27) -/

/-- The level of pin HEAD_PRESENT[`h`] or HEAD_READY[`h`] in a set of levels. -/
def setLevel (v : HeadSet) (h : Fin 6) (level : Bool) : HeadSet :=
  if level then v ||| headBit h else v &&& ~~~ headBit h

/-- The input HEAD_PRESENT[`h`] changes (log 11). -/
def Ev.presentPin (e : Ev) (h : Fin 6) (level : Bool) : Ev :=
  e.modify fun s => { s with pins := { s.pins with present := setLevel s.pins.present h level } }

/-- The input HEAD_READY[`h`] changes (log 11). -/
def Ev.readyPin (e : Ev) (h : Fin 6) (level : Bool) : Ev :=
  e.modify fun s => { s with pins := { s.pins with ready := setLevel s.pins.ready h level } }

/-- R23, R24: edges are taken while the part is RUNNING, for a fitted head. -/
def State.takesEdges (s : State) (h : Fin 6) : Bool := s.running && s.fittedHead h

/-- HEAD_PRESENT_RISE (R25). -/
def execHeadPresentRise (h : Fin 6) (s : State) : Result :=
  let e := (Ev.start s).presentPin h true
  if s.takesEdges h then
    let c := s.head.ctx[h]
    let e1 := e.changeHead h fun c => { c with present := true }
    match c.state with
    | .absent =>
      if c.ready then ((e1.changeHead h fun c => { c with state := .waiting }).raise .headWaiting).done
      else (e1.changeHead h fun c => { c with state := .joining }).done
    | .joining | .waiting | .active | .leaving | .parked => e1.done
  else e.done

/-- HEAD_READY_RISE (R26). -/
def execHeadReadyRise (h : Fin 6) (s : State) : Result :=
  let e := (Ev.start s).readyPin h true
  if s.takesEdges h then
    let c := s.head.ctx[h]
    let e1 := e.changeHead h fun c => { c with ready := true }
    match c.state with
    | .joining => ((e1.changeHead h fun c => { c with state := .waiting }).raise .headWaiting).done
    | .absent | .waiting | .active | .leaving | .parked => e1.done
  else e.done

/-- HEAD_READY_FALL (R27). -/
def execHeadReadyFall (h : Fin 6) (s : State) : Result :=
  let e := (Ev.start s).readyPin h false
  if s.takesEdges h then
    let c := s.head.ctx[h]
    let e1 := e.changeHead h fun c => { c with ready := false }
    match c.state with
    | .waiting => (e1.changeHead h fun c => { c with state := .joining, admitPending := false }).done
    | .active =>
      (((e1.changeHead h fun c => { c with state := .leaving }).raise .headLeaving).parkTest h).done
    | .absent | .joining | .leaving | .parked => e1.done
  else e.done

/-- LAMP_FLASH_TOGGLE (R30): the common 1 Hz cycle changes half (log 10). -/
def execLampFlashToggle (s : State) : Result :=
  ((Ev.start s).modify fun s => { s with head := { s.head with flashLit := !s.head.flashLit } }).done

/-- HEAD_MONITOR_RESTART (R39): every LEAVING head moves to PARKED. -/
def execHeadMonitorRestart (s : State) : Result :=
  if s.running && decide (0 < s.restart.head) then
    let e := (Ev.start s).modify fun s => { s with restart := { s.restart with head := s.restart.head - 1 } }
    (allHeads.foldl
      (fun e h => if e.st.head.ctx[h].state = .leaving then e.changeHead h fun c => { c with state := .parked } else e)
      e).done
  else notTaken s

end Sys2Proof.Machine
end

