-- ==== Sys2Proof/Machine/Solver.lean ====
section
/-! DEFINITION. The grade solver (section 4.1): the queue, the solve start, the solve end and the abandonment by commit. -/

namespace Sys2Proof.Machine

open Sys2Proof

/-- R68: an idle solver takes the oldest queued board, whose record becomes SOLVING. An entry whose record a restart has
freed is taken without changing a record (log 14). -/
def State.startSolve (s : State) : State :=
  match s.solv.solving, s.solv.queue with
  | none, n :: rest =>
    let s1 := { s with solv := { queue := rest, solving := some n } }
    match s1.lookup n with
    | some i =>
      if s1.lug.boards[i].state = .queued then s1.setBoard i { s1.lug.boards[i] with state := .solving } else s1
    | none => s1
  | _, _ => s

/-- R67: a board whose record is in slot `i` joins the tail of the queue and becomes QUEUED; an idle solver starts. -/
def Ev.joinQueue (e : Ev) (i : Fin 32) : Ev :=
  ((e.changeBoard i fun b => { b with state := .queued }).modify fun s =>
    { s with solv := { s.solv with queue := s.solv.queue ++ [s.lug.boards[i].lug] } }).modify State.startSolve

/-- R70: the board after its solve, steps 1 to 5. -/
def Board.solved (b : Board) (p : Shadow) : Board :=
  let classes := solveClasses p b.classes b.acc
  { ({ b with classes := classes, solution := some (solveSolution p classes),
              flags := { b.flags with degraded := b.flags.degraded || degradedBy b.classes b.acc } }
      : Board).endOfSolveCheck with state := .solved }

/-- SOLVE_END (R70): the results are written if the record is still SOLVING; the solver is then idle and starts the next. -/
def execSolveEnd (s : State) : Result :=
  if s.running then
    match s.solv.solving with
    | none => notTaken s
    | some n =>
      let e := Ev.start s
      let e1 :=
        match s.lookup n with
        | some i =>
          if s.lug.boards[i].state = BoardState.solving then
            e.changeBoard i fun b => b.solved (s.shadowOf b.bank)
          else e
        | none => e
      ((e1.modify fun s => { s with solv := { s.solv with solving := none } }).modify State.startSolve).done
  else notTaken s

/-- R71: the commit of lug `n` removes its queue entry, or abandons its solve; an idle solver starts the next board. -/
def Ev.leaveSolver (e : Ev) (n : Word16) : Ev :=
  (e.modify fun s =>
    { s with solv :=
        { queue := s.solv.queue.filter fun m => decide (m ≠ n)
          solving := if s.solv.solving = some n then none else s.solv.solving } }).modify State.startSolve

/-- SOLVER_RESTART (R72): the queue is emptied and the solve in progress abandoned. -/
def execSolverRestart (s : State) : Result :=
  if s.running && decide (0 < s.restart.solv) then
    ((Ev.start s).modify fun s =>
      { s with restart := { s.restart with solv := s.restart.solv - 1 }, solv := { queue := [], solving := none } }).done
  else notTaken s

end Sys2Proof.Machine
end

