-- ==== Sys2Proof/Machine/Tally.lean ====
section
/-! DEFINITION. The tally unit (chapter 8): offers, addition, overflow, holding and stranding, the requests, the snapshot and
the completion. -/

namespace Sys2Proof.Machine

open Sys2Proof

/-- A tally bank. -/
def Tally.bank (t : Tally) : Bank → TallyBank
  | .a => t.bankA
  | .b => t.bankB

/-- A tally bank replaced. -/
def Tally.setBank (t : Tally) (k : Bank) (v : TallyBank) : Tally :=
  match k with
  | .a => { t with bankA := v }
  | .b => { t with bankB := v }

/-- The bank under snapshot (R157). -/
def Tally.underSnapshot (t : Tally) : Option Bank :=
  match t.request with
  | some q => q.snapshot.map (·.bank)
  | none => none

/-! ### Counting a dropped board -/

/-- The cell of an offer's class and length index (R147, R215). Length indices are 0 to 11, so the reduction to the 96
cells changes none. -/
def TallyOffer.cell (o : TallyOffer) : Fin 96 :=
  ⟨(12 * (o.cls.code - 1) + o.lengthIdx) % 96, Nat.mod_lt _ (by decide)⟩

/-- Table 8-1: the greatest piece count. -/
def maxPieces : Nat := 16777215

/-- Table 8-1: the greatest value of the 32-bit counters. -/
def maxWord : Nat := 4294967295

/-- R148: the bank's counters after the addition of a board. -/
def TallyBank.add (b : TallyBank) (o : TallyOffer) : TallyBank :=
  let c := b.cells[o.cell]
  { b with
    cells := b.cells.set o.cell { pieces := c.pieces + 1, bf10 := c.bf10 + o.bf10 }
    dropped := b.dropped + 1
    overridden := b.overridden + o.overridden.toNat
    degraded := b.degraded + o.degraded.toNat
    unsolved := b.unsolved + o.unsolved.toNat }

/-- R148: every counter the addition would change stays within its greatest value. -/
def TallyBank.fits (b : TallyBank) (o : TallyOffer) : Bool :=
  let c := b.cells[o.cell]
  decide (c.pieces + 1 ≤ maxPieces) && decide (c.bf10 + o.bf10 ≤ maxWord) && decide (b.dropped + 1 ≤ maxWord) &&
    decide (b.overridden + o.overridden.toNat ≤ maxWord) && decide (b.degraded + o.degraded.toNat ≤ maxWord) &&
    decide (b.unsolved + o.unsolved.toNat ≤ maxWord)

/-- R150: a board is stranded. -/
def Ev.strand (e : Ev) : Ev :=
  (e.changeTally fun t => { t with stranded := min 65535 (t.stranded + 1) }).raise .tallyStranded

/-- R148: the board is added to bank `k`. -/
def Ev.addTo (e : Ev) (k : Bank) (o : TallyOffer) : Ev :=
  e.changeTally fun t => t.setBank k ((t.bank k).add o)

/-- R158: a board bound for the bank under snapshot is held, or stranded when the list holds 4. -/
def Ev.holdBoard (e : Ev) (o : TallyOffer) : Ev :=
  if e.st.tally.holding.length < 4 then e.changeTally fun t => { t with holding := t.holding ++ [o] }
  else e.strand

/-- R149: the OPEN bank `k` overflows and the board is offered to the other bank. -/
def Ev.overflow (e : Ev) (k : Bank) (o : TallyOffer) : Ev :=
  let e1 := (e.changeTally fun t => t.setBank k { t.bank k with state := .full }).raise .tallyFull
  if (e1.st.tally.bank k.other).state = .empty then
    let e2 := e1.changeTally fun t => t.setBank k.other { t.bank k.other with state := .opened }
    if e2.st.tally.underSnapshot = some k.other then e2.holdBoard o else e2.addTo k.other o
  else e1.strand

/-- R147, R158, R148, R150: a board offered to the tally unit. -/
def Ev.offer (e : Ev) (o : TallyOffer) : Ev :=
  match e.st.tally.openBank with
  | none => e.strand
  | some k =>
    if e.st.tally.underSnapshot = some k then e.holdBoard o
    else if (e.st.tally.bank k).fits o then e.addTo k o
    else e.overflow k o

/-- R147: the offer of a board from its final decision and flags at the drop. -/
def offerOf (f : FinalDecision) (flags : BoardFlags) : TallyOffer :=
  { cls := f.decision.cls
    lengthIdx := match f.decision.cls with
      | .grade _ => f.decision.pieceLength / 2 - 1
      | .reman | .trash => f.decision.boardLength / 2 - 1
    bf10 := f.decision.bf10
    overridden := flags.overridden, degraded := flags.degraded, unsolved := flags.unsolved }

/-! ### Requests -/

/-- R153: a request completes once memory has answered its write and its work has ended. -/
def Ev.completeRequest (e : Ev) : Ev :=
  match e.st.tally.request with
  | none => e
  | some q =>
    match q.status with
    | none => e
    | some st =>
      if q.writeAnswered then
        ((e.changeTally fun t => { t with request := none }).ask (.tallyCompletion (tallyCompletionWord q st))).raise
          .tallyRequestDone
      else e

/-- R154: whether CLOSE_SHIFT is carried out, and the banks after it. -/
def Tally.closeShift (t : Tally) : Tally × RequestStatus :=
  match t.openBank with
  | none => (t, .refused)
  | some k =>
    if (t.bank k.other).state = .empty then
      ((t.setBank k { t.bank k with state := .closed }).setBank k.other { t.bank k.other with state := .opened }, .ok)
    else (t, .refused)

/-- R155, Table 8-5: CLEAR of bank `k`. -/
def Tally.clearBank (t : Tally) (k : Bank) : Tally × RequestStatus :=
  match (t.bank k).state with
  | .closed | .full =>
    if (t.bank k.other).state = .opened then (t.setBank k (TallyBank.zeroed .empty), .ok)
    else (t.setBank k (TallyBank.zeroed .opened), .ok)
  | .opened => (t, .refused)
  | .empty => (t, .ok)

/-- The request code of a TALLY_REQUEST word (Table 12-3). -/
def requestCode (w : Word32) : BitVec 4 := w.setWidth 4

/-- The bank field of a TALLY_REQUEST word (Table 12-3). -/
def requestBank (w : Word32) : BitVec 2 := (w >>> 4).setWidth 2

/-- What a TALLY_REQUEST word asks (R151, Table 8-3). -/
inductive TallyAsk where
  | closeShift
  | snapshot (k : Bank)
  | clear (k : Bank)
  | refused
  deriving DecidableEq, Repr

/-- R151: SNAPSHOT and CLEAR need a bank field of 1 or 2; every code but 1, 2 and 3 is refused. -/
def tallyAsk (w : Word32) : TallyAsk :=
  match (requestCode w).toNat, bankOfField (requestBank w).toNat with
  | 1, _ => .closeShift
  | 2, some k => .snapshot k
  | 3, some k => .clear k
  | _, _ => .refused

/-- R151: the request in progress as it is taken, with what its own work leaves. -/
def requestTaken (w : Word32) (status : Option RequestStatus) (snap : Option Snapshot) : TallyRequest :=
  { code := requestCode w, bankField := requestBank w, writeAnswered := false, status := status, snapshot := snap }

/-- R151, R154, R155, R157: a TALLY_REQUEST word taken while the request state is IDLE. -/
def Ev.takeRequest (e : Ev) (w : Word32) : Ev :=
  match tallyAsk w with
  | .closeShift =>
    e.changeTally fun t => { t.closeShift.1 with request := some (requestTaken w (some t.closeShift.2) none) }
  | .clear k =>
    e.changeTally fun t => { (t.clearBank k).1 with request := some (requestTaken w (some (t.clearBank k).2) none) }
  | .refused =>
    e.changeTally fun t => { t with request := some (requestTaken w (some .refused) none) }
  | .snapshot k =>
    let e1 := e.changeTally fun t =>
      { t with request := some (requestTaken w none (some { bank := k, answered := 0, error := false })) }
    { e1 with asked := e1.asked ++ imageLines k (e.st.tally.bank k) }

/-! ### The snapshot's end -/

/-- R159: held boards offered in order. -/
def Ev.offerAll (e : Ev) : List TallyOffer → Ev
  | [] => e
  | o :: os => (e.offer o).offerAll os

/-- R159: the snapshot end. The holding list is drained in the same event. -/
def Ev.endSnapshot (e : Ev) (q : TallyRequest) (p : Snapshot) : Ev :=
  let held := e.st.tally.holding
  ((e.changeTally fun t =>
    { t with
      holding := []
      request := some { q with status := some (if p.error then .memoryError else .ok), snapshot := none } }).offerAll
    held).completeRequest

/-- R159: memory has answered an image write. -/
def Ev.imageAnswered (e : Ev) (ok : Bool) : Ev :=
  match e.st.tally.request with
  | none => e
  | some q =>
    match q.snapshot with
    | none => e
    | some p =>
      let p1 := { p with answered := p.answered + 1, error := p.error || !ok }
      if p1.answered = 13 then e.endSnapshot q p1
      else e.changeTally fun t => { t with request := some { q with snapshot := some p1 } }

/-- R153: memory has answered the TALLY_REQUEST write that carried the request in progress. -/
def Ev.requestWriteAnswered (e : Ev) : Ev :=
  (e.changeTally fun t => { t with request := t.request.map fun q => { q with writeAnswered := true } }).completeRequest

end Sys2Proof.Machine
end

