-- ==== Sys2Proof/Machine/Trim.lean ====
section
/-! DEFINITION. The trim output unit (sections 7.1 to 7.4): arming, firing, the hold timers and its take of a restart. -/

namespace Sys2Proof.Machine

open Sys2Proof

/-- R129: every channel of the pattern is HELD with its timer at saw_hold; the others are left as they are. -/
def TrimUnit.drive (u : TrimUnit) (saws : SawSet) : TrimUnit :=
  { u with armed := none,
           channels := u.channels.mapIdx fun k c => if saws.getLsbD k then some u.sawHold else c }

/-- R129: the fire, reported to the lug table, where a COMMITTED record becomes TRIMMED (R17). -/
def Ev.fire (e : Ev) (a : ArmedFire) : Ev :=
  let e1 := e.modify fun s => { s with trim := s.trim.drive a.saws }
  match e1.st.lookup a.lug with
  | some i =>
    if e1.st.lug.boards[i].state = .committed then e1.changeBoard i fun b => { b with state := .trimmed } else e1
  | none => e1

/-- R128: a fire still armed at a LUG event is fired there, with ENCODER_SLIP. -/
def Ev.lateFire (e : Ev) : Ev :=
  match e.st.trim.armed with
  | some a => (e.fire a).raise .encoderSlip
  | none => e

/-- R16, R126: the board that a LUG event brings to trim_pos is armed if COMMITTED, and fired at once if fire_delay is 0. -/
def Ev.armBoard (e : Ev) : Ev :=
  match e.st.boardAt e.st.lug.trimPos with
  | none => e
  | some i =>
    let b := e.st.lug.boards[i]
    match b.state, b.final with
    | .committed, some f =>
      let a : ArmedFire := { lug := b.lug, saws := f.decision.saws }
      if e.st.trim.fireDelay = 0 then e.fire a
      else e.modify fun s => { s with trim := { s.trim with armed := some a } }
    | _, _ => e

/-- ENC_PULSE (R2, R127): the count grows, saturating, and an armed fire is fired when it reaches fire_delay. -/
def execEncPulse (s : State) : Result :=
  if s.running then
    let e := (Ev.start s).modify fun s =>
      { s with lug := { s.lug with encCount := min 65535 (s.lug.encCount + 1) } }
    match s.trim.armed with
    | some a => if e.st.lug.encCount = s.trim.fireDelay then (e.fire a).done else e.done
    | none => e.done
  else notTaken s

/-- SAW_HOLD_EXPIRY (R130): a HELD channel's timer runs out and the channel is RELEASED. -/
def execSawHoldExpiry (k : Fin 11) (s : State) : Result :=
  if s.trim.channels[k].isSome then
    ((Ev.start s).modify fun s => { s with trim := { s.trim with channels := s.trim.channels.set k none } }).done
  else notTaken s

/-- TRIM_RESTART (R132): every saw is RELEASED and the armed fire cancelled without firing. -/
def execTrimRestart (s : State) : Result :=
  if s.running && decide (0 < s.restart.trim) then
    ((Ev.start s).modify fun s =>
      { s with
        restart := { s.restart with trim := s.restart.trim - 1 }
        trim := { s.trim with armed := none, channels := Vector.replicate 11 none } }).done
  else notTaken s

end Sys2Proof.Machine
end

