-- ==== Sys2Proof/Machine/Lug.lean ====
section
/-! DEFINITION. The lug table (chapter 1): the close of a board, the positional events of a LUG event, the loss of a head and
the lug table's take of a restart. -/

namespace Sys2Proof.Machine

open Sys2Proof

/-! ### The close (R10, R11) -/

/-- R10: the head's segments are UNSCANNED on board `b`. -/
def unscannedHead (b : Board) (timedOut : HeadSet) (maxBad : Nat) (h : Fin 6) : Bool :=
  !b.expected.getLsbD h || b.lost.getLsbD h || timedOut.getLsbD h || decide (maxBad < b.bad[h])

/-- R10: the scan marks of a closing board. -/
def scanMarks (fitted : HeadSet) (b : Board) (timedOut : HeadSet) (maxBad : Nat) : Vector (Option SegMark) 12 :=
  Vector.ofFn fun j =>
    if !fitted.getLsbD (headOfSegment j) then some .empty
    else if unscannedHead b timedOut maxBad (headOfSegment j) then some .unscanned
    else none

/-- R11: some scanned segment has PS > 0. -/
def Board.scannedMaterial (b : Board) : Bool := allSegments.any (seenAt b.classes b.acc)

/-- R11: the board after a close that finds the solve queue full. -/
def Board.closedUnsolved (b : Board) (p : Shadow) : Board :=
  { (b.giveUnsolved p).endOfSolveCheck with state := .solved }

/-- R10, R11, R36, R35: the close of the board in slot `i`; `timedOut` are the heads timed out by R9. -/
def Ev.closeBoard (e : Ev) (i : Fin 32) (timedOut : HeadSet) : Ev :=
  let b := e.st.lug.boards[i]
  let p := e.st.shadowOf b.bank
  let marked := { b with classes := scanMarks e.st.head.fitted b timedOut (planMaxBad p) }
  let e1 := (e.changeBoard i fun _ => marked).recordBadCounts b
  let e2 :=
    if !marked.scannedMaterial then e1.changeBoard i fun b => { b with state := .void }
    else if e1.st.solv.queue.length < 4 then e1.joinQueue i
    else (e1.changeBoard i fun b => b.closedUnsolved p).raise .solveQueueFull
  e2.parkTestAll

/-- R62: every expected head is ended or lost. -/
def Board.scanDone (b : Board) : Bool := b.expected &&& ~~~ (b.ended ||| b.lost) == 0

/-- R61, R29, R62: the close test of a SCANNING board. -/
def Ev.closeTest (e : Ev) (i : Fin 32) : Ev :=
  let b := e.st.lug.boards[i]
  if b.state = .scanning && b.scanDone then e.closeBoard i 0 else e

/-! ### Positional events -/

/-- R9: the close timeout of the board at close_lugs. -/
def Ev.closeTimeout (e : Ev) : Ev :=
  match e.st.boardAt e.st.lug.closeLugs with
  | none => e
  | some i =>
    let b := e.st.lug.boards[i]
    if b.state = .scanning then
      ((e.changeBoard i fun b => { b with flags := { b.flags with scanTimeout := true } }).raise .scanTimeout).closeBoard i
        (b.expected &&& ~~~ (b.ended ||| b.lost))
    else e

/-- R134, R137: the committed board's record is built and handed over. -/
def Ev.handDecision (e : Ev) (i : Fin 32) : Ev :=
  let b := e.st.lug.boards[i]
  match b.final, b.bank with
  | some f, some k => e.handRecord (recordOf e.st b f k)
  | _, _ => e

/-- R14: the board with its final decision frozen from the solution and the override set. -/
def Board.commitSolved (b : Board) (p : Shadow) : Board :=
  { b with
    state := .committed
    final := b.solution.map fun sol =>
      { decision := standingDecision p b.classes sol b.overrides, classes := b.classes, station := b.station } }

/-- R15: the board committed unsolved, its override set kept and not applied. -/
def Board.commitUnsolved (b : Board) (p : Shadow) : Board :=
  let u := b.giveUnsolved p
  { u with
    state := .committed
    final := u.solution.map fun sol => { decision := sol, classes := u.classes, station := none } }

/-- R14, R15: the commit of the board at commit_pos. -/
def Ev.commitBoard (e : Ev) : Ev :=
  match e.st.boardAt e.st.lug.commitPos with
  | none => e
  | some i =>
    let b := e.st.lug.boards[i]
    let p := e.st.shadowOf b.bank
    match b.state with
    | .solved => (e.changeBoard i fun b => b.commitSolved p).handDecision i
    | .queued | .solving =>
      (((e.changeBoard i fun b => b.commitUnsolved p).leaveSolver b.lug).raise .unsolvedAtCommit).handDecision i
    | .free | .scanning | .committed | .trimmed | .void => e

/-- R19, R99: the record in slot `i` becomes FREE, and the plan store is told. -/
def Ev.freeBoard (e : Ev) (i : Fin 32) : Ev :=
  let b := e.st.lug.boards[i]
  (e.changeBoard i fun b => { b with state := .free }).modify fun s => { s with plan := s.plan.unbind b.bank }

/-- R18: the drop of the board at drop_pos; a TRIMMED board is first offered to the tally. A board that a restart left
untrimmed is freed without an offer (log 16). -/
def Ev.dropBoard (e : Ev) : Ev :=
  match e.st.boardAt e.st.lug.dropPos with
  | none => e
  | some i =>
    let b := e.st.lug.boards[i]
    match b.state, b.final with
    | .trimmed, some f => (e.offer (offerOf f b.flags)).freeBoard i
    | _, _ => e.freeBoard i

/-- R98: a pending plan bank becomes the active bank, and PLAN_SWITCHED is raised. -/
def Ev.switchPlan (e : Ev) : Ev :=
  match e.st.plan.pendingBank with
  | none => e
  | some k =>
    (e.modify fun s => { s with plan := { s.plan with active := some k, pendingBank := none } }).raise .planSwitched

/-- R7: the slot of the new current lug is initialised; the record is bound to the active bank, or VOID without one; a board
opened with nothing expected is closed at once. -/
def Ev.initSlot (e : Ev) : Ev :=
  let n := e.st.lug.current
  let i := slotOf n
  match e.st.plan.active with
  | none => e.changeBoard i fun _ => Board.blank n .void
  | some k =>
    let b := { Board.blank n .scanning with bank := some k, expected := e.st.activeHeads }
    ((e.changeBoard i fun _ => b).modify fun s => { s with plan := s.plan.bind k }).closeTest i

/-- R7: the opening: the plan switch, then the admissions, then the slot. -/
def Ev.openBoard (e : Ev) : Ev := e.switchPlan.admitHeads.initSlot

/-- R2: the comparison with counts_per_lug, and the new pitch. -/
def Ev.checkSlip (e : Ev) : Ev :=
  let e1 :=
    if e.st.lug.slipRef && decide (e.st.lug.encCount ≠ e.st.lug.countsPerLug) then e.raise .encoderSlip else e
  e1.modify fun s => { s with lug := { s.lug with slipRef := true, encCount := 0 } }

/-- The state of the board at position `p`. -/
def State.stateAt (s : State) (p : Nat) : BoardState :=
  match s.boardAt p with
  | some i => s.lug.boards[i].state
  | none => .free

/-- The commit and the close timeout of one LUG event both reach the solver: a board waits for or is in its solve at
commit_pos, and another is closed by timeout (log 6). -/
def State.solverContended (s : State) : Bool :=
  (s.stateAt s.lug.commitPos == .queued || s.stateAt s.lug.commitPos == .solving) &&
    s.stateAt s.lug.closeLugs == .scanning

/-- The commit and the close timeout, in an order the spec leaves open where both reach the solver (R6; log 6). -/
def Ev.commitAndTimeout (e : Ev) : Ev :=
  if e.st.solverContended then
    let e1 := e.modify fun s => { s with freeCount := s.freeCount + 1 }
    if Config.commitBeforeClose e.st.freeCount then e1.commitBoard.closeTimeout else e1.closeTimeout.commitBoard
  else e.commitBoard.closeTimeout

/-- LUG_EVENT (R1, R2, R6, R18, R126). -/
def execLugEvent (s : State) : Result :=
  if s.running then
    let e := (Ev.start s).checkSlip.modify fun s => { s with lug := { s.lug with current := s.lug.current + 1 } }
    (e.lateFire.dropBoard.armBoard.commitAndTimeout.openBoard.ask .lineStatus).done
  else notTaken s

/-! ### The loss of a head (R28, R29) -/

/-- The slots in the order of their boards' lug positions, the greatest first (R29). -/
def slotsOldestFirst (cur : Word16) : List (Fin 32) :=
  (List.range 32).map fun k => slotOf (cur + 1 + BitVec.ofNat 16 k)

/-- R29: the board in slot `i` is SCANNING and expects head `h`. -/
def State.losesHead (s : State) (h : Fin 6) (i : Fin 32) : Bool :=
  s.lug.boards[i].state == .scanning && s.lug.boards[i].expected.getLsbD h

/-- R29, steps 1 to 3, at one board. -/
def Ev.loseAt (h : Fin 6) (e : Ev) (i : Fin 32) : Ev :=
  if e.st.losesHead h i then
    (e.changeBoard i fun b =>
      { b with lost := b.lost ||| headBit h, flags := { b.flags with headLost := true } }).closeTest i
  else e

/-- R29: the loss of head `h`; HEAD_LOST is raised once if any board lost it. -/
def Ev.loseHead (e : Ev) (h : Fin 6) : Ev :=
  let slots := slotsOldestFirst e.st.lug.current
  let e1 := slots.foldl (Ev.loseAt h) e
  if slots.any (e.st.losesHead h) then e1.raise .headLost else e1

/-- HEAD_PRESENT_FALL (R28): the loss is taken first where the head is ACTIVE or LEAVING. -/
def execHeadPresentFall (h : Fin 6) (s : State) : Result :=
  let e := (Ev.start s).presentPin h false
  if s.takesEdges h then
    let e1 :=
      match s.head.ctx[h].state with
      | .active | .leaving => e.loseHead h
      | .absent | .joining | .waiting | .parked => e
    (e1.changeHead h fun c => { c with present := false, state := .absent, admitPending := false }).done
  else e.done

/-! ### The restart (R20, R104) -/

/-- R20: a live record freed, its binding released. -/
def Ev.releaseSlot (e : Ev) (i : Fin 32) : Ev :=
  if e.st.lug.boards[i].state = .free then e else e.freeBoard i

/-- LUG_TABLE_RESTART (R20, R104): every record FREE, every binding released; LINE_STATUS is requested if the bound mask
changes. No parking test of R35 is made here: a head that entered LEAVING after the head monitor took the same restart
(R39) stays LEAVING until the next close, a DESIGN CHOICE (log 28). -/
def execLugTableRestart (s : State) : Result :=
  if s.running && decide (0 < s.restart.lug) then
    let e := (Ev.start s).modify fun s => { s with restart := { s.restart with lug := s.restart.lug - 1 } }
    let e1 := (List.finRange 32).foldl Ev.releaseSlot e
    if e1.st.plan.boundMask = s.plan.boundMask then e1.done else (e1.ask .lineStatus).done
  else notTaken s

end Sys2Proof.Machine
end

