-- ==== Sys2Proof/Machine/Intake.lean ====
section
/-! DEFINITION. The scan assembler (chapter 3): the checks at fold, the fold of a DATA slice, the END, and its take of a
restart. -/

namespace Sys2Proof.Machine

open Sys2Proof

/-! ### Folding a DATA slice (R55 to R60) -/

/-- A count of an accumulator grows by one, saturating at 65535 (R60). -/
def grow (n : Nat) : Nat := min 65535 (n + 1)

/-- R57: the thickness of a thickness word; a word with any bit above bit 9 set reads as 1023. -/
def thickness (w : Nat) : Nat := if 1023 < w then 1023 else w

/-- R57: a sample is present. -/
def samplePresent (p : Shadow) (t : Nat) : Bool := decide (planPresent p ≤ t) && decide (t ≤ 1022)

/-- R59: a sample is dark. -/
def sampleDark (p : Shadow) (t g : Nat) : Bool :=
  samplePresent p t && if planInvert p then decide (planKnot p ≤ g) else decide (g < planKnot p)

/-- R57 to R59: sample line `i` of a segment, of thickness word `w` and grey byte `g`. -/
def foldSample (p : Shadow) (a : Acc) (i w g : Nat) : Acc :=
  let t := thickness w
  let present := samplePresent p t
  let dark := sampleDark p t g
  { a with
    ps := if present then grow a.ps else a.ps
    ws := if present && decide (t < planWane p) then grow a.ws else a.ws
    mt := if present then min a.mt t else a.mt
    dc := if dark && !(planRuns p && a.prev.getLsbD i) then grow a.dc else a.dc
    prev := if dark then a.prev ||| (1#8 <<< i) else a.prev &&& ~~~ (1#8 <<< i) }

/-- R55, R60: one segment's eight samples; `half` is 0 for segment 2`h` and 1 for segment 2`h` + 1. -/
def foldSegment (p : Shadow) (bs : List Byte) (half : Nat) (a : Acc) : Acc :=
  let a1 := (List.range 8).foldl
    (fun a i => foldSample p a i (sliceThickness bs (8 * half + i)) (sliceGrey bs (8 * half + i))) a
  if (List.range 8).any fun i => samplePresent p (thickness (sliceThickness bs (8 * half + i))) then
    { a1 with sl := grow a1.sl }
  else a1

/-- The first of head `h`'s two segments. -/
def firstSegment (h : Fin 6) : Fin 12 := ⟨2 * h.val, by omega⟩

/-- The second of head `h`'s two segments. -/
def secondSegment (h : Fin 6) : Fin 12 := ⟨2 * h.val + 1, by omega⟩

/-- R55: a DATA slice of head `h` folded into the board's accumulators. -/
def Board.foldSlice (b : Board) (p : Shadow) (h : Fin 6) (bs : List Byte) : Board :=
  let acc1 := b.acc.set (firstSegment h) (foldSegment p bs 0 b.acc[firstSegment h])
  { b with acc := acc1.set (secondSegment h) (foldSegment p bs 1 b.acc[secondSegment h]) }

/-! ### The checks at fold (R51 to R53) -/

/-- R51: the slice is bad. -/
def badSlice (h : Fin 6) (bs : List Byte) : Bool :=
  xorAll bs != 0 || !(sliceKind bs == 1 || sliceKind bs == 2) || sliceHead bs != h.val

/-- R49, R52: head `h`'s bad count grows by one, saturating at 255, if the board is SCANNING. -/
def Board.countBad (b : Board) (h : Fin 6) : Board :=
  if b.state = .scanning then { b with bad := b.bad.set h (min 255 (b.bad[h] + 1)) } else b

/-- R49, R52: the board of the slice's lug, if found and SCANNING, counts a bad slice. -/
def Ev.countBadSlice (e : Ev) (h : Fin 6) (bs : List Byte) : Ev :=
  match e.st.lookup (sliceLug bs) with
  | some i => e.changeBoard i fun b => b.countBad h
  | none => e

/-- R53: the board folds slices of head `h`: it is SCANNING, expects the head, and the head is neither ended nor lost. -/
def Board.waitsFor (b : Board) (h : Fin 6) : Bool :=
  b.state == .scanning && b.expected.getLsbD h && !b.ended.getLsbD h && !b.lost.getLsbD h

/-- R53: a good slice discarded; `found` is the slot of the board the lookup found. -/
def Ev.discardSlice (e : Ev) (found : Option (Fin 32)) : Ev :=
  let e1 := e.raise .sliceDiscarded
  match found with
  | some i => e1.changeBoard i fun b => { b with flags := { b.flags with lateSlices := true } }
  | none => e1

/-- R55, R61: a good slice that is not discarded: a DATA slice is folded, an END is taken and the close tested. -/
def Ev.useSlice (e : Ev) (h : Fin 6) (i : Fin 32) (bs : List Byte) : Ev :=
  if sliceKind bs = 1 then e.changeBoard i fun b => b.foldSlice (e.st.shadowOf b.bank) h bs
  else (e.changeBoard i fun b => { b with ended := b.ended ||| headBit h }).closeTest i

/-- R51 to R53: the course of a slice at its fold (Table 3-2). -/
def Ev.foldHeld (e : Ev) (h : Fin 6) (sl : HeldSlice) : Ev :=
  if badSlice h sl.bytes then (e.raise .sliceCheck).countBadSlice h sl.bytes
  else
    match e.st.lookup (sliceLug sl.bytes) with
    | none => e.discardSlice none
    | some i =>
      if sl.mark && e.st.lug.boards[i].waitsFor h then e.useSlice h i sl.bytes else e.discardSlice (some i)

/-- SLICE_FOLD (R50): head `h`'s oldest HELD slice is taken, and its slot becomes FREE (R47). -/
def execSliceFold (h : Fin 6) (s : State) : Result :=
  if s.running then
    match s.asm.held[h] with
    | [] => notTaken s
    | sl :: rest =>
      (((Ev.start s).modify fun s => { s with asm := { s.asm with held := s.asm.held.set h rest } }).foldHeld h sl).done
  else notTaken s

/-- INTAKE_RESTART (R65): every slot becomes FREE without folding. -/
def execIntakeRestart (s : State) : Result :=
  if s.running && decide (0 < s.restart.asm) then
    ((Ev.start s).modify fun s =>
      { s with
        restart := { s.restart with asm := s.restart.asm - 1 }
        asm := { s.asm with held := Vector.replicate 6 [] } }).done
  else notTaken s

/-! ### Arrival (R43, R45, R49) -/

/-- R43: a head has free credit. -/
def Assembler.hasCredit (a : Assembler) (h : Fin 6) : Bool := decide (a.held[h].length < a.granted[h])

/-- R45: the arrival mark: the board of the slice's lug is found and SCANNING. -/
def State.arrivalMark (s : State) (bs : List Byte) : Bool :=
  match s.lookup (sliceLug bs) with
  | some i => s.lug.boards[i].state == .scanning
  | none => false

/-- R45: a slice taken into intake joins the tail of its head's list. -/
def Ev.intake (e : Ev) (h : Fin 6) (bs : List Byte) : Ev :=
  e.modify fun s =>
    { s with asm := { s.asm with held := s.asm.held.set h (s.asm.held[h] ++ [{ bytes := bs, mark := s.arrivalMark bs }]) } }

end Sys2Proof.Machine
end

