-- ==== Sys2Proof/Machine/Operands.lean ====
section
/-! DEFINITION. The operand forms of an upstream write: its aperture and offset, the words it writes, its shape, and the word
of the control block an offset names (R168, R170, R210, Table 12-3). -/

namespace Sys2Proof.Machine

open Sys2Proof

/-- The seven apertures, Table 0-1. -/
inductive Aperture where
  | ctrl
  | planA
  | planB
  | scan
  | ovr
  | dec
  | tally
  deriving DecidableEq, Repr

/-- R168: each aperture with its base and its size. -/
def State.spans (s : State) : List (Aperture × Nat × Nat) :=
  [(.ctrl, s.path.bases.ctrl, 256), (.planA, s.path.bases.planA, 1024), (.planB, s.path.bases.planB, 1024),
   (.scan, s.path.bases.scan, 6 * s.path.scanSlots * 64), (.ovr, s.path.bases.ovr, s.ovr.ringSize * 8),
   (.dec, s.path.bases.dec, s.dec.ringSize * 32), (.tally, s.path.bases.tally, 2048)]

/-- The first aperture of a list that holds address `a`, and the offset in it. -/
def findAperture (a : Nat) : List (Aperture × Nat × Nat) → Option (Aperture × Nat)
  | [] => none
  | (k, base, size) :: rest => if base ≤ a ∧ a < base + size then some (k, a - base) else findAperture a rest

/-- R168: the aperture a transaction falls in, and the offset of its first beat. -/
def State.decode (s : State) (t : Txn) : Option (Aperture × Nat) :=
  findAperture (txnStart t) s.spans

/-- R170, R185: the 32-bit words a write writes, those whose four strobes are set, with their offsets, in address order.
`off` is the offset of the first lane. -/
def wordsOf (off : Nat) : List Lane → List (Nat × Word32)
  | a :: b :: c :: d :: rest =>
    if a.strobe && b.strobe && c.strobe && d.strobe then
      (off, BitVec.ofNat 32 (leNat [a.data, b.data, c.data, d.data])) :: wordsOf (off + 4) rest
    else wordsOf (off + 4) rest
  | _ => []

/-- R170: every byte written belongs to a word whose four strobes are all set. -/
def wholeWords : List Lane → Bool
  | a :: b :: c :: d :: rest =>
    ((a.strobe && b.strobe && c.strobe && d.strobe) || !(a.strobe || b.strobe || c.strobe || d.strobe)) &&
      wholeWords rest
  | lanes => lanes.all fun l => !l.strobe

/-- R41: a write into SCAN at offset `off` is a whole slice. -/
def wholeSlice (off : Nat) (t : Txn) : Bool :=
  decide (off % 64 = 0) && decide (t.beats = 8) && decide (t.lanes.length = 64) && t.lanes.all (·.strobe)

/-- The bytes a write carries. -/
def laneBytes (lanes : List Lane) : List Byte := lanes.map (·.data)

/-- The words of the control block, Table 12-3. -/
inductive CtrlWord where
  | notice
  | noticeEnable
  | planSelect
  | lineStatus
  | tallyRequest
  | tallyStatus
  | lineRestart
  | ovrProducer
  | ovrConsumer
  | decProducer
  | decConsumer
  | trapClear
  | headCommand (h : Fin 6)
  | headStatus
  | sourceStatus
  | unlisted
  deriving DecidableEq, Repr

/-- Table 12-3: the word at a word-aligned offset. -/
def ctrlWordAt (off : Nat) : CtrlWord :=
  if off = 0x00 then .notice
  else if off = 0x04 then .noticeEnable
  else if off = 0x08 then .planSelect
  else if off = 0x0C then .lineStatus
  else if off = 0x10 then .tallyRequest
  else if off = 0x14 then .tallyStatus
  else if off = 0x18 then .lineRestart
  else if off = 0x1C then .ovrProducer
  else if off = 0x20 then .ovrConsumer
  else if off = 0x24 then .decProducer
  else if off = 0x28 then .decConsumer
  else if off = 0x2C then .trapClear
  else if h : 0x40 ≤ off ∧ off < 0x58 then .headCommand ⟨(off - 0x40) / 4, by omega⟩
  else if 0x60 ≤ off ∧ off < 0x78 then .headStatus
  else if 0x80 ≤ off ∧ off < 0xC0 then .sourceStatus
  else .unlisted

/-- R184, test 2: the words the part alone writes. -/
def CtrlWord.owned : CtrlWord → Bool
  | .lineStatus | .tallyStatus | .ovrConsumer | .decProducer | .headStatus | .sourceStatus => true
  | .notice | .noticeEnable | .planSelect | .tallyRequest | .lineRestart | .ovrProducer | .decConsumer => false
  | .trapClear | .headCommand _ | .unlisted => false

/-- R184, test 5: the words only the control source writes. -/
def CtrlWord.reserved : CtrlWord → Bool
  | .noticeEnable | .planSelect | .tallyRequest | .lineRestart | .trapClear | .headCommand _ => true
  | .notice | .lineStatus | .tallyStatus | .ovrProducer | .ovrConsumer | .decProducer | .decConsumer => false
  | .headStatus | .sourceStatus | .unlisted => false

/-- The control block words a write at offset `off` writes, with the values written, in address order. -/
def ctrlWords (off : Nat) (t : Txn) : List (CtrlWord × Word32) :=
  (wordsOf off t.lanes).map fun w => (ctrlWordAt w.1, w.2)

/-- The value a write writes to a word, if it writes it. -/
def valueOf (k : CtrlWord) : List (CtrlWord × Word32) → Option Word32
  | [] => none
  | (j, w) :: rest => if j = k then some w else valueOf k rest

/-- R171: the data of the four bytes at offset `off` on their way to memory. `noticeNow` is the notice unit's word. -/
def substituteWord (noticeNow : NoticeSet) (off : Nat) (w : Word32) : Word32 :=
  match ctrlWordAt off with
  | .notice => (noticeNow &&& ~~~ w.setWidth 18).setWidth 32
  | .lineRestart | .trapClear | .headCommand _ => 0
  | .noticeEnable | .planSelect | .lineStatus | .tallyRequest | .tallyStatus | .ovrProducer | .ovrConsumer => w
  | .decProducer | .decConsumer | .headStatus | .sourceStatus | .unlisted => w

/-- Byte `i` of a word. -/
def byteOfWord (w : Word32) (i : Nat) : Byte := BitVec.ofNat 8 (w.toNat / 256 ^ i)

/-- R171: the lanes of a forwarded CTRL write with the replaced words' data substituted; the strobes are as issued. -/
def substituteLanes (noticeNow : NoticeSet) (off : Nat) : List Lane → List Lane
  | a :: b :: c :: d :: rest =>
    if a.strobe && b.strobe && c.strobe && d.strobe then
      let w := substituteWord noticeNow off (BitVec.ofNat 32 (leNat [a.data, b.data, c.data, d.data]))
      { a with data := byteOfWord w 0 } :: { b with data := byteOfWord w 1 } :: { c with data := byteOfWord w 2 } ::
        { d with data := byteOfWord w 3 } :: substituteLanes noticeNow (off + 4) rest
    else a :: b :: c :: d :: substituteLanes noticeNow (off + 4) rest
  | lanes => lanes

end Sys2Proof.Machine
end

