-- ==== Sys2Proof/Machine/Plan.lean ====
section
/-! DEFINITION. The plan store's takes of forwarded writes (R92, R96). -/

namespace Sys2Proof.Machine

open Sys2Proof

/-- R92: the strobed lanes at offsets 0 to 207 copied into a shadow. -/
def copyLanes (sh : Shadow) (off : Nat) : List Lane → Shadow
  | [] => sh
  | l :: ls => copyLanes (if l.strobe then sh.setIfInBounds off l.data else sh) (off + 1) ls

/-- R92: a forwarded write into plan bank `k` copied into its shadow. -/
def Ev.copyPlan (e : Ev) (k : Bank) (off : Nat) (lanes : List Lane) : Ev :=
  e.modify fun s =>
    { s with plan := s.plan.setBank k { s.plan.bank k with shadow := copyLanes (s.plan.bank k).shadow off lanes } }

/-- R96, Table 5-2: naming the active bank cancels a pending switch; naming the other bank sets it pending. -/
def PlanStore.select (p : PlanStore) (k : Bank) : PlanStore :=
  if p.active = some k then { p with pendingBank := none } else { p with pendingBank := some k }

/-- R96: PLAN_SELECT taken at the plan store; a change of the active or pending bank requests a LINE_STATUS write. -/
def Ev.takeSelect (e : Ev) (w : Word32) : Ev :=
  match bankOfField (fieldOf w 0 2) with
  | none => e
  | some k =>
    let e1 := e.modify fun s => { s with plan := s.plan.select k }
    if (e.st.plan.select k).pendingBank = e.st.plan.pendingBank then e1 else e1.ask .lineStatus

end Sys2Proof.Machine
end

