-- ==== Sys2Proof/Machine/Sources.lean ====
section
/-! DEFINITION. The source table (chapter 10): the permission test, trapping, exhaustion and the freeing of sources. -/

namespace Sys2Proof.Machine

open Sys2Proof

/-- The four trap causes (R182). -/
inductive Cause where
  | range
  | shape
  | ownedWord
  | planBound
  deriving DecidableEq, Repr

/-- What the permission test answers (R184). -/
inductive Permission where
  | pass
  | trapped
  | cause (c : Cause)
  deriving DecidableEq, Repr

/-- R184, test 1, R185: the control source writes NOTICE or TRAP_CLEAR alone. -/
def clearsOnly (words : List (CtrlWord × Word32)) : Bool :=
  !words.isEmpty && words.all fun w => w.1 == .notice || w.1 == .trapClear

/-- R184, test 2: some word written is owned; NOTICE is owned for every source but the control source. -/
def writesOwned (isControl : Bool) (words : List (CtrlWord × Word32)) : Bool :=
  words.any fun w => w.1.owned || (w.1 == .notice && !isControl)

/-- R184, test 5: some word written is the control source's alone. -/
def writesReserved (words : List (CtrlWord × Word32)) : Bool :=
  words.any fun w => w.1.reserved

/-- R183: the mask in force of an aperture that has one. -/
def SourceTable.mask (t : SourceTable) : Aperture → Option SourceSet
  | .ctrl => some t.maskCtrl
  | .planA => some t.maskPlanA
  | .planB => some t.maskPlanB
  | .ovr => some t.maskOvr
  | .scan | .dec | .tally => none

/-- R184, test 3: the source is outside the mask of the aperture. -/
def SourceTable.barred (t : SourceTable) (ap : Aperture) (i : Fin 16) : Bool :=
  match t.mask ap with
  | some m => !m.getLsbD i
  | none => false

/-- R40: the ring of an offset in SCAN. -/
def ringOf (scanSlots off : Nat) : Fin 6 := ⟨off / (scanSlots * 64) % 6, Nat.mod_lt _ (by decide)⟩

/-- R184: step 2 of the decision, the five tests in order. -/
def permission (s : State) (t : Txn) (ap : Aperture) (off : Nat) : Permission :=
  let words := if ap = .ctrl then ctrlWords off t else []
  let isControl := decide (t.source = s.src.control)
  if s.src.ctx[t.source].trapped && !(isControl && clearsOnly words) then .trapped
  else if ap = .dec || ap = .tally || writesOwned isControl words then .cause .ownedWord
  else if s.src.barred ap t.source then .cause .range
  else if ap = .scan && decide (t.source ≠ s.src.headSource[ringOf s.path.scanSlots off]) then .cause .range
  else if writesReserved words && !isControl then .cause .range
  else .pass

/-- R186: the cause joins the context's trap causes. -/
def SourceCtx.addCause (c : SourceCtx) : Cause → SourceCtx
  | .range => { c with trapped := true, range := true }
  | .shape => { c with trapped := true, shape := true }
  | .ownedWord => { c with trapped := true, ownedWord := true }
  | .planBound => { c with trapped := true, planBound := true }

/-- R186: a protection refusal traps the source, requests a SOURCE_STATUS write and raises SOURCE_TRAPPED. -/
def Ev.trap (e : Ev) (i : Fin 16) (c : Cause) : Ev :=
  ((e.changeSource i fun x => x.addCause c).ask (.sourceStatus i)).raise .sourceTrapped

/-- R48, R182: the source is exhausted. -/
def SourceTable.exhausted (t : SourceTable) (i : Fin 16) : Bool :=
  decide (0 < t.maxRetry) && decide (t.maxRetry ≤ t.ctx[i].retries)

/-- R190: the exhaustion outcome: the count returns to 0 and the mark is set. -/
def Ev.exhaust (e : Ev) (i : Fin 16) : Ev :=
  (e.changeSource i fun c => { c with retries := 0, mark := true }).ask (.sourceStatus i)

/-- R191: the accepted aperture writes grow by one, wrapping. -/
def Ev.acceptWrite (e : Ev) (i : Fin 16) : Ev :=
  e.changeSource i fun c => { c with accepted := c.accepted + 1 }

/-- R193: a source freed; its accepted aperture writes are kept. -/
def SourceCtx.freed (c : SourceCtx) : SourceCtx :=
  { c with trapped := false, range := false, shape := false, ownedWord := false, planBound := false, mark := false,
           retries := 0 }

/-- R193: TRAP_CLEAR taken at the source table. -/
def Ev.takeTrapClear (e : Ev) (w : Word32) : Ev :=
  (List.finRange 16).foldl
    (fun e (i : Fin 16) => if w.getLsbD i then e.changeSource i SourceCtx.freed else e) e

end Sys2Proof.Machine
end

