-- ==== Sys2Proof/Machine/Path.lean ====
section
/-! DEFINITION. The memory path (chapter 9): acceptance, the decision of a granted write, its forwarding, the own side's
grant and memory's answers. -/

namespace Sys2Proof.Machine

open Sys2Proof

/-! ### The decision of a granted transaction (R169) -/

/-- The course of a granted transaction: what Table 9-2, the condition of the part and the head settle for it. -/
inductive Course where
  /-- A READ, a WRITE outside the apertures, and everything while PASSIVE: issued as issued upstream. -/
  | asIssued
  /-- R178: a WRITE during boot. -/
  | bootRetry
  /-- R186: a protection refusal. -/
  | refused (c : Cause)
  /-- R187: the refusal of a trapped source. -/
  | refusedTrapped
  /-- R111, R152, R190: given up while the block is busy. -/
  | refusedExhausted
  /-- R46, R111, R152: held off, and counted. -/
  | retry
  /-- Step 6. -/
  | forward (ap : Aperture) (off : Nat)
  /-- R41: not a whole slice. -/
  | partialSlice
  /-- R37: a whole slice from a head that is not ACTIVE or LEAVING. -/
  | passBy
  /-- R45: a whole slice taken into intake. -/
  | intake (h : Fin 6)
  /-- R49: a whole slice given up. -/
  | giveUp (h : Fin 6)
  deriving DecidableEq, Repr

/-- R170: the apertures with the shape test of step 1. -/
def Aperture.needsWords : Aperture → Bool
  | .ctrl | .planA | .planB | .ovr => true
  | .scan | .dec | .tally => false

/-- R169, step 4: the write writes a watched word whose block is busy. -/
def busyWord (s : State) (words : List (CtrlWord × Word32)) : Bool :=
  ((valueOf .ovrProducer words).isSome && s.ovr.batch.isSome) ||
    ((valueOf .tallyRequest words).isSome && s.tally.request.isSome)

/-- R169, step 5: a write into SCAN (Table 3-1). -/
def sliceCourse (s : State) (t : Txn) (off : Nat) : Course :=
  let h := ringOf s.path.scanSlots off
  if !wholeSlice off t then .partialSlice
  else
    match s.head.ctx[h].state with
    | .active | .leaving =>
      if s.src.exhausted t.source then .giveUp h
      else if s.asm.hasCredit h then .intake h
      else .retry
    | .absent | .joining | .waiting | .parked => .passBy

/-- R169, Table 9-2: the decision of a WRITE into an aperture while RUNNING. -/
def decideWrite (s : State) (t : Txn) (ap : Aperture) (off : Nat) : Course :=
  if ap.needsWords && !wholeWords t.lanes then .refused .shape
  else
    match permission s t ap off with
    | .trapped => .refusedTrapped
    | .cause c => .refused c
    | .pass =>
      match ap with
      | .planA => if s.plan.bound .a then .refused .planBound else .forward .planA off
      | .planB => if s.plan.bound .b then .refused .planBound else .forward .planB off
      | .ctrl =>
        if busyWord s (ctrlWords off t) then
          if s.src.exhausted t.source then .refusedExhausted else .retry
        else .forward .ctrl off
      | .scan => sliceCourse s t off
      | .ovr => .forward .ovr off
      | .dec | .tally => .refused .ownedWord

/-- R168, R169, R178, R179: the course of a granted transaction. -/
def courseOf (s : State) (t : Txn) : Course :=
  match t.kind with
  | .read => .asIssued
  | .write =>
    match s.boot.condition with
    | .deviceReset | .booting => .bootRetry
    | .passive => .asIssued
    | .running =>
      match s.decode t with
      | none => .asIssued
      | some (ap, off) => decideWrite s t ap off

/-! ### What a grant does -/

/-- R176: the granted transaction is issued downstream and becomes IN_MEMORY, and the flag records the forwarded side. -/
def Ev.issue (e : Ev) (t : Txn) (lanes : List Lane) (givenUp startsBatch startsTally : Bool) : Ev :=
  e.modify fun s =>
    { s with path :=
        { s.path with
          flight := changeFirst UpTxn.isReady (fun u => { u with state := .inMemory givenUp }) s.path.flight
          down := s.path.down ++
            [{ origin := .forwarded t.source startsBatch startsTally,
               wire := { kind := t.kind, start := txnStart t, beats := t.beats, lanes := lanes } }]
          lastGranted := .forwarded } }

/-- R176: the granted transaction's response is settled; nothing is issued and the flag is not changed. -/
def Ev.settle (e : Ev) (r : Settled) : Ev :=
  (e.modify fun s =>
    { s with path :=
        { s.path with
          flight := changeFirst UpTxn.isReady (fun u => { u with state := .answered r }) s.path.flight } }).returnResponses

/-- R207: a line restart is requested from every block that holds line state. -/
def Ev.requestRestart (e : Ev) : Ev :=
  e.modify fun s =>
    { s with restart :=
        { lug := s.restart.lug + 1, head := s.restart.head + 1, asm := s.restart.asm + 1, solv := s.restart.solv + 1,
          trim := s.restart.trim + 1 } }

/-- R169, R171: a watched word of a forwarded write taken by its block. -/
def Ev.takeWord (e : Ev) (k : CtrlWord) (w : Word32) : Ev :=
  match k with
  | .notice => e.modify fun s => { s with note := { s.note with word := s.note.word &&& ~~~ w.setWidth 18 } }
  | .noticeEnable => e.modify fun s => { s with note := { s.note with enable := w.setWidth 18 } }
  | .planSelect => e.takeSelect w
  | .tallyRequest => e.takeRequest w
  | .lineRestart => if w = 1 then e.requestRestart else e
  | .ovrProducer => e.takeProducer w
  | .decConsumer => e.takeConsumer w
  | .trapClear => e.takeTrapClear w
  | .headCommand h => e.takeHeadCommand h w
  | .lineStatus | .tallyStatus | .ovrConsumer | .decProducer | .headStatus | .sourceStatus | .unlisted => e

/-- R169: each watched word taken in address order. -/
def Ev.takeWords (e : Ev) : List (CtrlWord × Word32) → Ev
  | [] => e
  | (k, w) :: rest => (e.takeWord k w).takeWords rest

/-- R169, R171: a write into CTRL forwarded, its words taken and its replaced words substituted. -/
def Ev.forwardCtrl (e : Ev) (t : Txn) (off : Nat) : Ev :=
  let words := ctrlWords off t
  let e1 := e.takeWords words
  e1.issue t (substituteLanes e.st.note.word off t.lanes) false
    ((valueOf .ovrProducer words).isSome && e1.st.ovr.batch.isSome) (valueOf .tallyRequest words).isSome

/-- R169, step 6: the forwarding of a write into aperture `ap`. -/
def Ev.forwardWrite (e : Ev) (t : Txn) (ap : Aperture) (off : Nat) : Ev :=
  match ap with
  | .ctrl => e.forwardCtrl t off
  | .planA => (e.copyPlan .a off t.lanes).issue t t.lanes false false false
  | .planB => (e.copyPlan .b off t.lanes).issue t t.lanes false false false
  | .scan | .ovr | .dec | .tally => e.issue t t.lanes false false false

/-- The grant of a transaction of the forwarded side whose course is settled. -/
def Ev.takeCourse (e : Ev) (t : Txn) : Course → Ev
  | .asIssued => e.issue t t.lanes false false false
  | .bootRetry => e.settle { response := .retry, counted := false, givenUp := false }
  | .refused c => (e.trap t.source c).settle { response := .refused, counted := false, givenUp := false }
  | .refusedTrapped => e.settle { response := .refused, counted := false, givenUp := false }
  | .refusedExhausted => (e.exhaust t.source).settle { response := .refused, counted := false, givenUp := true }
  | .retry => e.settle { response := .retry, counted := true, givenUp := false }
  | .forward ap off => (e.acceptWrite t.source).forwardWrite t ap off
  | .partialSlice => ((e.acceptWrite t.source).raise .sliceCheck).issue t t.lanes false false false
  | .passBy => (e.acceptWrite t.source).issue t t.lanes false false false
  | .intake h => ((e.acceptWrite t.source).intake h (laneBytes t.lanes)).issue t t.lanes false false false
  | .giveUp h =>
    ((((e.acceptWrite t.source).countBadSlice h (laneBytes t.lanes)).raise .sliceDiscarded).exhaust t.source).issue t
      t.lanes true false false

/-! ### The arbiter (R176) -/

/-- The oldest READY transaction. -/
def State.oldestReady (s : State) : Option Txn := (s.path.flight.find? UpTxn.isReady).map (·.txn)

/-- R176: the transaction of the forwarded side the arbiter would grant now: the own side does not wait, or was granted
last. -/
def State.forwardedTurn (s : State) : Option Txn :=
  if s.boot.condition ≠ .deviceReset ∧ (s.path.queue = [] ∨ s.path.lastGranted = .own) then s.oldestReady else none

/-- R176: the entry of the own-write queue the arbiter would grant now: the forwarded side does not wait, or was granted
last. -/
def State.ownTurn (s : State) : Option OwnTxn :=
  if s.oldestReady = none ∨ s.path.lastGranted = .forwarded then s.path.queue.head? else none

/-- The grant of transaction `t`, the oldest READY one: one whole event. -/
def grant (s : State) (t : Txn) : State := ((Ev.start s).takeCourse t (courseOf s t)).finishPath

/-- R172, R173: the oldest entry of the queue leaves it and is issued with its data, and the oldest waiting request enters at
the tail. -/
def State.issueOwn (s : State) (k : OwnTxn) (rest : List OwnTxn) : State :=
  { s with path :=
      { s.path with
        queue := rest ++ s.path.waiting.take 1
        waiting := s.path.waiting.drop 1
        down := s.path.down ++ [{ origin := .own k, wire := ownWire s k }]
        lastGranted := .own } }

/-- ARBITER_GRANT_OWN (R176). -/
def execArbiterGrantOwn (s : State) : Result :=
  match s.ownTurn, s.path.queue with
  | some _, k :: rest => ((Ev.start s).modify fun s => s.issueOwn k rest).done
  | _, _ => notTaken s

/-! ### Acceptance (R165) -/

/-- UPSTREAM_ACCEPT (R165): the port accepts while fewer than 8 are in flight. A transaction that would cross a line is
answered REFUSED; another is presented in its source's order. During boot R178 has every WRITE answered RETRY; that a WRITE
that would cross a line is REFUSED at its acceptance even then, as R165 says, is a DESIGN CHOICE (log 30). -/
def execUpstreamAccept (t : Txn) (s : State) : Result :=
  if s.boot.condition ≠ .deviceReset ∧ s.path.flight.length < 8 then
    if crossesLine t then
      (((Ev.start s).modify fun s =>
        { s with path := { s.path with flight := s.path.flight ++
            [{ txn := t, state := .answered { response := .refused, counted := false, givenUp := false } }] } }
        ).returnResponses).done
    else
      ((Ev.start s).modify fun s =>
        { s with path := { s.path with flight := s.path.flight ++ [{ txn := t, state := .behind }] } }).donePath
  else notTaken s

/-! ### Memory's answers (R177) -/

/-- R167: the response memory's answer settles for a forwarded transaction. -/
def responseOf (m : Memory) (w : Wire) (ok : Bool) : Response :=
  if ok then
    match w.kind with
    | .read => .complete (m.bytes w.start (8 * w.beats))
    | .write => .complete []
  else .refused

/-- Whether a transaction in flight was given the exhaustion outcome (R189). -/
def UpState.wasGivenUp : UpState → Bool
  | .inMemory g => g
  | .behind | .held _ | .ready | .answered _ => false

/-- R167, R190: an IN_MEMORY transaction with its response settled. -/
def UpTxn.answeredWith (u : UpTxn) (r : Response) : UpTxn :=
  { u with state := .answered { response := r, counted := false, givenUp := u.state.wasGivenUp } }

/-- R167, R177: source `i`'s oldest transaction IN_MEMORY is answered. A source's transactions are issued and answered in
order (R166). -/
def Ev.answerForwarded (e : Ev) (i : Fin 16) (r : Response) : Ev :=
  (e.modify fun s =>
    { s with path :=
        { s.path with
          flight := changeFirst (UpTxn.isInMemoryOf i)
            (fun u => u.answeredWith r) s.path.flight } }).returnResponses

/-- The oldest transaction memory has not answered is answered: a write answered OK is in memory (R166, R177). -/
def Ev.popDown (e : Ev) (rest : List Down) (w : Wire) (ok : Bool) : Ev :=
  e.modify fun s =>
    { s with path := { s.path with down := rest }, mem := if ok then s.mem.apply w else s.mem }

/-- MEMORY_ANSWER (R177): memory answers a forwarded transaction, OK or ERROR. The first fetch of a batch follows the answer
of its producer write (R108), and a tally request's answer may complete it (R153). -/
def execMemoryAnswer (ok : Bool) (s : State) : Result :=
  match s.path.down with
  | { origin := .forwarded i startsBatch startsTally, wire := w } :: rest =>
    let e := ((Ev.start s).popDown rest w ok).answerForwarded i (responseOf s.mem w ok)
    let e1 := if startsBatch then e.fetchEntry else e
    (if startsTally then e1.requestWriteAnswered else e1).done
  | _ => notTaken s

/-- R109: memory has answered the fetch of an override entry. -/
def Ev.fetchAnswered (e : Ev) (data : Option (List Byte)) : Ev :=
  e.changeOvr fun u => { u with fetched := some data }

/-- R174: the answer is handed to the block that requested the own transaction. -/
def Ev.ownAnswered (e : Ev) (k : OwnTxn) (ok : Bool) (data : List Byte) : Ev :=
  match k with
  | .ovrFetch _ => e.fetchAnswered (if ok then some data else none)
  | .ovrStatus _ _ => e.statusAnswered
  | .decRecord _ _ => e.recordAnswered
  | .decProducer _ byWriter => e.producerAnswered byWriter
  | .imageLine _ _ _ => e.imageAnswered ok
  | .notice | .lineStatus | .headStatus _ | .sourceStatus _ | .tallyStatus => e
  | .noticeEnable _ | .ovrConsumer _ | .tallyCompletion _ => e

/-- R175: memory has answered own write `k`, and the transactions held behind it on its line are released by one. -/
def Ev.releaseLine (e : Ev) (k : OwnTxn) (w : Wire) : Ev :=
  if k.isWrite then
    e.modify fun s => { s with path := { s.path with flight := s.path.flight.map (releaseHold (lineOf w.start)) } }
  else e

/-- OWN_TRANSACTION_ANSWER (R174): memory answers an own transaction; MEMORY_ERROR is raised on ERROR. -/
def execOwnTransactionAnswer (ok : Bool) (s : State) : Result :=
  match s.path.down with
  | { origin := .own k, wire := w } :: rest =>
    let e := ((Ev.start s).popDown rest w ok).releaseLine k w
    let e1 := if ok then e else e.raise .memoryError
    (e1.ownAnswered k ok (s.mem.bytes w.start (8 * w.beats))).done
  | _ => notTaken s

end Sys2Proof.Machine
end

