-- ==== Sys2Proof/Machine/Grants.lean ====
section
/-! DEFINITION. The rows of the table that are grants of the forwarded side. Each is the whole grant event of the oldest READY
transaction (`grant`), taken where that transaction is of the row's kind; where it is not, the row's event does not arise
(log 13). -/

namespace Sys2Proof.Machine

open Sys2Proof

/-- While RUNNING: the aperture and offset of a write. -/
def writeInto (s : State) (t : Txn) : Option (Aperture × Nat) :=
  if s.running && t.kind == .write then s.decode t else none

/-- While RUNNING: the words of CTRL a write that is forwarded writes, with their values. -/
def forwardedWords (s : State) (t : Txn) : List (CtrlWord × Word32) :=
  match writeInto s t with
  | some (.ctrl, off) => if decideWrite s t .ctrl off = .forward .ctrl off then ctrlWords off t else []
  | _ => []

/-- A forwarded write writes word `k` with a value that meets `p`. -/
def writesWord (s : State) (t : Txn) (k : CtrlWord) (p : Word32 → Bool) : Bool :=
  (forwardedWords s t).any fun w => w.1 == k && p w.2

/-- PLAN_BANK_WRITE: a write into PLAN_A or PLAN_B. -/
def isPlanBankWrite (s : State) (t : Txn) : Bool :=
  match writeInto s t with
  | some (.planA, _) | some (.planB, _) => true
  | _ => false

/-- SLICE_WRITE: a write into SCAN. -/
def isSliceWrite (s : State) (t : Txn) : Bool :=
  match writeInto s t with
  | some (.scan, _) => true
  | _ => false

/-- OVR_PRODUCER: a write of that word that passes steps 1 to 3, whether taken, held off or given up. -/
def isOvrProducer (s : State) (t : Txn) : Bool :=
  match writeInto s t with
  | some (.ctrl, off) =>
    (valueOf .ovrProducer (ctrlWords off t)).isSome &&
      (decideWrite s t .ctrl off == .forward .ctrl off || decideWrite s t .ctrl off == .retry ||
        decideWrite s t .ctrl off == .refusedExhausted)
  | _ => false

/-- A TALLY_REQUEST value asks for a CLOSE_SHIFT. -/
def asksCloseShift (w : Word32) : Bool := tallyAsk w == .closeShift

/-- A TALLY_REQUEST value asks for a snapshot of a named bank. -/
def asksSnapshot (w : Word32) : Bool := tallyAsk w == .snapshot .a || tallyAsk w == .snapshot .b

/-- A TALLY_REQUEST value asks for a CLEAR of a named bank. -/
def asksClear (w : Word32) : Bool := tallyAsk w == .clear .a || tallyAsk w == .clear .b

/-- A TALLY_REQUEST value is refused for its code or bank field. -/
def asksRefused (w : Word32) : Bool := tallyAsk w == .refused

/-- A HEAD_COMMAND value is unknown (R31). -/
def unknownCommand (w : Word32) : Bool := decide (w ≠ 0) && decide (w ≠ 1) && decide (w ≠ 2)

/-- The write has a row of its own but APERTURE_WRITE. -/
def hasOwnRow (s : State) (t : Txn) : Bool :=
  isPlanBankWrite s t || isSliceWrite s t || isOvrProducer s t ||
    (forwardedWords s t).any fun w =>
      match w.1 with
      | .notice | .noticeEnable | .planSelect | .tallyRequest | .decConsumer | .trapClear => true
      | .lineRestart => w.2 == 1
      | .headCommand _ => w.2 != 0
      | .lineStatus | .tallyStatus | .ovrProducer | .ovrConsumer | .decProducer | .headStatus | .sourceStatus => false
      | .unlisted => false

/-- APERTURE_WRITE: a write into an aperture with no row of its own; while booting or PASSIVE, when the part decodes
nothing, any write. -/
def isApertureWrite (s : State) (t : Txn) : Bool :=
  if s.running then (writeInto s t).isSome && !hasOwnRow s t else t.kind == .write

/-- FORWARDED_SIDE_GRANT: a READ, or a WRITE outside the apertures; while booting or PASSIVE, any transaction. -/
def isForwardedSideGrant (s : State) (t : Txn) : Bool :=
  if s.running then (writeInto s t).isNone else true

/-- The grant event of a row: taken if the arbiter grants the forwarded side now and the granted transaction is the row's. -/
def grantIf (row : State → Txn → Bool) (s : State) : Result :=
  match s.forwardedTurn with
  | some t => if row s t then .next (grant s t) else notTaken s
  | none => notTaken s

/-- APERTURE_WRITE (R169). -/
def execApertureWrite (s : State) : Result := grantIf isApertureWrite s

/-- PLAN_BANK_WRITE (R92, R94). -/
def execPlanBankWrite (s : State) : Result := grantIf isPlanBankWrite s

/-- SLICE_WRITE (R40, R45). -/
def execSliceWrite (s : State) : Result := grantIf isSliceWrite s

/-- PLAN_SELECT (R96). -/
def execPlanSelect (s : State) : Result := grantIf (fun s t => writesWord s t .planSelect fun _ => true) s

/-- ADMIT (R31, R32): HEAD_COMMAND[`h`] written with 1. -/
def execAdmit (h : Fin 6) (s : State) : Result :=
  grantIf (fun s t => writesWord s t (.headCommand h) fun w => w == 1) s

/-- RELEASE (R31, R33): HEAD_COMMAND[`h`] written with 2. -/
def execRelease (h : Fin 6) (s : State) : Result :=
  grantIf (fun s t => writesWord s t (.headCommand h) fun w => w == 2) s

/-- HEAD_COMMAND_UNKNOWN (R31): HEAD_COMMAND[`h`] written with a value other than 0, 1 or 2. -/
def execHeadCommandUnknown (h : Fin 6) (s : State) : Result :=
  grantIf (fun s t => writesWord s t (.headCommand h) unknownCommand) s

/-- OVR_PRODUCER (R108, R111). -/
def execOvrProducer (s : State) : Result := grantIf isOvrProducer s

/-- DEC_CONSUMER (R140). -/
def execDecConsumer (s : State) : Result := grantIf (fun s t => writesWord s t .decConsumer fun _ => true) s

/-- TALLY_CLOSE_SHIFT (R151, R154). -/
def execTallyCloseShift (s : State) : Result := grantIf (fun s t => writesWord s t .tallyRequest asksCloseShift) s

/-- TALLY_SNAPSHOT (R151, R157). -/
def execTallySnapshot (s : State) : Result := grantIf (fun s t => writesWord s t .tallyRequest asksSnapshot) s

/-- TALLY_CLEAR (R151, R155). -/
def execTallyClear (s : State) : Result := grantIf (fun s t => writesWord s t .tallyRequest asksClear) s

/-- TALLY_REQUEST_REFUSED (R151). -/
def execTallyRequestRefused (s : State) : Result := grantIf (fun s t => writesWord s t .tallyRequest asksRefused) s

/-- NOTICE (R171, R198). -/
def execNotice (s : State) : Result := grantIf (fun s t => writesWord s t .notice fun _ => true) s

/-- NOTICE_ENABLE (R199). -/
def execNoticeEnable (s : State) : Result := grantIf (fun s t => writesWord s t .noticeEnable fun _ => true) s

/-- TRAP_CLEAR (R193). -/
def execTrapClear (s : State) : Result := grantIf (fun s t => writesWord s t .trapClear fun _ => true) s

/-- LINE_RESTART (R207): LINE_RESTART written with 1. -/
def execLineRestart (s : State) : Result := grantIf (fun s t => writesWord s t .lineRestart fun w => w == 1) s

/-- FORWARDED_SIDE_GRANT (R176). -/
def execForwardedSideGrant (s : State) : Result := grantIf isForwardedSideGrant s

end Sys2Proof.Machine
end

