-- ==== Sys2Proof/Machine/Startup.lean ====
section
/-! DEFINITION. Device reset and boot (section 11.2): the boot block's fields and clamps, the examination of the image, the
hand-over to the blocks, and failure. -/

namespace Sys2Proof.Machine

open Sys2Proof

/-! ### The boot block (R204, R216, Table 12-11) -/

/-- R204: a ring size: clamped to its range, and rounded down to a power of two. -/
def ringSizeOf (lo hi x : Nat) : Nat :=
  if x < lo then lo else if hi < x then hi else 2 ^ Nat.log2 x

/-- heads_fitted: bits 0 to 5 of byte 3. -/
def bootFitted (bs : List Byte) : HeadSet := (bs.getD 3 0).setWidth 6

/-- A source ID: the low four bits of byte `i`. -/
def bootSource (bs : List Byte) (i : Nat) : Fin 16 := ⟨byteAt bs i % 16, Nat.mod_lt _ (by decide)⟩

/-- R204, step 1. -/
def bootCloseLugs (bs : List Byte) : Nat := clamp 1 3 (byteAt bs 18)

/-- R204, step 2. -/
def bootCommitPos (bs : List Byte) : Nat := max (byteAt bs 19) (bootCloseLugs bs + 1)

/-- R204, step 3. -/
def bootTrimPos (bs : List Byte) : Nat := max (byteAt bs 20) (bootCommitPos bs + 1)

/-- R204, step 4. -/
def bootDropPos (bs : List Byte) : Nat := max (byteAt bs 21) (bootTrimPos bs + 1)

/-- counts_per_lug, clamped to 8 to 256. -/
def bootCountsPerLug (bs : List Byte) : Nat := clamp 8 256 (halfAt bs 22)

/-- fire_delay, clamped to 0 to counts_per_lug - 1. -/
def bootFireDelay (bs : List Byte) : Nat := clamp 0 (bootCountsPerLug bs - 1) (halfAt bs 24)

/-- saw_hold, clamped to 5 to 250 ms. -/
def bootSawHold (bs : List Byte) : Nat := clamp 5 250 (byteAt bs 26)

/-- The notice enable default, bits 0 to 17 of its word. -/
def bootEnable (bs : List Byte) : NoticeSet := BitVec.ofNat 18 (wordAt bs 28)

/-- An aperture base: the low 12 bits taken as 0. -/
def bootBase (bs : List Byte) (i : Nat) : Nat := wordAt bs i / 4096 * 4096

/-- The seven aperture bases. -/
def bootBases (bs : List Byte) : Bases :=
  { ctrl := bootBase bs 32, planA := bootBase bs 36, planB := bootBase bs 40, scan := bootBase bs 44,
    ovr := bootBase bs 48, dec := bootBase bs 52, tally := bootBase bs 56 }

/-- Scan slots per head, 16 to 1024. -/
def bootScanSlots (bs : List Byte) : Nat := ringSizeOf 16 1024 (halfAt bs 60)

/-- Override entries, 8 to 256. -/
def bootOvrRing (bs : List Byte) : Nat := ringSizeOf 8 256 (halfAt bs 62)

/-- Decision entries, 16 to 1024. -/
def bootDecRing (bs : List Byte) : Nat := ringSizeOf 16 1024 (halfAt bs 64)

/-- A write mask: 16 bits, bit `s` for source `s`. -/
def bootMask (bs : List Byte) (i : Nat) : SourceSet := BitVec.ofNat 16 (halfAt bs i)

/-! ### The grants of intake credit (R44) -/

/-- R44: grants made in head order from what the pool still holds; each head is its fitted bit and its credit byte. -/
def grantCredits (pool : Nat) : List (Bool × Nat) → List Nat
  | [] => []
  | (fitted, credit) :: rest =>
    let g := if fitted then min (clamp 1 16 credit) pool else 0
    g :: grantCredits (pool - g) rest

/-- R44: the six grants, from a pool of 48 slots. -/
def bootGrants (bs : List Byte) : Vector Nat 6 :=
  let grants := grantCredits 48 (allHeads.map fun (h : Fin 6) => ((bootFitted bs).getLsbD h, byteAt bs (12 + h.val)))
  Vector.ofFn fun (h : Fin 6) => grants.getD h.val 0

/-! ### The examination of the image (R203) -/

/-- The apertures as base and size. -/
def bootSpans (bs : List Byte) : List (Nat × Nat) :=
  let k := bootBases bs
  [(k.ctrl, 256), (k.planA, 1024), (k.planB, 1024), (k.scan, 6 * bootScanSlots bs * 64), (k.ovr, bootOvrRing bs * 8),
   (k.dec, bootDecRing bs * 32), (k.tally, 2048)]

/-- Any byte lies in both. -/
def spansOverlap (x y : Nat × Nat) : Bool := decide (x.1 < y.1 + y.2) && decide (y.1 < x.1 + x.2)

/-- No two of the apertures overlap. -/
def allDisjoint : List (Nat × Nat) → Bool
  | [] => true
  | x :: xs => xs.all (fun y => !spansOverlap x y) && allDisjoint xs

/-- R203: the image shows none of the five failures. -/
def imageGood (bs : List Byte) : Bool :=
  byteAt bs 0 == 0x5A && byteAt bs 1 == 0xC3 && byteAt bs 2 == 1 && allDisjoint (bootSpans bs) &&
    (bootSpans bs).all (fun x => decide (x.1 + x.2 ≤ 4294967296)) && decide (bootDropPos bs ≤ 31)

/-! ### The end of boot (R38, R205, R206) -/

/-- R38: a fitted head's state from its sampled levels. -/
def sampledState (present ready : Bool) : HeadState :=
  if !present then .absent else if ready then .waiting else .joining

/-- R23, R38: a head context at the end of a successful boot. -/
def sampledHead (fitted present ready : Bool) : HeadCtx :=
  if fitted then { HeadCtx.reset with state := sampledState present ready, present := present, ready := ready }
  else HeadCtx.reset

/-- R38: the six contexts. -/
def sampledHeads (bs : List Byte) (pins : Pins) : Vector HeadCtx 6 :=
  Vector.ofFn fun (h : Fin 6) =>
    sampledHead ((bootFitted bs).getLsbD h) (pins.present.getLsbD h) (pins.ready.getLsbD h)

/-- R172: the twenty-eight owned control words in the order requested at the end of a successful boot. -/
def ownedControlWords (enable : NoticeSet) : List OwnTxn :=
  [.notice, .noticeEnable enable, .lineStatus, .tallyStatus, .ovrConsumer 0, .decProducer 0 false] ++
    allHeads.map .headStatus ++ (List.finRange 16).map .sourceStatus

/-- R205: the values taken handed to their blocks; the part is RUNNING. -/
def handOver (s : State) (bs : List Byte) : State :=
  let heads := sampledHeads bs s.pins
  { s with
    boot := { s.boot with condition := .running }
    path := { s.path with bases := bootBases bs, scanSlots := bootScanSlots bs }
    src := { s.src with
      control := bootSource bs 4
      headSource := Vector.ofFn fun (h : Fin 6) => bootSource bs (5 + h.val)
      maxRetry := byteAt bs 11
      maskCtrl := bootMask bs 66 ||| (1#16 <<< (bootSource bs 4).val)
      maskPlanA := bootMask bs 68, maskPlanB := bootMask bs 70, maskOvr := bootMask bs 72 }
    head := { s.head with ctx := heads, fitted := bootFitted bs }
    asm := { s.asm with granted := bootGrants bs }
    lug := { s.lug with
      closeLugs := bootCloseLugs bs, commitPos := bootCommitPos bs, trimPos := bootTrimPos bs
      dropPos := bootDropPos bs, countsPerLug := bootCountsPerLug bs }
    ovr := { s.ovr with ringSize := bootOvrRing bs }
    trim := { s.trim with fireDelay := bootFireDelay bs, sawHold := bootSawHold bs }
    dec := { s.dec with ringSize := bootDecRing bs }
    note :=
      { word := if heads.any (fun c => c.state == .waiting) then s.note.word ||| Notice.headWaiting.mask else s.note.word
        enable := bootEnable bs } }

/-- R205: boot succeeds. The notices raised here are carried by the NOTICE write among the owned words (R197). -/
def bootSucceed (s : State) (bs : List Byte) : State :=
  let s1 := handOver s bs
  { s1 with path := { s1.path.requestAll (ownedControlWords (bootEnable bs)) with returned := [] } }

/-- R206: boot fails, and the part is PASSIVE. -/
def bootFail (s : State) : State :=
  { s with boot := { s.boot with condition := .passive }, path := { s.path with returned := [] } }

/-- R202: the three bytes the part sends in an attempt: the device address 0x50 to write, the word address 0, and the device
address to read. Each must be acknowledged. -/
def attemptSends : List Byte := [0xA0, 0x00, 0xA1]

/-- R202: the attempt fails. -/
def Attempt.fails (a : Attempt) : Bool :=
  a.sdaHeldLow || !a.ackWriteAddress || !a.ackWordAddress || !a.ackReadAddress

/-- BOOT_ATTEMPT_END (R202, R203, R205, R206). -/
def execBootAttemptEnd (a : Attempt) (s : State) : Result :=
  if s.boot.condition = .booting then
    let s1 := { s with boot := { s.boot with attemptsEnded := s.boot.attemptsEnded + 1 } }
    if Sys2Proof.Machine.Attempt.fails a then
      if s1.boot.attemptsEnded = 3 then .next (bootFail s1)
      else .next { s1 with path := { s1.path with returned := [] } }
    else
      let s2 := { s1 with boot := { s1.boot with image := a.bytes } }
      if imageGood a.bytes then .next (bootSucceed s2 a.bytes) else .next (bootFail s2)
  else notTaken s

/-- BOOT_START (R201): the rising edge of RESET_N. -/
def execBootStart (s : State) : Result :=
  if s.boot.condition = .deviceReset then
    .next { s with
      boot := { condition := .booting, attemptsEnded := 0, image := [] }
      path := { s.path with returned := [] } }
  else notTaken s

/-! ### Device reset -/

/-- R180: the strobed lanes of in-flight write `i` at device reset `n` that reach memory, byte by byte (log 5). -/
def landLanes (n i : Nat) (m : Memory) (a : Nat) : List Lane → Memory
  | [] => m
  | l :: ls =>
    landLanes n i (if l.strobe && Config.resetLands n i a then m.write a l.data else m) (a + 1) ls

/-- R180: what the writes in flight leave in memory; `i` counts them. -/
def landAll (n i : Nat) (m : Memory) : List Down → Memory
  | [] => m
  | d :: ds =>
    match d.wire.kind with
    | .read => landAll n (i + 1) m ds
    | .write => landAll n (i + 1) (landLanes n i m d.wire.start d.wire.lanes) ds

/-- Some write is in flight downstream. -/
def Path.writeInFlight (p : Path) : Bool := p.down.any fun d => d.wire.kind == .write

/-- DEVICE_RESET (R201): every block takes its device-reset condition and the transactions in flight are dropped. Memory, the
input pins and the flash cycle are not the part's to reset. -/
def execDeviceReset (s : State) : Result :=
  .next { State.reset with
    head := HeadMonitor.reset s.head.flashLit
    pins := s.pins
    mem := landAll s.freeCount 0 s.mem s.path.down
    freeCount := if s.path.writeInFlight then s.freeCount + 1 else s.freeCount
    pending := s.pending }

end Sys2Proof.Machine
end

