-- ==== Sys2Proof/Machine/Dispatch.lean ====
section
/-! DEFINITION. The dispatch: each row of spec/opcode_table.json to its meaning. -/

namespace Sys2Proof.Machine

open Sys2Proof

def exec (i : Instr) (s : State) : Host.Outcome State Fault Refusal :=
  match i with
  | .deviceReset => Sys2Proof.Machine.execDeviceReset s
  | .bootStart => Sys2Proof.Machine.execBootStart s
  | .bootAttemptEnd a => Sys2Proof.Machine.execBootAttemptEnd a s
  | .lugEvent => Sys2Proof.Machine.execLugEvent s
  | .encPulse => Sys2Proof.Machine.execEncPulse s
  | .sawHoldExpiry k => Sys2Proof.Machine.execSawHoldExpiry k s
  | .lampFlashToggle => Sys2Proof.Machine.execLampFlashToggle s
  | .headPresentRise h => Sys2Proof.Machine.execHeadPresentRise h s
  | .headPresentFall h => Sys2Proof.Machine.execHeadPresentFall h s
  | .headReadyRise h => Sys2Proof.Machine.execHeadReadyRise h s
  | .headReadyFall h => Sys2Proof.Machine.execHeadReadyFall h s
  | .upstreamAccept t => Sys2Proof.Machine.execUpstreamAccept t s
  | .apertureWrite => Sys2Proof.Machine.execApertureWrite s
  | .planBankWrite => Sys2Proof.Machine.execPlanBankWrite s
  | .sliceWrite => Sys2Proof.Machine.execSliceWrite s
  | .sliceFold h => Sys2Proof.Machine.execSliceFold h s
  | .solveEnd => Sys2Proof.Machine.execSolveEnd s
  | .planSelect => Sys2Proof.Machine.execPlanSelect s
  | .admitHead h => Sys2Proof.Machine.execAdmit h s
  | .release h => Sys2Proof.Machine.execRelease h s
  | .headCommandUnknown h => Sys2Proof.Machine.execHeadCommandUnknown h s
  | .ovrProducer => Sys2Proof.Machine.execOvrProducer s
  | .overrideEntryTake => Sys2Proof.Machine.execOverrideEntryTake s
  | .decConsumer => Sys2Proof.Machine.execDecConsumer s
  | .tallyCloseShift => Sys2Proof.Machine.execTallyCloseShift s
  | .tallySnapshot => Sys2Proof.Machine.execTallySnapshot s
  | .tallyClear => Sys2Proof.Machine.execTallyClear s
  | .tallyRequestRefused => Sys2Proof.Machine.execTallyRequestRefused s
  | .notice => Sys2Proof.Machine.execNotice s
  | .noticeEnable => Sys2Proof.Machine.execNoticeEnable s
  | .trapClear => Sys2Proof.Machine.execTrapClear s
  | .lineRestart => Sys2Proof.Machine.execLineRestart s
  | .lugTableRestart => Sys2Proof.Machine.execLugTableRestart s
  | .headMonitorRestart => Sys2Proof.Machine.execHeadMonitorRestart s
  | .intakeRestart => Sys2Proof.Machine.execIntakeRestart s
  | .solverRestart => Sys2Proof.Machine.execSolverRestart s
  | .trimRestart => Sys2Proof.Machine.execTrimRestart s
  | .arbiterGrantOwn => Sys2Proof.Machine.execArbiterGrantOwn s
  | .memoryAnswer ok => Sys2Proof.Machine.execMemoryAnswer ok s
  | .ownTransactionAnswer ok => Sys2Proof.Machine.execOwnTransactionAnswer ok s
  | .forwardedSideGrant => Sys2Proof.Machine.execForwardedSideGrant s

end Sys2Proof.Machine
end

