-- ==== Sys2Proof/Safety.lean ====
section
/-! DEFINITION. The terms the claims use: what an event may leave of the memory path, which writes a grant forwards, the
positions of the chain, and the invariants of the part. -/

namespace Sys2Proof.Machine

open Sys2Proof

/-! ### What an event leaves of the memory path -/

/-- Own transaction `k` has been requested and is not yet issued: it is queued or waiting (R172). -/
def Path.asks (p : Path) (k : OwnTxn) : Bool := decide (k ∈ p.queue) || decide (k ∈ p.waiting)

/-- R172: waiting request `j` is still waiting as `k`: as it was, or renewed by a later request for the same thing. -/
def OwnTxn.WaitsAs (j k : OwnTxn) : Prop := k = j ∨ k.renews j = true

/-- R172: the waiting requests `l` may have become `m`: each keeps its place and may have been renewed, and others have begun
to wait behind them. -/
def WaitingGrew (l m : List OwnTxn) : Prop := ∃ kept later, m = kept ++ later ∧ List.Forall₂ OwnTxn.WaitsAs l kept

/-- The event requested own transactions at most: nothing queued, waiting or in flight was lost, and no response was
returned. -/
def Path.Grew (p q : Path) : Prop :=
  ∃ more, WaitingGrew p.waiting q.waiting ∧ q = { p with queue := p.queue ++ more, waiting := q.waiting, returned := [] }

/-- The transaction is as it was, or was BEHIND and has been presented (R166). -/
def UpTxn.MayPresent (u v : UpTxn) : Prop :=
  v = u ∨ (u.state = .behind ∧ v.txn = u.txn ∧ (v.state = .ready ∨ ∃ n, v.state = .held n))

/-- R176: a grant issued `d` for the oldest READY transaction, which is IN_MEMORY. Own transactions may have been requested
and transactions BEHIND presented; nothing else of the path changed. -/
def Path.Issued (p q : Path) (d : Down) (givenUp : Bool) : Prop :=
  q.down = p.down ++ [d] ∧ q.lastGranted = .forwarded ∧ q.returned = [] ∧ q.bases = p.bases ∧ q.scanSlots = p.scanSlots ∧
  (∃ more, q.queue = p.queue ++ more) ∧ WaitingGrew p.waiting q.waiting ∧
  List.Forall₂ UpTxn.MayPresent
    (changeFirst UpTxn.isReady (fun u => { u with state := .inMemory givenUp }) p.flight) q.flight

/-- The response of a transaction in flight, if it has one (Table 9-1). -/
def UpTxn.settled? (u : UpTxn) : Option Settled :=
  match u.state with
  | .answered r => some r
  | .behind | .held _ | .ready | .inMemory _ => none

/-- The transactions of source `i`, in the order they were accepted. -/
def ofSource (i : Fin 16) (l : List UpTxn) : List UpTxn := l.filter fun u => u.txn.source == i

/-- R166: the responses that source `i` can be given now: those of its transactions before its first that has none. -/
def responsesDue (f : List UpTxn) (i : Fin 16) : List Settled :=
  ((ofSource i f).takeWhile fun u => u.settled?.isSome).filterMap UpTxn.settled?

/-- R166: of the transactions in flight `f`, each source is given the responses due to it, in its order, and every other
transaction is kept as it is. -/
def ReturnsDue (f kept : List UpTxn) (out : List Returned) : Prop :=
  kept.Sublist f ∧ ∀ i : Fin 16,
    ofSource i kept = (ofSource i f).dropWhile (fun u => u.settled?.isSome) ∧
    (out.filter fun x => x.source == i).map (·.settled) = responsesDue f i

/-- R178, R189, R190: a source's retry count once response `r` has been returned to it. A COMPLETE or an exhaustion outcome
makes it 0, a RETRY counted adds one up to 255, and a RETRY not counted or a REFUSED leaves it. That an exhaustion outcome does so
when it is returned, besides at its grant, is the model's own (log 15, DEDUCED). -/
def Settled.retriesAfter (r : Settled) (n : Nat) : Nat :=
  match r.response with
  | .complete _ => 0
  | .retry => if r.givenUp then 0 else if r.counted then min 255 (n + 1) else n
  | .refused => if r.givenUp then 0 else n

/-- R167, R189: the responses due in `f` have been returned and counted: table `t` has become `t'`, and nothing of it but
retry counts has changed. -/
def SourceTable.CountedBy (t t' : SourceTable) (f : List UpTxn) : Prop :=
  t' = { t with ctx := t'.ctx } ∧ ∀ i : Fin 16,
    t'.ctx[i] = { t.ctx[i] with retries := (responsesDue f i).foldl (fun n r => r.retriesAfter n) t.ctx[i].retries }

/-- The path once a transaction has been settled and the flight is `f`: the responses due are returned and the rest kept, a
transaction BEHIND perhaps presented. Nothing was issued, the arbiter's flag is kept, and own transactions may have been
requested. -/
def Path.Returns (p q : Path) (f : List UpTxn) : Prop :=
  q.down = p.down ∧ q.lastGranted = p.lastGranted ∧ q.bases = p.bases ∧ q.scanSlots = p.scanSlots ∧
  (∃ more, q.queue = p.queue ++ more) ∧ WaitingGrew p.waiting q.waiting ∧
  ∃ kept, ReturnsDue f kept q.returned ∧ List.Forall₂ UpTxn.MayPresent kept q.flight

/-- R176: the flight once the oldest READY transaction has been settled with `r`. -/
def Path.settledFlight (p : Path) (r : Settled) : List UpTxn :=
  changeFirst UpTxn.isReady (fun u => { u with state := .answered r }) p.flight

/-- R176: a grant settled `x`, the oldest READY transaction, with `r`: its response has been returned, or waits in ANSWERED
for an earlier one of its source, and so with every other response. Nothing was issued and the arbiter's flag is kept. -/
def Path.SettledBy (p q : Path) (x : Txn) (r : Settled) : Prop :=
  p.Returns q (p.settledFlight r) ∧
  ({ source := x.source, settled := r } ∈ q.returned ∨ ∃ u ∈ q.flight, u.txn = x ∧ u.state = .answered r)

/-- The downstream transaction that carries upstream transaction `x` with the lanes given (R176). -/
def downAs (x : Txn) (lanes : List Lane) (startsBatch startsTally : Bool) : Down :=
  { origin := .forwarded x.source startsBatch startsTally,
    wire := { kind := x.kind, start := txnStart x, beats := x.beats, lanes := lanes } }

/-- R191: the table with one more accepted aperture write of source `i`. -/
def SourceTable.counted (t : SourceTable) (i : Fin 16) : SourceTable :=
  { t with ctx := t.ctx.set i { t.ctx[i] with accepted := t.ctx[i].accepted + 1 } }

/-- Notice `n` has been raised and no other notice has changed. -/
def NoticeUnit.raised (u : NoticeUnit) (n : Notice) : NoticeUnit := { u with word := u.word ||| n.mask }

/-! ### Writes the arbiter would grant now -/

/-- The part is RUNNING, and the arbiter would grant WRITE `x`, whose first beat is at offset `off` of aperture `ap`. -/
def State.grantsInto (s : State) (x : Txn) (ap : Aperture) (off : Nat) : Bool :=
  s.running && s.forwardedTurn == some x && x.kind == .write && s.decode x == some (ap, off)

/-- As `grantsInto` CTRL, where the decision of R169 forwards the write. -/
def State.forwardsCtrl (s : State) (x : Txn) (off : Nat) : Bool :=
  s.grantsInto x .ctrl off && decideWrite s x .ctrl off == .forward .ctrl off

/-- The write writes word `k` of the control block with value `w`. -/
def writesOnce (off : Nat) (x : Txn) (k : CtrlWord) (w : Word32) : Bool :=
  (ctrlWords off x).filter (fun p => p.1 == k) == [(k, w)]

/-- The write writes one word of the control block and no other. -/
def writesAlone (off : Nat) (x : Txn) (k : CtrlWord) (w : Word32) : Bool :=
  ctrlWords off x == [(k, w)]

/-- The rows of the table that are grants of the forwarded side. -/
def grantRows : List Instr :=
  [.apertureWrite, .planBankWrite, .sliceWrite, .planSelect] ++ (List.finRange 6).map .admitHead ++
    (List.finRange 6).map .release ++ (List.finRange 6).map .headCommandUnknown ++
    [.ovrProducer, .decConsumer, .tallyCloseShift, .tallySnapshot, .tallyClear, .tallyRequestRefused, .notice,
     .noticeEnable, .trapClear, .lineRestart, .forwardedSideGrant]

/-! ### Positions of the chain (0.4, R6) -/

/-- close_lugs < commit_pos < trim_pos < drop_pos, at most 31, and counted from 1. -/
def LugTable.geometry (l : LugTable) : Bool :=
  decide (0 < l.closeLugs) && decide (l.closeLugs < l.commitPos) && decide (l.commitPos < l.trimPos) &&
    decide (l.trimPos < l.dropPos) && decide (l.dropPos ≤ 31)

/-- The lug position of lug `n`. -/
def LugTable.position (l : LugTable) (n : Word16) : Nat := (l.current - n).toNat

/-- The lug that the next LUG event brings to position `p`. -/
def LugTable.arriving (l : LugTable) (p : Nat) : Word16 := l.current + 1 - BitVec.ofNat 16 p

/-- The record the next LUG event brings to position `p` is a live record in slot `i`. -/
def State.brings (s : State) (p : Nat) (i : Fin 32) : Bool := s.lookup (s.lug.arriving p) == some i

/-- A LUG event is taken: the part is RUNNING with its geometry in order. -/
def State.takesLug (s : State) : Bool := s.running && s.lug.geometry

/-! ### Closes (R10 to R12, R29, R35, R67, R120) -/

/-- R10: head `h`'s segments are scanned at a close of board `b`: the head is fitted, expected and not lost, it has ended, and
it has no more bad slices than the bank allows. -/
def Board.scannedBy (b : Board) (fitted : HeadSet) (p : Shadow) (h : Fin 6) : Bool :=
  fitted.getLsbD h && b.expected.getLsbD h && !b.lost.getLsbD h && b.ended.getLsbD h && decide (b.bad[h] ≤ planByte p 11)

/-- R10: the board with its scan marks: EMPTY for the segments of an unfitted head, none for a scanned segment, UNSCANNED for
every other. -/
def Board.marked (b : Board) (fitted : HeadSet) (p : Shadow) : Board :=
  { b with classes := Vector.ofFn fun j =>
      if fitted.getLsbD (headOfSegment j) = false then some .empty
      else if b.scannedBy fitted p (headOfSegment j) then none else some .unscanned }

/-- R11: some scanned segment has PS > 0. -/
def Board.hasMaterial (b : Board) (fitted : HeadSet) (p : Shadow) : Bool :=
  (List.finRange 12).any fun j => b.scannedBy fitted p (headOfSegment j) && decide (0 < b.acc[j].ps)

/-- R11, R12, R120: board `b` has closed as `c`: VOID without material; QUEUED, or already SOLVING, where the solve queue had
`room`; and otherwise SOLVED with the unsolved solution and its overrides judged. -/
def Board.ClosesTo (b : Board) (fitted : HeadSet) (p : Shadow) (room : Bool) (c : Board) : Prop :=
  (b.hasMaterial fitted p = false → c = { b.marked fitted p with state := .void }) ∧
  (b.hasMaterial fitted p = true → room = true →
    c = { b.marked fitted p with state := c.state } ∧ (c.state = .queued ∨ c.state = .solving)) ∧
  (b.hasMaterial fitted p = true → room = false →
    c = { ((b.marked fitted p).giveUnsolved p).endOfSolveCheck with state := .solved })

/-- R29, R62: every expected head but `h` has ended or is lost. -/
def Board.awaitsOnly (b : Board) (h : Fin 6) : Bool :=
  (List.finRange 6).all fun k => !b.expected.getLsbD k || k == h || b.ended.getLsbD k || b.lost.getLsbD k

/-- R29: board `b` that has lost head `h`. -/
def Board.losing (b : Board) (h : Fin 6) : Board :=
  { b with lost := b.lost ||| headBit h, flags := { b.flags with headLost := true } }

/-- R29: the boards that the loss of head `h` closes, the greatest lug position first. -/
def State.closedByLoss (s : State) (h : Fin 6) : List (Fin 32) :=
  ((List.range 32).reverse.filterMap s.boardAt).filter fun i => s.losesHead h i && s.lug.boards[i].awaitsOnly h

/-- R67, R68: the boards of `joined` have joined the tail of the solve queue in order, and an idle solver has taken the
oldest. -/
def Solver.JoinedBy (u v : Solver) (joined : List Word16) : Prop :=
  (joined = [] → v = u) ∧
  (joined ≠ [] → v.solving ≠ none ∧ v.solving.toList ++ v.queue = u.solving.toList ++ u.queue ++ joined)

/-- R67: how many boards may join before the queue holds 4: an idle solver takes the first of them. -/
def Solver.room (u : Solver) : Nat :=
  if u.queue.length < 4 then 4 - u.queue.length + (if u.solving = none then 1 else 0) else 0

/-- R68: the solver was idle in `s`, and has the board of slot `j` in `t`. -/
abbrev State.SolveStarts (s t : State) (j : Fin 32) : Prop :=
  s.solv.solving = none ∧ t.solv.solving.bind s.lookup = some j

/-- R35: some board that is SCANNING in `t` expects head `k`. -/
abbrev State.Expects (t : State) (k : Fin 6) : Prop :=
  ∃ i : Fin 32, t.lug.boards[i].state = .scanning ∧ t.lug.boards[i].expected.getLsbD k = true

/-- R35: a head in state `c` after the parking test, with the boards of `t`: a LEAVING head that no SCANNING board expects is
PARKED. -/
def HeadState.parkedIn (c : HeadState) (t : State) (k : Fin 6) : HeadState :=
  if c = .leaving ∧ ¬ t.Expects k then .parked else c

/-! ### The tally (R148 to R150) -/

/-- The tally with one board stranded (R150). -/
def Tally.withStranded (t : Tally) : Tally := { t with stranded := min 65535 (t.stranded + 1) }

/-- The tally with bank `k` in state `st`. -/
def Tally.withState (t : Tally) (k : Bank) (st : TallyState) : Tally := t.setBank k { t.bank k with state := st }

/-- R148 to R150: the tally, with no bank under snapshot, after board `o` is offered. -/
def Tally.counting (t : Tally) (o : TallyOffer) : Tally :=
  match t.openBank with
  | none => t.withStranded
  | some k =>
    if (t.bank k).fits o then t.setBank k ((t.bank k).add o)
    else if (t.bank k.other).state = .empty then
      ((t.withState k .full).withState k.other .opened).setBank k.other
        (((t.withState k .full).withState k.other .opened).bank k.other |>.add o)
    else (t.withState k .full).withStranded

/-! ### Grading -/

/-- R80: `g` is the worst grade among the segments of the run `a` to `b`. -/
def WorstGrade (classes : Vector (Option SegMark) 12) (g : Grade) (a b : Nat) : Prop :=
  (∃ i, a ≤ i ∧ i ≤ b ∧ classAt classes i = some (.grade g)) ∧
  ∀ i k, a ≤ i → i ≤ b → classAt classes i = some (.grade k) → k.code ≤ g.code

/-- R80, R81: the run `a` to `b` is a candidate of grade `g`: each of its segments has a graded class, `g` is the worst of
them, and its price is greater than 0. -/
def Candidate (p : Shadow) (classes : Vector (Option SegMark) 12) (g : Grade) (a b : Nat) : Prop :=
  a ≤ b ∧ b ≤ 11 ∧
  (∀ i, a ≤ i → i ≤ b → ∃ k, classAt classes i = some (.grade k)) ∧ WorstGrade classes g a b ∧
  0 < planPrice p g (b - a)

/-! ### The invariants -/

/-- The memory behind the part has its canonical form. -/
def MemoryInv (s : State) : Prop := s.mem.wf = true

/-- The piece counts of a bank, added up. -/
def TallyBank.pieceSum (b : TallyBank) : Nat := (b.cells.toList.map (·.pieces)).sum

/-- R148: boards_dropped is the sum of the 96 piece counts; R145: the counters of an EMPTY bank are all zero. -/
def TallyBank.sound (b : TallyBank) : Prop :=
  b.dropped = b.pieceSum ∧ (b.state = .empty → b = TallyBank.zeroed .empty)

/-- R145, R146, R148: both banks are sound, and at most one is OPEN. -/
def TallyInv (s : State) : Prop :=
  s.tally.bankA.sound ∧ s.tally.bankB.sound ∧ ¬ (s.tally.bankA.state = .opened ∧ s.tally.bankB.state = .opened)

/-- Table 0-6: the capacities, with R44's bound of the held slices, R138's bound of the ring, and R172's waiting only
behind a full queue, at most once for each status word, for OVR_CONSUMER and for the completion of a tally request. Outside RUNNING, intake, the pending output list and the ring are empty. -/
def CapacityInv (s : State) : Prop :=
  s.path.flight.length ≤ 8 ∧ s.path.queue.length ≤ 16 ∧ (s.path.waiting ≠ [] → s.path.queue.length = 16) ∧
  s.path.waiting.Pairwise (fun j k => k.renews j = false) ∧
  s.solv.queue.length ≤ 4 ∧ s.dec.list.length ≤ 8 ∧ s.tally.holding.length ≤ 4 ∧
  (∀ h : Fin 6, s.asm.held[h].length ≤ s.asm.granted[h]) ∧
  (s.dec.producer - s.dec.consumerShadow).toNat ≤ s.dec.ringSize ∧
  (s.running = false → (∀ h : Fin 6, s.asm.held[h] = []) ∧ s.dec.list = [] ∧ s.dec.producer = s.dec.consumerShadow)

/-- How many records are live and bound to bank `k` (R91). -/
def LugTable.boundTo (l : LugTable) (k : Bank) : Nat :=
  (List.finRange 32).countP fun i => l.boards[i].state != .free && l.boards[i].bank == some k

/-- R6: the geometry is in order while RUNNING, and each live record lies in its lug's slot, short of drop_pos. R91: the
binding counts count the live records of each bank, and the pending bank is not the active one. R131: outside RUNNING every
record is FREE, no fire is armed and every saw is RELEASED. -/
def LineInv (s : State) : Prop :=
  (s.running = true → s.lug.geometry = true) ∧
  (∀ i : Fin 32, s.lug.boards[i].state ≠ .free →
    slotOf s.lug.boards[i].lug = i ∧ s.lug.position s.lug.boards[i].lug < s.lug.dropPos) ∧
  s.plan.bankA.count = s.lug.boundTo .a ∧ s.plan.bankB.count = s.lug.boundTo .b ∧
  (s.plan.pendingBank ≠ none → s.plan.pendingBank ≠ s.plan.active) ∧
  (s.running = false → (∀ i : Fin 32, s.lug.boards[i].state = .free) ∧ s.trim.armed = none ∧
    ∀ k : Fin 11, s.trim.channels[k] = none)

/-- The board's decision is frozen (R14). -/
def Board.isFrozen (b : Board) : Bool := b.state == .committed || b.state == .trimmed

end Sys2Proof.Machine
end

