-- ==== Sys2Proof/WellFormed.lean ====
section
/-! DEFINITION. Which commands are well formed: the shapes R165 and R202 give their operands. -/

namespace Sys2Proof

/-- R165: 1 to 8 beats; a WRITE carries eight lanes for each beat, a READ carries none. -/
def Txn.wellFormed (t : Txn) : Bool :=
  decide (1 ≤ t.beats) && decide (t.beats ≤ 8) &&
    match t.kind with
    | .read => t.lanes.isEmpty
    | .write => t.lanes.length == 8 * t.beats

/-- R202: the data phase of an attempt delivers 256 bytes. -/
def Attempt.wellFormed (a : Attempt) : Bool :=
  a.bytes.length == 256

/-- The commands whose operands have the shape the spec gives them. -/
def Instr.wellFormed : Instr → Bool
  | .bootAttemptEnd a => a.wellFormed
  | .upstreamAccept t => t.wellFormed
  | .deviceReset | .bootStart | .lugEvent | .encPulse | .sawHoldExpiry _ | .lampFlashToggle => true
  | .headPresentRise _ | .headPresentFall _ | .headReadyRise _ | .headReadyFall _ => true
  | .apertureWrite | .planBankWrite | .sliceWrite | .sliceFold _ | .solveEnd | .planSelect => true
  | .admitHead _ | .release _ | .headCommandUnknown _ | .ovrProducer | .overrideEntryTake | .decConsumer => true
  | .tallyCloseShift | .tallySnapshot | .tallyClear | .tallyRequestRefused => true
  | .notice | .noticeEnable | .trapClear | .lineRestart | .lugTableRestart | .headMonitorRestart => true
  | .intakeRestart | .solverRestart | .trimRestart | .arbiterGrantOwn => true
  | .memoryAnswer _ | .ownTransactionAnswer _ | .forwardedSideGrant => true

end Sys2Proof
end

