-- ==== Sys2Proof/Certificates/Slice0/Obligations.lean ====
section
/-! DEFINITION. The statements about the TG-612, for the provers. Frames are written `t = { s with … }`: state `t` is `s` in
every block not named. -/

open Sys2Proof Sys2Proof.Machine

/-! ### The step -/

/-- A step takes the command at the front of the queue and runs it on the state with the queue's rest. On an empty queue the
block idles: that clause is the model's choice (log 3). -/
def Obligations.StepTakesFront : Prop :=
  (∀ (c : Instr) (rest : List Instr) (s : State), s.pending = c :: rest → step s = exec c { s with pending := rest }) ∧
  (∀ s : State, s.pending = [] → step s = .next s)

/-- Every command answers a next state, whatever the state, and leaves the queue of commands to the step. That every command
answers is the model's choice, not the spec's: a command whose event cannot arise changes nothing (log 2, DESIGN CHOICE). The
memory behind the part changes only where memory answers a transaction, or at a device reset (R180); that it changes at the
answer, and not before it, is the model's own (log 19, DEDUCED). -/
def Obligations.EveryCommandAnswers : Prop :=
  ∀ (c : Instr) (s : State), ∃ t, exec c s = .next t ∧ t.pending = s.pending ∧
    ((c ≠ .deviceReset ∧ (∀ ok, c ≠ .memoryAnswer ok) ∧ (∀ ok, c ≠ .ownTransactionAnswer ok)) → t.mem = s.mem)

/-! ### Reset and boot -/

/-- The values the spec gives for device reset, in the state right after it (R21, R38, R64, R66, R105, R124, R133, R143, R164,
R180, R196, R201). -/
def Obligations.ResetCondition : Prop :=
  let s := State.reset
  s.boot.condition = .deviceReset ∧ s.boot.image = [] ∧
  (s.lug.current = 0 ∧ s.lug.encCount = 0 ∧ s.lug.slipRef = false ∧ ∀ i : Fin 32, s.lug.boards[i].state = .free) ∧
  (∀ h : Fin 6, s.head.ctx[h].state = .absent ∧ s.head.ctx[h].admitPending = false ∧ s.head.ctx[h].last = .none ∧
    s.head.ctx[h].badLast = 0 ∧ s.head.ctx[h].present = false ∧ s.head.ctx[h].ready = false) ∧
  (∀ h : Fin 6, s.asm.held[h] = []) ∧ s.solv.queue = [] ∧ s.solv.solving = none ∧
  (s.plan.active = none ∧ s.plan.pendingBank = none ∧ s.plan.bankA.count = 0 ∧ s.plan.bankB.count = 0 ∧
    s.plan.bankA.shadow = Vector.replicate 208 0 ∧ s.plan.bankB.shadow = Vector.replicate 208 0) ∧
  (s.ovr.consumer = 0 ∧ s.ovr.batch = none) ∧
  (s.trim.armed = none ∧ ∀ k : Fin 11, s.trim.channels[k] = none) ∧
  (s.dec.producer = 0 ∧ s.dec.consumerShadow = 0 ∧ s.dec.list = [] ∧ s.dec.writing = none) ∧
  (s.tally.bankA = TallyBank.zeroed .opened ∧ s.tally.bankB = TallyBank.zeroed .empty ∧ s.tally.holding = [] ∧
    s.tally.stranded = 0 ∧ s.tally.request = none) ∧
  (s.note.word = 0 ∧ s.note.enable = 0) ∧
  (∀ i : Fin 16, s.src.ctx[i] = SourceCtx.reset) ∧
  (s.path.flight = [] ∧ s.path.queue = [] ∧ s.path.waiting = [] ∧ s.path.down = [] ∧ s.path.lastGranted = .forwarded)

/-- The four invariants hold of the state right after reset. The memory's is the model's choice, not the spec's (log 1, DESIGN
CHOICE). -/
def Obligations.InvariantsAtReset : Prop :=
  MemoryInv State.reset ∧ TallyInv State.reset ∧ CapacityInv State.reset ∧ LineInv State.reset

/-- DEVICE_RESET, from every state: every block in its reset condition, the transactions in flight dropped without a
response, every saw up (R180, R201). A byte of memory that no write in flight strobes reads as before; what the strobed bytes
read is open (log 5). These parts are the model's choices, not the spec's: the flash cycle and the input pins are kept (log 10,
log 11); the values handed over at boot return to 0 (log 12); line restarts requested and not yet taken are dropped (log 17);
and the other fields of the FREE records are blank (log 24). -/
def Obligations.DeviceResetDropsAll : Prop :=
  ∀ s : State, ∃ t, exec .deviceReset s = .next t ∧
    t = { State.reset with
          head := { State.reset.head with flashLit := s.head.flashLit }, pins := s.pins, pending := s.pending,
          mem := t.mem, freeCount := t.freeCount } ∧
    ∀ a : Nat,
      (∀ d ∈ s.path.down, d.wire.kind = .write → ∀ j : Nat, a = d.wire.start + j →
        (d.wire.lanes[j]?.map (·.strobe)).getD false = false) →
      t.mem.read a = s.mem.read a

/-- BOOT_ATTEMPT_END, success (R202 to R205): an attempt with every byte acknowledged reads a good image, and the part is
RUNNING with the values taken handed to their blocks. -/
def Obligations.BootSucceeds : Prop :=
  ∀ (a : Attempt) (s : State), s.boot.condition = .booting → a.wellFormed = true → a.sdaHeldLow = false →
    a.ackWriteAddress = true → a.ackWordAddress = true → a.ackReadAddress = true → imageGood a.bytes = true →
    ∃ t, exec (.bootAttemptEnd a) s = .next t ∧
      t.boot = { condition := .running, attemptsEnded := s.boot.attemptsEnded + 1, image := a.bytes } ∧
      t.lug = { s.lug with
        closeLugs := clamp 1 3 (byteAt a.bytes 18)
        commitPos := max (byteAt a.bytes 19) (t.lug.closeLugs + 1)
        trimPos := max (byteAt a.bytes 20) (t.lug.commitPos + 1)
        dropPos := max (byteAt a.bytes 21) (t.lug.trimPos + 1)
        countsPerLug := clamp 8 256 (halfAt a.bytes 22) } ∧
      t.trim = { s.trim with
        fireDelay := clamp 0 (t.lug.countsPerLug - 1) (halfAt a.bytes 24), sawHold := clamp 5 250 (byteAt a.bytes 26) } ∧
      t.head.fitted = BitVec.ofNat 6 (byteAt a.bytes 3) ∧ t.head.flashLit = s.head.flashLit ∧
      (∀ h : Fin 6, t.head.ctx[h] =
        if t.head.fitted.getLsbD h then
          { HeadCtx.reset with
            present := s.pins.present.getLsbD h, ready := s.pins.ready.getLsbD h
            state := if s.pins.present.getLsbD h then (if s.pins.ready.getLsbD h then .waiting else .joining)
                     else .absent }
        else HeadCtx.reset) ∧
      t.note.enable = BitVec.ofNat 18 (wordAt a.bytes 28) ∧
      t.note.word = (if ∃ h : Fin 6, t.head.ctx[h].state = .waiting then s.note.word ||| Notice.headWaiting.mask
        else s.note.word) ∧
      (t.src.ctx = s.src.ctx ∧ t.src.control.val = byteAt a.bytes 4 % 16 ∧
        (∀ h : Fin 6, t.src.headSource[h].val = byteAt a.bytes (5 + h.val) % 16) ∧ t.src.maxRetry = byteAt a.bytes 11 ∧
        (∀ i : Fin 16, t.src.maskCtrl.getLsbD i =
          ((BitVec.ofNat 16 (halfAt a.bytes 66)).getLsbD i || decide (i = t.src.control))) ∧
        t.src.maskPlanA = BitVec.ofNat 16 (halfAt a.bytes 68) ∧ t.src.maskPlanB = BitVec.ofNat 16 (halfAt a.bytes 70) ∧
        t.src.maskOvr = BitVec.ofNat 16 (halfAt a.bytes 72)) ∧
      (t.ovr = { s.ovr with ringSize := ringSizeOf 8 256 (halfAt a.bytes 62) } ∧
        t.dec = { s.dec with ringSize := ringSizeOf 16 1024 (halfAt a.bytes 64) } ∧
        t.path.scanSlots = ringSizeOf 16 1024 (halfAt a.bytes 60) ∧ t.path.bases = bootBases a.bytes) ∧
      t.asm.held = s.asm.held ∧ t.path.down = s.path.down ∧ t.path.flight = s.path.flight ∧
      t = { s with boot := t.boot, path := t.path, src := t.src, head := t.head, asm := t.asm, lug := t.lug, ovr := t.ovr,
                   trim := t.trim, dec := t.dec, note := t.note }

/-- The end of a successful boot. R44: in head order, each fitted head is granted its credit, clamped to 1 to 16, or what the
pool of 48 slots still holds; an unfitted head is granted 0. R172, R205: the twenty-eight owned control words are requested
in order; with an empty path sixteen enter the queue and twelve wait. -/
def Obligations.BootGrantsAndRequests : Prop :=
  ∀ (a : Attempt) (s : State), s.boot.condition = .booting → Sys2Proof.Machine.Attempt.fails a = false →
    imageGood a.bytes = true →
    ∃ t, exec (.bootAttemptEnd a) s = .next t ∧
      (∀ h : Fin 6, t.asm.granted[h] =
        if t.head.fitted.getLsbD h then
          min (clamp 1 16 (byteAt a.bytes (12 + h.val)))
            (48 - (((List.finRange 6).filter (· < h)).map fun j => t.asm.granted[j]).sum)
        else 0) ∧
      (s.path.queue = [] → s.path.waiting = [] →
        t.path.queue = [.notice, .noticeEnable (BitVec.ofNat 18 (wordAt a.bytes 28)), .lineStatus, .tallyStatus,
          .ovrConsumer 0, .decProducer 0 false] ++ (List.finRange 6).map .headStatus ++
          [.sourceStatus 0, .sourceStatus 1, .sourceStatus 2, .sourceStatus 3] ∧
        t.path.waiting = ((List.finRange 16).drop 4).map .sourceStatus)

/-- BOOT_START, from device reset, begins boot with no attempt made and the image empty (R201). BOOT_ATTEMPT_END, failure
(R202, R203, R206): a failed attempt that is the third, or an image that shows a failure, makes the part PASSIVE; a first or
second failed attempt leaves it booting. No value is handed over and no word requested. The image is good where it shows none
of the failures of R203: signature and format, apertures that overlap or pass 2^32, drop_pos past 31. A base has its low 12
bits 0 (R216), and a ring size is clamped and rounded down to a power of two (R204). -/
def Obligations.BootStartsAndFails : Prop :=
  (∀ s : State, s.boot.condition = .deviceReset →
    exec .bootStart s = .next { s with
      boot := { condition := .booting, attemptsEnded := 0, image := [] }, path := { s.path with returned := [] } }) ∧
  (∀ (a : Attempt) (s : State), s.boot.condition = .booting → a.wellFormed = true →
    let bad := a.sdaHeldLow || !a.ackWriteAddress || !a.ackWordAddress || !a.ackReadAddress
    let n := s.boot.attemptsEnded + 1
    (bad = true → exec (.bootAttemptEnd a) s = .next { s with
      boot := { condition := if n = 3 then .passive else .booting, attemptsEnded := n, image := s.boot.image }
      path := { s.path with returned := [] } }) ∧
    (bad = false → imageGood a.bytes = false → exec (.bootAttemptEnd a) s = .next { s with
      boot := { condition := .passive, attemptsEnded := n, image := a.bytes }
      path := { s.path with returned := [] } })) ∧
  (∀ bs : List Byte,
    let base := fun i : Nat => wordAt bs i / 4096 * 4096
    let spans := [(base 32, 256), (base 36, 1024), (base 40, 1024), (base 44, 6 * ringSizeOf 16 1024 (halfAt bs 60) * 64),
      (base 48, ringSizeOf 8 256 (halfAt bs 62) * 8), (base 52, ringSizeOf 16 1024 (halfAt bs 64) * 32), (base 56, 2048)]
    let close := max 1 (min 3 (byteAt bs 18))
    let commit := max (byteAt bs 19) (close + 1)
    let trim := max (byteAt bs 20) (commit + 1)
    (imageGood bs = true ↔ byteAt bs 0 = 0x5A ∧ byteAt bs 1 = 0xC3 ∧ byteAt bs 2 = 1 ∧
      spans.Pairwise (fun x y => x.1 + x.2 ≤ y.1 ∨ y.1 + y.2 ≤ x.1) ∧ (∀ x ∈ spans, x.1 + x.2 ≤ 2 ^ 32) ∧
      max (byteAt bs 21) (trim + 1) ≤ 31) ∧
    bootBases bs = { ctrl := base 32, planA := base 36, planB := base 40, scan := base 44, ovr := base 48, dec := base 52
                     tally := base 56 }) ∧
  ∀ lo hi x : Nat, 0 < lo → lo ≤ hi →
    (x < lo → ringSizeOf lo hi x = lo) ∧ (hi < x → ringSizeOf lo hi x = hi) ∧
    (lo ≤ x → x ≤ hi → ∃ k, ringSizeOf lo hi x = 2 ^ k ∧ 2 ^ k ≤ x ∧ x < 2 ^ (k + 1))

/-! ### Grading (chapter 4) -/

/-- R76, with the four tests of R75, the wane per-mille of R74 and the rule's bytes of Table 12-9: a scanned segment with
PS > 0 has the class of the first enabled rule it meets, and REJECT if it meets none. A bank of zeros makes it REJECT. With
PS = 0 the segment is EMPTY, whatever its other counts hold (R74). -/
def Obligations.SegmentClassIsFirstRuleMet : Prop :=
  (∀ (p : Shadow) (a : Acc), a.ps = 0 → classify p a = .empty) ∧
  ∀ (p : Shadow) (a : Acc), 0 < a.ps →
    let meets := fun g : Grade =>
      let at0 := 16 + 8 * (g.code - 1)
      planByte p at0 ≠ 0 ∧ a.ws * 1000 / a.ps ≤ planHalf p (at0 + 2) ∧ a.dc ≤ planHalf p (at0 + 4) ∧
        min 1022 (planHalf p (at0 + 6)) ≤ a.mt ∧ planByte p (at0 + 1) ≤ a.sl
    (∀ g, classify p a = .grade g ↔ meets g ∧ ∀ k : Grade, k.code < g.code → ¬ meets k) ∧
    (classify p a = .reject ↔ ∀ g, ¬ meets g) ∧
    (p = Vector.replicate 208 0 → classify p a = .reject)

/-- R82: the solution's piece is the best candidate: greater value, then greater length, then smaller a. -/
def Obligations.TrimSearchPicksBest : Prop :=
  ∀ (p : Shadow) (classes : Vector (Option SegMark) 12), (∃ g a b, Candidate p classes g a b) →
    ∃ g a b, Candidate p classes g a b ∧
      solveSolution p classes =
        { cls := .grade g, run := some (a, b), pieceLength := 2 * (b - a + 1), value := planPrice p g (b - a)
          bf10 := bf10 p (2 * (b - a + 1)), saws := pieceSaws classes (a, b), boardLength := boardLength classes } ∧
      ∀ k c d, Candidate p classes k c d →
        planPrice p k (d - c) < planPrice p g (b - a) ∨
        (planPrice p k (d - c) = planPrice p g (b - a) ∧ d - c < b - a) ∨
        (planPrice p k (d - c) = planPrice p g (b - a) ∧ d - c = b - a ∧ a ≤ c)

/-- R83: without a candidate the solution is TRASH, with no piece, length 0, value 0, the saws of R85 and the board measure
of R88. The solver never gives REMAN. -/
def Obligations.NoCandidateIsTrash : Prop :=
  ∀ (p : Shadow) (classes : Vector (Option SegMark) 12),
    ((∀ g a b, ¬ Candidate p classes g a b) →
      solveSolution p classes =
        { cls := .trash, run := none, pieceLength := 0, value := 0, bf10 := bf10 p (boardLength classes)
          saws := trashSaws classes, boardLength := boardLength classes }) ∧
    (solveSolution p classes).cls ≠ .reman

/-- R84, R85: saw Sk is in the pattern when segments k - 1 and k are both material and boundary k is not strictly inside the
piece; a TRASH board has no piece, and a REMAN board no saw. R87: board measure with the clamped nominal sizes of the bank.
R88: the board length is 2 ft for each segment up to the last material one. -/
def Obligations.SawsAndMeasures : Prop :=
  (∀ (classes : Vector (Option SegMark) 12) (a b : Nat) (k : Nat), 1 ≤ k → k ≤ 11 →
      let both := isMaterial (classAt classes (k - 1)) = true ∧ isMaterial (classAt classes k) = true
      ((pieceSaws classes (a, b)).getLsbD (k - 1) = true ↔ ¬ (a < k ∧ k ≤ b) ∧ both) ∧
      ((trashSaws classes).getLsbD (k - 1) = true ↔ both) ∧
      (∀ p : Shadow, (wholeSolution p classes .trash).saws = trashSaws classes ∧ (wholeSolution p classes .reman).saws = 0)) ∧
  (∀ (p : Shadow) (len : Nat),
    bf10 p len = (max 4 (min 16 (planByte p 2)) * max 2 (min 12 (planByte p 3)) * len * 10 + 24) / 48) ∧
  (∀ (p : Shadow) (len : Nat), len ≤ 24 → bf10 p len ≤ 960) ∧
  (∀ (classes : Vector (Option SegMark) 12) (j : Fin 12), isMaterial classes[j] = true →
    (∀ i : Fin 12, j < i → isMaterial classes[i] = false) → boardLength classes = 2 * (j.val + 1))

/-- R73, R74, R77, R78: a segment given EMPTY keeps it, a scanned one is EMPTY with PS = 0 and is otherwise classed from its
accumulators (R74 to R76), and an UNSCANNED one gets the blind class where a scanned segment beyond it has PS > 0, else EMPTY;
a blind class given is what sets DEGRADED. R12: the unsolved solution classes alike, with REJECT for every graded or blind
class. -/
def Obligations.UnscannedResolved : Prop :=
  ∀ (p : Shadow) (marks : Vector (Option SegMark) 12) (acc : Vector Acc 12),
    let beyond := fun j : Fin 12 => ∃ i : Fin 12, j < i ∧ marks[i] = none ∧ 0 < acc[i].ps
    (∀ j : Fin 12,
      (marks[j] = some .empty → (solveClasses p marks acc)[j] = some .empty ∧
        (unsolvedClasses marks acc)[j] = some .empty) ∧
      (marks[j] = none → (solveClasses p marks acc)[j] = some (if acc[j].ps = 0 then .empty else classify p acc[j]) ∧
        (unsolvedClasses marks acc)[j] = some (if acc[j].ps = 0 then .empty else .reject)) ∧
      (marks[j] = some .unscanned → beyond j → (solveClasses p marks acc)[j] = some (planBlind p) ∧
        (unsolvedClasses marks acc)[j] = some .reject) ∧
      (marks[j] = some .unscanned → ¬ beyond j → (solveClasses p marks acc)[j] = some .empty ∧
        (unsolvedClasses marks acc)[j] = some .empty)) ∧
    (degradedBy marks acc = true ↔ ∃ j : Fin 12, marks[j] = some .unscanned ∧ beyond j)

/-! ### Overrides (chapter 6) -/

/-- R116: what a well-formed override of each kind does to an override set; the new override takes the tail, and CLEAR
removes every override. -/
def Obligations.OverrideSetChanges : Prop :=
  ∀ (l : List Override) (n : Entry) (g : Grade), n.malformed = false →
    (n.kind = 1 → setAfter l n = []) ∧
    (n.kind = 2 → n.grade = g.code → ∃ kept, setAfter l n = kept ++ [{ what := .grade g, station := n.station }] ∧
      kept.Sublist l ∧ gradeOf kept = none ∧ dispositionOf kept = none ∧ trimOf kept = trimOf l) ∧
    (n.kind = 3 → ∃ kept, setAfter l n = kept ++ [{ what := .trim n.first n.last, station := n.station }] ∧
      kept.Sublist l ∧ trimOf kept = none ∧ dispositionOf kept = none ∧ gradeOf kept = gradeOf l) ∧
    (n.kind = 4 → setAfter l n = [{ what := .disposition .reman, station := n.station }]) ∧
    (n.kind = 5 → setAfter l n = [{ what := .disposition .trash, station := n.station }])

/-- R117: the standing decision of a board from its solution and a valid override set. -/
def Obligations.StandingDecision : Prop :=
  ∀ (p : Shadow) (classes : Vector (Option SegMark) 12) (sol : Solution) (l : List Override),
    sol.boardLength = boardLength classes →
    (l = [] → standingDecision p classes sol l = sol) ∧
    (∀ d, dispositionOf l = some d → standingDecision p classes sol l =
      { cls := (match d with | .reman => .reman | .trash => .trash), run := none, pieceLength := 0, value := 0
        bf10 := bf10 p sol.boardLength, saws := (match d with | .reman => 0 | .trash => trashSaws classes)
        boardLength := sol.boardLength }) ∧
    (∀ a b g, l ≠ [] → dispositionOf l = none → (trimOf l = some (a, b) ∨ (trimOf l = none ∧ sol.run = some (a, b))) →
      (gradeOf l = some g ∨ (gradeOf l = none ∧ WorstGrade classes g a b)) →
      standingDecision p classes sol l =
        { cls := .grade g, run := some (a, b), pieceLength := 2 * (b - a + 1), value := planPrice p g (b - a)
          bf10 := bf10 p (2 * (b - a + 1)), saws := pieceSaws classes (a, b), boardLength := sol.boardLength })

/-- R120: the end-of-solve check removes a trim override whose run holds an EMPTY segment, or a REJECT segment with no grade
override; then a grade override with no trim override where the solution has no piece; and nothing else. The set left is
valid. A removal sets OVERRIDE_DROPPED; a set not empty sets OVERRIDDEN and the last override's station. -/
def Obligations.EndOfSolveCheck : Prop :=
  ∀ b : Board,
    let c := b.endOfSolveCheck
    c = { b with overrides := c.overrides, station := c.station,
                 flags := { b.flags with overridden := c.flags.overridden, overrideDropped := c.flags.overrideDropped } } ∧
    c.overrides.Sublist b.overrides ∧ validSet b.classes b.solution c.overrides = true ∧
    (∀ r, trimOf b.overrides = some r → trimOf c.overrides =
      if runHasEmpty b.classes r = true ∨ (runHasReject b.classes r = true ∧ gradeOf b.overrides = none) then none
      else some r) ∧
    gradeOf c.overrides = (if trimOf c.overrides = none ∧ hasPiece b.solution = false then none else gradeOf b.overrides) ∧
    dispositionOf c.overrides = dispositionOf b.overrides ∧
    (validSet b.classes b.solution b.overrides = true → c.overrides = b.overrides) ∧
    c.flags.overrideDropped = (b.flags.overrideDropped || decide (c.overrides ≠ b.overrides)) ∧
    c.flags.overridden = (b.flags.overridden || decide (c.overrides ≠ [])) ∧
    (∀ o, c.overrides.getLast? = some o → c.station = some o.station) ∧ (c.overrides = [] → c.station = b.station)

/-! ### Slice intake and fold (chapter 3) -/

/-- R57 to R60: one sample of a segment: what is present, thin and dark, and what each makes of the accumulator. R55, R60: a
DATA slice's eight samples of a segment are folded in order, each from its thickness word and grey byte in the slice, and SL
grows by one where any of them is present. -/
def Obligations.SampleFold : Prop :=
  (∀ (p : Shadow) (a : Acc) (i : Fin 8) (w g : Nat),
    let t := if 1023 < w then 1023 else w
    let present := max 1 (min 1022 (planHalf p 4)) ≤ t ∧ t ≤ 1022
    let dark := present ∧ if (planByte p 9).testBit 0 then planByte p 8 ≤ g else g < planByte p 8
    let c := foldSample p a i.val w g
    (present → c.ps = min 65535 (a.ps + 1) ∧ c.mt = min a.mt t ∧
      c.ws = if t < min 1023 (planHalf p 6) then min 65535 (a.ws + 1) else a.ws) ∧
    (¬ present → c.ps = a.ps ∧ c.mt = a.mt ∧ c.ws = a.ws ∧ c.dc = a.dc) ∧
    (dark → c.dc = if (planByte p 9).testBit 1 = true ∧ a.prev.getLsbD i.val = true then a.dc
      else min 65535 (a.dc + 1)) ∧
    (¬ dark → c.dc = a.dc) ∧
    (c.prev.getLsbD i.val = true ↔ dark) ∧
    (∀ j : Fin 8, j ≠ i → c.prev.getLsbD j.val = a.prev.getLsbD j.val) ∧ c.sl = a.sl) ∧
  ∀ (p : Shadow) (bs : List Byte) (a : Acc) (half : Fin 2),
    let word := fun i : Nat => halfAt bs (4 + 16 * half.val + 2 * i)
    let sample := fun (c : Acc) (i : Nat) => foldSample p c i (word i) (byteAt bs (36 + 8 * half.val + i))
    let present := ∃ i, i < 8 ∧ max 1 (min 1022 (planHalf p 4)) ≤ word i ∧ word i ≤ 1022
    let c := foldSegment p bs half.val a
    let d := sample (sample (sample (sample (sample (sample (sample (sample a 0) 1) 2) 3) 4) 5) 6) 7
    (present → c = { d with sl := min 65535 (a.sl + 1) }) ∧ (¬ present → c = d)

/-- SLICE_FOLD, a slice used (R50, R53, R55, R61): a good slice that arrived while its board was SCANNING, for a board that
is SCANNING and waits for the head. A DATA slice changes the accumulators of the head's two segments alone. An END joins the
ended set. While another expected head is outstanding that is all; with the last one the board closes (R10 to R12, R62, R67):
VOID, in the solve queue, or SOLVED unsolved with SOLVE_QUEUE_FULL. Each expected head then has the board's bad slices as
those of its last board (R36), and each LEAVING head that no SCANNING board expects is PARKED (R35). Either kind frees the
slot. -/
def Obligations.SliceFoldUses : Prop :=
  ∀ (h : Fin 6) (sl : HeldSlice) (rest : List HeldSlice) (i : Fin 32) (s : State), s.running = true →
    s.asm.held[h] = sl :: rest → xorAll sl.bytes = 0 → sliceHead sl.bytes = h.val → sl.mark = true →
    s.lookup (sliceLug sl.bytes) = some i → s.lug.boards[i].state = .scanning →
    s.lug.boards[i].expected.getLsbD h = true → s.lug.boards[i].ended.getLsbD h = false →
    s.lug.boards[i].lost.getLsbD h = false →
    let b := s.lug.boards[i]
    let p := s.shadowOf b.bank
    let ended : Board := { b with ended := b.ended ||| headBit h }
    let joins := ended.hasMaterial s.head.fitted p = true ∧ s.solv.queue.length < 4
    let full := ended.hasMaterial s.head.fitted p = true ∧ 4 ≤ s.solv.queue.length
    ∃ t, exec (.sliceFold h) s = .next t ∧ t.asm = { s.asm with held := s.asm.held.set h rest } ∧ s.path.Grew t.path ∧
      (∀ j : Fin 32, j ≠ i → t.lug.boards[j] =
        if s.lug.boards[j].state = .queued ∧ s.SolveStarts t j then { s.lug.boards[j] with state := .solving }
        else s.lug.boards[j]) ∧
      (sliceKind sl.bytes = 1 →
        t = { s with asm := t.asm, lug := t.lug, path := t.path } ∧
        t.lug = { s.lug with boards := t.lug.boards } ∧
        t.lug.boards[i] = { b with acc := t.lug.boards[i].acc } ∧
        ∀ j : Fin 12, t.lug.boards[i].acc[j] =
          if j.val = 2 * h.val then foldSegment p sl.bytes 0 b.acc[j]
          else if j.val = 2 * h.val + 1 then foldSegment p sl.bytes 1 b.acc[j] else b.acc[j]) ∧
      (sliceKind sl.bytes = 2 →
        t = { s with asm := t.asm, lug := t.lug, path := t.path, head := t.head, solv := t.solv, note := t.note } ∧
        t.lug = { s.lug with boards := t.lug.boards } ∧
        (b.awaitsOnly h = false → t.lug.boards[i] = ended ∧
          t = { s with asm := t.asm, lug := t.lug, path := t.path }) ∧
        (b.awaitsOnly h = true →
          ended.ClosesTo s.head.fitted p (decide (s.solv.queue.length < 4)) t.lug.boards[i] ∧
          (t.lug.boards[i].state = .solving ↔ s.SolveStarts t i) ∧
          s.solv.JoinedBy t.solv (if joins then [b.lug] else []) ∧
          (¬ full → t.note = s.note) ∧
          (full → t.note = s.note.raised .solveQueueFull ∧ t.path.asks .notice = true) ∧
          t.head = { s.head with ctx := t.head.ctx } ∧
          ∀ k : Fin 6, t.head.ctx[k] = { s.head.ctx[k] with
              state := s.head.ctx[k].state.parkedIn t k
              badLast := if b.expected.getLsbD k then b.bad[k] else s.head.ctx[k].badLast } ∧
            (t.head.ctx[k] ≠ s.head.ctx[k] → t.path.asks (.headStatus k) = true)))

/-- SLICE_FOLD, a slice not used (R51 to R53). A bad slice raises SLICE_CHECK and counts against the head on a SCANNING
board. A good slice that the board does not wait for raises SLICE_DISCARDED and sets LATE_SLICES on a board found. Either
frees the slot and changes nothing else. -/
def Obligations.SliceFoldRejects : Prop :=
  ∀ (h : Fin 6) (sl : HeldSlice) (rest : List HeldSlice) (s : State), s.running = true →
    s.asm.held[h] = sl :: rest →
    let bad := xorAll sl.bytes ≠ 0 ∨ ¬ (sliceKind sl.bytes = 1 ∨ sliceKind sl.bytes = 2) ∨ sliceHead sl.bytes ≠ h.val
    let found := s.lookup (sliceLug sl.bytes)
    let discarded := sl.mark = false ∨ ∀ i, found = some i →
      s.lug.boards[i].state ≠ .scanning ∨ s.lug.boards[i].expected.getLsbD h = false ∨
      s.lug.boards[i].ended.getLsbD h = true ∨ s.lug.boards[i].lost.getLsbD h = true
    (bad ∨ discarded) →
    ∃ t, exec (.sliceFold h) s = .next t ∧
      t = { s with asm := { s.asm with held := s.asm.held.set h rest }, lug := t.lug, note := t.note, path := t.path } ∧
      s.path.Grew t.path ∧ t.path.asks .notice = true ∧ t.lug = { s.lug with boards := t.lug.boards } ∧
      (∀ j : Fin 32, found ≠ some j → t.lug.boards[j] = s.lug.boards[j]) ∧
      (bad → t.note = s.note.raised .sliceCheck ∧ ∀ i, found = some i →
        t.lug.boards[i] = if s.lug.boards[i].state = .scanning then
            { s.lug.boards[i] with bad := s.lug.boards[i].bad.set h (min 255 (s.lug.boards[i].bad[h] + 1)) }
          else s.lug.boards[i]) ∧
      (¬ bad → t.note = s.note.raised .sliceDiscarded ∧ ∀ i, found = some i →
        t.lug.boards[i] = { s.lug.boards[i] with flags := { s.lug.boards[i].flags with lateSlices := true } })

/-! ### LUG and ENC (chapters 1 and 7) -/

/-- LUG_EVENT (R1, R2): the current lug advances by one, the encoder count restarts, ENCODER_SLIP is raised where the slip
reference is set and the count differs from counts_per_lug, and a LINE_STATUS write is requested. The blocks the event cannot
reach are kept. R6: a record that comes to none of the positions of the chain, and whose fire is not the one armed, is as it
was, but that a QUEUED one may have its solve started. R34 to R36: of a head context only the state, the admission pending and
the bad slices of last board change: by an admission, by parking a LEAVING head that no SCANNING board expects, and by the
close of a board that expects it. While the part is not RUNNING the pulse is not taken and nothing changes (R1). -/
def Obligations.LugEventAdvances : Prop :=
  (∀ s : State, s.running = false → exec .lugEvent s = .next s) ∧
  ∀ s : State, s.running = true →
    ∃ t, exec .lugEvent s = .next t ∧ t.lug.current = s.lug.current + 1 ∧ t.lug.encCount = 0 ∧ t.lug.slipRef = true ∧
      (s.lug.slipRef = true → s.lug.encCount ≠ s.lug.countsPerLug → t.note.has .encoderSlip = true) ∧
      s.path.Grew t.path ∧ t.path.asks .lineStatus = true ∧
      t.lug = { s.lug with current := t.lug.current, encCount := t.lug.encCount, slipRef := t.lug.slipRef,
                           boards := t.lug.boards } ∧
      t = { s with path := t.path, head := t.head, lug := t.lug, solv := t.solv, plan := t.plan, trim := t.trim,
                   dec := t.dec, tally := t.tally, note := t.note, freeCount := t.freeCount } ∧
      (s.takesLug = true → ∀ j : Fin 32, j ≠ slotOf (s.lug.current + 1) →
        (∀ p ∈ [s.lug.closeLugs, s.lug.commitPos, s.lug.trimPos, s.lug.dropPos], s.brings p j = false) →
        (∀ a, s.trim.armed = some a → s.lookup a.lug ≠ some j) →
        t.lug.boards[j] = s.lug.boards[j] ∨ (s.lug.boards[j].state = .queued ∧
          t.solv.solving = some s.lug.boards[j].lug ∧ t.lug.boards[j] = { s.lug.boards[j] with state := .solving })) ∧
      t.head = { s.head with ctx := t.head.ctx } ∧
      ∀ k : Fin 6,
        let c := s.head.ctx[k]
        let d := t.head.ctx[k]
        d = { c with state := d.state, admitPending := false, badLast := d.badLast } ∧
        (c.admitPending = true → d.state = .active) ∧
        (c.admitPending = false → d.state = c.state ∨ (c.state = .leaving ∧ d.state = .parked ∧ ¬ t.Expects k)) ∧
        (s.takesLug = true → (∀ i, s.brings s.lug.closeLugs i = true →
            ¬ (s.lug.boards[i].state = .scanning ∧ s.lug.boards[i].expected.getLsbD k = true)) → d.badLast = c.badLast) ∧
        (d ≠ c → t.path.asks (.headStatus k) = true)

/-- LUG_EVENT, the opening (R7, R34, R98): a pending bank becomes active with PLAN_SWITCHED; every head with admission pending
becomes ACTIVE; the slot of the new lug is set afresh, bound to the active bank and expecting the ACTIVE heads, or VOID
without a bank. A board that expects no head is VOID at once, keeping its bank. -/
def Obligations.LugEventOpens : Prop :=
  ∀ s : State, s.running = true →
    let n := s.lug.current + 1
    let active := s.plan.pendingBank.or s.plan.active
    ∃ t, exec .lugEvent s = .next t ∧
      t.plan.active = active ∧ t.plan.pendingBank = none ∧
      (s.plan.pendingBank ≠ none → t.note.has .planSwitched = true ∧ t.path.asks .notice = true) ∧
      (∀ h : Fin 6, s.head.ctx[h].admitPending = true →
        t.head.ctx[h].state = .active ∧ t.head.ctx[h].admitPending = false ∧ t.path.asks (.headStatus h) = true) ∧
      (active = none → t.lug.boards[slotOf n] = Board.blank n .void) ∧
      (∀ k, active = some k →
        (∀ h : Fin 6, t.lug.boards[slotOf n].expected.getLsbD h = true ↔ t.head.ctx[h].state = .active) ∧
        (t.lug.boards[slotOf n].expected ≠ 0 → t.lug.boards[slotOf n] =
          { Board.blank n .scanning with bank := some k, expected := t.lug.boards[slotOf n].expected }) ∧
        (t.lug.boards[slotOf n].expected = 0 → t.lug.boards[slotOf n] =
          { Board.blank n .void with bank := some k, classes := t.lug.boards[slotOf n].classes }))

/-- LUG_EVENT, the close timeout (R9 to R12): the board that comes to close_lugs still SCANNING is closed with SCAN_TIMEOUT set
and raised: VOID where no scanned segment has material, in the solve queue where it has room, and otherwise SOLVED with the
unsolved solution, its overrides judged (R120) and SOLVE_QUEUE_FULL raised. Which of the last two it is stands open in the
event whose commit also reaches the solver, an order the spec leaves open (log 6). Each expected head has the board's bad
slices as those of its last board (R36), and each LEAVING head that no SCANNING board expects is PARKED (R35). -/
def Obligations.LugEventTimesOut : Prop :=
  ∀ (s : State) (i : Fin 32), s.takesLug = true → s.brings s.lug.closeLugs i = true →
    s.lug.boards[i].state = .scanning →
    let b := s.lug.boards[i]
    let p := s.shadowOf b.bank
    let timedOut : Board := { b with flags := { b.flags with scanTimeout := true } }
    let material := timedOut.hasMaterial s.head.fitted p = true
    let alone := ∀ k, s.brings s.lug.commitPos k = true →
      s.lug.boards[k].state ≠ .queued ∧ s.lug.boards[k].state ≠ .solving
    ∃ (t : State) (room : Bool), exec .lugEvent s = .next t ∧ t.note.has .scanTimeout = true ∧ t.path.asks .notice = true ∧
      timedOut.ClosesTo s.head.fitted p room t.lug.boards[i] ∧
      (material → room = false → t.note.has .solveQueueFull = true) ∧
      (alone → room = decide (s.solv.queue.length < 4) ∧
        s.solv.JoinedBy t.solv (if material ∧ s.solv.queue.length < 4 then [b.lug] else [])) ∧
      (LineInv s → ∀ k : Fin 6, t.head.ctx[k] = { s.head.ctx[k] with
          state := if s.head.ctx[k].admitPending then .active else s.head.ctx[k].state.parkedIn t k
          admitPending := false
          badLast := if b.expected.getLsbD k then b.bad[k] else s.head.ctx[k].badLast })

/-- LUG_EVENT, a commit (R14, R134, R137): the SOLVED board that comes to commit_pos is COMMITTED, its final decision frozen
from the solution and the override set as they stand. Its record, with the bank's product code, is handed to the decision
writer: it is dropped with DECISION_OVERRUN where the list holds 8, and otherwise waits in the list or is being written. -/
def Obligations.LugEventCommitsSolved : Prop :=
  ∀ (s : State) (i : Fin 32) (k : Bank) (sol : Solution), s.takesLug = true → s.brings s.lug.commitPos i = true →
    s.lug.boards[i].state = .solved → s.lug.boards[i].bank = some k → s.lug.boards[i].solution = some sol →
    let b := s.lug.boards[i]
    let d := standingDecision (s.plan.bank k).shadow b.classes sol b.overrides
    ∃ t, exec .lugEvent s = .next t ∧
      t.lug.boards[i] = { b with
        state := .committed, final := some { decision := d, classes := b.classes, station := b.station } } ∧
      (let r : DecRecord :=
        { lug := b.lug, decision := d, flags := b.flags, bank := k, station := b.station, classes := b.classes
          product := BitVec.ofNat 16 (planHalf (s.plan.bank k).shadow 0) }
       (s.dec.list.length < 8 → r ∈ t.dec.list ∨ t.dec.writing.map (·.record) = some r) ∧
       (8 ≤ s.dec.list.length → t.dec = s.dec ∧ t.note.has .decisionOverrun = true))

/-- LUG_EVENT, a commit unsolved (R12, R15, R71): a board QUEUED or SOLVING at commit_pos is COMMITTED as REMAN at its board
length with UNSOLVED set and UNSOLVED_AT_COMMIT raised, its override set kept and not applied; it has left the solver. -/
def Obligations.LugEventCommitsUnsolved : Prop :=
  ∀ (s : State) (i : Fin 32) (k : Bank), s.takesLug = true → s.brings s.lug.commitPos i = true →
    (s.lug.boards[i].state = .queued ∨ s.lug.boards[i].state = .solving) → s.lug.boards[i].bank = some k →
    let b := s.lug.boards[i]
    let p := (s.plan.bank k).shadow
    let classes := unsolvedClasses b.classes b.acc
    let d : Solution :=
      { cls := .reman, run := none, pieceLength := 0, value := 0, bf10 := bf10 p (boardLength classes), saws := 0
        boardLength := boardLength classes }
    ∃ t, exec .lugEvent s = .next t ∧
      t.lug.boards[i] = { b with
        state := .committed, classes := classes, solution := some d, flags := { b.flags with unsolved := true }
        final := some { decision := d, classes := classes, station := none } } ∧
      t.note.has .unsolvedAtCommit = true ∧ t.path.asks .notice = true ∧ b.lug ∉ t.solv.queue ∧
      t.solv.solving ≠ some b.lug ∧
      (let r : DecRecord :=
        { lug := b.lug, decision := d, flags := { b.flags with unsolved := true }, bank := k, station := none
          classes := classes, product := BitVec.ofNat 16 (planHalf p 0) }
       (s.dec.list.length < 8 → r ∈ t.dec.list ∨ t.dec.writing.map (·.record) = some r) ∧
       (8 ≤ s.dec.list.length → t.dec = s.dec ∧ t.note.has .decisionOverrun = true))

/-- LUG_EVENT, the trim position (R16, R126, R128, R129): the COMMITTED board that comes to trim_pos is armed with the saws of
its final decision, or fired at once where fire_delay is 0. A fire still armed is fired first, with ENCODER_SLIP, and its
COMMITTED board is TRIMMED, whether or not a COMMITTED board comes to trim_pos; with nothing armed and none coming, the trim
output unit is as it was. The saws fired are HELD for saw_hold from here; the others are left as they are. -/
def Obligations.LugEventArmsAndFires : Prop :=
  let late := fun (s t : State) (a : ArmedFire) => t.note.has .encoderSlip = true ∧ t.path.asks .notice = true ∧
    ∀ j, s.lookup a.lug = some j → s.lug.boards[j].state = .committed → j ≠ slotOf (s.lug.current + 1) →
      (s.brings s.lug.dropPos j = false → t.lug.boards[j] = { s.lug.boards[j] with state := .trimmed }) ∧
      (s.brings s.lug.dropPos j = true → t.lug.boards[j].state = .free)
  (∀ (s : State) (i : Fin 32) (f : FinalDecision), s.takesLug = true → s.brings s.lug.trimPos i = true →
    s.lug.boards[i].state = .committed → s.lug.boards[i].final = some f →
    (∀ a, s.trim.armed = some a → a.lug ≠ s.lug.boards[i].lug) →
    ∃ t, exec .lugEvent s = .next t ∧ t.trim = { s.trim with armed := t.trim.armed, channels := t.trim.channels } ∧
      (0 < s.trim.fireDelay →
        t.lug.boards[i] = s.lug.boards[i] ∧
        t.trim.armed = some { lug := s.lug.boards[i].lug, saws := f.decision.saws }) ∧
      (s.trim.fireDelay = 0 → t.lug.boards[i] = { s.lug.boards[i] with state := .trimmed } ∧ t.trim.armed = none) ∧
      (∀ a, s.trim.armed = some a → late s t a) ∧
      (∀ k : Fin 11, t.trim.channels[k] =
        if (s.trim.fireDelay = 0 ∧ f.decision.saws.getLsbD k = true) ∨
          (∃ a, s.trim.armed = some a ∧ a.saws.getLsbD k = true)
        then some s.trim.sawHold else s.trim.channels[k])) ∧
  ∀ s : State, s.takesLug = true →
    (∀ i, s.brings s.lug.trimPos i = true → s.lug.boards[i].state = .committed → s.lug.boards[i].final ≠ none →
      ∃ a, s.trim.armed = some a ∧ a.lug = s.lug.boards[i].lug) →
    ∃ t, exec .lugEvent s = .next t ∧
      (s.trim.armed = none → t.trim = s.trim) ∧
      ∀ a, s.trim.armed = some a → late s t a ∧
        t.trim = { s.trim with armed := none, channels := t.trim.channels } ∧
        ∀ k : Fin 11, t.trim.channels[k] = if a.saws.getLsbD k = true then some s.trim.sawHold else s.trim.channels[k]

/-- LUG_EVENT, the drop (R18, R147 to R150, R158): the TRIMMED board that comes to drop_pos, or the COMMITTED one whose late
fire the same event makes, is FREE and its class, length and board-feet are offered to the tally: added to the OPEN bank where
every counter fits; held while that bank is under snapshot and the list has room; stranded where no bank is OPEN or the list
is full. A bank that would overflow is FULL, and the board goes to the other bank if that is EMPTY: opened and added to, or
under snapshot and so held or stranded; it is stranded if the other bank is not EMPTY. A VOID record is FREE and offers
nothing. R145, R148, R215: the cell of a class and length, what an addition changes, and when it fits. -/
def Obligations.LugEventDrops : Prop :=
  (∀ (s : State) (i : Fin 32), s.takesLug = true → s.brings s.lug.dropPos i = true →
    let offered := s.lug.boards[i].state = .trimmed ∨
      (s.lug.boards[i].state = .committed ∧ ∃ a, s.trim.armed = some a ∧ s.lookup a.lug = some i)
    ∃ t, exec .lugEvent s = .next t ∧
      ((offered ∨ s.lug.boards[i].state = .void) → t.lug.boards[i].state = .free) ∧
      (s.lug.boards[i].state = .void → t.tally = s.tally) ∧
      ∀ f, offered → s.lug.boards[i].final = some f →
        let o : TallyOffer :=
          { cls := f.decision.cls
            lengthIdx := (match f.decision.cls with
              | .grade _ => f.decision.pieceLength / 2 - 1
              | .reman | .trash => f.decision.boardLength / 2 - 1)
            bf10 := f.decision.bf10, overridden := s.lug.boards[i].flags.overridden
            degraded := s.lug.boards[i].flags.degraded, unsolved := s.lug.boards[i].flags.unsolved }
        let u := s.tally
        let stranded := fun v : Tally => t.tally = v.withStranded ∧ t.note.has .tallyStranded = true
        let held := fun v : Tally => (u.holding.length < 4 → t.tally = { v with holding := u.holding ++ [o] }) ∧
          (4 ≤ u.holding.length → stranded v)
        (u.openBank = none → stranded u) ∧
        ∀ k, u.openBank = some k →
          (u.underSnapshot = some k → held u) ∧
          (u.underSnapshot ≠ some k → (u.bank k).fits o = true → t.tally = u.setBank k ((u.bank k).add o)) ∧
          (u.underSnapshot ≠ some k → (u.bank k).fits o = false → t.note.has .tallyFull = true ∧
            let full := u.withState k .full
            let opened := full.withState k.other .opened
            ((u.bank k.other).state ≠ .empty → stranded full) ∧
            ((u.bank k.other).state = .empty → u.underSnapshot = some k.other → held opened) ∧
            ((u.bank k.other).state = .empty → u.underSnapshot = none →
              t.tally = opened.setBank k.other ((opened.bank k.other).add o)))) ∧
  ∀ (b : TallyBank) (o : TallyOffer),
    let code := match o.cls with
      | .grade .g1 => 1 | .grade .g2 => 2 | .grade .g3 => 3 | .grade .g4 => 4 | .grade .g5 => 5 | .grade .g6 => 6
      | .reman => 7 | .trash => 8
    let c := b.cells[o.cell]
    let one := fun flag : Bool => if flag then 1 else 0
    (o.lengthIdx < 12 → o.cell.val = 12 * (code - 1) + o.lengthIdx) ∧
    (b.add o).cells[o.cell] = { pieces := c.pieces + 1, bf10 := c.bf10 + o.bf10 } ∧
    (∀ n : Fin 96, n ≠ o.cell → (b.add o).cells[n] = b.cells[n]) ∧
    b.add o = { b with cells := (b.add o).cells, dropped := b.dropped + 1, overridden := b.overridden + one o.overridden
                       degraded := b.degraded + one o.degraded, unsolved := b.unsolved + one o.unsolved } ∧
    (b.fits o = true ↔ c.pieces + 1 < 2 ^ 24 ∧ c.bf10 + o.bf10 < 2 ^ 32 ∧ b.dropped + 1 < 2 ^ 32 ∧
      b.overridden + one o.overridden < 2 ^ 32 ∧ b.degraded + one o.degraded < 2 ^ 32 ∧
      b.unsolved + one o.unsolved < 2 ^ 32)

/-- ENC_PULSE (R2, R127, R129): the encoder count grows, saturating. An armed fire is fired when the count reaches fire_delay:
its saws are HELD for saw_hold, its COMMITTED board is TRIMMED. Nothing else changes. While the part is not RUNNING the pulse
is not taken and nothing changes. -/
def Obligations.EncPulseCountsAndFires : Prop :=
  (∀ s : State, s.running = false → exec .encPulse s = .next s) ∧
  ∀ s : State, s.running = true →
    let n := min 65535 (s.lug.encCount + 1)
    ∃ t, exec .encPulse s = .next t ∧ t = { s with lug := t.lug, trim := t.trim, path := t.path } ∧
      t.path = { s.path with returned := [] } ∧
      t.lug = { s.lug with encCount := n, boards := t.lug.boards } ∧
      ((s.trim.armed = none ∨ n ≠ s.trim.fireDelay) → t.trim = s.trim ∧ t.lug.boards = s.lug.boards) ∧
      ∀ a, s.trim.armed = some a → n = s.trim.fireDelay →
        t.trim = { s.trim with armed := none, channels := t.trim.channels } ∧
        (∀ k : Fin 11, t.trim.channels[k] =
          if a.saws.getLsbD k = true then some s.trim.sawHold else s.trim.channels[k]) ∧
        ∀ j : Fin 32, t.lug.boards[j] =
          if s.lookup a.lug = some j ∧ s.lug.boards[j].state = .committed then
            { s.lug.boards[j] with state := .trimmed }
          else s.lug.boards[j]

/-- SAW_HOLD_EXPIRY (R130): a HELD channel is RELEASED and its saw no longer driven; the other channels and the rest of the
part are as they were. LAMP_FLASH_TOGGLE (R30): the common cycle changes half, every flashing lamp with it and no other
lamp. These parts are the model's choices, not the spec's: the cycle changes half in every condition, in device reset, boot and
PASSIVE too (log 10, DESIGN CHOICE); and an expiry comes when it is sent, with no time counted (log 9, DESIGN CHOICE). -/
def Obligations.TimersTaken : Prop :=
  (∀ (k : Fin 11) (s : State), s.trim.channels[k] ≠ none →
    ∃ t, exec (.sawHoldExpiry k) s = .next t ∧
      t = { s with trim := { s.trim with channels := t.trim.channels }, path := { s.path with returned := [] } } ∧
      t.sawDriven k = false ∧ ∀ j : Fin 11, j ≠ k → t.trim.channels[j] = s.trim.channels[j]) ∧
  ∀ s : State, ∃ t, exec .lampFlashToggle s = .next t ∧
    t = { s with head := { s.head with flashLit := !s.head.flashLit }, path := { s.path with returned := [] } } ∧
    ∀ h : Fin 6, t.lampLit h =
      if s.running = true ∧ s.head.fitted.getLsbD h = true ∧
        (s.head.ctx[h].state = .waiting ∨ s.head.ctx[h].state = .leaving)
      then !s.head.flashLit else s.lampLit h

/-! ### Heads (chapter 2) -/

/-- HEAD_PRESENT_RISE and HEAD_READY_RISE (R24 to R26), while RUNNING, for a fitted head: the level is recorded; a PRESENT
edge takes ABSENT to JOINING or, with READY already high, to WAITING with HEAD_WAITING; a READY edge takes JOINING to WAITING
with HEAD_WAITING. In every other state the level alone changes. At an unfitted head (R23), or while the part is not RUNNING,
the edge is not taken: no head context changes, nor anything else but the input pin, which the model keeps at its level (log
11). -/
def Obligations.HeadLinesRise : Prop :=
  (∀ (h : Fin 6) (s : State), s.running = false ∨ s.head.fitted.getLsbD h = false →
    exec (.headPresentRise h) s = .next { s with
      pins := { s.pins with present := s.pins.present ||| headBit h }, path := { s.path with returned := [] } } ∧
    exec (.headReadyRise h) s = .next { s with
      pins := { s.pins with ready := s.pins.ready ||| headBit h }, path := { s.path with returned := [] } }) ∧
  ∀ (h : Fin 6) (s : State), s.running = true → s.head.fitted.getLsbD h = true →
    let c := s.head.ctx[h]
    (∃ t, exec (.headPresentRise h) s = .next t ∧
      t = { s with head := t.head, note := t.note, path := t.path, pins := t.pins } ∧ s.path.Grew t.path ∧
      t.pins = { s.pins with present := s.pins.present ||| headBit h } ∧
      t.head = { s.head with ctx := s.head.ctx.set h { c with
        present := true, state := if c.state = .absent then (if c.ready then .waiting else .joining) else c.state } } ∧
      t.note = (if c.state = .absent ∧ c.ready = true then s.note.raised .headWaiting else s.note) ∧
      (c.state = .absent → t.path.asks (.headStatus h) = true) ∧
      (c.state = .absent → c.ready = true → t.path.asks .notice = true)) ∧
    (∃ t, exec (.headReadyRise h) s = .next t ∧
      t = { s with head := t.head, note := t.note, path := t.path, pins := t.pins } ∧ s.path.Grew t.path ∧
      t.pins = { s.pins with ready := s.pins.ready ||| headBit h } ∧
      t.head = { s.head with ctx := s.head.ctx.set h { c with
        ready := true, state := if c.state = .joining then .waiting else c.state } } ∧
      t.note = (if c.state = .joining then s.note.raised .headWaiting else s.note) ∧
      (c.state = .joining → t.path.asks (.headStatus h) = true ∧ t.path.asks .notice = true))

/-- HEAD_READY_FALL (R24, R27, R35), while RUNNING, for a fitted head: WAITING returns to JOINING with any admission pending
cancelled; ACTIVE enters LEAVING with HEAD_LEAVING, and is PARKED at once where no SCANNING board expects it. In every other
state the level alone changes. At an unfitted head (R23), or while the part is not RUNNING, the edge is not taken: no head
context changes, nor anything else but the input pin (log 11). -/
def Obligations.HeadReadyFalls : Prop :=
  (∀ (h : Fin 6) (s : State), s.running = false ∨ s.head.fitted.getLsbD h = false →
    exec (.headReadyFall h) s = .next { s with
      pins := { s.pins with ready := s.pins.ready &&& ~~~ headBit h }, path := { s.path with returned := [] } }) ∧
  ∀ (h : Fin 6) (s : State), s.running = true → s.head.fitted.getLsbD h = true →
    let c := s.head.ctx[h]
    let expected := ∃ i : Fin 32, s.lug.boards[i].state = .scanning ∧ s.lug.boards[i].expected.getLsbD h = true
    ∃ t, exec (.headReadyFall h) s = .next t ∧
      t = { s with head := t.head, note := t.note, path := t.path, pins := t.pins } ∧ s.path.Grew t.path ∧
      t.pins = { s.pins with ready := s.pins.ready &&& ~~~ headBit h } ∧
      (c.state = .waiting → t.note = s.note ∧ t.path.asks (.headStatus h) = true ∧
        t.head = { s.head with ctx := s.head.ctx.set h { c with ready := false, state := .joining, admitPending := false } }) ∧
      (c.state = .active → t.note = s.note.raised .headLeaving ∧ t.path.asks .notice = true ∧
        t.path.asks (.headStatus h) = true ∧
        (expected → t.head = { s.head with ctx := s.head.ctx.set h { c with ready := false, state := .leaving } }) ∧
        (¬ expected → t.head = { s.head with ctx := s.head.ctx.set h { c with ready := false, state := .parked } })) ∧
      (c.state ≠ .waiting → c.state ≠ .active → t.note = s.note ∧
        t.head = { s.head with ctx := s.head.ctx.set h { c with ready := false } })

/-- HEAD_PRESENT_FALL (R28, R29), while RUNNING, for a fitted head: the head is ABSENT with admission pending clear, its last
result and, where no board closes, its bad slices of last board kept. An ACTIVE or LEAVING head is lost from every SCANNING
board that expects it: the head joins the board's lost set, HEAD_LOST is set there and raised once. A board that then waits
for no head closes (R10 to R12), and the boards that close join the solve queue the greatest lug position first; no other board
changes but by the solver. A close leaves its bad slices with the heads it expected (R36), and parks each LEAVING head that no
SCANNING board expects (R35). At an unfitted head (R23), or while the part is not RUNNING, the edge is not taken: no board and
no head context changes, nor anything else but the input pin (log 11). -/
def Obligations.HeadPresentFalls : Prop :=
  (∀ (h : Fin 6) (s : State), s.running = false ∨ s.head.fitted.getLsbD h = false →
    exec (.headPresentFall h) s = .next { s with
      pins := { s.pins with present := s.pins.present &&& ~~~ headBit h }, path := { s.path with returned := [] } }) ∧
  ∀ (h : Fin 6) (s : State), s.running = true → s.head.fitted.getLsbD h = true →
    let c := s.head.ctx[h]
    let serving := c.state = .active ∨ c.state = .leaving
    let loses := fun i : Fin 32 => s.lug.boards[i].state = .scanning ∧ s.lug.boards[i].expected.getLsbD h = true
    let closes := fun i : Fin 32 => loses i ∧ s.lug.boards[i].awaitsOnly h = true
    let after := fun i : Fin 32 => s.lug.boards[i].losing h
    let shadow := fun i : Fin 32 => s.shadowOf s.lug.boards[i].bank
    ∃ t, exec (.headPresentFall h) s = .next t ∧
      t = { s with head := t.head, note := t.note, path := t.path, pins := t.pins, lug := t.lug, solv := t.solv } ∧
      s.path.Grew t.path ∧ t.pins = { s.pins with present := s.pins.present &&& ~~~ headBit h } ∧
      t.head = { s.head with ctx := t.head.ctx } ∧ t.lug = { s.lug with boards := t.lug.boards } ∧
      (c.state ≠ .absent → t.path.asks (.headStatus h) = true) ∧
      t.head.ctx[h] = { c with present := false, state := .absent, admitPending := false, badLast := t.head.ctx[h].badLast } ∧
      (¬ serving → t.lug = s.lug ∧ t.solv = s.solv ∧ t.note = s.note ∧ t.head.ctx[h].badLast = c.badLast ∧
        ∀ k : Fin 6, k ≠ h → t.head.ctx[k] = s.head.ctx[k]) ∧
      (serving →
        (∀ i, loses i → ¬ closes i → t.lug.boards[i] = after i) ∧
        (∀ i, closes i → ∃ room, (after i).ClosesTo s.head.fitted (shadow i) room t.lug.boards[i]) ∧
        (∀ i, ¬ loses i → t.lug.boards[i] =
          if s.lug.boards[i].state = .queued ∧ s.SolveStarts t i then { s.lug.boards[i] with state := .solving }
          else s.lug.boards[i]) ∧
        ((∃ i, loses i) → t.note.has .headLost = true ∧ t.path.asks .notice = true) ∧
        ((∀ i, ¬ loses i) → t.note = s.note ∧ t.lug = s.lug ∧ t.solv = s.solv) ∧
        (∀ k : Fin 6, k ≠ h → t.head.ctx[k] = { s.head.ctx[k] with
            state := if ∃ i, closes i then s.head.ctx[k].state.parkedIn t k else s.head.ctx[k].state
            badLast := t.head.ctx[k].badLast } ∧
          (t.head.ctx[k] ≠ s.head.ctx[k] → t.path.asks (.headStatus k) = true)) ∧
        (∀ k : Fin 6, (∀ i, closes i → s.lug.boards[i].expected.getLsbD k = false) →
          t.head.ctx[k].badLast = s.head.ctx[k].badLast) ∧
        (LineInv s →
          let order := s.closedByLoss h
          let material := order.filter fun i => (after i).hasMaterial s.head.fitted (shadow i)
          let joined := material.take s.solv.room
          (∀ i, i ∈ order ↔ closes i) ∧
          (∀ i ∈ order, (after i).ClosesTo s.head.fitted (shadow i) (decide (i ∈ joined)) t.lug.boards[i]) ∧
          s.solv.JoinedBy t.solv (joined.map fun i => s.lug.boards[i].lug) ∧
          t.note = { s.note with word := s.note.word ||| (if ∃ i, loses i then Notice.headLost.mask else 0) |||
            (if joined.length < material.length then Notice.solveQueueFull.mask else 0) } ∧
          ∀ (k : Fin 6) (i : Fin 32), (order.filter fun i => s.lug.boards[i].expected.getLsbD k).getLast? = some i →
            t.head.ctx[k].badLast = s.lug.boards[i].bad[k]))

/-! ### The solver (chapter 4) -/

/-- SOLVE_END (R70, R68): the board of the solve in progress, if still SOLVING, is SOLVED with its classes, its solution,
DEGRADED where a blind class was given, and its overrides judged; otherwise nothing is written. The solver then takes the
oldest queued board, or is idle; that an entry whose record is not QUEUED is taken as well, with no record changed, is the
model's own (log 14, DEDUCED). -/
def Obligations.SolveEnds : Prop :=
  ∀ (s : State) (n : Word16), s.running = true → s.solv.solving = some n →
    ∃ t, exec .solveEnd s = .next t ∧ t = { s with lug := t.lug, solv := t.solv, path := { s.path with returned := [] } } ∧
      t.lug = { s.lug with boards := t.lug.boards } ∧
      t.solv = { queue := s.solv.queue.tail, solving := s.solv.queue.head? } ∧
      (∀ i, s.lookup n = some i → s.lug.boards[i].state = .solving →
        let b := s.lug.boards[i]
        let p := s.shadowOf b.bank
        let classes := solveClasses p b.classes b.acc
        let solved : Board := { b with
          classes := classes, solution := some (solveSolution p classes)
          flags := { b.flags with degraded := b.flags.degraded || degradedBy b.classes b.acc } }
        t.lug.boards[i] = { solved.endOfSolveCheck with state := .solved }) ∧
      (∀ i : Fin 32, (s.lookup n ≠ some i ∨ s.lug.boards[i].state ≠ .solving) →
        t.lug.boards[i] =
          if (∃ m, s.solv.queue.head? = some m ∧ s.lookup m = some i) ∧ s.lug.boards[i].state = .queued then
            { s.lug.boards[i] with state := .solving }
          else s.lug.boards[i])

/-! ### The memory path (chapter 9) -/

/-- UPSTREAM_ACCEPT (R165, R166, R175), with room in flight: a transaction that would cross a 64-byte line is settled REFUSED
and never forwarded, in boot as well (the model's choice, log 30). Another joins the tail: BEHIND where its source has an
earlier transaction BEHIND, HELD or READY; else HELD by every own write pending on its line, one still waiting among them
(log 29), or READY where none is. -/
def Obligations.UpstreamAccepts : Prop :=
  ∀ (x : Txn) (s : State), s.boot.condition ≠ .deviceReset → s.path.flight.length < 8 →
    (64 < txnStart x % 64 + 8 * x.beats →
      let refused : Settled := { response := .refused, counted := false, givenUp := false }
      let flight := s.path.flight ++ [{ txn := x, state := .answered refused }]
      ∃ t, exec (.upstreamAccept x) s = .next t ∧ s.path.Returns t.path flight ∧ s.src.CountedBy t.src flight ∧
        (∀ i : Fin 16, t.src.ctx[i] ≠ s.src.ctx[i] → t.path.asks (.sourceStatus i) = true) ∧
        ({ source := x.source, settled := refused } ∈ t.path.returned ∨
          ∃ u ∈ t.path.flight, u.txn = x ∧ u.state = .answered refused) ∧
        t = { s with path := t.path, src := t.src }) ∧
    (txnStart x % 64 + 8 * x.beats ≤ 64 →
      let early := ∃ u ∈ s.path.flight, u.txn.source = x.source ∧
        (u.state = .behind ∨ u.state = .ready ∨ ∃ n, u.state = .held n)
      let writes := (pendingOwn s.path).countP fun k => k.isWrite && decide (lineOf (ownStart s k) = lineOf (txnStart x))
      ∃ t u, exec (.upstreamAccept x) s = .next t ∧ u.txn = x ∧
        (early → u.state = .behind) ∧
        (¬ early → writes = 0 → u.state = .ready) ∧ (¬ early → writes ≠ 0 → u.state = .held writes) ∧
        t.path.flight.getLast? = some u ∧ List.Forall₂ UpTxn.MayPresent s.path.flight t.path.flight.dropLast ∧
        t = { s with path := { s.path with flight := t.path.flight, returned := [] } })

/-- ARBITER_GRANT_OWN (R172, R173, R176), where the own side waits and the forwarded side does not or was granted last: the
oldest entry of the queue is issued with the data of that moment, the oldest waiting request takes its place at the tail, and
the flag records the own side. R209, R210, Tables 12-2 to 12-4 and 12-6: where each own transaction lies, and each field of
the words it carries. -/
def Obligations.ArbiterGrantsOwn : Prop :=
  (∀ (s : State) (k : OwnTxn) (rest : List OwnTxn), s.path.queue = k :: rest →
    ((∀ u ∈ s.path.flight, u.state ≠ .ready) ∨ s.path.lastGranted = .forwarded) →
    ∃ t d, exec .arbiterGrantOwn s = .next t ∧
      t = { s with path := { s.path with
        queue := rest ++ s.path.waiting.take 1, waiting := s.path.waiting.drop 1, down := s.path.down ++ [d]
        lastGranted := .own, returned := [] } } ∧
      d.origin = .own k ∧ d.wire.start = ownStart s k / 8 * 8 ∧
      (k.isWrite = false → d.wire.kind = .read ∧ d.wire.beats = 1) ∧
      (k.isWrite = true → d.wire.kind = .write ∧
        (d.wire.lanes.filter (·.strobe)).map (·.data) = ownBytes s k ∧
        ∀ j : Nat, ((d.wire.lanes[j]?.map (·.strobe)).getD false = true ↔
          ownStart s k ≤ d.wire.start + j ∧ d.wire.start + j < ownStart s k + (ownBytes s k).length))) ∧
  ∀ s : State,
    let at0 := s.path.bases
    let field := fun (k : OwnTxn) (low width : Nat) => wordAt (ownBytes s k) 0 / 2 ^ low % 2 ^ width
    let bit := fun b : Bool => if b then 1 else 0
    let bankField := fun k : Option Bank => match k with | none => 0 | some .a => 1 | some .b => 2
    let tallyState := fun st : TallyState => match st with | .empty => 0 | .opened => 1 | .closed => 2 | .full => 3
    (ownStart s .notice = at0.ctrl ∧ (∀ w, ownStart s (.noticeEnable w) = at0.ctrl + 0x04) ∧
      ownStart s .lineStatus = at0.ctrl + 0x0C ∧ (∀ w, ownStart s (.tallyCompletion w) = at0.ctrl + 0x10) ∧
      ownStart s .tallyStatus = at0.ctrl + 0x14 ∧ (∀ v, ownStart s (.ovrConsumer v) = at0.ctrl + 0x20) ∧
      (∀ v b, ownStart s (.decProducer v b) = at0.ctrl + 0x24) ∧
      (∀ h : Fin 6, ownStart s (.headStatus h) = at0.ctrl + 0x60 + 4 * h.val) ∧
      (∀ i : Fin 16, ownStart s (.sourceStatus i) = at0.ctrl + 0x80 + 4 * i.val) ∧
      (∀ n st, ownStart s (.ovrStatus n st) = at0.ovr + 8 * n + 7) ∧ (∀ n, ownStart s (.ovrFetch n) = at0.ovr + 8 * n) ∧
      (∀ n bs, ownStart s (.decRecord n bs) = at0.dec + 32 * n) ∧
      (∀ n bs, ownStart s (.imageLine .a n bs) = at0.tally + 64 * n) ∧
      ∀ n bs, ownStart s (.imageLine .b n bs) = at0.tally + 1024 + 64 * n) ∧
    (∀ k : OwnTxn, (k.isStatusWord = true ∨ (∃ w, k = .noticeEnable w) ∨ (∃ v, k = .ovrConsumer v) ∨
        (∃ v b, k = .decProducer v b) ∨ ∃ w, k = .tallyCompletion w) → (ownBytes s k).length = 4) ∧
    (field .notice 0 32 = s.note.word.toNat ∧ (∀ w, field (.noticeEnable w) 0 32 = w.toNat) ∧
      (∀ v, field (.ovrConsumer v) 0 32 = v.toNat) ∧ (∀ v b, field (.decProducer v b) 0 32 = v.toNat) ∧
      ∀ w, field (.tallyCompletion w) 0 32 = w.toNat) ∧
    (field .lineStatus 0 16 = s.lug.current.toNat ∧ field .lineStatus 16 2 = bankField s.plan.active ∧
      field .lineStatus 18 2 = bankField s.plan.pendingBank ∧ field .lineStatus 20 1 = bit (s.plan.bound .a) ∧
      field .lineStatus 21 1 = bit (s.plan.bound .b) ∧ field .lineStatus 22 10 = 0) ∧
    (field .tallyStatus 0 2 = tallyState s.tally.bankA.state ∧ field .tallyStatus 2 2 = tallyState s.tally.bankB.state ∧
      field .tallyStatus 4 2 = bankField s.tally.openBank ∧ field .tallyStatus 6 1 = bit s.tally.request.isSome ∧
      field .tallyStatus 7 9 = 0 ∧ field .tallyStatus 16 16 = s.tally.stranded % 2 ^ 16) ∧
    (∀ h : Fin 6, let c := s.head.ctx[h]
      field (.headStatus h) 0 3 = (match c.state with
        | .absent => 0 | .joining => 1 | .waiting => 2 | .active => 3 | .leaving => 4 | .parked => 5) ∧
      field (.headStatus h) 3 2 = (match c.state with
        | .absent | .active => 0 | .joining | .parked => 1 | .waiting | .leaving => 2) ∧
      field (.headStatus h) 5 1 = bit c.admitPending ∧
      field (.headStatus h) 6 2 = (match c.last with | .none => 0 | .accepted => 1 | .refused => 2) ∧
      field (.headStatus h) 8 8 = c.badLast % 2 ^ 8 ∧ field (.headStatus h) 16 16 = 0) ∧
    (∀ i : Fin 16, let c := s.src.ctx[i]
      field (.sourceStatus i) 0 1 = bit c.trapped ∧ field (.sourceStatus i) 1 1 = bit c.range ∧
      field (.sourceStatus i) 2 1 = bit c.shape ∧ field (.sourceStatus i) 3 1 = bit c.ownedWord ∧
      field (.sourceStatus i) 4 1 = bit c.planBound ∧ field (.sourceStatus i) 5 1 = bit c.mark ∧
      field (.sourceStatus i) 6 2 = 0 ∧ field (.sourceStatus i) 8 8 = c.retries % 2 ^ 8 ∧
      field (.sourceStatus i) 16 16 = c.accepted.toNat) ∧
    (∀ (q : TallyRequest) (st : RequestStatus), let w := (tallyCompletionWord q st).toNat
      w % 2 ^ 4 = q.code.toNat ∧ w / 2 ^ 4 % 2 ^ 2 = q.bankField.toNat ∧ w / 2 ^ 6 % 2 ^ 2 = 0 ∧ w / 2 ^ 8 % 2 = 1 ∧
      w / 2 ^ 9 = (match st with | .ok => 0 | .refused => 1 | .memoryError => 2)) ∧
    (∀ n st, ownBytes s (.ovrStatus n st) = [st]) ∧
    (EntryStatus.applied.code = 1 ∧ EntryStatus.attached.code = 2 ∧ EntryStatus.tooLate.code = 3 ∧
      EntryStatus.noBoard.code = 4 ∧ EntryStatus.invalid.code = 5) ∧
    (∀ n bs, ownBytes s (.decRecord n bs) = bs) ∧ ∀ k n bs, ownBytes s (.imageLine k n bs) = bs

/-- MEMORY_ANSWER (R167, R177): memory answers the oldest downstream transaction, a forwarded one. Answered OK, a write is in
memory on its strobed bytes alone and a read returns the bytes memory holds; answered ERROR the response is REFUSED. That
memory acts on the transaction at this answer, and is unchanged by one answered ERROR, is the model's own (log 19, DEDUCED).
The responses due are returned and counted (R189); that a write given up has its source's count made 0 once more when its
response is returned is the model's own (log 15, DEDUCED). The answer of the write that began a batch requests the fetch of
its entry (R108), and the answer of a TALLY_REQUEST write completes a request whose work has ended (R153). -/
def Obligations.MemoryAnswers : Prop :=
  ∀ (ok : Bool) (s : State) (i : Fin 16) (b r : Bool) (w : Wire) (rest : List Down) (pre : List UpTxn) (x : Txn) (g : Bool)
    (post : List UpTxn),
    s.path.down = { origin := .forwarded i b r, wire := w } :: rest →
    s.path.flight = pre ++ { txn := x, state := .inMemory g } :: post → x.source = i →
    (∀ u ∈ pre, u.txn.source ≠ i) →
    let settled : Settled :=
      { response := if ok then .complete (if w.kind = .read then s.mem.bytes w.start (8 * w.beats) else []) else .refused
        counted := false, givenUp := g }
    let flight := pre ++ { txn := x, state := .answered settled } :: post
    ∃ t, exec (.memoryAnswer ok) s = .next t ∧ t.path.down = rest ∧
      { source := i, settled := settled } ∈ t.path.returned ∧ ReturnsDue flight t.path.flight t.path.returned ∧
      s.src.CountedBy t.src flight ∧
      (∀ j : Fin 16, t.src.ctx[j] ≠ s.src.ctx[j] → t.path.asks (.sourceStatus j) = true) ∧
      ((ok = false ∨ w.kind = .read) → t.mem = s.mem) ∧
      (∀ a : Nat, (∀ j : Nat, a = w.start + j → (w.lanes[j]?.map (·.strobe)).getD false = false) →
        t.mem.read a = s.mem.read a) ∧
      (MemoryInv s → ok = true → w.kind = .write → ∀ (j : Nat) (l : Lane), w.lanes[j]? = some l → l.strobe = true →
        t.mem.read (w.start + j) = l.data) ∧
      t = { s with path := t.path, src := t.src, mem := t.mem, tally := t.tally, note := t.note } ∧
      t.path = { s.path with flight := t.path.flight, queue := t.path.queue, waiting := t.path.waiting, down := rest
                             returned := t.path.returned } ∧
      (∃ more, t.path.queue = s.path.queue ++ more) ∧ WaitingGrew s.path.waiting t.path.waiting ∧
      (b = true → ∀ bt, s.ovr.batch = some bt → t.path.asks (.ovrFetch (bt.index.toNat % s.ovr.ringSize)) = true) ∧
      ((r = false ∨ s.tally.request = none) → t.tally = s.tally ∧ t.note = s.note) ∧
      (r = true → ∀ q, s.tally.request = some q →
        (q.status = none → t.note = s.note ∧ t.tally = { s.tally with request := some { q with writeAnswered := true } }) ∧
        ∀ st, q.status = some st → t.tally = { s.tally with request := none } ∧
          t.path.asks (.tallyCompletion (tallyCompletionWord q st)) = true ∧ t.path.asks .tallyStatus = true ∧
          t.note = s.note.raised .tallyRequestDone ∧ t.path.asks .notice = true)

/-- OWN_TRANSACTION_ANSWER (R174, R175): memory answers the oldest downstream transaction, an own one, which leaves the wire.
ERROR raises MEMORY_ERROR. A write answered OK is in memory on its strobed bytes alone; that memory takes it at this answer,
and is unchanged by one answered ERROR, is the model's own (log 19, DEDUCED). Each transaction HELD on its line is one own
write nearer READY. -/
def Obligations.OwnTransactionAnswered : Prop :=
  ∀ (ok : Bool) (s : State) (k : OwnTxn) (w : Wire) (rest : List Down), s.path.down = { origin := .own k, wire := w } :: rest →
    ∃ t, exec (.ownTransactionAnswer ok) s = .next t ∧ t.path.down = rest ∧ t.path.returned = [] ∧
      t.path.flight = (if k.isWrite then s.path.flight.map fun u =>
        if txnStart u.txn / 64 = w.start / 64 then
          (match u.state with
            | .held n => { u with state := if n ≤ 1 then .ready else .held (n - 1) }
            | .behind | .ready | .inMemory _ | .answered _ => u)
        else u
        else s.path.flight) ∧
      (ok = false → t.mem = s.mem ∧ t.note.has .memoryError = true ∧ t.path.asks .notice = true) ∧
      (∀ a : Nat, (∀ j : Nat, a = w.start + j → (w.lanes[j]?.map (·.strobe)).getD false = false) →
        t.mem.read a = s.mem.read a) ∧
      (MemoryInv s → ok = true → w.kind = .write → ∀ (j : Nat) (l : Lane), w.lanes[j]? = some l → l.strobe = true →
        t.mem.read (w.start + j) = l.data) ∧
      t = { s with path := t.path, mem := t.mem, note := t.note, ovr := t.ovr, dec := t.dec, tally := t.tally } ∧
      (k.isStatusWord = true → ok = true →
        t = { s with path := t.path, mem := t.mem })

/-- What an own answer does at its block (R109, R110, R139, R159). A fetched entry is held for its take, or marked unreadable
on ERROR; that the bytes held are those memory holds at this answer is the model's own (log 19, DEDUCED). The last status
byte of a batch ends it: the consumer index is the batch end, OVR_CONSUMER is written and OVERRIDES_DONE raised. A decision
record answered is announced by a DEC_PRODUCER write. An image write answered counts, and the last one ends the snapshot: the
boards held are counted in order like drops of that moment (R148 to R150), and the request completes once its own write has
been answered (R153). The count of status bytes not yet answered and the mark of an announcement pending are the model's
bookkeeping (log 27, DESIGN CHOICE). -/
def Obligations.OwnAnswerReachesBlock : Prop :=
  ∀ (ok : Bool) (s : State) (k : OwnTxn) (w : Wire) (rest : List Down), s.path.down = { origin := .own k, wire := w } :: rest →
    ∃ t, exec (.ownTransactionAnswer ok) s = .next t ∧
      (∀ slot, k = .ovrFetch slot →
        t.ovr = { s.ovr with fetched := some (if ok then some (s.mem.bytes w.start (8 * w.beats)) else none) }) ∧
      (∀ slot st b, k = .ovrStatus slot st → s.ovr.batch = some b → b.index = b.stop → s.ovr.statusOut = 1 →
        t.ovr = { s.ovr with consumer := b.stop, batch := none, statusOut := 0 } ∧
        t.path.asks (.ovrConsumer b.stop) = true ∧ t.note.has .overridesDone = true) ∧
      (∀ slot st b, k = .ovrStatus slot st → s.ovr.batch = some b → (b.index ≠ b.stop ∨ s.ovr.statusOut ≠ 1) →
        1 ≤ s.ovr.statusOut → t.ovr = { s.ovr with statusOut := s.ovr.statusOut - 1 }) ∧
      (∀ slot bs, k = .decRecord slot bs →
        t.dec = { s.dec with writing := none, announcing := true } ∧
        t.path.asks (.decProducer s.dec.producer true) = true) ∧
      (∀ v, k = .decProducer v true → s.dec.writing = none → (s.dec.producer - s.dec.consumerShadow).toNat < s.dec.ringSize →
        ∀ r rs, s.dec.list = r :: rs →
        let slot := s.dec.producer.toNat % s.dec.ringSize
        t.dec = { s.dec with
          list := rs, producer := s.dec.producer + 1, writing := some { record := r, slot := slot }, announcing := false } ∧
        t.path.asks (.decRecord slot r.bytes) = true) ∧
      ∀ bk n bs q p, k = .imageLine bk n bs → s.tally.request = some q → q.snapshot = some p →
        let failed := p.error || !ok
        (p.answered ≠ 12 → t.tally = { s.tally with
          request := some { q with snapshot := some { p with answered := p.answered + 1, error := failed } } }) ∧
        (p.answered = 12 →
          let st : RequestStatus := if failed then .memoryError else .ok
          let counted := s.tally.holding.foldl Tally.counting { s.tally with holding := [], request := none }
          (s.tally.stranded < counted.stranded → t.note.has .tallyStranded = true) ∧
          (q.writeAnswered = true → t.tally = counted ∧ t.note.has .tallyRequestDone = true ∧
            t.path.asks (.tallyCompletion (tallyCompletionWord q st)) = true) ∧
          (q.writeAnswered = false →
            t.tally = { counted with request := some { q with status := some st, snapshot := none } }))

/-- FORWARDED_SIDE_GRANT (R168, R176, R178, R179): a granted READ, a granted WRITE outside the apertures, and while PASSIVE any
transaction, is issued downstream with its data and strobes as issued upstream. A WRITE granted during boot is answered
RETRY, not forwarded and not counted: a retry count changes only as other responses returned with it say (R189). No block
takes anything of it. That APERTURE_WRITE takes the same grant during boot is the model's choice (log 13, DESIGN CHOICE). -/
def Obligations.ForwardedSideGranted : Prop :=
  ∀ (s : State) (x : Txn), s.forwardedTurn = some x →
    ((x.kind = .read ∨ (s.running = true ∧ s.decode x = none) ∨ s.boot.condition = .passive) →
      ∃ t, exec .forwardedSideGrant s = .next t ∧ s.path.Issued t.path (downAs x x.lanes false false) false ∧
        t = { s with path := t.path }) ∧
    (x.kind = .write → s.boot.condition = .booting →
      let r : Settled := { response := .retry, counted := false, givenUp := false }
      ∃ t, exec .forwardedSideGrant s = .next t ∧ exec .apertureWrite s = .next t ∧ s.path.SettledBy t.path x r ∧
        s.src.CountedBy t.src (s.path.settledFlight r) ∧ t = { s with path := t.path, src := t.src })

/-- Every grant of the forwarded side is an event of some row of the table, and every row that takes it answers alike; a row
of another kind leaves the state as it is. That a row is the whole grant event is the model's choice (log 13, DESIGN CHOICE). -/
def Obligations.EveryGrantHasARow : Prop :=
  ∀ (s : State) (x : Txn), s.forwardedTurn = some x →
    (∃ c : Instr, c ∈ grantRows ∧ exec c s = .next (grant s x)) ∧
    (∀ c : Instr, c ∈ grantRows → exec c s = .next (grant s x) ∨ exec c s = .next s)

/-! ### Protection (chapter 10) -/

/-- R170, R184, R186, R187: the refusals of a write into an aperture, in the order of Table 9-2, for a source that is not the
control source clearing notices or traps. A partial word is refused with SHAPE; a trapped source is refused with no cause; DEC,
TALLY and the owned words with OWNED_WORD; a source outside the mask with RANGE; a bound plan bank with PLAN_BOUND. The source
is answered REFUSED and nothing is issued. A cause traps it and raises SOURCE_TRAPPED; the refusal of a trapped source adds no
cause. The refusal leaves the retry count (R189), which only other responses returned with it change. -/
def Obligations.ProtectionRefuses : Prop :=
  ∀ (s : State) (x : Txn) (ap : Aperture) (off : Nat), s.grantsInto x ap off = true →
    let words := if ap = .ctrl then ctrlWords off x else []
    let c := s.src.ctx[x.source]
    let partialWord := (ap = .ctrl ∨ ap = .planA ∨ ap = .planB ∨ ap = .ovr) ∧ wholeWords x.lanes = false
    let exempt := x.source = s.src.control ∧ words ≠ [] ∧ ∀ p ∈ words, p.1 = .notice ∨ p.1 = .trapClear
    let owned := ap = .dec ∨ ap = .tally ∨
      ∃ p ∈ words, p.1.owned = true ∨ (p.1 = .notice ∧ x.source ≠ s.src.control)
    let outside := (∃ m, s.src.mask ap = some m ∧ m.getLsbD x.source = false) ∨
      (ap = .scan ∧ x.source ≠ s.src.headSource[ringOf s.path.scanSlots off]) ∨
      (∃ p ∈ words, p.1.reserved = true ∧ x.source ≠ s.src.control)
    let r : Settled := { response := .refused, counted := false, givenUp := false }
    let t := grant s x
    let refused := fun cause : Option Cause =>
      let trapped : SourceTable := { s.src with ctx := s.src.ctx.set x.source { c with
        trapped := c.trapped || cause.isSome, range := c.range || cause == some .range
        shape := c.shape || cause == some .shape, ownedWord := c.ownedWord || cause == some .ownedWord
        planBound := c.planBound || cause == some .planBound } }
      s.path.SettledBy t.path x r ∧ trapped.CountedBy t.src (s.path.settledFlight r) ∧
      t = { s with path := t.path, src := t.src, note := t.note } ∧
      t.note = (if cause = none then s.note else s.note.raised .sourceTrapped) ∧
      (cause ≠ none → t.path.asks .notice = true ∧ t.path.asks (.sourceStatus x.source) = true)
    (partialWord → refused (some .shape)) ∧
    (¬ partialWord → c.trapped = true → ¬ exempt → refused none) ∧
    (¬ partialWord → ¬ (c.trapped = true ∧ ¬ exempt) → owned → refused (some .ownedWord)) ∧
    (¬ partialWord → ¬ (c.trapped = true ∧ ¬ exempt) → ¬ owned → outside → refused (some .range)) ∧
    (¬ partialWord → ¬ (c.trapped = true ∧ ¬ exempt) → ¬ owned → ¬ outside → (ap = .planA ∧ s.plan.bound .a = true ∨
      ap = .planB ∧ s.plan.bound .b = true) → refused (some .planBound))

/-- APERTURE_WRITE (R169, R191): a write into OVR, or into CTRL on words no block watches, that passes every test is issued
with its data as written and counted once, and no block takes anything of it. So with LINE_RESTART written alone with a value
other than 1, and a HEAD_COMMAND written alone with 0: memory gets 0, and nothing is acted on (R31, R171, R207). That this holds
of a 0 written for an unfitted head too is the model's choice, not the spec's (log 31, DESIGN CHOICE: R31 against R23). -/
def Obligations.ApertureWriteForwards : Prop :=
  (∀ (s : State) (x : Txn) (off : Nat), wholeWords x.lanes = true → s.src.ctx[x.source].trapped = false →
    ((s.grantsInto x .ovr off = true ∧ s.src.maskOvr.getLsbD x.source = true) ∨
      (s.grantsInto x .ctrl off = true ∧ s.src.maskCtrl.getLsbD x.source = true ∧
        ∀ p ∈ ctrlWords off x, p.1 = .unlisted)) →
    ∃ t, exec .apertureWrite s = .next t ∧ s.path.Issued t.path (downAs x x.lanes false false) false ∧
      t = { s with path := t.path, src := s.src.counted x.source } ∧ t.path.asks (.sourceStatus x.source) = true) ∧
  ∀ (s : State) (x : Txn) (off : Nat) (k : CtrlWord) (w : Word32), s.forwardsCtrl x off = true →
    writesAlone off x k w = true → ((k = .lineRestart ∧ w ≠ 1) ∨ ((∃ h, k = .headCommand h) ∧ w = 0)) →
    ∃ t lanes, exec .apertureWrite s = .next t ∧ s.path.Issued t.path (downAs x lanes false false) false ∧
      wordsOf off lanes = (wordsOf off x.lanes).map (fun p => (p.1, 0)) ∧
      lanes.map (·.strobe) = x.lanes.map (·.strobe) ∧
      t = { s with path := t.path, src := s.src.counted x.source } ∧ t.path.asks (.sourceStatus x.source) = true

/-! ### Plan banks (chapter 5) -/

/-- PLAN_BANK_WRITE (R92, R94): a write of whole words into the aperture of a bank that is not bound, by a source in its mask
and not trapped, is issued as written and copied into the bank's shadow, byte by byte at offsets 0 to 207. -/
def Obligations.PlanBankWritten : Prop :=
  ∀ (s : State) (x : Txn) (k : Bank) (off : Nat),
    s.grantsInto x (match k with | .a => .planA | .b => .planB) off = true → wholeWords x.lanes = true →
    s.src.ctx[x.source].trapped = false →
    (match k with | .a => s.src.maskPlanA | .b => s.src.maskPlanB).getLsbD x.source = true → s.plan.bound k = false →
    ∃ t, exec .planBankWrite s = .next t ∧ s.path.Issued t.path (downAs x x.lanes false false) false ∧
      t = { s with path := t.path, src := s.src.counted x.source, plan := t.plan } ∧
      t.plan = s.plan.setBank k { s.plan.bank k with shadow := (t.plan.bank k).shadow } ∧
      ∀ n : Fin 208, (t.plan.bank k).shadow[n] =
        if off ≤ n.val ∧ (x.lanes[n.val - off]?.map (·.strobe)).getD false = true then
          (x.lanes[n.val - off]?.map (·.data)).getD 0
        else (s.plan.bank k).shadow[n]

/-- PLAN_SELECT (R96, Table 5-2): naming the active bank cancels a pending switch, naming the other sets it pending, and 0 and
3 are ignored; a change requests a LINE_STATUS write. Written alone, the word reaches memory as written and nothing else of
the part changes. -/
def Obligations.PlanSelected : Prop :=
  ∀ (s : State) (x : Txn) (off : Nat) (w : Word32), s.forwardsCtrl x off = true → writesOnce off x .planSelect w = true →
    let named : Option Bank := if w.toNat % 4 = 1 then some .a else if w.toNat % 4 = 2 then some .b else none
    let pend := if named = none then s.plan.pendingBank else if named = s.plan.active then none else named
    ∃ t, exec .planSelect s = .next t ∧ t.plan = { s.plan with pendingBank := pend } ∧
      (pend ≠ s.plan.pendingBank → t.path.asks .lineStatus = true) ∧
      (writesAlone off x .planSelect w = true →
        s.path.Issued t.path (downAs x x.lanes false false) false ∧
        t = { s with path := t.path, src := s.src.counted x.source, plan := t.plan })

/-! ### Slices into the rings (chapters 2 and 3) -/

/-- SLICE_WRITE, for the ring's own untrapped source (R37, R41, R45, R46, R49): a write that is no whole slice is forwarded
with SLICE_CHECK; a whole slice from a head that is not ACTIVE or LEAVING is forwarded; one with free credit joins the tail of
the head's list, marked where its board is SCANNING, and is forwarded; without credit it is answered RETRY, counted (R189);
from an exhausted source it is forwarded and not taken in, with SLICE_DISCARDED, the mark, a retry count of 0 and a bad slice
on its SCANNING board. -/
def Obligations.SliceWritten : Prop :=
  ∀ (s : State) (x : Txn) (off : Nat), s.grantsInto x .scan off = true →
    let h := ringOf s.path.scanSlots off
    x.source = s.src.headSource[h] → s.src.ctx[x.source].trapped = false →
    let whole := off % 64 = 0 ∧ x.beats = 8 ∧ x.lanes.length = 64 ∧ ∀ l ∈ x.lanes, l.strobe = true
    let serves := s.head.ctx[h].state = .active ∨ s.head.ctx[h].state = .leaving
    let exhausted := 0 < s.src.maxRetry ∧ s.src.maxRetry ≤ s.src.ctx[x.source].retries
    let credit := s.asm.held[h].length < s.asm.granted[h]
    let bytes := x.lanes.map (·.data)
    let sound := ∃ i, s.lookup (sliceLug bytes) = some i ∧ s.lug.boards[i].state = .scanning
    ∃ t, exec .sliceWrite s = .next t ∧
      (¬ whole → s.path.Issued t.path (downAs x x.lanes false false) false ∧
        t = { s with path := t.path, src := s.src.counted x.source, note := s.note.raised .sliceCheck }) ∧
      (whole → ¬ serves → s.path.Issued t.path (downAs x x.lanes false false) false ∧
        t = { s with path := t.path, src := s.src.counted x.source }) ∧
      (whole → serves → ¬ exhausted → credit → s.path.Issued t.path (downAs x x.lanes false false) false ∧
        t = { s with path := t.path, src := s.src.counted x.source, asm := t.asm } ∧
        t.asm = { s.asm with held := s.asm.held.set h (t.asm.held[h]) } ∧
        ∃ m, t.asm.held[h] = s.asm.held[h] ++ [{ bytes := bytes, mark := m }] ∧ (m = true ↔ sound)) ∧
      (whole → serves → ¬ exhausted → ¬ credit →
        let r : Settled := { response := .retry, counted := true, givenUp := false }
        s.path.SettledBy t.path x r ∧ s.src.CountedBy t.src (s.path.settledFlight r) ∧
        (∀ i : Fin 16, t.src.ctx[i] ≠ s.src.ctx[i] → t.path.asks (.sourceStatus i) = true) ∧
        t = { s with path := t.path, src := t.src }) ∧
      (whole → serves → exhausted → s.path.Issued t.path (downAs x x.lanes false false) true ∧
        t.note = s.note.raised .sliceDiscarded ∧
        t.src = { s.src with ctx := s.src.ctx.set x.source { s.src.ctx[x.source] with
          accepted := s.src.ctx[x.source].accepted + 1, retries := 0, mark := true } } ∧
        t = { s with path := t.path, src := t.src, note := t.note, lug := t.lug } ∧
        t.lug = { s.lug with boards := t.lug.boards } ∧
        ∀ j : Fin 32, t.lug.boards[j] =
          if s.lookup (sliceLug bytes) = some j ∧ s.lug.boards[j].state = .scanning then
            { s.lug.boards[j] with bad := s.lug.boards[j].bad.set h (min 255 (s.lug.boards[j].bad[h] + 1)) }
          else s.lug.boards[j])

/-! ### Command words of the control block -/

/-- ADMIT, RELEASE and HEAD_COMMAND_UNKNOWN (R31 to R33, Tables 2-3 and 2-4): the answer is the last result of the head named,
HEAD_STATUS is requested even where it repeats, and the head's state follows the tables. Written alone, the word reaches
memory as 0 and nothing else of the part changes. -/
def Obligations.HeadCommandsTaken : Prop :=
  ∀ (s : State) (x : Txn) (off : Nat) (h : Fin 6) (w : Word32), s.forwardsCtrl x off = true →
    writesOnce off x (.headCommand h) w = true →
    let c := s.head.ctx[h]
    let expected := ∃ i : Fin 32, s.lug.boards[i].state = .scanning ∧ s.lug.boards[i].expected.getLsbD h = true
    let done := fun (cmd : Instr) (ok : Bool) (c' : HeadCtx) (n : Option Notice) =>
      ∃ t, exec cmd s = .next t ∧
        t.head.ctx[h] = { c' with last := if ok then .accepted else .refused } ∧ t.path.asks (.headStatus h) = true ∧
        (∀ k, n = some k → t.note.has k = true ∧ t.path.asks .notice = true) ∧
        (writesAlone off x (.headCommand h) w = true →
          t.head = { s.head with ctx := s.head.ctx.set h t.head.ctx[h] } ∧
          t.note = (match n with | some k => s.note.raised k | none => s.note) ∧
          (∃ lanes, s.path.Issued t.path (downAs x lanes false false) false ∧
            wordsOf off lanes = (wordsOf off x.lanes).map (fun p => (p.1, 0)) ∧
            lanes.map (·.strobe) = x.lanes.map (·.strobe)) ∧
          t = { s with path := t.path, src := s.src.counted x.source, head := t.head, note := t.note })
    (w = 1 →
      (c.state = .waiting → done (.admitHead h) true { c with admitPending := true } none) ∧
      (c.state = .parked → c.ready = true →
        done (.admitHead h) true { c with state := .waiting, admitPending := true } (some .headWaiting)) ∧
      (c.state = .active → done (.admitHead h) true c none) ∧
      (c.state = .parked → c.ready = false → done (.admitHead h) false c none) ∧
      ((c.state = .absent ∨ c.state = .joining ∨ c.state = .leaving) → done (.admitHead h) false c none)) ∧
    (w = 2 →
      (c.state = .active → expected → done (.release h) true { c with state := .leaving } (some .headLeaving)) ∧
      (c.state = .active → ¬ expected → done (.release h) true { c with state := .parked } (some .headLeaving)) ∧
      (c.state = .waiting → c.admitPending = true → done (.release h) true { c with admitPending := false } none) ∧
      ((c.state = .leaving ∨ c.state = .parked) → done (.release h) true c none) ∧
      (c.state = .waiting → c.admitPending = false → done (.release h) false c none) ∧
      ((c.state = .absent ∨ c.state = .joining) → done (.release h) false c none)) ∧
    (w ≠ 0 → w ≠ 1 → w ≠ 2 → done (.headCommandUnknown h) false c none)

/-- NOTICE and NOTICE_ENABLE (R171, R198 to R200). A clearing write removes the notices whose bits it sets and carries the
word as it then stands; an enable write sets the enable. NOTICE_N follows the two words. Written alone, nothing else of the
part changes. -/
def Obligations.NoticeWordsWritten : Prop :=
  (∀ (s : State) (x : Txn) (off : Nat) (w : Word32), s.forwardsCtrl x off = true → writesAlone off x .notice w = true →
    ∃ t lanes, exec .notice s = .next t ∧
      t.note = { s.note with word := t.note.word } ∧
      (∀ i : Fin 18, t.note.word.getLsbD i = (s.note.word.getLsbD i && !w.getLsbD i)) ∧
      s.path.Issued t.path (downAs x lanes false false) false ∧ wordsOf off lanes = [(0, t.note.word.setWidth 32)] ∧
      t = { s with path := t.path, src := s.src.counted x.source, note := t.note }) ∧
  (∀ (s : State) (x : Txn) (off : Nat) (w : Word32), s.forwardsCtrl x off = true → writesOnce off x .noticeEnable w = true →
    ∃ t, exec .noticeEnable s = .next t ∧ (∀ i : Fin 18, t.note.enable.getLsbD i = w.getLsbD i) ∧
      (t.noticeAsserted = true ↔ ∃ i : Fin 18, t.note.word.getLsbD i = true ∧ w.getLsbD i = true) ∧
      (writesAlone off x .noticeEnable w = true →
        s.path.Issued t.path (downAs x x.lanes false false) false ∧ t.note.word = s.note.word ∧
        t = { s with path := t.path, src := s.src.counted x.source, note := t.note }))

/-- TRAP_CLEAR (R193): each source named by the low 16 bits is untrapped, with no cause, no mark and a retry count of 0; its
accepted aperture writes are kept. The write itself counts for its source, and reaches memory as 0. -/
def Obligations.TrapsCleared : Prop :=
  ∀ (s : State) (x : Txn) (off : Nat) (w : Word32), s.forwardsCtrl x off = true → writesOnce off x .trapClear w = true →
    ∃ t, exec .trapClear s = .next t ∧
      (∀ i : Fin 16, t.src.ctx[i] =
        let c := (s.src.counted x.source).ctx[i]
        if w.getLsbD i = true then
          { trapped := false, range := false, shape := false, ownedWord := false, planBound := false, mark := false
            retries := 0, accepted := c.accepted }
        else c) ∧
      (∀ i : Fin 16, t.src.ctx[i] ≠ s.src.ctx[i] → t.path.asks (.sourceStatus i) = true) ∧
      (writesAlone off x .trapClear w = true →
        (∃ lanes, s.path.Issued t.path (downAs x lanes false false) false ∧ wordsOf off lanes = [(0x2C, 0)]) ∧
        t = { s with path := t.path, src := { s.src with ctx := t.src.ctx } })

/-- OVR_PRODUCER (R108, R110, R111, R190). While IDLE: a count above the ring size raises OVERRIDE_RING_FAULT and is not
taken; a count of 0 ends an empty batch at once; any other begins a batch from the consumer index. While BUSY the write is
answered RETRY, counted (R189), or from an exhausted source REFUSED with the mark set and the count 0; the override unit is as
it was. That the count is made 0 again when that REFUSED is returned is the model's own (log 15, DEDUCED). -/
def Obligations.OverrideProducerWritten : Prop :=
  ∀ (s : State) (x : Txn) (off : Nat) (w : Word32), s.grantsInto x .ctrl off = true → wholeWords x.lanes = true →
    s.src.ctx[x.source].trapped = false → s.src.maskCtrl.getLsbD x.source = true →
    writesAlone off x .ovrProducer w = true →
    let v : Word16 := w.setWidth 16
    let count := (v - s.ovr.consumer).toNat
    let c := s.src.ctx[x.source]
    let exhausted := 0 < s.src.maxRetry ∧ s.src.maxRetry ≤ c.retries
    ∃ t, exec .ovrProducer s = .next t ∧
      (s.ovr.batch = none →
        t = { s with path := t.path, src := s.src.counted x.source, ovr := t.ovr, note := t.note } ∧
        (s.ovr.ringSize < count → t.ovr = s.ovr ∧ t.note = s.note.raised .overrideRingFault ∧
          s.path.Issued t.path (downAs x x.lanes false false) false) ∧
        (count ≤ s.ovr.ringSize → count = 0 → t.ovr = s.ovr ∧ t.note = s.note.raised .overridesDone ∧
          t.path.asks (.ovrConsumer s.ovr.consumer) = true ∧ s.path.Issued t.path (downAs x x.lanes false false) false) ∧
        (count ≤ s.ovr.ringSize → count ≠ 0 → t.note = s.note ∧
          t.ovr = { s.ovr with batch := some { stop := v, index := s.ovr.consumer } } ∧
          s.path.Issued t.path (downAs x x.lanes true false) false)) ∧
      (s.ovr.batch ≠ none → ¬ exhausted →
        let r : Settled := { response := .retry, counted := true, givenUp := false }
        s.path.SettledBy t.path x r ∧ s.src.CountedBy t.src (s.path.settledFlight r) ∧
        (∀ i : Fin 16, t.src.ctx[i] ≠ s.src.ctx[i] → t.path.asks (.sourceStatus i) = true) ∧
        t = { s with path := t.path, src := t.src }) ∧
      (s.ovr.batch ≠ none → exhausted →
        let r : Settled := { response := .refused, counted := false, givenUp := true }
        let given : SourceTable := { s.src with ctx := s.src.ctx.set x.source { c with retries := 0, mark := true } }
        s.path.SettledBy t.path x r ∧ given.CountedBy t.src (s.path.settledFlight r) ∧
        t.path.asks (.sourceStatus x.source) = true ∧ t = { s with path := t.path, src := t.src })

/-- OVERRIDE_ENTRY_TAKE (R109, R112, R113, R118, R119): the entry fetched is given its status by the board it finds, the
board's set, station and OVERRIDDEN change as Table 6-1 says and no other board does, and its status byte write is requested.
That the next entry of the batch is fetched with it, where there is one, is the model's choice (log 8, DESIGN CHOICE). The count
of status bytes not yet answered is the model's bookkeeping (log 27, DESIGN CHOICE). -/
def Obligations.OverrideEntryTaken : Prop :=
  ∀ (s : State) (b : Batch) (data : Option (List Byte)), s.running = true → s.path.statusWaiting = false →
    s.ovr.batch = some b → s.ovr.fetched = some data →
    let n := entryOf (data.getD [])
    let usable := data ≠ none ∧ n.malformed = false
    let found := s.lookup n.lug
    let slot := b.index.toNat % s.ovr.ringSize
    let given := fun (st : EntryStatus) (t : State) => t.path.asks (.ovrStatus slot st.code) = true
    ∃ t, exec .overrideEntryTake s = .next t ∧ s.path.Grew t.path ∧
      t = { s with lug := t.lug, ovr := t.ovr, path := t.path } ∧ t.lug = { s.lug with boards := t.lug.boards } ∧
      t.ovr = { s.ovr with fetched := none, statusOut := s.ovr.statusOut + 1
                           batch := some { b with index := b.index + 1 } } ∧
      (b.index + 1 ≠ b.stop → t.path.asks (.ovrFetch ((b.index + 1).toNat % s.ovr.ringSize)) = true) ∧
      (∀ j : Fin 32, (¬ usable ∨ found ≠ some j) → t.lug.boards[j] = s.lug.boards[j]) ∧
      (¬ usable → given .invalid t) ∧ (usable → found = none → given .noBoard t) ∧
      ∀ i, usable → found = some i →
        let bd := s.lug.boards[i]
        let l := setAfter bd.overrides n
        (bd.state = .void → given .noBoard t ∧ t.lug.boards[i] = bd) ∧
        ((bd.state = .scanning ∨ bd.state = .queued ∨ bd.state = .solving) →
          given .attached t ∧ t.lug.boards[i] = { bd with overrides := l }) ∧
        (bd.state = .solved → validSet bd.classes bd.solution l = true → given .applied t ∧
          t.lug.boards[i] =
            { bd with overrides := l, station := some n.station, flags := { bd.flags with overridden := true } }) ∧
        (bd.state = .solved → validSet bd.classes bd.solution l = false → given .invalid t ∧ t.lug.boards[i] = bd) ∧
        ((bd.state = .committed ∨ bd.state = .trimmed) → given .tooLate t ∧ t.lug.boards[i] = bd)

/-- DEC_CONSUMER (R138, R140): a value at most M behind the producer index becomes the consumer shadow, and the oldest pending
record is placed where the writer is IDLE, the ring has room and no DEC_PRODUCER write is pending; another value is
ignored. R213, Table 12-7: the 32 bytes of the record written. The mark of an announcement pending is the model's bookkeeping
(log 27, DESIGN CHOICE). -/
def Obligations.DecisionConsumerWritten : Prop :=
  (∀ (s : State) (x : Txn) (off : Nat) (w : Word32), s.forwardsCtrl x off = true → writesOnce off x .decConsumer w = true →
    let v : Word16 := w.setWidth 16
    let behind := (s.dec.producer - v).toNat
    let free := s.dec.writing = none ∧ behind < s.dec.ringSize ∧ s.dec.announcing = false
    let slot := s.dec.producer.toNat % s.dec.ringSize
    ∃ t, exec .decConsumer s = .next t ∧
      (s.dec.ringSize < behind → t.dec = s.dec) ∧
      (behind ≤ s.dec.ringSize → (s.dec.list = [] ∨ ¬ free) → t.dec = { s.dec with consumerShadow := v }) ∧
      (∀ r rest, behind ≤ s.dec.ringSize → s.dec.list = r :: rest → free →
        t.dec = { s.dec with
          consumerShadow := v, list := rest, producer := s.dec.producer + 1, writing := some { record := r, slot := slot } } ∧
        t.path.asks (.decRecord slot r.bytes) = true) ∧
      (writesAlone off x .decConsumer w = true →
        s.path.Issued t.path (downAs x x.lanes false false) false ∧
        t = { s with path := t.path, src := s.src.counted x.source, dec := t.dec })) ∧
  ∀ r : DecRecord,
    let d := r.decision
    let flag := fun i : Nat => (byteAt r.bytes 13).testBit i
    let code := fun j : Nat => match classAt r.classes j with
      | some (.grade .g1) => 1 | some (.grade .g2) => 2 | some (.grade .g3) => 3 | some (.grade .g4) => 4
      | some (.grade .g5) => 5 | some (.grade .g6) => 6 | some .reject => 7
      | some .empty | some .unscanned | none => 0
    r.bytes.length = 32 ∧ halfAt r.bytes 0 = r.lug.toNat ∧
    byteAt r.bytes 2 = (match d.cls with
      | .grade .g1 => 1 | .grade .g2 => 2 | .grade .g3 => 3 | .grade .g4 => 4 | .grade .g5 => 5 | .grade .g6 => 6
      | .reman => 7 | .trash => 8) ∧
    (d.run = none → byteAt r.bytes 3 = 0xFF ∧ byteAt r.bytes 4 = 0xFF) ∧
    (∀ a b, d.run = some (a, b) → byteAt r.bytes 3 = a % 256 ∧ byteAt r.bytes 4 = b % 256) ∧
    byteAt r.bytes 5 = d.pieceLength % 256 ∧ halfAt r.bytes 6 = d.saws.toNat ∧ halfAt r.bytes 8 = d.value % 2 ^ 16 ∧
    halfAt r.bytes 10 = d.bf10 % 2 ^ 16 ∧ byteAt r.bytes 12 = d.boardLength % 256 ∧
    (flag 0 = r.flags.degraded ∧ flag 1 = r.flags.overridden ∧ flag 2 = r.flags.unsolved ∧
      flag 3 = r.flags.overrideDropped ∧ flag 4 = r.flags.lateSlices ∧ flag 5 = r.flags.scanTimeout ∧
      flag 6 = r.flags.headLost ∧ flag 7 = false) ∧
    byteAt r.bytes 14 = (match r.bank with | .a => 0 | .b => 1) ∧
    (r.station = none → byteAt r.bytes 15 = 0xFF) ∧ (∀ n, r.station = some n → byteAt r.bytes 15 = n.toNat) ∧
    (∀ j : Fin 6, byteAt r.bytes (16 + j.val) % 16 = code (2 * j.val) ∧
      byteAt r.bytes (16 + j.val) / 16 = code (2 * j.val + 1)) ∧
    halfAt r.bytes 22 = r.product.toNat ∧ ∀ n : Fin 8, byteAt r.bytes (24 + n.val) = 0

/-- TALLY_CLOSE_SHIFT, TALLY_SNAPSHOT, TALLY_CLEAR and TALLY_REQUEST_REFUSED, while no request is in progress (R151, R154,
R155, R157, Tables 8-3 and 8-5): the request is BUSY with its code and bank as written, and the banks change as the tables say.
A snapshot requests its 13 image writes, whose bytes are those of Table 12-10 (R215). Written alone, the word reaches memory as
written and carries the request. R152: while a request is in progress the write is answered RETRY, counted (R189), or from an
exhausted control source REFUSED with the mark and a count of 0; the tally is as it was. That the count is made 0 again when
that REFUSED is returned is the model's own (log 15, DEDUCED). -/
def Obligations.TallyRequestsTaken : Prop :=
  (∀ (s : State) (x : Txn) (off : Nat) (w : Word32), s.forwardsCtrl x off = true → writesOnce off x .tallyRequest w = true →
    let code := w.toNat % 16
    let field := w.toNat / 16 % 4
    let busy := fun (st : Option RequestStatus) (sn : Option Snapshot) (q : TallyRequest) =>
      q.code.toNat = code ∧ q.bankField.toNat = field ∧ q.writeAnswered = false ∧ q.status = st ∧ q.snapshot = sn
    let takes := fun (cmd : Instr) (st : Option RequestStatus) (sn : Option Snapshot) (banks : Tally) =>
      ∃ t q, exec cmd s = .next t ∧ busy st sn q ∧ t.tally = { banks with request := some q } ∧
        t.path.asks .tallyStatus = true ∧
        (∀ p, sn = some p → ∀ n : Nat, n < 13 → t.path.asks (.imageLine p.bank n
          (((imageBytes p.bank (s.tally.bank p.bank)).drop (64 * n)).take 64)) = true) ∧
        (writesAlone off x .tallyRequest w = true →
          s.path.Issued t.path (downAs x x.lanes false true) false ∧
          t = { s with path := t.path, src := s.src.counted x.source, tally := t.tally })
    s.tally.request = none ∧
    (code = 1 →
      (∀ k, s.tally.openBank = some k → (s.tally.bank k.other).state = .empty →
        takes .tallyCloseShift (some .ok) none
          ((s.tally.setBank k { s.tally.bank k with state := .closed }).setBank k.other
            { s.tally.bank k.other with state := .opened })) ∧
      ((s.tally.openBank = none ∨ ∃ k, s.tally.openBank = some k ∧ (s.tally.bank k.other).state ≠ .empty) →
        takes .tallyCloseShift (some .refused) none s.tally)) ∧
    (∀ k : Bank, field = (match k with | .a => 1 | .b => 2) →
      (code = 2 → takes .tallySnapshot none (some { bank := k, answered := 0, error := false }) s.tally) ∧
      (code = 3 →
        (((s.tally.bank k).state = .closed ∨ (s.tally.bank k).state = .full) →
          takes .tallyClear (some .ok) none (s.tally.setBank k
            (TallyBank.zeroed (if (s.tally.bank k.other).state = .opened then .empty else .opened)))) ∧
        ((s.tally.bank k).state = .opened → takes .tallyClear (some .refused) none s.tally) ∧
        ((s.tally.bank k).state = .empty → takes .tallyClear (some .ok) none s.tally))) ∧
    ((code = 0 ∨ 4 ≤ code ∨ ((code = 2 ∨ code = 3) ∧ (field = 0 ∨ field = 3))) →
      takes .tallyRequestRefused (some .refused) none s.tally)) ∧
  (∀ (s : State) (x : Txn) (off : Nat) (w : Word32), s.grantsInto x .ctrl off = true → wholeWords x.lanes = true →
    x.source = s.src.control → s.src.ctx[x.source].trapped = false → s.src.maskCtrl.getLsbD x.source = true →
    writesAlone off x .tallyRequest w = true → s.tally.request ≠ none →
    let c := s.src.ctx[x.source]
    let exhausted := 0 < s.src.maxRetry ∧ s.src.maxRetry ≤ c.retries
    ∃ t, exec .apertureWrite s = .next t ∧ t = { s with path := t.path, src := t.src } ∧
      (¬ exhausted →
        let r : Settled := { response := .retry, counted := true, givenUp := false }
        s.path.SettledBy t.path x r ∧ s.src.CountedBy t.src (s.path.settledFlight r)) ∧
      (exhausted →
        let r : Settled := { response := .refused, counted := false, givenUp := true }
        let given : SourceTable := { s.src with ctx := s.src.ctx.set x.source { c with retries := 0, mark := true } }
        s.path.SettledBy t.path x r ∧ given.CountedBy t.src (s.path.settledFlight r) ∧
        t.path.asks (.sourceStatus x.source) = true)) ∧
  ∀ (k : Bank) (b : TallyBank),
    let image := imageBytes k b
    image.length = 800 ∧ byteAt image 0 = (match k with | .a => 0 | .b => 1) ∧
    byteAt image 1 = (match b.state with | .empty => 0 | .opened => 1 | .closed => 2 | .full => 3) ∧ halfAt image 2 = 0 ∧
    wordAt image 4 = b.dropped % 2 ^ 32 ∧ wordAt image 8 = b.overridden % 2 ^ 32 ∧
    wordAt image 12 = b.degraded % 2 ^ 32 ∧ wordAt image 16 = b.unsolved % 2 ^ 32 ∧
    (∀ n : Fin 12, byteAt image (20 + n.val) = 0) ∧
    ∀ n : Fin 96, wordAt image (32 + 8 * n.val) = b.cells[n].pieces % 2 ^ 24 ∧
      wordAt image (36 + 8 * n.val) = b.cells[n].bf10 % 2 ^ 32

/-- LINE_RESTART (R171, R207): a forwarded 1 requests a restart of each block that holds line state, each to take it as an
event of its own. Written alone, it reaches memory as 0 and nothing else of the part changes. That each block counts the
requests it has yet to take, so that a second one is not merged with the first, is the model's own (log 17, DEDUCED). -/
def Obligations.LineRestartRequested : Prop :=
  ∀ (s : State) (x : Txn) (off : Nat), s.forwardsCtrl x off = true → writesOnce off x .lineRestart 1 = true →
    ∃ t, exec .lineRestart s = .next t ∧
      t.restart = { lug := s.restart.lug + 1, head := s.restart.head + 1, asm := s.restart.asm + 1
                    solv := s.restart.solv + 1, trim := s.restart.trim + 1 } ∧
      (writesAlone off x .lineRestart 1 = true →
        (∃ lanes, s.path.Issued t.path (downAs x lanes false false) false ∧ wordsOf off lanes = [(0x18, 0)]) ∧
        t = { s with path := t.path, src := s.src.counted x.source, restart := t.restart })

/-- LUG_TABLE_RESTART (R20, R104): every record is FREE and every binding released; the current lug, the encoder count and the
slip reference are kept, and the active and pending banks and shadows with them. LINE_STATUS is requested where the bound mask
changes. HEAD_MONITOR_RESTART, INTAKE_RESTART, SOLVER_RESTART and TRIM_RESTART (R39, R65, R72, R132), each while its block has
a restart to take: every LEAVING head is PARKED; intake is emptied without folding, grants kept; the queue is emptied and the
solve in progress abandoned; every saw is RELEASED and the armed fire cancelled. Nothing else changes. That the lug table's
take keeps every head context, with no parking test of R35 there, is the model's choice, not the spec's (log 28, DESIGN CHOICE:
R35 against R39). The count of the requests a block has yet to take is the model's own (log 17, DEDUCED). -/
def Obligations.RestartsTaken : Prop :=
  (∀ s : State, s.running = true → 0 < s.restart.lug → LineInv s →
      ∃ t, exec .lugTableRestart s = .next t ∧
        t = { s with restart := { s.restart with lug := s.restart.lug - 1 }, lug := t.lug, plan := t.plan, path := t.path } ∧
        s.path.Grew t.path ∧ t.lug = { s.lug with boards := t.lug.boards } ∧
        (∀ i : Fin 32, t.lug.boards[i].state = .free) ∧
        t.plan = { s.plan with bankA := { s.plan.bankA with count := 0 }, bankB := { s.plan.bankB with count := 0 } } ∧
        (t.plan.boundMask ≠ s.plan.boundMask → t.path.asks .lineStatus = true)) ∧
  ∀ s : State, s.running = true →
    (0 < s.restart.head → ∃ t, exec .headMonitorRestart s = .next t ∧
      t = { s with restart := { s.restart with head := s.restart.head - 1 }, head := t.head, path := t.path } ∧
      s.path.Grew t.path ∧ t.head = { s.head with ctx := t.head.ctx } ∧
      ∀ h : Fin 6, (s.head.ctx[h].state = .leaving → t.path.asks (.headStatus h) = true ∧
          t.head.ctx[h] = { s.head.ctx[h] with state := .parked }) ∧
        (s.head.ctx[h].state ≠ .leaving → t.head.ctx[h] = s.head.ctx[h])) ∧
    (0 < s.restart.asm → ∃ t, exec .intakeRestart s = .next t ∧
      t = { s with restart := { s.restart with asm := s.restart.asm - 1 }, asm := t.asm
                   path := { s.path with returned := [] } } ∧
      t.asm.granted = s.asm.granted ∧ ∀ h : Fin 6, t.asm.held[h] = []) ∧
    (0 < s.restart.solv → exec .solverRestart s = .next { s with
      restart := { s.restart with solv := s.restart.solv - 1 }, solv := { queue := [], solving := none }
      path := { s.path with returned := [] } }) ∧
    (0 < s.restart.trim → ∃ t, exec .trimRestart s = .next t ∧
      t = { s with restart := { s.restart with trim := s.restart.trim - 1 }, trim := t.trim
                   path := { s.path with returned := [] } } ∧
      t.trim = { s.trim with armed := none, channels := t.trim.channels } ∧ ∀ k : Fin 11, t.sawDriven k = false)

/-! ### The whole part -/

/-- The memory keeps its canonical form at every step. The form is the model's choice, not the spec's (log 1, DESIGN CHOICE):
addresses strictly rising, and no cell equal to what an unlisted address reads as. -/
def Obligations.MemoryInvKept : Prop :=
  ∀ s t : State, MemoryInv s → step s = .next t → MemoryInv t

/-- R145, R146, R148 at every step: in each tally bank boards_dropped is the sum of the 96 piece counts, an EMPTY bank is all
zero, and at most one bank is OPEN. -/
def Obligations.TallyInvKept : Prop :=
  ∀ s t : State, TallyInv s → step s = .next t → TallyInv t

/-- The capacities of Table 0-6, the intake credit of R44, the ring bound of R138 and the own-write queue of R172 hold at
every step: a request waits only behind a full queue, and at most one for each status word, for OVR_CONSUMER and for the
completion of a tally request. -/
def Obligations.CapacityInvKept : Prop :=
  ∀ s t : State, CapacityInv s → step s = .next t → CapacityInv t

/-- R6, R91, R131 at every step: no live record's lug position reaches past drop_pos and each lies in its lug's slot; the
binding counts count the live records; outside RUNNING the line is empty and every saw is up. -/
def Obligations.LineInvKept : Prop :=
  ∀ s t : State, LineInv s → step s = .next t → LineInv t

/-- R14: a COMMITTED or TRIMMED board's frozen decision never changes. Whatever command is taken, its slot is FREE after it,
or holds the same lug with the same final decision, COMMITTED or TRIMMED. -/
def Obligations.FrozenDecisionKept : Prop :=
  ∀ (c : Instr) (s t : State) (i : Fin 32), LineInv s → exec c s = .next t → s.lug.boards[i].isFrozen = true →
    t.lug.boards[i].state = .free ∨
    (t.lug.boards[i].isFrozen = true ∧ t.lug.boards[i].lug = s.lug.boards[i].lug ∧
      t.lug.boards[i].final = s.lug.boards[i].final)

/-- R94: no command but device reset alters the shadow of a plan bank that is active, pending or bound to a live record. -/
def Obligations.BoundShadowKept : Prop :=
  ∀ (c : Instr) (s t : State) (k : Bank), c ≠ .deviceReset → s.plan.bound k = true → exec c s = .next t →
    (t.plan.bank k).shadow = (s.plan.bank k).shadow

/-- R197, R198: a notice stays in the notice word until a clearing write removes it or a device reset empties the word. A
command other than device reset that takes any notice out of the word is itself the grant of the one clearing write: a write
of NOTICE by the control source that is forwarded at this event; and every notice it takes out has its bit set in the word
written. -/
def Obligations.NoticesAreSticky : Prop :=
  ∀ (c : Instr) (s t : State), exec c s = .next t → c ≠ .deviceReset →
    (∀ n : Notice, s.note.has n = true → t.note.has n = true) ∨
    ∃ x off w, c ∈ grantRows ∧ t = grant s x ∧ s.forwardsCtrl x off = true ∧ x.source = s.src.control ∧
      writesOnce off x .notice w = true ∧
      ∀ n : Notice, s.note.has n = true → t.note.has n = false → w.getLsbD n.bit = true
end

