-- ==== Sys2Proof/Laws/Footprint.lean ====
section
/-! SUPPORT. The footprint of each shared operation: which blocks of State it may change. Every other block is kept. -/

namespace Sys2Proof.Laws

open Sys2Proof Sys2Proof.Machine

/-- The blocks of State. -/
inductive Block where
  | boot | path | src | head | asm | lug | solv | plan | ovr | trim | dec | tally | note | restart | pins | mem | freeCount
  | pending
  deriving DecidableEq, Repr

/-- The two states agree in the block. -/
def Block.same (s t : State) : Block → Prop
  | .boot => t.boot = s.boot
  | .path => t.path = s.path
  | .src => t.src = s.src
  | .head => t.head = s.head
  | .asm => t.asm = s.asm
  | .lug => t.lug = s.lug
  | .solv => t.solv = s.solv
  | .plan => t.plan = s.plan
  | .ovr => t.ovr = s.ovr
  | .trim => t.trim = s.trim
  | .dec => t.dec = s.dec
  | .tally => t.tally = s.tally
  | .note => t.note = s.note
  | .restart => t.restart = s.restart
  | .pins => t.pins = s.pins
  | .mem => t.mem = s.mem
  | .freeCount => t.freeCount = s.freeCount
  | .pending => t.pending = s.pending

/-- State `t` keeps every block of `s` but those listed. -/
def Keeps (bs : List Block) (s t : State) : Prop := ∀ b, b ∉ bs → b.same s t

theorem Keeps.refl (bs : List Block) (s : State) : Keeps bs s s := by
  intro b _; cases b <;> rfl

theorem Keeps.mono {bs cs : List Block} {s t : State} (h : Keeps bs s t) (hs : ∀ b ∈ bs, b ∈ cs) : Keeps cs s t :=
  fun b hb => h b fun hm => hb (hs b hm)

theorem Keeps.trans {bs : List Block} {s t u : State} (h : Keeps bs s t) (h' : Keeps bs t u) : Keeps bs s u := by
  intro b hb
  have h1 := h b hb
  have h2 := h' b hb
  cases b <;> simp only [Block.same] at * <;> rw [h2, h1]

/-- Two footprints in turn lie within a list that holds both. -/
theorem Keeps.comp {bs cs ds : List Block} {s t u : State} (h : Keeps bs s t) (h' : Keeps cs t u)
    (hb : ∀ b ∈ bs, b ∈ ds) (hc : ∀ b ∈ cs, b ∈ ds) : Keeps ds s u :=
  (h.mono hb).trans (h'.mono hc)

section Reads
variable {bs : List Block} {s t : State} (h : Keeps bs s t)
include h
theorem Keeps.boot (hb : Block.boot ∉ bs := by decide) : t.boot = s.boot := h .boot hb
theorem Keeps.path (hb : Block.path ∉ bs := by decide) : t.path = s.path := h .path hb
theorem Keeps.src (hb : Block.src ∉ bs := by decide) : t.src = s.src := h .src hb
theorem Keeps.head (hb : Block.head ∉ bs := by decide) : t.head = s.head := h .head hb
theorem Keeps.asm (hb : Block.asm ∉ bs := by decide) : t.asm = s.asm := h .asm hb
theorem Keeps.lug (hb : Block.lug ∉ bs := by decide) : t.lug = s.lug := h .lug hb
theorem Keeps.solv (hb : Block.solv ∉ bs := by decide) : t.solv = s.solv := h .solv hb
theorem Keeps.plan (hb : Block.plan ∉ bs := by decide) : t.plan = s.plan := h .plan hb
theorem Keeps.ovr (hb : Block.ovr ∉ bs := by decide) : t.ovr = s.ovr := h .ovr hb
theorem Keeps.trim (hb : Block.trim ∉ bs := by decide) : t.trim = s.trim := h .trim hb
theorem Keeps.dec (hb : Block.dec ∉ bs := by decide) : t.dec = s.dec := h .dec hb
theorem Keeps.tally (hb : Block.tally ∉ bs := by decide) : t.tally = s.tally := h .tally hb
theorem Keeps.note (hb : Block.note ∉ bs := by decide) : t.note = s.note := h .note hb
theorem Keeps.restart (hb : Block.restart ∉ bs := by decide) : t.restart = s.restart := h .restart hb
theorem Keeps.pins (hb : Block.pins ∉ bs := by decide) : t.pins = s.pins := h .pins hb
theorem Keeps.mem (hb : Block.mem ∉ bs := by decide) : t.mem = s.mem := h .mem hb
theorem Keeps.freeCount (hb : Block.freeCount ∉ bs := by decide) : t.freeCount = s.freeCount := h .freeCount hb
theorem Keeps.pending (hb : Block.pending ∉ bs := by decide) : t.pending = s.pending := h .pending hb
end Reads

/-! ### The event -/

theorem Keeps.of_ask {bs : List Block} {s : State} {e : Ev} {k : OwnTxn} (h : Keeps bs s e.st) :
    Keeps bs s (e.ask k).st := h

theorem keeps_ask (e : Ev) (k : OwnTxn) : Keeps [] e.st (e.ask k).st := Keeps.refl _ _

theorem keeps_raise (e : Ev) (n : Notice) : Keeps [.note] e.st (e.raise n).st := by
  intro b hb; cases b <;> first | rfl | exact absurd (by decide) hb

theorem keeps_setBoard (s : State) (i : Fin 32) (b : Board) : Keeps [.lug] s (s.setBoard i b) := by
  intro b hb; cases b <;> first | rfl | exact absurd (by decide) hb

theorem keeps_changeBoard (e : Ev) (i : Fin 32) (f : Board → Board) : Keeps [.lug] e.st (e.changeBoard i f).st :=
  keeps_setBoard _ _ _

theorem keeps_changeHead (e : Ev) (h : Fin 6) (f : HeadCtx → HeadCtx) : Keeps [.head] e.st (e.changeHead h f).st := by
  unfold Ev.changeHead
  intro b hb; dsimp only; split <;> cases b <;> first | rfl | exact absurd (by decide) hb

theorem keeps_changeSource (e : Ev) (i : Fin 16) (f : SourceCtx → SourceCtx) :
    Keeps [.src] e.st (e.changeSource i f).st := by
  unfold Ev.changeSource
  intro b hb; dsimp only; split <;> cases b <;> first | rfl | exact absurd (by decide) hb

theorem keeps_changeTally (e : Ev) (f : Tally → Tally) : Keeps [.tally] e.st (e.changeTally f).st := by
  unfold Ev.changeTally
  intro b hb; dsimp only; split <;> cases b <;> first | rfl | exact absurd (by decide) hb

theorem keeps_changeDec (e : Ev) (f : DecisionWriter → DecisionWriter) : Keeps [.dec] e.st (e.changeDec f).st := by
  intro b hb; cases b <;> first | rfl | exact absurd (by decide) hb

theorem keeps_changeOvr (e : Ev) (f : OverrideUnit → OverrideUnit) : Keeps [.ovr] e.st (e.changeOvr f).st := by
  intro b hb; cases b <;> first | rfl | exact absurd (by decide) hb

theorem keeps_foldl {α : Type} {bs : List Block} (f : Ev → α → Ev) (hf : ∀ e a, Keeps bs e.st (f e a).st) (l : List α)
    (e : Ev) : Keeps bs e.st (l.foldl f e).st := by
  induction l generalizing e with
  | nil => exact Keeps.refl _ _
  | cons a l ih => exact (hf e a).trans (ih _)

theorem keeps_finish (e : Ev) : Keeps [.path] e.st e.finish := by
  intro b hb; cases b <;> first | rfl | exact absurd (by decide) hb

theorem keeps_finishPath (e : Ev) : Keeps [.path] e.st e.finishPath := by
  intro b hb; cases b <;> first | rfl | exact absurd (by decide) hb

theorem keeps_countAll (rs : List Returned) (e : Ev) : Keeps [.src] e.st (e.countAll rs).st := by
  induction rs generalizing e with
  | nil => exact Keeps.refl _ _
  | cons r rs ih => exact (keeps_changeSource e _ _).trans (ih _)

theorem keeps_returnResponses (e : Ev) : Keeps [.path, .src] e.st e.returnResponses.st := by
  have h1 : Keeps [.path] e.st
      (e.modify fun s => { s with path := { s.path with flight := (returnFrom [] e.st.path.flight).1 } }).st := by
    intro b hb; cases b <;> first | rfl | exact absurd (by decide) hb
  exact h1.comp (keeps_countAll (returnFrom [] e.st.path.flight).2 _) (by decide) (by decide)

/-! ### The head monitor -/

theorem keeps_parkTest (e : Ev) (h : Fin 6) : Keeps [.head] e.st (e.parkTest h).st := by
  unfold Ev.parkTest; split
  · exact keeps_changeHead _ _ _
  · exact Keeps.refl _ _

theorem keeps_parkTestAll (e : Ev) : Keeps [.head] e.st e.parkTestAll.st :=
  keeps_foldl _ (fun e h => keeps_parkTest e h) _ _

theorem keeps_recordBadCounts (e : Ev) (b : Board) : Keeps [.head] e.st (e.recordBadCounts b).st := by
  refine keeps_foldl _ (fun e h => ?_) _ _
  split
  · exact keeps_changeHead _ _ _
  · exact Keeps.refl _ _

theorem keeps_admitHeads (e : Ev) : Keeps [.head] e.st e.admitHeads.st := by
  refine keeps_foldl _ (fun e h => ?_) _ _
  split
  · exact keeps_changeHead _ _ _
  · exact Keeps.refl _ _

theorem keeps_answerCommand (e : Ev) (h : Fin 6) (r : CommandResult) : Keeps [.head] e.st (e.answerCommand h r).st :=
  keeps_changeHead _ _ _

theorem keeps_takeAdmit (e : Ev) (h : Fin 6) : Keeps [.head, .note] e.st (e.takeAdmit h).st := by
  unfold Ev.takeAdmit; dsimp only; split
  · exact (keeps_changeHead _ _ _).comp (keeps_answerCommand _ _ _) (by decide) (by decide)
  · split
    · exact ((keeps_changeHead _ _ _).trans (keeps_answerCommand _ _ _)).comp (keeps_raise _ _) (by decide) (by decide)
    · exact (keeps_answerCommand _ _ _).mono (by decide)
  all_goals exact (keeps_answerCommand _ _ _).mono (by decide)

theorem keeps_takeRelease (e : Ev) (h : Fin 6) : Keeps [.head, .note] e.st (e.takeRelease h).st := by
  unfold Ev.takeRelease; dsimp only; split
  · exact (((keeps_changeHead _ _ _).trans (keeps_answerCommand _ _ _)).comp (keeps_raise _ _) (by decide)
      (by decide)).trans ((keeps_parkTest _ _).mono (by decide))
  · split
    · exact (keeps_changeHead _ _ _).comp (keeps_answerCommand _ _ _) (by decide) (by decide)
    · exact (keeps_answerCommand _ _ _).mono (by decide)
  all_goals exact (keeps_answerCommand _ _ _).mono (by decide)

theorem keeps_takeHeadCommand (e : Ev) (h : Fin 6) (w : Word32) :
    Keeps [.head, .note] e.st (e.takeHeadCommand h w).st := by
  unfold Ev.takeHeadCommand
  split
  · exact keeps_takeAdmit _ _
  · split
    · exact keeps_takeRelease _ _
    · split
      · exact Keeps.refl _ _
      · exact (keeps_answerCommand _ _ _).mono (by decide)

theorem keeps_presentPin (e : Ev) (h : Fin 6) (v : Bool) : Keeps [.pins] e.st (e.presentPin h v).st := by
  intro b hb; cases b <;> first | rfl | exact absurd (by decide) hb

theorem keeps_readyPin (e : Ev) (h : Fin 6) (v : Bool) : Keeps [.pins] e.st (e.readyPin h v).st := by
  intro b hb; cases b <;> first | rfl | exact absurd (by decide) hb

/-! ### The solver and the trim output unit -/

theorem keeps_startSolve (s : State) : Keeps [.lug, .solv] s s.startSolve := by
  unfold State.startSolve
  split
  · rename_i n rest _ _
    have h1 : Keeps [.lug, .solv] s { s with solv := { queue := rest, solving := some n } } := by
      intro b hb; cases b <;> first | rfl | exact absurd (by decide) hb
    dsimp only; split
    · split
      · exact h1.trans ((keeps_setBoard _ _ _).mono (by decide))
      · exact h1
    · exact h1
  · exact Keeps.refl _ _

theorem keeps_joinQueue (e : Ev) (i : Fin 32) : Keeps [.lug, .solv] e.st (e.joinQueue i).st := by
  unfold Ev.joinQueue
  have h1 := keeps_changeBoard e i fun b => { b with state := .queued }
  refine (h1.mono (by decide)).trans (Keeps.trans ?_ (keeps_startSolve _))
  intro b hb; cases b <;> first | rfl | exact absurd (by decide) hb

theorem keeps_leaveSolver (e : Ev) (n : Word16) : Keeps [.lug, .solv] e.st (e.leaveSolver n).st := by
  unfold Ev.leaveSolver
  refine Keeps.trans ?_ (keeps_startSolve _)
  intro b hb; cases b <;> first | rfl | exact absurd (by decide) hb

theorem keeps_fire (e : Ev) (a : ArmedFire) : Keeps [.trim, .lug] e.st (e.fire a).st := by
  have h1 : Keeps [.trim, .lug] e.st (e.modify fun s => { s with trim := s.trim.drive a.saws }).st := by
    intro b hb; cases b <;> first | rfl | exact absurd (by decide) hb
  unfold Ev.fire; dsimp only; split
  · split
    · exact h1.trans ((keeps_changeBoard _ _ _).mono (by decide))
    · exact h1
  · exact h1

theorem keeps_lateFire (e : Ev) : Keeps [.trim, .lug, .note] e.st e.lateFire.st := by
  unfold Ev.lateFire; split
  · exact (keeps_fire _ _).comp (keeps_raise _ _) (by decide) (by decide)
  · exact Keeps.refl _ _

theorem keeps_armBoard (e : Ev) : Keeps [.trim, .lug] e.st e.armBoard.st := by
  unfold Ev.armBoard; split
  · exact Keeps.refl _ _
  · dsimp only; split
    · split
      · exact keeps_fire _ _
      · intro b hb; cases b <;> first | rfl | exact absurd (by decide) hb
    · exact Keeps.refl _ _

/-! ### The decision writer -/

theorem keeps_placeRecord (e : Ev) : Keeps [.dec] e.st e.placeRecord.st := by
  unfold Ev.placeRecord; split
  · exact Keeps.refl _ _
  · split
    · exact Keeps.of_ask (keeps_changeDec _ _)
    · exact Keeps.refl _ _

theorem keeps_handRecord (e : Ev) (r : DecRecord) : Keeps [.dec, .note] e.st (e.handRecord r).st := by
  unfold Ev.handRecord; split
  · exact ((keeps_changeDec _ _).trans (keeps_placeRecord _)).mono (by decide)
  · exact (keeps_raise _ _).mono (by decide)

theorem keeps_recordAnswered (e : Ev) : Keeps [.dec] e.st e.recordAnswered.st :=
  (keeps_changeDec (e.ask (.decProducer e.st.dec.producer true)) _).trans (keeps_placeRecord _)

theorem keeps_producerAnswered (e : Ev) (w : Bool) : Keeps [.dec] e.st (e.producerAnswered w).st :=
  (keeps_changeDec e _).trans (keeps_placeRecord _)

theorem keeps_takeConsumer (e : Ev) (w : Word32) : Keeps [.dec] e.st (e.takeConsumer w).st := by
  unfold Ev.takeConsumer; dsimp only; split
  · exact (keeps_changeDec _ _).trans (keeps_placeRecord _)
  · exact Keeps.refl _ _

/-! ### The tally unit -/

theorem keeps_strand (e : Ev) : Keeps [.tally, .note] e.st e.strand.st :=
  (keeps_changeTally _ _).comp (keeps_raise _ _) (by decide) (by decide)

theorem keeps_addTo (e : Ev) (k : Bank) (o : TallyOffer) : Keeps [.tally] e.st (e.addTo k o).st := keeps_changeTally _ _

theorem keeps_holdBoard (e : Ev) (o : TallyOffer) : Keeps [.tally, .note] e.st (e.holdBoard o).st := by
  unfold Ev.holdBoard; split
  · exact (keeps_changeTally _ _).mono (by decide)
  · exact keeps_strand _

theorem keeps_overflow (e : Ev) (k : Bank) (o : TallyOffer) : Keeps [.tally, .note] e.st (e.overflow k o).st := by
  have h1 : Keeps [.tally, .note] e.st
      ((e.changeTally fun t => t.setBank k { t.bank k with state := .full }).raise .tallyFull).st :=
    (keeps_changeTally _ _).comp (keeps_raise _ _) (by decide) (by decide)
  unfold Ev.overflow; dsimp only; split
  · split
    · exact h1.trans (((keeps_changeTally _ _).mono (by decide)).trans (keeps_holdBoard _ _))
    · exact h1.trans (((keeps_changeTally _ _).trans (keeps_addTo _ _ _)).mono (by decide))
  · exact h1.trans (keeps_strand _)

theorem keeps_offer (e : Ev) (o : TallyOffer) : Keeps [.tally, .note] e.st (e.offer o).st := by
  unfold Ev.offer; split
  · exact keeps_strand _
  · split
    · exact keeps_holdBoard _ _
    · split
      · exact (keeps_addTo _ _ _).mono (by decide)
      · exact keeps_overflow _ _ _

theorem keeps_offerAll (os : List TallyOffer) (e : Ev) : Keeps [.tally, .note] e.st (e.offerAll os).st := by
  induction os generalizing e with
  | nil => exact Keeps.refl _ _
  | cons o os ih => exact (keeps_offer e o).trans (ih _)

theorem keeps_completeRequest (e : Ev) : Keeps [.tally, .note] e.st e.completeRequest.st := by
  unfold Ev.completeRequest; split
  · exact Keeps.refl _ _
  · split
    · exact Keeps.refl _ _
    · split
      · refine Keeps.trans ?_ ((keeps_raise _ _).mono (by decide))
        exact Keeps.of_ask ((keeps_changeTally _ _).mono (by decide))
      · exact Keeps.refl _ _

theorem keeps_takeRequest (e : Ev) (w : Word32) : Keeps [.tally] e.st (e.takeRequest w).st := by
  unfold Ev.takeRequest; split
  · exact keeps_changeTally _ _
  · exact keeps_changeTally _ _
  · exact keeps_changeTally _ _
  · exact keeps_changeTally _ _

theorem keeps_endSnapshot (e : Ev) (q : TallyRequest) (p : Snapshot) :
    Keeps [.tally, .note] e.st (e.endSnapshot q p).st :=
  (((keeps_changeTally _ _).mono (by decide)).trans (keeps_offerAll _ _)).trans (keeps_completeRequest _)

theorem keeps_imageAnswered (e : Ev) (ok : Bool) : Keeps [.tally, .note] e.st (e.imageAnswered ok).st := by
  unfold Ev.imageAnswered; split
  · exact Keeps.refl _ _
  · split
    · exact Keeps.refl _ _
    · dsimp only; split
      · exact keeps_endSnapshot _ _ _
      · exact (keeps_changeTally _ _).mono (by decide)

theorem keeps_requestWriteAnswered (e : Ev) : Keeps [.tally, .note] e.st e.requestWriteAnswered.st :=
  ((keeps_changeTally _ _).mono (by decide)).trans (keeps_completeRequest _)

/-! ### The lug table -/

theorem keeps_closeBoard (e : Ev) (i : Fin 32) (t : HeadSet) :
    Keeps [.lug, .head, .solv, .note] e.st (e.closeBoard i t).st := by
  unfold Ev.closeBoard
  dsimp only
  refine Keeps.trans ?_ ((keeps_parkTestAll _).mono (by decide))
  split
  · refine Keeps.trans ?_ ((keeps_changeBoard _ _ _).mono (by decide))
    exact (keeps_changeBoard _ _ _).comp (keeps_recordBadCounts _ _) (by decide) (by decide)
  · split
    · refine Keeps.trans ?_ ((keeps_joinQueue _ _).mono (by decide))
      exact (keeps_changeBoard _ _ _).comp (keeps_recordBadCounts _ _) (by decide) (by decide)
    · refine Keeps.trans ?_ ((keeps_raise _ _).mono (by decide))
      refine Keeps.trans ?_ ((keeps_changeBoard _ _ _).mono (by decide))
      exact (keeps_changeBoard _ _ _).comp (keeps_recordBadCounts _ _) (by decide) (by decide)

theorem keeps_closeTest (e : Ev) (i : Fin 32) : Keeps [.lug, .head, .solv, .note] e.st (e.closeTest i).st := by
  unfold Ev.closeTest; dsimp only; split
  · exact keeps_closeBoard _ _ _
  · exact Keeps.refl _ _

theorem keeps_closeTimeout (e : Ev) : Keeps [.lug, .head, .solv, .note] e.st e.closeTimeout.st := by
  unfold Ev.closeTimeout; split
  · exact Keeps.refl _ _
  · dsimp only; split
    · exact ((keeps_changeBoard _ _ _).comp (keeps_raise _ _) (by decide) (by decide)).trans (keeps_closeBoard _ _ _)
    · exact Keeps.refl _ _

theorem keeps_handDecision (e : Ev) (i : Fin 32) : Keeps [.dec, .note] e.st (e.handDecision i).st := by
  unfold Ev.handDecision; dsimp only; split
  · exact keeps_handRecord _ _
  · exact Keeps.refl _ _

theorem keeps_commitBoard (e : Ev) : Keeps [.lug, .solv, .note, .dec] e.st e.commitBoard.st := by
  unfold Ev.commitBoard; split
  · exact Keeps.refl _ _
  · dsimp only; split
    · exact (keeps_changeBoard _ _ _).comp (keeps_handDecision _ _) (by decide) (by decide)
    · refine Keeps.trans ?_ ((keeps_handDecision _ _).mono (by decide))
      refine Keeps.trans ?_ ((keeps_raise _ _).mono (by decide))
      exact (keeps_changeBoard _ _ _).comp (keeps_leaveSolver _ _) (by decide) (by decide)
    · refine Keeps.trans ?_ ((keeps_handDecision _ _).mono (by decide))
      refine Keeps.trans ?_ ((keeps_raise _ _).mono (by decide))
      exact (keeps_changeBoard _ _ _).comp (keeps_leaveSolver _ _) (by decide) (by decide)
    all_goals exact Keeps.refl _ _

theorem keeps_freeBoard (e : Ev) (i : Fin 32) : Keeps [.lug, .plan] e.st (e.freeBoard i).st := by
  unfold Ev.freeBoard
  refine ((keeps_changeBoard e i fun b => { b with state := .free }).mono (by decide)).trans ?_
  intro b hb; cases b <;> first | rfl | exact absurd (by decide) hb

theorem keeps_dropBoard (e : Ev) : Keeps [.lug, .plan, .tally, .note] e.st e.dropBoard.st := by
  unfold Ev.dropBoard; split
  · exact Keeps.refl _ _
  · dsimp only; split
    · exact (keeps_offer _ _).comp (keeps_freeBoard _ _) (by decide) (by decide)
    · exact (keeps_freeBoard _ _).mono (by decide)

theorem keeps_switchPlan (e : Ev) : Keeps [.plan, .note] e.st e.switchPlan.st := by
  unfold Ev.switchPlan; split
  · exact Keeps.refl _ _
  · rename_i k _
    refine Keeps.trans (t := (e.modify fun s => { s with plan := { s.plan with active := some k, pendingBank := none } }).st)
      ?_ ((keeps_raise _ _).mono (by decide))
    intro b hb; cases b <;> first | rfl | exact absurd (by decide) hb

theorem keeps_initSlot (e : Ev) : Keeps [.lug, .plan, .head, .solv, .note] e.st e.initSlot.st := by
  unfold Ev.initSlot; dsimp only; split
  · exact (keeps_changeBoard _ _ _).mono (by decide)
  · refine Keeps.trans ?_ ((keeps_closeTest _ _).mono (by decide))
    intro b hb; cases b <;> first | rfl | exact absurd (by decide) hb

theorem keeps_openBoard (e : Ev) : Keeps [.lug, .plan, .head, .solv, .note] e.st e.openBoard.st :=
  (((keeps_switchPlan _).comp (keeps_admitHeads _) (ds := [.plan, .note, .head]) (by decide) (by decide)).mono
    (by decide)).trans (keeps_initSlot _)

theorem keeps_checkSlip (e : Ev) : Keeps [.lug, .note] e.st e.checkSlip.st := by
  unfold Ev.checkSlip; dsimp only
  refine Keeps.trans (t := (if e.st.lug.slipRef && decide (e.st.lug.encCount ≠ e.st.lug.countsPerLug) then
    e.raise .encoderSlip else e).st) ?_ ?_
  · split
    · exact (keeps_raise _ _).mono (by decide)
    · exact Keeps.refl _ _
  · intro b hb; cases b <;> first | rfl | exact absurd (by decide) hb

theorem keeps_commitAndTimeout (e : Ev) :
    Keeps [.lug, .head, .solv, .note, .dec, .freeCount] e.st e.commitAndTimeout.st := by
  have h1 : Keeps [.freeCount] e.st (e.modify fun s => { s with freeCount := s.freeCount + 1 }).st := by
    intro b hb; cases b <;> first | rfl | exact absurd (by decide) hb
  unfold Ev.commitAndTimeout; split
  · dsimp only; split
    · exact (h1.mono (by decide)).trans (((keeps_commitBoard _).mono (by decide)).trans
        ((keeps_closeTimeout _).mono (by decide)))
    · exact (h1.mono (by decide)).trans (((keeps_closeTimeout _).mono (by decide)).trans
        ((keeps_commitBoard _).mono (by decide)))
  · exact ((keeps_commitBoard _).mono (by decide)).trans ((keeps_closeTimeout _).mono (by decide))

theorem keeps_loseAt (h : Fin 6) (e : Ev) (i : Fin 32) : Keeps [.lug, .head, .solv, .note] e.st (Ev.loseAt h e i).st := by
  unfold Ev.loseAt; split
  · exact ((keeps_changeBoard _ _ _).mono (by decide)).trans (keeps_closeTest _ _)
  · exact Keeps.refl _ _

theorem keeps_loseHead (e : Ev) (h : Fin 6) : Keeps [.lug, .head, .solv, .note] e.st (e.loseHead h).st := by
  unfold Ev.loseHead; dsimp only
  split
  · exact (keeps_foldl _ (fun e i => keeps_loseAt h e i) _ _).trans ((keeps_raise _ _).mono (by decide))
  · exact keeps_foldl _ (fun e i => keeps_loseAt h e i) _ _

theorem keeps_releaseSlot (e : Ev) (i : Fin 32) : Keeps [.lug, .plan] e.st (e.releaseSlot i).st := by
  unfold Ev.releaseSlot; split
  · exact Keeps.refl _ _
  · exact keeps_freeBoard _ _

/-! ### The scan assembler -/

theorem keeps_countBadSlice (e : Ev) (h : Fin 6) (bs : List Byte) : Keeps [.lug] e.st (e.countBadSlice h bs).st := by
  unfold Ev.countBadSlice; split
  · exact keeps_changeBoard _ _ _
  · exact Keeps.refl _ _

theorem keeps_discardSlice (e : Ev) (f : Option (Fin 32)) : Keeps [.lug, .note] e.st (e.discardSlice f).st := by
  unfold Ev.discardSlice; dsimp only; split
  · exact (keeps_raise _ _).comp (keeps_changeBoard _ _ _) (by decide) (by decide)
  · exact (keeps_raise _ _).mono (by decide)

theorem keeps_useSlice (e : Ev) (h : Fin 6) (i : Fin 32) (bs : List Byte) :
    Keeps [.lug, .head, .solv, .note] e.st (e.useSlice h i bs).st := by
  unfold Ev.useSlice; split
  · exact (keeps_changeBoard _ _ _).mono (by decide)
  · exact ((keeps_changeBoard _ _ _).mono (by decide)).trans (keeps_closeTest _ _)

theorem keeps_foldHeld (e : Ev) (h : Fin 6) (sl : HeldSlice) :
    Keeps [.lug, .head, .solv, .note] e.st (e.foldHeld h sl).st := by
  unfold Ev.foldHeld; split
  · exact (keeps_raise _ _).comp (keeps_countBadSlice _ _ _) (by decide) (by decide)
  · split
    · exact (keeps_discardSlice _ _).mono (by decide)
    · split
      · exact keeps_useSlice _ _ _ _
      · exact (keeps_discardSlice _ _).mono (by decide)

theorem keeps_intake (e : Ev) (h : Fin 6) (bs : List Byte) : Keeps [.asm] e.st (e.intake h bs).st := by
  intro b hb; cases b <;> first | rfl | exact absurd (by decide) hb

/-! ### The override unit -/

theorem keeps_takeEntry (e : Ev) (d : Option (List Byte)) : Keeps [.lug] e.st (takeEntry e d).1.st := by
  unfold takeEntry; split
  · exact Keeps.refl _ _
  · dsimp only; split
    · exact Keeps.refl _ _
    · split
      · exact Keeps.refl _ _
      · exact keeps_changeBoard _ _ _

theorem keeps_fetchEntry (e : Ev) : Keeps [] e.st e.fetchEntry.st := by
  unfold Ev.fetchEntry; split <;> exact Keeps.refl _ _

theorem keeps_entryTaken (e : Ev) (b : Batch) (st : EntryStatus) : Keeps [.ovr] e.st (e.entryTaken b st).st := by
  unfold Ev.entryTaken; dsimp only; split
  · exact Keeps.of_ask (keeps_changeOvr e _)
  · exact Keeps.trans (Keeps.of_ask (keeps_changeOvr e _)) ((keeps_fetchEntry _).mono (by decide))

theorem keeps_endBatch (e : Ev) (w : Word16) : Keeps [.ovr, .note] e.st (e.endBatch w).st := by
  refine Keeps.trans ?_ ((keeps_raise _ _).mono (by decide))
  exact Keeps.of_ask ((keeps_changeOvr e _).mono (by decide))

theorem keeps_takeProducer (e : Ev) (w : Word32) : Keeps [.ovr, .note] e.st (e.takeProducer w).st := by
  unfold Ev.takeProducer; dsimp only; split
  · exact (keeps_raise _ _).mono (by decide)
  · split
    · exact keeps_endBatch _ _
    · exact (keeps_changeOvr _ _).mono (by decide)

theorem keeps_statusAnswered (e : Ev) : Keeps [.ovr, .note] e.st e.statusAnswered.st := by
  unfold Ev.statusAnswered; dsimp only; split
  · split
    · exact ((keeps_changeOvr _ _).mono (by decide)).trans (keeps_endBatch _ _)
    · exact (keeps_changeOvr _ _).mono (by decide)
  · exact (keeps_changeOvr _ _).mono (by decide)

/-! ### The plan store and the source table -/

theorem keeps_copyPlan (e : Ev) (k : Bank) (off : Nat) (ls : List Lane) : Keeps [.plan] e.st (e.copyPlan k off ls).st := by
  intro b hb; cases b <;> first | rfl | exact absurd (by decide) hb

theorem keeps_takeSelect (e : Ev) (w : Word32) : Keeps [.plan] e.st (e.takeSelect w).st := by
  unfold Ev.takeSelect; split
  · exact Keeps.refl _ _
  · intro b hb; dsimp only; split <;> cases b <;> first | rfl | exact absurd (by decide) hb

theorem keeps_trap (e : Ev) (i : Fin 16) (c : Cause) : Keeps [.src, .note] e.st (e.trap i c).st :=
  (keeps_changeSource e _ _).comp (keeps_raise _ _) (by decide) (by decide)

theorem keeps_exhaust (e : Ev) (i : Fin 16) : Keeps [.src] e.st (e.exhaust i).st := keeps_changeSource e _ _

theorem keeps_acceptWrite (e : Ev) (i : Fin 16) : Keeps [.src] e.st (e.acceptWrite i).st := keeps_changeSource e _ _

theorem keeps_takeTrapClear (e : Ev) (w : Word32) : Keeps [.src] e.st (e.takeTrapClear w).st := by
  refine keeps_foldl _ (fun e h => ?_) _ _
  split
  · exact keeps_changeSource _ _ _
  · exact Keeps.refl _ _

/-! ### The memory path -/

theorem keeps_issue (e : Ev) (t : Txn) (ls : List Lane) (g b r : Bool) : Keeps [.path] e.st (e.issue t ls g b r).st := by
  intro b hb; cases b <;> first | rfl | exact absurd (by decide) hb

theorem keeps_settle (e : Ev) (r : Settled) : Keeps [.path, .src] e.st (e.settle r).st := by
  refine Keeps.trans (t := (e.modify fun s =>
    { s with path :=
        { s.path with
          flight := changeFirst UpTxn.isReady (fun u => { u with state := .answered r }) s.path.flight } }).st) ?_
    (keeps_returnResponses _)
  intro b hb; cases b <;> first | rfl | exact absurd (by decide) hb

theorem keeps_requestRestart (e : Ev) : Keeps [.restart] e.st e.requestRestart.st := by
  intro b hb; cases b <;> first | rfl | exact absurd (by decide) hb

theorem keeps_takeWord (e : Ev) (k : CtrlWord) (w : Word32) :
    Keeps [.note, .plan, .tally, .restart, .ovr, .dec, .src, .head] e.st (e.takeWord k w).st := by
  unfold Ev.takeWord; split
  · intro b hb; cases b <;> first | rfl | exact absurd (by decide) hb
  · intro b hb; cases b <;> first | rfl | exact absurd (by decide) hb
  · exact (keeps_takeSelect _ _).mono (by decide)
  · exact (keeps_takeRequest _ _).mono (by decide)
  · split
    · exact (keeps_requestRestart _).mono (by decide)
    · exact Keeps.refl _ _
  · exact (keeps_takeProducer _ _).mono (by decide)
  · exact (keeps_takeConsumer _ _).mono (by decide)
  · exact (keeps_takeTrapClear _ _).mono (by decide)
  · exact (keeps_takeHeadCommand _ _ _).mono (by decide)
  all_goals exact Keeps.refl _ _

theorem keeps_takeWords (ws : List (CtrlWord × Word32)) (e : Ev) :
    Keeps [.note, .plan, .tally, .restart, .ovr, .dec, .src, .head] e.st (e.takeWords ws).st := by
  induction ws generalizing e with
  | nil => exact Keeps.refl _ _
  | cons x ws ih => exact (keeps_takeWord e x.1 x.2).trans (ih _)

theorem keeps_forwardCtrl (e : Ev) (t : Txn) (off : Nat) :
    Keeps [.note, .plan, .tally, .restart, .ovr, .dec, .src, .head, .path] e.st (e.forwardCtrl t off).st :=
  (keeps_takeWords _ e).comp (keeps_issue _ _ _ _ _ _) (by decide) (by decide)

theorem keeps_forwardWrite (e : Ev) (t : Txn) (ap : Aperture) (off : Nat) :
    Keeps [.note, .plan, .tally, .restart, .ovr, .dec, .src, .head, .path] e.st (e.forwardWrite t ap off).st := by
  unfold Ev.forwardWrite; split
  · exact keeps_forwardCtrl _ _ _
  · exact (keeps_copyPlan _ _ _ _).comp (keeps_issue _ _ _ _ _ _) (by decide) (by decide)
  · exact (keeps_copyPlan _ _ _ _).comp (keeps_issue _ _ _ _ _ _) (by decide) (by decide)
  all_goals exact (keeps_issue _ _ _ _ _ _).mono (by decide)

theorem keeps_takeCourse (e : Ev) (t : Txn) (c : Course) :
    Keeps [.note, .plan, .tally, .restart, .ovr, .dec, .src, .head, .path, .asm, .lug] e.st (e.takeCourse t c).st := by
  unfold Ev.takeCourse; split
  · exact (keeps_issue _ _ _ _ _ _).mono (by decide)
  · exact (keeps_settle _ _).mono (by decide)
  · exact (keeps_trap _ _ _).comp (keeps_settle _ _) (by decide) (by decide)
  · exact (keeps_settle _ _).mono (by decide)
  · exact (keeps_exhaust _ _).comp (keeps_settle _ _) (by decide) (by decide)
  · exact (keeps_settle _ _).mono (by decide)
  · exact (keeps_acceptWrite _ _).comp (keeps_forwardWrite _ _ _ _) (by decide) (by decide)
  · exact ((keeps_acceptWrite _ _).comp (keeps_raise _ _) (ds := [.src, .note]) (by decide) (by decide)).comp
      (keeps_issue _ _ _ _ _ _) (by decide) (by decide)
  · exact (keeps_acceptWrite _ _).comp (keeps_issue _ _ _ _ _ _) (by decide) (by decide)
  · exact ((keeps_acceptWrite _ _).comp (keeps_intake _ _ _) (ds := [.src, .asm]) (by decide) (by decide)).comp
      (keeps_issue _ _ _ _ _ _) (by decide) (by decide)
  · exact ((((keeps_acceptWrite _ _).comp (keeps_countBadSlice _ _ _) (ds := [.src, .lug, .note]) (by decide)
      (by decide)).trans ((keeps_raise _ _).mono (by decide))).trans ((keeps_exhaust _ _).mono (by decide))).comp
      (keeps_issue _ _ _ _ _ _) (by decide) (by decide)

/-- What a grant of the forwarded side may change. -/
theorem keeps_grant (s : State) (t : Txn) :
    Keeps [.note, .plan, .tally, .restart, .ovr, .dec, .src, .head, .path, .asm, .lug] s (grant s t) :=
  (keeps_takeCourse (Ev.start s) t _).trans ((keeps_finishPath _).mono (by decide))

theorem keeps_answerForwarded (e : Ev) (i : Fin 16) (r : Response) :
    Keeps [.path, .src] e.st (e.answerForwarded i r).st := by
  refine Keeps.trans (t := (e.modify fun s =>
    { s with path :=
        { s.path with
          flight := changeFirst (UpTxn.isInMemoryOf i) (fun u => u.answeredWith r) s.path.flight } }).st) ?_
    (keeps_returnResponses _)
  intro b hb; cases b <;> first | rfl | exact absurd (by decide) hb

theorem keeps_popDown (e : Ev) (rest : List Down) (w : Wire) (ok : Bool) :
    Keeps [.path, .mem] e.st (e.popDown rest w ok).st := by
  intro b hb; cases b <;> first | rfl | exact absurd (by decide) hb

theorem keeps_fetchAnswered (e : Ev) (d : Option (List Byte)) : Keeps [.ovr] e.st (e.fetchAnswered d).st :=
  keeps_changeOvr _ _

theorem keeps_ownAnswered (e : Ev) (k : OwnTxn) (ok : Bool) (d : List Byte) :
    Keeps [.ovr, .note, .dec, .tally] e.st (e.ownAnswered k ok d).st := by
  unfold Ev.ownAnswered; split
  · exact (keeps_fetchAnswered _ _).mono (by decide)
  · exact (keeps_statusAnswered _).mono (by decide)
  · exact (keeps_recordAnswered _).mono (by decide)
  · exact (keeps_producerAnswered _ _).mono (by decide)
  · exact (keeps_imageAnswered _ _).mono (by decide)
  all_goals exact Keeps.refl _ _

theorem keeps_releaseLine (e : Ev) (k : OwnTxn) (w : Wire) : Keeps [.path] e.st (e.releaseLine k w).st := by
  unfold Ev.releaseLine; split
  · intro b hb; cases b <;> first | rfl | exact absurd (by decide) hb
  · exact Keeps.refl _ _

end Sys2Proof.Laws
end

