-- ==== Sys2Proof/Laws/State.lean ====
section
/-! SUPPORT. One lemma per field for each named update of the state, true by unfolding, so that no proof unfolds a record
update. -/

namespace Sys2Proof.Machine

open Sys2Proof

/-! ### A bank replaced -/

@[simp] theorem PlanStore.setBank_active (p : PlanStore) (k : Bank) (v : PlanBank) : (p.setBank k v).active = p.active := by
  cases k <;> rfl

@[simp] theorem PlanStore.setBank_pendingBank (p : PlanStore) (k : Bank) (v : PlanBank) : (p.setBank k v).pendingBank = p.pendingBank := by
  cases k <;> rfl

@[simp] theorem PlanStore.bank_setBank_same (p : PlanStore) (k : Bank) (v : PlanBank) : (p.setBank k v).bank k = v := by
  cases k <;> rfl

@[simp] theorem PlanStore.bank_setBank_other (p : PlanStore) (k : Bank) (v : PlanBank) : (p.setBank k v).bank k.other = p.bank k.other := by
  cases k <;> rfl

@[simp] theorem PlanStore.bank_other_setBank (p : PlanStore) (k : Bank) (v : PlanBank) : (p.setBank k.other v).bank k = p.bank k := by
  cases k <;> rfl

@[simp] theorem PlanStore.setBank_setBank (p : PlanStore) (k : Bank) (v u : PlanBank) : (p.setBank k v).setBank k u = p.setBank k u := by
  cases k <;> rfl

@[simp] theorem PlanStore.setBank_bank (p : PlanStore) (k : Bank) : p.setBank k (p.bank k) = p := by
  cases k <;> rfl

@[simp] theorem Tally.setBank_holding (p : Tally) (k : Bank) (v : TallyBank) : (p.setBank k v).holding = p.holding := by
  cases k <;> rfl

@[simp] theorem Tally.setBank_stranded (p : Tally) (k : Bank) (v : TallyBank) : (p.setBank k v).stranded = p.stranded := by
  cases k <;> rfl

@[simp] theorem Tally.setBank_request (p : Tally) (k : Bank) (v : TallyBank) : (p.setBank k v).request = p.request := by
  cases k <;> rfl

@[simp] theorem Tally.bank_setBank_same (p : Tally) (k : Bank) (v : TallyBank) : (p.setBank k v).bank k = v := by
  cases k <;> rfl

@[simp] theorem Tally.bank_setBank_other (p : Tally) (k : Bank) (v : TallyBank) : (p.setBank k v).bank k.other = p.bank k.other := by
  cases k <;> rfl

@[simp] theorem Tally.bank_other_setBank (p : Tally) (k : Bank) (v : TallyBank) : (p.setBank k.other v).bank k = p.bank k := by
  cases k <;> rfl

@[simp] theorem Tally.setBank_setBank (p : Tally) (k : Bank) (v u : TallyBank) : (p.setBank k v).setBank k u = p.setBank k u := by
  cases k <;> rfl

@[simp] theorem Tally.setBank_bank (p : Tally) (k : Bank) : p.setBank k (p.bank k) = p := by
  cases k <;> rfl

@[simp] theorem Bank.other_other (k : Bank) : k.other.other = k := by
  cases k <;> rfl

@[simp] theorem Bank.other_ne (k : Bank) : k.other ≠ k := by
  cases k <;> decide

@[simp] theorem PlanStore.bind_shadow (p : PlanStore) (k j : Bank) : ((p.bind k).bank j).shadow = (p.bank j).shadow := by
  cases k <;> cases j <;> rfl

@[simp] theorem PlanStore.unbind_shadow (p : PlanStore) (k : Option Bank) (j : Bank) :
    ((p.unbind k).bank j).shadow = (p.bank j).shadow := by
  rcases k with _ | k
  · rfl
  · cases k <;> cases j <;> rfl

@[simp] theorem PlanStore.bind_active (p : PlanStore) (k : Bank) : (p.bind k).active = p.active := by
  cases k <;> rfl

@[simp] theorem PlanStore.unbind_active (p : PlanStore) (k : Option Bank) : (p.unbind k).active = p.active := by
  rcases k with _ | k
  · rfl
  · cases k <;> rfl

@[simp] theorem PlanStore.bind_pendingBank (p : PlanStore) (k : Bank) : (p.bind k).pendingBank = p.pendingBank := by
  cases k <;> rfl

@[simp] theorem PlanStore.unbind_pendingBank (p : PlanStore) (k : Option Bank) : (p.unbind k).pendingBank = p.pendingBank := by
  rcases k with _ | k
  · rfl
  · cases k <;> rfl

/-! ### A board record put in its slot -/

@[simp] theorem State.setBoard_boot (s : State) (i : Fin 32) (b : Board) : (s.setBoard i b).boot = s.boot := rfl
@[simp] theorem State.setBoard_path (s : State) (i : Fin 32) (b : Board) : (s.setBoard i b).path = s.path := rfl
@[simp] theorem State.setBoard_src (s : State) (i : Fin 32) (b : Board) : (s.setBoard i b).src = s.src := rfl
@[simp] theorem State.setBoard_head (s : State) (i : Fin 32) (b : Board) : (s.setBoard i b).head = s.head := rfl
@[simp] theorem State.setBoard_asm (s : State) (i : Fin 32) (b : Board) : (s.setBoard i b).asm = s.asm := rfl
@[simp] theorem State.setBoard_solv (s : State) (i : Fin 32) (b : Board) : (s.setBoard i b).solv = s.solv := rfl
@[simp] theorem State.setBoard_plan (s : State) (i : Fin 32) (b : Board) : (s.setBoard i b).plan = s.plan := rfl
@[simp] theorem State.setBoard_ovr (s : State) (i : Fin 32) (b : Board) : (s.setBoard i b).ovr = s.ovr := rfl
@[simp] theorem State.setBoard_trim (s : State) (i : Fin 32) (b : Board) : (s.setBoard i b).trim = s.trim := rfl
@[simp] theorem State.setBoard_dec (s : State) (i : Fin 32) (b : Board) : (s.setBoard i b).dec = s.dec := rfl
@[simp] theorem State.setBoard_tally (s : State) (i : Fin 32) (b : Board) : (s.setBoard i b).tally = s.tally := rfl
@[simp] theorem State.setBoard_note (s : State) (i : Fin 32) (b : Board) : (s.setBoard i b).note = s.note := rfl
@[simp] theorem State.setBoard_restart (s : State) (i : Fin 32) (b : Board) :
    (s.setBoard i b).restart = s.restart := rfl
@[simp] theorem State.setBoard_pins (s : State) (i : Fin 32) (b : Board) : (s.setBoard i b).pins = s.pins := rfl
@[simp] theorem State.setBoard_mem (s : State) (i : Fin 32) (b : Board) : (s.setBoard i b).mem = s.mem := rfl
@[simp] theorem State.setBoard_freeCount (s : State) (i : Fin 32) (b : Board) :
    (s.setBoard i b).freeCount = s.freeCount := rfl
@[simp] theorem State.setBoard_pending (s : State) (i : Fin 32) (b : Board) :
    (s.setBoard i b).pending = s.pending := rfl
@[simp] theorem State.setBoard_current (s : State) (i : Fin 32) (b : Board) :
    (s.setBoard i b).lug.current = s.lug.current := rfl
@[simp] theorem State.setBoard_encCount (s : State) (i : Fin 32) (b : Board) :
    (s.setBoard i b).lug.encCount = s.lug.encCount := rfl
@[simp] theorem State.setBoard_slipRef (s : State) (i : Fin 32) (b : Board) :
    (s.setBoard i b).lug.slipRef = s.lug.slipRef := rfl
@[simp] theorem State.setBoard_closeLugs (s : State) (i : Fin 32) (b : Board) :
    (s.setBoard i b).lug.closeLugs = s.lug.closeLugs := rfl
@[simp] theorem State.setBoard_commitPos (s : State) (i : Fin 32) (b : Board) :
    (s.setBoard i b).lug.commitPos = s.lug.commitPos := rfl
@[simp] theorem State.setBoard_trimPos (s : State) (i : Fin 32) (b : Board) :
    (s.setBoard i b).lug.trimPos = s.lug.trimPos := rfl
@[simp] theorem State.setBoard_dropPos (s : State) (i : Fin 32) (b : Board) :
    (s.setBoard i b).lug.dropPos = s.lug.dropPos := rfl
@[simp] theorem State.setBoard_countsPerLug (s : State) (i : Fin 32) (b : Board) :
    (s.setBoard i b).lug.countsPerLug = s.lug.countsPerLug := rfl
@[simp] theorem State.setBoard_boards (s : State) (i : Fin 32) (b : Board) :
    (s.setBoard i b).lug.boards = s.lug.boards.set i b := rfl

/-! ### The event in progress -/

@[simp] theorem Ev.start_st (s : State) : (Ev.start s).st = s := rfl
@[simp] theorem Ev.start_asked (s : State) : (Ev.start s).asked = [] := rfl
@[simp] theorem Ev.start_returned (s : State) : (Ev.start s).returned = [] := rfl
@[simp] theorem Ev.modify_st (e : Ev) (f : State → State) : (e.modify f).st = f e.st := rfl
@[simp] theorem Ev.modify_asked (e : Ev) (f : State → State) : (e.modify f).asked = e.asked := rfl
@[simp] theorem Ev.modify_returned (e : Ev) (f : State → State) : (e.modify f).returned = e.returned := rfl
@[simp] theorem Ev.ask_st (e : Ev) (k : OwnTxn) : (e.ask k).st = e.st := rfl
@[simp] theorem Ev.ask_asked (e : Ev) (k : OwnTxn) : (e.ask k).asked = e.asked ++ [k] := rfl
@[simp] theorem Ev.ask_returned (e : Ev) (k : OwnTxn) : (e.ask k).returned = e.returned := rfl

@[simp] theorem Ev.raise_boot (e : Ev) (n : Notice) : (e.raise n).st.boot = e.st.boot := rfl
@[simp] theorem Ev.raise_path (e : Ev) (n : Notice) : (e.raise n).st.path = e.st.path := rfl
@[simp] theorem Ev.raise_src (e : Ev) (n : Notice) : (e.raise n).st.src = e.st.src := rfl
@[simp] theorem Ev.raise_head (e : Ev) (n : Notice) : (e.raise n).st.head = e.st.head := rfl
@[simp] theorem Ev.raise_asm (e : Ev) (n : Notice) : (e.raise n).st.asm = e.st.asm := rfl
@[simp] theorem Ev.raise_lug (e : Ev) (n : Notice) : (e.raise n).st.lug = e.st.lug := rfl
@[simp] theorem Ev.raise_solv (e : Ev) (n : Notice) : (e.raise n).st.solv = e.st.solv := rfl
@[simp] theorem Ev.raise_plan (e : Ev) (n : Notice) : (e.raise n).st.plan = e.st.plan := rfl
@[simp] theorem Ev.raise_ovr (e : Ev) (n : Notice) : (e.raise n).st.ovr = e.st.ovr := rfl
@[simp] theorem Ev.raise_trim (e : Ev) (n : Notice) : (e.raise n).st.trim = e.st.trim := rfl
@[simp] theorem Ev.raise_dec (e : Ev) (n : Notice) : (e.raise n).st.dec = e.st.dec := rfl
@[simp] theorem Ev.raise_tally (e : Ev) (n : Notice) : (e.raise n).st.tally = e.st.tally := rfl
@[simp] theorem Ev.raise_restart (e : Ev) (n : Notice) : (e.raise n).st.restart = e.st.restart := rfl
@[simp] theorem Ev.raise_pins (e : Ev) (n : Notice) : (e.raise n).st.pins = e.st.pins := rfl
@[simp] theorem Ev.raise_mem (e : Ev) (n : Notice) : (e.raise n).st.mem = e.st.mem := rfl
@[simp] theorem Ev.raise_freeCount (e : Ev) (n : Notice) : (e.raise n).st.freeCount = e.st.freeCount := rfl
@[simp] theorem Ev.raise_pending (e : Ev) (n : Notice) : (e.raise n).st.pending = e.st.pending := rfl
@[simp] theorem Ev.raise_word (e : Ev) (n : Notice) : (e.raise n).st.note.word = e.st.note.word ||| n.mask := rfl
@[simp] theorem Ev.raise_enable (e : Ev) (n : Notice) : (e.raise n).st.note.enable = e.st.note.enable := rfl
@[simp] theorem Ev.raise_asked (e : Ev) (n : Notice) : (e.raise n).asked = e.asked ++ [.notice] := rfl
@[simp] theorem Ev.raise_returned (e : Ev) (n : Notice) : (e.raise n).returned = e.returned := rfl

@[simp] theorem Ev.changeBoard_boot (e : Ev) (i : Fin 32) (f : Board → Board) :
    (e.changeBoard i f).st.boot = e.st.boot := rfl
@[simp] theorem Ev.changeBoard_path (e : Ev) (i : Fin 32) (f : Board → Board) :
    (e.changeBoard i f).st.path = e.st.path := rfl
@[simp] theorem Ev.changeBoard_src (e : Ev) (i : Fin 32) (f : Board → Board) :
    (e.changeBoard i f).st.src = e.st.src := rfl
@[simp] theorem Ev.changeBoard_head (e : Ev) (i : Fin 32) (f : Board → Board) :
    (e.changeBoard i f).st.head = e.st.head := rfl
@[simp] theorem Ev.changeBoard_asm (e : Ev) (i : Fin 32) (f : Board → Board) :
    (e.changeBoard i f).st.asm = e.st.asm := rfl
@[simp] theorem Ev.changeBoard_solv (e : Ev) (i : Fin 32) (f : Board → Board) :
    (e.changeBoard i f).st.solv = e.st.solv := rfl
@[simp] theorem Ev.changeBoard_plan (e : Ev) (i : Fin 32) (f : Board → Board) :
    (e.changeBoard i f).st.plan = e.st.plan := rfl
@[simp] theorem Ev.changeBoard_ovr (e : Ev) (i : Fin 32) (f : Board → Board) :
    (e.changeBoard i f).st.ovr = e.st.ovr := rfl
@[simp] theorem Ev.changeBoard_trim (e : Ev) (i : Fin 32) (f : Board → Board) :
    (e.changeBoard i f).st.trim = e.st.trim := rfl
@[simp] theorem Ev.changeBoard_dec (e : Ev) (i : Fin 32) (f : Board → Board) :
    (e.changeBoard i f).st.dec = e.st.dec := rfl
@[simp] theorem Ev.changeBoard_tally (e : Ev) (i : Fin 32) (f : Board → Board) :
    (e.changeBoard i f).st.tally = e.st.tally := rfl
@[simp] theorem Ev.changeBoard_note (e : Ev) (i : Fin 32) (f : Board → Board) :
    (e.changeBoard i f).st.note = e.st.note := rfl
@[simp] theorem Ev.changeBoard_restart (e : Ev) (i : Fin 32) (f : Board → Board) :
    (e.changeBoard i f).st.restart = e.st.restart := rfl
@[simp] theorem Ev.changeBoard_pins (e : Ev) (i : Fin 32) (f : Board → Board) :
    (e.changeBoard i f).st.pins = e.st.pins := rfl
@[simp] theorem Ev.changeBoard_mem (e : Ev) (i : Fin 32) (f : Board → Board) :
    (e.changeBoard i f).st.mem = e.st.mem := rfl
@[simp] theorem Ev.changeBoard_freeCount (e : Ev) (i : Fin 32) (f : Board → Board) :
    (e.changeBoard i f).st.freeCount = e.st.freeCount := rfl
@[simp] theorem Ev.changeBoard_pending (e : Ev) (i : Fin 32) (f : Board → Board) :
    (e.changeBoard i f).st.pending = e.st.pending := rfl
@[simp] theorem Ev.changeBoard_current (e : Ev) (i : Fin 32) (f : Board → Board) :
    (e.changeBoard i f).st.lug.current = e.st.lug.current := rfl
@[simp] theorem Ev.changeBoard_encCount (e : Ev) (i : Fin 32) (f : Board → Board) :
    (e.changeBoard i f).st.lug.encCount = e.st.lug.encCount := rfl
@[simp] theorem Ev.changeBoard_slipRef (e : Ev) (i : Fin 32) (f : Board → Board) :
    (e.changeBoard i f).st.lug.slipRef = e.st.lug.slipRef := rfl
@[simp] theorem Ev.changeBoard_closeLugs (e : Ev) (i : Fin 32) (f : Board → Board) :
    (e.changeBoard i f).st.lug.closeLugs = e.st.lug.closeLugs := rfl
@[simp] theorem Ev.changeBoard_commitPos (e : Ev) (i : Fin 32) (f : Board → Board) :
    (e.changeBoard i f).st.lug.commitPos = e.st.lug.commitPos := rfl
@[simp] theorem Ev.changeBoard_trimPos (e : Ev) (i : Fin 32) (f : Board → Board) :
    (e.changeBoard i f).st.lug.trimPos = e.st.lug.trimPos := rfl
@[simp] theorem Ev.changeBoard_dropPos (e : Ev) (i : Fin 32) (f : Board → Board) :
    (e.changeBoard i f).st.lug.dropPos = e.st.lug.dropPos := rfl
@[simp] theorem Ev.changeBoard_countsPerLug (e : Ev) (i : Fin 32) (f : Board → Board) :
    (e.changeBoard i f).st.lug.countsPerLug = e.st.lug.countsPerLug := rfl
@[simp] theorem Ev.changeBoard_boards (e : Ev) (i : Fin 32) (f : Board → Board) :
    (e.changeBoard i f).st.lug.boards = e.st.lug.boards.set i (f e.st.lug.boards[i]) := rfl
@[simp] theorem Ev.changeBoard_asked (e : Ev) (i : Fin 32) (f : Board → Board) :
    (e.changeBoard i f).asked = e.asked := rfl
@[simp] theorem Ev.changeBoard_returned (e : Ev) (i : Fin 32) (f : Board → Board) :
    (e.changeBoard i f).returned = e.returned := rfl

@[simp] theorem Ev.changeDec_boot (e : Ev) (f : DecisionWriter → DecisionWriter) :
    (e.changeDec f).st.boot = e.st.boot := rfl
@[simp] theorem Ev.changeDec_path (e : Ev) (f : DecisionWriter → DecisionWriter) :
    (e.changeDec f).st.path = e.st.path := rfl
@[simp] theorem Ev.changeDec_src (e : Ev) (f : DecisionWriter → DecisionWriter) :
    (e.changeDec f).st.src = e.st.src := rfl
@[simp] theorem Ev.changeDec_head (e : Ev) (f : DecisionWriter → DecisionWriter) :
    (e.changeDec f).st.head = e.st.head := rfl
@[simp] theorem Ev.changeDec_asm (e : Ev) (f : DecisionWriter → DecisionWriter) :
    (e.changeDec f).st.asm = e.st.asm := rfl
@[simp] theorem Ev.changeDec_lug (e : Ev) (f : DecisionWriter → DecisionWriter) :
    (e.changeDec f).st.lug = e.st.lug := rfl
@[simp] theorem Ev.changeDec_solv (e : Ev) (f : DecisionWriter → DecisionWriter) :
    (e.changeDec f).st.solv = e.st.solv := rfl
@[simp] theorem Ev.changeDec_plan (e : Ev) (f : DecisionWriter → DecisionWriter) :
    (e.changeDec f).st.plan = e.st.plan := rfl
@[simp] theorem Ev.changeDec_ovr (e : Ev) (f : DecisionWriter → DecisionWriter) :
    (e.changeDec f).st.ovr = e.st.ovr := rfl
@[simp] theorem Ev.changeDec_trim (e : Ev) (f : DecisionWriter → DecisionWriter) :
    (e.changeDec f).st.trim = e.st.trim := rfl
@[simp] theorem Ev.changeDec_tally (e : Ev) (f : DecisionWriter → DecisionWriter) :
    (e.changeDec f).st.tally = e.st.tally := rfl
@[simp] theorem Ev.changeDec_note (e : Ev) (f : DecisionWriter → DecisionWriter) :
    (e.changeDec f).st.note = e.st.note := rfl
@[simp] theorem Ev.changeDec_restart (e : Ev) (f : DecisionWriter → DecisionWriter) :
    (e.changeDec f).st.restart = e.st.restart := rfl
@[simp] theorem Ev.changeDec_pins (e : Ev) (f : DecisionWriter → DecisionWriter) :
    (e.changeDec f).st.pins = e.st.pins := rfl
@[simp] theorem Ev.changeDec_mem (e : Ev) (f : DecisionWriter → DecisionWriter) :
    (e.changeDec f).st.mem = e.st.mem := rfl
@[simp] theorem Ev.changeDec_freeCount (e : Ev) (f : DecisionWriter → DecisionWriter) :
    (e.changeDec f).st.freeCount = e.st.freeCount := rfl
@[simp] theorem Ev.changeDec_pending (e : Ev) (f : DecisionWriter → DecisionWriter) :
    (e.changeDec f).st.pending = e.st.pending := rfl
@[simp] theorem Ev.changeDec_dec (e : Ev) (f : DecisionWriter → DecisionWriter) :
    (e.changeDec f).st.dec = f e.st.dec := rfl
@[simp] theorem Ev.changeDec_asked (e : Ev) (f : DecisionWriter → DecisionWriter) :
    (e.changeDec f).asked = e.asked := rfl
@[simp] theorem Ev.changeDec_returned (e : Ev) (f : DecisionWriter → DecisionWriter) :
    (e.changeDec f).returned = e.returned := rfl

@[simp] theorem Ev.changeOvr_boot (e : Ev) (f : OverrideUnit → OverrideUnit) :
    (e.changeOvr f).st.boot = e.st.boot := rfl
@[simp] theorem Ev.changeOvr_path (e : Ev) (f : OverrideUnit → OverrideUnit) :
    (e.changeOvr f).st.path = e.st.path := rfl
@[simp] theorem Ev.changeOvr_src (e : Ev) (f : OverrideUnit → OverrideUnit) : (e.changeOvr f).st.src = e.st.src := rfl
@[simp] theorem Ev.changeOvr_head (e : Ev) (f : OverrideUnit → OverrideUnit) :
    (e.changeOvr f).st.head = e.st.head := rfl
@[simp] theorem Ev.changeOvr_asm (e : Ev) (f : OverrideUnit → OverrideUnit) : (e.changeOvr f).st.asm = e.st.asm := rfl
@[simp] theorem Ev.changeOvr_lug (e : Ev) (f : OverrideUnit → OverrideUnit) : (e.changeOvr f).st.lug = e.st.lug := rfl
@[simp] theorem Ev.changeOvr_solv (e : Ev) (f : OverrideUnit → OverrideUnit) :
    (e.changeOvr f).st.solv = e.st.solv := rfl
@[simp] theorem Ev.changeOvr_plan (e : Ev) (f : OverrideUnit → OverrideUnit) :
    (e.changeOvr f).st.plan = e.st.plan := rfl
@[simp] theorem Ev.changeOvr_trim (e : Ev) (f : OverrideUnit → OverrideUnit) :
    (e.changeOvr f).st.trim = e.st.trim := rfl
@[simp] theorem Ev.changeOvr_dec (e : Ev) (f : OverrideUnit → OverrideUnit) : (e.changeOvr f).st.dec = e.st.dec := rfl
@[simp] theorem Ev.changeOvr_tally (e : Ev) (f : OverrideUnit → OverrideUnit) :
    (e.changeOvr f).st.tally = e.st.tally := rfl
@[simp] theorem Ev.changeOvr_note (e : Ev) (f : OverrideUnit → OverrideUnit) :
    (e.changeOvr f).st.note = e.st.note := rfl
@[simp] theorem Ev.changeOvr_restart (e : Ev) (f : OverrideUnit → OverrideUnit) :
    (e.changeOvr f).st.restart = e.st.restart := rfl
@[simp] theorem Ev.changeOvr_pins (e : Ev) (f : OverrideUnit → OverrideUnit) :
    (e.changeOvr f).st.pins = e.st.pins := rfl
@[simp] theorem Ev.changeOvr_mem (e : Ev) (f : OverrideUnit → OverrideUnit) : (e.changeOvr f).st.mem = e.st.mem := rfl
@[simp] theorem Ev.changeOvr_freeCount (e : Ev) (f : OverrideUnit → OverrideUnit) :
    (e.changeOvr f).st.freeCount = e.st.freeCount := rfl
@[simp] theorem Ev.changeOvr_pending (e : Ev) (f : OverrideUnit → OverrideUnit) :
    (e.changeOvr f).st.pending = e.st.pending := rfl
@[simp] theorem Ev.changeOvr_ovr (e : Ev) (f : OverrideUnit → OverrideUnit) : (e.changeOvr f).st.ovr = f e.st.ovr := rfl
@[simp] theorem Ev.changeOvr_asked (e : Ev) (f : OverrideUnit → OverrideUnit) : (e.changeOvr f).asked = e.asked := rfl
@[simp] theorem Ev.changeOvr_returned (e : Ev) (f : OverrideUnit → OverrideUnit) :
    (e.changeOvr f).returned = e.returned := rfl

@[simp] theorem Ev.copyPlan_boot (e : Ev) (k : Bank) (off : Nat) (ls : List Lane) :
    (e.copyPlan k off ls).st.boot = e.st.boot := rfl
@[simp] theorem Ev.copyPlan_path (e : Ev) (k : Bank) (off : Nat) (ls : List Lane) :
    (e.copyPlan k off ls).st.path = e.st.path := rfl
@[simp] theorem Ev.copyPlan_src (e : Ev) (k : Bank) (off : Nat) (ls : List Lane) :
    (e.copyPlan k off ls).st.src = e.st.src := rfl
@[simp] theorem Ev.copyPlan_head (e : Ev) (k : Bank) (off : Nat) (ls : List Lane) :
    (e.copyPlan k off ls).st.head = e.st.head := rfl
@[simp] theorem Ev.copyPlan_asm (e : Ev) (k : Bank) (off : Nat) (ls : List Lane) :
    (e.copyPlan k off ls).st.asm = e.st.asm := rfl
@[simp] theorem Ev.copyPlan_lug (e : Ev) (k : Bank) (off : Nat) (ls : List Lane) :
    (e.copyPlan k off ls).st.lug = e.st.lug := rfl
@[simp] theorem Ev.copyPlan_solv (e : Ev) (k : Bank) (off : Nat) (ls : List Lane) :
    (e.copyPlan k off ls).st.solv = e.st.solv := rfl
@[simp] theorem Ev.copyPlan_ovr (e : Ev) (k : Bank) (off : Nat) (ls : List Lane) :
    (e.copyPlan k off ls).st.ovr = e.st.ovr := rfl
@[simp] theorem Ev.copyPlan_trim (e : Ev) (k : Bank) (off : Nat) (ls : List Lane) :
    (e.copyPlan k off ls).st.trim = e.st.trim := rfl
@[simp] theorem Ev.copyPlan_dec (e : Ev) (k : Bank) (off : Nat) (ls : List Lane) :
    (e.copyPlan k off ls).st.dec = e.st.dec := rfl
@[simp] theorem Ev.copyPlan_tally (e : Ev) (k : Bank) (off : Nat) (ls : List Lane) :
    (e.copyPlan k off ls).st.tally = e.st.tally := rfl
@[simp] theorem Ev.copyPlan_note (e : Ev) (k : Bank) (off : Nat) (ls : List Lane) :
    (e.copyPlan k off ls).st.note = e.st.note := rfl
@[simp] theorem Ev.copyPlan_restart (e : Ev) (k : Bank) (off : Nat) (ls : List Lane) :
    (e.copyPlan k off ls).st.restart = e.st.restart := rfl
@[simp] theorem Ev.copyPlan_pins (e : Ev) (k : Bank) (off : Nat) (ls : List Lane) :
    (e.copyPlan k off ls).st.pins = e.st.pins := rfl
@[simp] theorem Ev.copyPlan_mem (e : Ev) (k : Bank) (off : Nat) (ls : List Lane) :
    (e.copyPlan k off ls).st.mem = e.st.mem := rfl
@[simp] theorem Ev.copyPlan_freeCount (e : Ev) (k : Bank) (off : Nat) (ls : List Lane) :
    (e.copyPlan k off ls).st.freeCount = e.st.freeCount := rfl
@[simp] theorem Ev.copyPlan_pending (e : Ev) (k : Bank) (off : Nat) (ls : List Lane) :
    (e.copyPlan k off ls).st.pending = e.st.pending := rfl
@[simp] theorem Ev.copyPlan_asked (e : Ev) (k : Bank) (off : Nat) (ls : List Lane) :
    (e.copyPlan k off ls).asked = e.asked := rfl
@[simp] theorem Ev.copyPlan_returned (e : Ev) (k : Bank) (off : Nat) (ls : List Lane) :
    (e.copyPlan k off ls).returned = e.returned := rfl

@[simp] theorem Ev.intake_boot (e : Ev) (h : Fin 6) (bs : List Byte) : (e.intake h bs).st.boot = e.st.boot := rfl
@[simp] theorem Ev.intake_path (e : Ev) (h : Fin 6) (bs : List Byte) : (e.intake h bs).st.path = e.st.path := rfl
@[simp] theorem Ev.intake_src (e : Ev) (h : Fin 6) (bs : List Byte) : (e.intake h bs).st.src = e.st.src := rfl
@[simp] theorem Ev.intake_head (e : Ev) (h : Fin 6) (bs : List Byte) : (e.intake h bs).st.head = e.st.head := rfl
@[simp] theorem Ev.intake_lug (e : Ev) (h : Fin 6) (bs : List Byte) : (e.intake h bs).st.lug = e.st.lug := rfl
@[simp] theorem Ev.intake_solv (e : Ev) (h : Fin 6) (bs : List Byte) : (e.intake h bs).st.solv = e.st.solv := rfl
@[simp] theorem Ev.intake_plan (e : Ev) (h : Fin 6) (bs : List Byte) : (e.intake h bs).st.plan = e.st.plan := rfl
@[simp] theorem Ev.intake_ovr (e : Ev) (h : Fin 6) (bs : List Byte) : (e.intake h bs).st.ovr = e.st.ovr := rfl
@[simp] theorem Ev.intake_trim (e : Ev) (h : Fin 6) (bs : List Byte) : (e.intake h bs).st.trim = e.st.trim := rfl
@[simp] theorem Ev.intake_dec (e : Ev) (h : Fin 6) (bs : List Byte) : (e.intake h bs).st.dec = e.st.dec := rfl
@[simp] theorem Ev.intake_tally (e : Ev) (h : Fin 6) (bs : List Byte) : (e.intake h bs).st.tally = e.st.tally := rfl
@[simp] theorem Ev.intake_note (e : Ev) (h : Fin 6) (bs : List Byte) : (e.intake h bs).st.note = e.st.note := rfl
@[simp] theorem Ev.intake_restart (e : Ev) (h : Fin 6) (bs : List Byte) :
    (e.intake h bs).st.restart = e.st.restart := rfl
@[simp] theorem Ev.intake_pins (e : Ev) (h : Fin 6) (bs : List Byte) : (e.intake h bs).st.pins = e.st.pins := rfl
@[simp] theorem Ev.intake_mem (e : Ev) (h : Fin 6) (bs : List Byte) : (e.intake h bs).st.mem = e.st.mem := rfl
@[simp] theorem Ev.intake_freeCount (e : Ev) (h : Fin 6) (bs : List Byte) :
    (e.intake h bs).st.freeCount = e.st.freeCount := rfl
@[simp] theorem Ev.intake_pending (e : Ev) (h : Fin 6) (bs : List Byte) :
    (e.intake h bs).st.pending = e.st.pending := rfl
@[simp] theorem Ev.intake_asked (e : Ev) (h : Fin 6) (bs : List Byte) : (e.intake h bs).asked = e.asked := rfl
@[simp] theorem Ev.intake_returned (e : Ev) (h : Fin 6) (bs : List Byte) : (e.intake h bs).returned = e.returned := rfl

@[simp] theorem Ev.issue_boot (e : Ev) (t : Txn) (ls : List Lane) (g b r : Bool) :
    (e.issue t ls g b r).st.boot = e.st.boot := rfl
@[simp] theorem Ev.issue_src (e : Ev) (t : Txn) (ls : List Lane) (g b r : Bool) :
    (e.issue t ls g b r).st.src = e.st.src := rfl
@[simp] theorem Ev.issue_head (e : Ev) (t : Txn) (ls : List Lane) (g b r : Bool) :
    (e.issue t ls g b r).st.head = e.st.head := rfl
@[simp] theorem Ev.issue_asm (e : Ev) (t : Txn) (ls : List Lane) (g b r : Bool) :
    (e.issue t ls g b r).st.asm = e.st.asm := rfl
@[simp] theorem Ev.issue_lug (e : Ev) (t : Txn) (ls : List Lane) (g b r : Bool) :
    (e.issue t ls g b r).st.lug = e.st.lug := rfl
@[simp] theorem Ev.issue_solv (e : Ev) (t : Txn) (ls : List Lane) (g b r : Bool) :
    (e.issue t ls g b r).st.solv = e.st.solv := rfl
@[simp] theorem Ev.issue_plan (e : Ev) (t : Txn) (ls : List Lane) (g b r : Bool) :
    (e.issue t ls g b r).st.plan = e.st.plan := rfl
@[simp] theorem Ev.issue_ovr (e : Ev) (t : Txn) (ls : List Lane) (g b r : Bool) :
    (e.issue t ls g b r).st.ovr = e.st.ovr := rfl
@[simp] theorem Ev.issue_trim (e : Ev) (t : Txn) (ls : List Lane) (g b r : Bool) :
    (e.issue t ls g b r).st.trim = e.st.trim := rfl
@[simp] theorem Ev.issue_dec (e : Ev) (t : Txn) (ls : List Lane) (g b r : Bool) :
    (e.issue t ls g b r).st.dec = e.st.dec := rfl
@[simp] theorem Ev.issue_tally (e : Ev) (t : Txn) (ls : List Lane) (g b r : Bool) :
    (e.issue t ls g b r).st.tally = e.st.tally := rfl
@[simp] theorem Ev.issue_note (e : Ev) (t : Txn) (ls : List Lane) (g b r : Bool) :
    (e.issue t ls g b r).st.note = e.st.note := rfl
@[simp] theorem Ev.issue_restart (e : Ev) (t : Txn) (ls : List Lane) (g b r : Bool) :
    (e.issue t ls g b r).st.restart = e.st.restart := rfl
@[simp] theorem Ev.issue_pins (e : Ev) (t : Txn) (ls : List Lane) (g b r : Bool) :
    (e.issue t ls g b r).st.pins = e.st.pins := rfl
@[simp] theorem Ev.issue_mem (e : Ev) (t : Txn) (ls : List Lane) (g b r : Bool) :
    (e.issue t ls g b r).st.mem = e.st.mem := rfl
@[simp] theorem Ev.issue_freeCount (e : Ev) (t : Txn) (ls : List Lane) (g b r : Bool) :
    (e.issue t ls g b r).st.freeCount = e.st.freeCount := rfl
@[simp] theorem Ev.issue_pending (e : Ev) (t : Txn) (ls : List Lane) (g b r : Bool) :
    (e.issue t ls g b r).st.pending = e.st.pending := rfl
@[simp] theorem Ev.issue_asked (e : Ev) (t : Txn) (ls : List Lane) (g b r : Bool) :
    (e.issue t ls g b r).asked = e.asked := rfl
@[simp] theorem Ev.issue_returned (e : Ev) (t : Txn) (ls : List Lane) (g b r : Bool) :
    (e.issue t ls g b r).returned = e.returned := rfl

@[simp] theorem Ev.requestRestart_boot (e : Ev)  : (e.requestRestart).st.boot = e.st.boot := rfl
@[simp] theorem Ev.requestRestart_path (e : Ev)  : (e.requestRestart).st.path = e.st.path := rfl
@[simp] theorem Ev.requestRestart_src (e : Ev)  : (e.requestRestart).st.src = e.st.src := rfl
@[simp] theorem Ev.requestRestart_head (e : Ev)  : (e.requestRestart).st.head = e.st.head := rfl
@[simp] theorem Ev.requestRestart_asm (e : Ev)  : (e.requestRestart).st.asm = e.st.asm := rfl
@[simp] theorem Ev.requestRestart_lug (e : Ev)  : (e.requestRestart).st.lug = e.st.lug := rfl
@[simp] theorem Ev.requestRestart_solv (e : Ev)  : (e.requestRestart).st.solv = e.st.solv := rfl
@[simp] theorem Ev.requestRestart_plan (e : Ev)  : (e.requestRestart).st.plan = e.st.plan := rfl
@[simp] theorem Ev.requestRestart_ovr (e : Ev)  : (e.requestRestart).st.ovr = e.st.ovr := rfl
@[simp] theorem Ev.requestRestart_trim (e : Ev)  : (e.requestRestart).st.trim = e.st.trim := rfl
@[simp] theorem Ev.requestRestart_dec (e : Ev)  : (e.requestRestart).st.dec = e.st.dec := rfl
@[simp] theorem Ev.requestRestart_tally (e : Ev)  : (e.requestRestart).st.tally = e.st.tally := rfl
@[simp] theorem Ev.requestRestart_note (e : Ev)  : (e.requestRestart).st.note = e.st.note := rfl
@[simp] theorem Ev.requestRestart_pins (e : Ev)  : (e.requestRestart).st.pins = e.st.pins := rfl
@[simp] theorem Ev.requestRestart_mem (e : Ev)  : (e.requestRestart).st.mem = e.st.mem := rfl
@[simp] theorem Ev.requestRestart_freeCount (e : Ev)  : (e.requestRestart).st.freeCount = e.st.freeCount := rfl
@[simp] theorem Ev.requestRestart_pending (e : Ev)  : (e.requestRestart).st.pending = e.st.pending := rfl
@[simp] theorem Ev.requestRestart_asked (e : Ev)  : (e.requestRestart).asked = e.asked := rfl
@[simp] theorem Ev.requestRestart_returned (e : Ev)  : (e.requestRestart).returned = e.returned := rfl

@[simp] theorem Ev.popDown_boot (e : Ev) (rest : List Down) (w : Wire) (ok : Bool) :
    (e.popDown rest w ok).st.boot = e.st.boot := rfl
@[simp] theorem Ev.popDown_src (e : Ev) (rest : List Down) (w : Wire) (ok : Bool) :
    (e.popDown rest w ok).st.src = e.st.src := rfl
@[simp] theorem Ev.popDown_head (e : Ev) (rest : List Down) (w : Wire) (ok : Bool) :
    (e.popDown rest w ok).st.head = e.st.head := rfl
@[simp] theorem Ev.popDown_asm (e : Ev) (rest : List Down) (w : Wire) (ok : Bool) :
    (e.popDown rest w ok).st.asm = e.st.asm := rfl
@[simp] theorem Ev.popDown_lug (e : Ev) (rest : List Down) (w : Wire) (ok : Bool) :
    (e.popDown rest w ok).st.lug = e.st.lug := rfl
@[simp] theorem Ev.popDown_solv (e : Ev) (rest : List Down) (w : Wire) (ok : Bool) :
    (e.popDown rest w ok).st.solv = e.st.solv := rfl
@[simp] theorem Ev.popDown_plan (e : Ev) (rest : List Down) (w : Wire) (ok : Bool) :
    (e.popDown rest w ok).st.plan = e.st.plan := rfl
@[simp] theorem Ev.popDown_ovr (e : Ev) (rest : List Down) (w : Wire) (ok : Bool) :
    (e.popDown rest w ok).st.ovr = e.st.ovr := rfl
@[simp] theorem Ev.popDown_trim (e : Ev) (rest : List Down) (w : Wire) (ok : Bool) :
    (e.popDown rest w ok).st.trim = e.st.trim := rfl
@[simp] theorem Ev.popDown_dec (e : Ev) (rest : List Down) (w : Wire) (ok : Bool) :
    (e.popDown rest w ok).st.dec = e.st.dec := rfl
@[simp] theorem Ev.popDown_tally (e : Ev) (rest : List Down) (w : Wire) (ok : Bool) :
    (e.popDown rest w ok).st.tally = e.st.tally := rfl
@[simp] theorem Ev.popDown_note (e : Ev) (rest : List Down) (w : Wire) (ok : Bool) :
    (e.popDown rest w ok).st.note = e.st.note := rfl
@[simp] theorem Ev.popDown_restart (e : Ev) (rest : List Down) (w : Wire) (ok : Bool) :
    (e.popDown rest w ok).st.restart = e.st.restart := rfl
@[simp] theorem Ev.popDown_pins (e : Ev) (rest : List Down) (w : Wire) (ok : Bool) :
    (e.popDown rest w ok).st.pins = e.st.pins := rfl
@[simp] theorem Ev.popDown_freeCount (e : Ev) (rest : List Down) (w : Wire) (ok : Bool) :
    (e.popDown rest w ok).st.freeCount = e.st.freeCount := rfl
@[simp] theorem Ev.popDown_pending (e : Ev) (rest : List Down) (w : Wire) (ok : Bool) :
    (e.popDown rest w ok).st.pending = e.st.pending := rfl
@[simp] theorem Ev.popDown_asked (e : Ev) (rest : List Down) (w : Wire) (ok : Bool) :
    (e.popDown rest w ok).asked = e.asked := rfl
@[simp] theorem Ev.popDown_returned (e : Ev) (rest : List Down) (w : Wire) (ok : Bool) :
    (e.popDown rest w ok).returned = e.returned := rfl

@[simp] theorem Ev.presentPin_boot (e : Ev) (h : Fin 6) (v : Bool) : (e.presentPin h v).st.boot = e.st.boot := rfl
@[simp] theorem Ev.presentPin_path (e : Ev) (h : Fin 6) (v : Bool) : (e.presentPin h v).st.path = e.st.path := rfl
@[simp] theorem Ev.presentPin_src (e : Ev) (h : Fin 6) (v : Bool) : (e.presentPin h v).st.src = e.st.src := rfl
@[simp] theorem Ev.presentPin_head (e : Ev) (h : Fin 6) (v : Bool) : (e.presentPin h v).st.head = e.st.head := rfl
@[simp] theorem Ev.presentPin_asm (e : Ev) (h : Fin 6) (v : Bool) : (e.presentPin h v).st.asm = e.st.asm := rfl
@[simp] theorem Ev.presentPin_lug (e : Ev) (h : Fin 6) (v : Bool) : (e.presentPin h v).st.lug = e.st.lug := rfl
@[simp] theorem Ev.presentPin_solv (e : Ev) (h : Fin 6) (v : Bool) : (e.presentPin h v).st.solv = e.st.solv := rfl
@[simp] theorem Ev.presentPin_plan (e : Ev) (h : Fin 6) (v : Bool) : (e.presentPin h v).st.plan = e.st.plan := rfl
@[simp] theorem Ev.presentPin_ovr (e : Ev) (h : Fin 6) (v : Bool) : (e.presentPin h v).st.ovr = e.st.ovr := rfl
@[simp] theorem Ev.presentPin_trim (e : Ev) (h : Fin 6) (v : Bool) : (e.presentPin h v).st.trim = e.st.trim := rfl
@[simp] theorem Ev.presentPin_dec (e : Ev) (h : Fin 6) (v : Bool) : (e.presentPin h v).st.dec = e.st.dec := rfl
@[simp] theorem Ev.presentPin_tally (e : Ev) (h : Fin 6) (v : Bool) : (e.presentPin h v).st.tally = e.st.tally := rfl
@[simp] theorem Ev.presentPin_note (e : Ev) (h : Fin 6) (v : Bool) : (e.presentPin h v).st.note = e.st.note := rfl
@[simp] theorem Ev.presentPin_restart (e : Ev) (h : Fin 6) (v : Bool) :
    (e.presentPin h v).st.restart = e.st.restart := rfl
@[simp] theorem Ev.presentPin_mem (e : Ev) (h : Fin 6) (v : Bool) : (e.presentPin h v).st.mem = e.st.mem := rfl
@[simp] theorem Ev.presentPin_freeCount (e : Ev) (h : Fin 6) (v : Bool) :
    (e.presentPin h v).st.freeCount = e.st.freeCount := rfl
@[simp] theorem Ev.presentPin_pending (e : Ev) (h : Fin 6) (v : Bool) :
    (e.presentPin h v).st.pending = e.st.pending := rfl
@[simp] theorem Ev.presentPin_asked (e : Ev) (h : Fin 6) (v : Bool) : (e.presentPin h v).asked = e.asked := rfl
@[simp] theorem Ev.presentPin_returned (e : Ev) (h : Fin 6) (v : Bool) : (e.presentPin h v).returned = e.returned := rfl

@[simp] theorem Ev.readyPin_boot (e : Ev) (h : Fin 6) (v : Bool) : (e.readyPin h v).st.boot = e.st.boot := rfl
@[simp] theorem Ev.readyPin_path (e : Ev) (h : Fin 6) (v : Bool) : (e.readyPin h v).st.path = e.st.path := rfl
@[simp] theorem Ev.readyPin_src (e : Ev) (h : Fin 6) (v : Bool) : (e.readyPin h v).st.src = e.st.src := rfl
@[simp] theorem Ev.readyPin_head (e : Ev) (h : Fin 6) (v : Bool) : (e.readyPin h v).st.head = e.st.head := rfl
@[simp] theorem Ev.readyPin_asm (e : Ev) (h : Fin 6) (v : Bool) : (e.readyPin h v).st.asm = e.st.asm := rfl
@[simp] theorem Ev.readyPin_lug (e : Ev) (h : Fin 6) (v : Bool) : (e.readyPin h v).st.lug = e.st.lug := rfl
@[simp] theorem Ev.readyPin_solv (e : Ev) (h : Fin 6) (v : Bool) : (e.readyPin h v).st.solv = e.st.solv := rfl
@[simp] theorem Ev.readyPin_plan (e : Ev) (h : Fin 6) (v : Bool) : (e.readyPin h v).st.plan = e.st.plan := rfl
@[simp] theorem Ev.readyPin_ovr (e : Ev) (h : Fin 6) (v : Bool) : (e.readyPin h v).st.ovr = e.st.ovr := rfl
@[simp] theorem Ev.readyPin_trim (e : Ev) (h : Fin 6) (v : Bool) : (e.readyPin h v).st.trim = e.st.trim := rfl
@[simp] theorem Ev.readyPin_dec (e : Ev) (h : Fin 6) (v : Bool) : (e.readyPin h v).st.dec = e.st.dec := rfl
@[simp] theorem Ev.readyPin_tally (e : Ev) (h : Fin 6) (v : Bool) : (e.readyPin h v).st.tally = e.st.tally := rfl
@[simp] theorem Ev.readyPin_note (e : Ev) (h : Fin 6) (v : Bool) : (e.readyPin h v).st.note = e.st.note := rfl
@[simp] theorem Ev.readyPin_restart (e : Ev) (h : Fin 6) (v : Bool) : (e.readyPin h v).st.restart = e.st.restart := rfl
@[simp] theorem Ev.readyPin_mem (e : Ev) (h : Fin 6) (v : Bool) : (e.readyPin h v).st.mem = e.st.mem := rfl
@[simp] theorem Ev.readyPin_freeCount (e : Ev) (h : Fin 6) (v : Bool) :
    (e.readyPin h v).st.freeCount = e.st.freeCount := rfl
@[simp] theorem Ev.readyPin_pending (e : Ev) (h : Fin 6) (v : Bool) : (e.readyPin h v).st.pending = e.st.pending := rfl
@[simp] theorem Ev.readyPin_asked (e : Ev) (h : Fin 6) (v : Bool) : (e.readyPin h v).asked = e.asked := rfl
@[simp] theorem Ev.readyPin_returned (e : Ev) (h : Fin 6) (v : Bool) : (e.readyPin h v).returned = e.returned := rfl

/-! ### The end of an event -/

@[simp] theorem Ev.finish_boot (e : Ev) : e.finish.boot = e.st.boot := rfl
@[simp] theorem Ev.finish_src (e : Ev) : e.finish.src = e.st.src := rfl
@[simp] theorem Ev.finish_head (e : Ev) : e.finish.head = e.st.head := rfl
@[simp] theorem Ev.finish_asm (e : Ev) : e.finish.asm = e.st.asm := rfl
@[simp] theorem Ev.finish_lug (e : Ev) : e.finish.lug = e.st.lug := rfl
@[simp] theorem Ev.finish_solv (e : Ev) : e.finish.solv = e.st.solv := rfl
@[simp] theorem Ev.finish_plan (e : Ev) : e.finish.plan = e.st.plan := rfl
@[simp] theorem Ev.finish_ovr (e : Ev) : e.finish.ovr = e.st.ovr := rfl
@[simp] theorem Ev.finish_trim (e : Ev) : e.finish.trim = e.st.trim := rfl
@[simp] theorem Ev.finish_dec (e : Ev) : e.finish.dec = e.st.dec := rfl
@[simp] theorem Ev.finish_tally (e : Ev) : e.finish.tally = e.st.tally := rfl
@[simp] theorem Ev.finish_note (e : Ev) : e.finish.note = e.st.note := rfl
@[simp] theorem Ev.finish_restart (e : Ev) : e.finish.restart = e.st.restart := rfl
@[simp] theorem Ev.finish_pins (e : Ev) : e.finish.pins = e.st.pins := rfl
@[simp] theorem Ev.finish_mem (e : Ev) : e.finish.mem = e.st.mem := rfl
@[simp] theorem Ev.finish_freeCount (e : Ev) : e.finish.freeCount = e.st.freeCount := rfl
@[simp] theorem Ev.finish_pending (e : Ev) : e.finish.pending = e.st.pending := rfl
@[simp] theorem Ev.finishPath_boot (e : Ev) : e.finishPath.boot = e.st.boot := rfl
@[simp] theorem Ev.finishPath_src (e : Ev) : e.finishPath.src = e.st.src := rfl
@[simp] theorem Ev.finishPath_head (e : Ev) : e.finishPath.head = e.st.head := rfl
@[simp] theorem Ev.finishPath_asm (e : Ev) : e.finishPath.asm = e.st.asm := rfl
@[simp] theorem Ev.finishPath_lug (e : Ev) : e.finishPath.lug = e.st.lug := rfl
@[simp] theorem Ev.finishPath_solv (e : Ev) : e.finishPath.solv = e.st.solv := rfl
@[simp] theorem Ev.finishPath_plan (e : Ev) : e.finishPath.plan = e.st.plan := rfl
@[simp] theorem Ev.finishPath_ovr (e : Ev) : e.finishPath.ovr = e.st.ovr := rfl
@[simp] theorem Ev.finishPath_trim (e : Ev) : e.finishPath.trim = e.st.trim := rfl
@[simp] theorem Ev.finishPath_dec (e : Ev) : e.finishPath.dec = e.st.dec := rfl
@[simp] theorem Ev.finishPath_tally (e : Ev) : e.finishPath.tally = e.st.tally := rfl
@[simp] theorem Ev.finishPath_note (e : Ev) : e.finishPath.note = e.st.note := rfl
@[simp] theorem Ev.finishPath_restart (e : Ev) : e.finishPath.restart = e.st.restart := rfl
@[simp] theorem Ev.finishPath_pins (e : Ev) : e.finishPath.pins = e.st.pins := rfl
@[simp] theorem Ev.finishPath_mem (e : Ev) : e.finishPath.mem = e.st.mem := rfl
@[simp] theorem Ev.finishPath_freeCount (e : Ev) : e.finishPath.freeCount = e.st.freeCount := rfl
@[simp] theorem Ev.finishPath_pending (e : Ev) : e.finishPath.pending = e.st.pending := rfl

/-! ### An entry of the own-write queue issued -/

@[simp] theorem State.issueOwn_boot (s : State) (k : OwnTxn) (rest : List OwnTxn) :
    (s.issueOwn k rest).boot = s.boot := rfl
@[simp] theorem State.issueOwn_src (s : State) (k : OwnTxn) (rest : List OwnTxn) :
    (s.issueOwn k rest).src = s.src := rfl
@[simp] theorem State.issueOwn_head (s : State) (k : OwnTxn) (rest : List OwnTxn) :
    (s.issueOwn k rest).head = s.head := rfl
@[simp] theorem State.issueOwn_asm (s : State) (k : OwnTxn) (rest : List OwnTxn) :
    (s.issueOwn k rest).asm = s.asm := rfl
@[simp] theorem State.issueOwn_lug (s : State) (k : OwnTxn) (rest : List OwnTxn) :
    (s.issueOwn k rest).lug = s.lug := rfl
@[simp] theorem State.issueOwn_solv (s : State) (k : OwnTxn) (rest : List OwnTxn) :
    (s.issueOwn k rest).solv = s.solv := rfl
@[simp] theorem State.issueOwn_plan (s : State) (k : OwnTxn) (rest : List OwnTxn) :
    (s.issueOwn k rest).plan = s.plan := rfl
@[simp] theorem State.issueOwn_ovr (s : State) (k : OwnTxn) (rest : List OwnTxn) :
    (s.issueOwn k rest).ovr = s.ovr := rfl
@[simp] theorem State.issueOwn_trim (s : State) (k : OwnTxn) (rest : List OwnTxn) :
    (s.issueOwn k rest).trim = s.trim := rfl
@[simp] theorem State.issueOwn_dec (s : State) (k : OwnTxn) (rest : List OwnTxn) :
    (s.issueOwn k rest).dec = s.dec := rfl
@[simp] theorem State.issueOwn_tally (s : State) (k : OwnTxn) (rest : List OwnTxn) :
    (s.issueOwn k rest).tally = s.tally := rfl
@[simp] theorem State.issueOwn_note (s : State) (k : OwnTxn) (rest : List OwnTxn) :
    (s.issueOwn k rest).note = s.note := rfl
@[simp] theorem State.issueOwn_restart (s : State) (k : OwnTxn) (rest : List OwnTxn) :
    (s.issueOwn k rest).restart = s.restart := rfl
@[simp] theorem State.issueOwn_pins (s : State) (k : OwnTxn) (rest : List OwnTxn) :
    (s.issueOwn k rest).pins = s.pins := rfl
@[simp] theorem State.issueOwn_mem (s : State) (k : OwnTxn) (rest : List OwnTxn) :
    (s.issueOwn k rest).mem = s.mem := rfl
@[simp] theorem State.issueOwn_freeCount (s : State) (k : OwnTxn) (rest : List OwnTxn) :
    (s.issueOwn k rest).freeCount = s.freeCount := rfl
@[simp] theorem State.issueOwn_pending (s : State) (k : OwnTxn) (rest : List OwnTxn) :
    (s.issueOwn k rest).pending = s.pending := rfl

end Sys2Proof.Machine
end

