-- ==== Sys2Proof/Laws/Grading.lean ====
section
/-! SUPPORT. The arithmetic of the solve, each function by one lemma that says what it answers: the runs, the worst grade, the
trim search, the saws, and the override set's parts. -/

namespace Sys2Proof.Laws

open Sys2Proof Sys2Proof.Machine

/-! ### Runs (R80) -/

theorem mem_runSegments {a b i : Nat} : i ∈ runSegments a b ↔ a ≤ i ∧ i ≤ b := by
  simp only [runSegments, List.mem_map, List.mem_range]
  constructor
  · rintro ⟨d, h, rfl⟩; omega
  · intro h; exact ⟨i - a, by omega, by omega⟩

theorem mem_allRuns {r : Nat × Nat} : r ∈ allRuns ↔ r.1 ≤ r.2 ∧ r.2 ≤ 11 := by
  obtain ⟨a, b⟩ := r
  simp only [allRuns, List.mem_flatMap, List.mem_map, List.mem_range, Prod.mk.injEq]
  constructor
  · rintro ⟨c, hc, d, hd, rfl, rfl⟩; omega
  · intro h; exact ⟨a, by omega, b - a, by omega, rfl, by omega⟩

theorem Grade.code_range (g : Grade) : 1 ≤ g.code ∧ g.code ≤ 6 := by cases g <;> decide

theorem gradeOfCode_code (g : Grade) : gradeOfCode g.code = some g := by cases g <;> rfl

theorem Grade.code_inj {g k : Grade} (h : g.code = k.code) : g = k := by
  revert h; cases g <;> cases k <;> decide

theorem isGraded_iff {classes : Vector (Option SegMark) 12} {i : Nat} :
    isGraded classes i = true ↔ ∃ g, classAt classes i = some (.grade g) := by
  unfold isGraded
  constructor
  · intro h
    split at h
    · exact ⟨_, by assumption⟩
    all_goals cases h
  · rintro ⟨g, hg⟩; rw [hg]

theorem gradedCode_eq {classes : Vector (Option SegMark) 12} {i : Nat} {g : Grade}
    (h : classAt classes i = some (.grade g)) : gradedCode classes i = g.code := by
  unfold gradedCode; rw [h]

theorem gradedCode_pos {classes : Vector (Option SegMark) 12} {i : Nat} (h : 0 < gradedCode classes i) :
    ∃ g, classAt classes i = some (.grade g) ∧ gradedCode classes i = g.code := by
  unfold gradedCode at h ⊢
  split at h
  · rename_i g hg; exact ⟨g, hg, rfl⟩
  all_goals exact absurd h (by decide)

theorem foldl_max_eq {α : Type} (f : α → Nat) (l : List α) (m n : Nat) (h1 : m ≤ n) (h2 : ∀ i ∈ l, f i ≤ n)
    (h3 : m = n ∨ ∃ i ∈ l, f i = n) : l.foldl (fun m i => max m (f i)) m = n := by
  induction l generalizing m with
  | nil => rcases h3 with h3 | ⟨i, hi, _⟩; exact h3; simp at hi
  | cons a l ih =>
    simp only [List.foldl_cons]
    refine ih _ (max_le h1 (h2 a (by simp))) (fun i hi => h2 i (by simp [hi])) ?_
    rcases h3 with rfl | ⟨i, hi, hf⟩
    · left; have := h2 a (by simp); omega
    · rcases List.mem_cons.1 hi with rfl | hi
      · left; omega
      · exact Or.inr ⟨i, hi, hf⟩

theorem le_foldl_max {α : Type} (f : α → Nat) (l : List α) (m : Nat) :
    m ≤ l.foldl (fun m i => max m (f i)) m ∧ ∀ i ∈ l, f i ≤ l.foldl (fun m i => max m (f i)) m := by
  induction l generalizing m with
  | nil => simp
  | cons a l ih =>
    obtain ⟨h1, h2⟩ := ih (max m (f a))
    simp only [List.foldl_cons, List.mem_cons, forall_eq_or_imp]
    exact ⟨by omega, by omega, h2⟩

theorem foldl_max_mem {α : Type} (f : α → Nat) (l : List α) (m : Nat) :
    l.foldl (fun m i => max m (f i)) m = m ∨ ∃ i ∈ l, f i = l.foldl (fun m i => max m (f i)) m := by
  induction l generalizing m with
  | nil => simp
  | cons a l ih =>
    simp only [List.foldl_cons]
    rcases ih (max m (f a)) with h | ⟨i, hi, h⟩
    · rw [h]
      rcases le_total (f a) m with hm | hm
      · left; omega
      · right; exact ⟨a, by simp, by omega⟩
    · exact Or.inr ⟨i, by simp [hi], h⟩

/-- R80: the worst grade of a run, as the search finds it. -/
theorem runGrade_iff {classes : Vector (Option SegMark) 12} {a b : Nat} {g : Grade} :
    runGrade classes (a, b) = some g ↔ WorstGrade classes g a b := by
  unfold runGrade WorstGrade
  dsimp only
  have hle := (le_foldl_max (gradedCode classes) (runSegments a b) 0).2
  have hmem := foldl_max_mem (gradedCode classes) (runSegments a b) 0
  generalize hM : (runSegments a b).foldl (fun m i => max m (gradedCode classes i)) 0 = M at hle hmem ⊢
  constructor
  · intro h
    have hpos : 0 < M := by
      rcases Nat.eq_zero_or_pos M with h0 | h0
      · rw [h0] at h; cases h
      · exact h0
    rcases hmem with hmem | ⟨i, hi, hf⟩
    · omega
    · obtain ⟨g', h1, h2⟩ := gradedCode_pos (by rw [hf]; exact hpos)
      have : g' = g := by
        have : gradeOfCode g'.code = some g := by rw [← h2, hf]; exact h
        rw [gradeOfCode_code] at this
        injection this
      subst this
      refine ⟨⟨i, (mem_runSegments.1 hi).1, (mem_runSegments.1 hi).2, h1⟩, fun j k hj hj' hk => ?_⟩
      rw [← gradedCode_eq hk, ← h2, hf]
      exact hle j (mem_runSegments.2 ⟨hj, hj'⟩)
  · rintro ⟨⟨i, h1, h2, h3⟩, h4⟩
    have : M = g.code := by
      have h5 := hle i (mem_runSegments.2 ⟨h1, h2⟩)
      rw [gradedCode_eq h3] at h5
      have hg := Grade.code_range g
      rcases hmem with hmem | ⟨j, hj, hf⟩
      · omega
      · obtain ⟨k, hk, hk'⟩ := gradedCode_pos (classes := classes) (i := j) (by omega)
        have := h4 j k (mem_runSegments.1 hj).1 (mem_runSegments.1 hj).2 hk
        omega
    rw [this, gradeOfCode_code]

theorem worstGrade_unique {classes : Vector (Option SegMark) 12} {a b : Nat} {g k : Grade} (h : WorstGrade classes g a b)
    (h' : WorstGrade classes k a b) : g = k :=
  Option.some.inj ((runGrade_iff.2 h).symm.trans (runGrade_iff.2 h'))

theorem validRun_iff {classes : Vector (Option SegMark) 12} {a b : Nat} :
    validRun classes (a, b) = true ↔
      a ≤ b ∧ b ≤ 11 ∧ ∀ i, a ≤ i → i ≤ b → ∃ k, classAt classes i = some (.grade k) := by
  simp only [validRun, Bool.and_eq_true, decide_eq_true_eq, List.all_eq_true, mem_runSegments, isGraded_iff, and_assoc,
    and_imp]

/-- R81: a run of value greater than 0 is a candidate of its worst grade, at that grade's price, and conversely. -/
theorem runValue_pos_iff {p : Shadow} {classes : Vector (Option SegMark) 12} {a b : Nat} :
    0 < runValue p classes (a, b) ↔ ∃ g, Candidate p classes g a b ∧ runValue p classes (a, b) = planPrice p g (b - a) := by
  unfold runValue Candidate
  constructor
  · intro h
    split at h
    · rename_i hv
      obtain ⟨h1, h2, h3⟩ := validRun_iff.1 hv
      split at h
      · rename_i g hg
        rw [if_pos hv]
        exact ⟨g, ⟨h1, h2, h3, runGrade_iff.1 hg, h⟩, rfl⟩
      · cases h
    · cases h
  · rintro ⟨g, ⟨h1, h2, h3, h4, h5⟩, h6⟩
    rw [h6]
    exact h5

theorem runValue_candidate {p : Shadow} {classes : Vector (Option SegMark) 12} {a b : Nat} {g : Grade}
    (h : Candidate p classes g a b) : runValue p classes (a, b) = planPrice p g (b - a) := by
  obtain ⟨h1, h2, h3, h4, _⟩ := h
  unfold runValue
  rw [if_pos (validRun_iff.2 ⟨h1, h2, h3⟩), runGrade_iff.2 h4]

/-! ### The trim search (R82) -/

/-- Run `r` is no worse than run `q`: greater value, or as great and longer, or as long too and no farther out. -/
def NoWorse (p : Shadow) (classes : Vector (Option SegMark) 12) (r q : Nat × Nat) : Prop :=
  runValue p classes q < runValue p classes r ∨
    (runValue p classes q = runValue p classes r ∧ q.2 - q.1 < r.2 - r.1) ∨
    (runValue p classes q = runValue p classes r ∧ q.2 - q.1 = r.2 - r.1 ∧ r.1 ≤ q.1)

theorem NoWorse.refl (p : Shadow) (classes : Vector (Option SegMark) 12) (r : Nat × Nat) : NoWorse p classes r r :=
  Or.inr (Or.inr ⟨rfl, rfl, Nat.le_refl _⟩)

theorem NoWorse.trans {p : Shadow} {classes : Vector (Option SegMark) 12} {r q t : Nat × Nat}
    (h : NoWorse p classes r q) (h' : NoWorse p classes q t) : NoWorse p classes r t := by
  unfold NoWorse at *
  omega

theorem better_noWorse {p : Shadow} {classes : Vector (Option SegMark) 12} {r q : Nat × Nat} :
    (better p classes r q = true → NoWorse p classes r q) ∧ (better p classes r q = false → NoWorse p classes q r) := by
  unfold better NoWorse
  simp only [Bool.or_eq_true, Bool.and_eq_true, decide_eq_true_eq, beq_iff_eq, Bool.or_eq_false_iff, Bool.and_eq_false_iff,
    decide_eq_false_iff_not, beq_eq_false_iff_ne]
  constructor
  · intro h; omega
  · intro h; omega

/-- What the search has found after the runs of a list: nothing where none has a value, and the best of them otherwise. -/
theorem foldl_pick (p : Shadow) (classes : Vector (Option SegMark) 12) (l : List (Nat × Nat)) (b : Option (Nat × Nat))
    (hb : ∀ q, b = some q → 0 < runValue p classes q) :
    match l.foldl (pick p classes) b with
    | none => b = none ∧ ∀ r ∈ l, runValue p classes r = 0
    | some q => 0 < runValue p classes q ∧ (b = some q ∨ q ∈ l) ∧ (∀ r, b = some r → NoWorse p classes q r) ∧
        ∀ r ∈ l, 0 < runValue p classes r → NoWorse p classes q r := by
  induction l generalizing b with
  | nil =>
    cases b with
    | none => simp
    | some q =>
      simp only [List.foldl_nil]
      refine ⟨hb q rfl, by simp, fun r hr => by injection hr with hr; subst hr; exact NoWorse.refl _ _ _, by simp⟩
  | cons r l ih =>
    simp only [List.foldl_cons]
    have hb' : ∀ q, pick p classes b r = some q → 0 < runValue p classes q := by
      intro q hq
      unfold pick at hq
      split at hq
      · exact hb q hq
      · split at hq
        · injection hq with hq; subst hq; omega
        · split at hq
          · injection hq with hq; subst hq; omega
          · exact hb q (by assumption)
    have := ih (pick p classes b r) hb'
    revert this
    cases hf : l.foldl (pick p classes) (pick p classes b r) with
    | none =>
      rintro ⟨h1, h2⟩
      unfold pick at h1
      split at h1
      · rename_i h0
        exact ⟨h1, by simpa [h0] using h2⟩
      · split at h1
        · cases h1
        · split at h1 <;> cases h1
    | some q =>
      rintro ⟨h1, h2, h3, h4⟩
      have key : ∀ x, pick p classes b r = some x → (b = some x ∨ x = r) ∧ (∀ y, b = some y → NoWorse p classes x y) ∧
          (0 < runValue p classes r → NoWorse p classes x r) := by
        intro x hx
        unfold pick at hx
        split at hx
        · rename_i h0
          exact ⟨Or.inl hx, fun y hy => by rw [hx] at hy; injection hy with hy; subst hy; exact NoWorse.refl _ _ _,
            fun h => by omega⟩
        · split at hx
          · injection hx with hx; subst hx
            exact ⟨Or.inr rfl, nofun, fun _ => NoWorse.refl _ _ _⟩
          · rename_i y
            split at hx
            · rename_i hbt
              injection hx with hx; subst hx
              exact ⟨Or.inr rfl, fun z hz => by injection hz with hz; subst hz; exact better_noWorse.1 hbt,
                fun _ => NoWorse.refl _ _ _⟩
            · rename_i hbt
              injection hx with hx; subst hx
              exact ⟨Or.inl rfl, fun z hz => by injection hz with hz; subst hz; exact NoWorse.refl _ _ _,
                fun _ => better_noWorse.2 (by simpa using hbt)⟩
      have hsome : ∃ x, (pick p classes b r = some x ∧ NoWorse p classes q x) ∨ pick p classes b r = none := by
        cases hp : pick p classes b r with
        | none => exact ⟨r, Or.inr rfl⟩
        | some x => exact ⟨x, Or.inl ⟨rfl, h3 x hp⟩⟩
      obtain ⟨x, hx⟩ := hsome
      refine ⟨h1, ?_, ?_, ?_⟩
      · rcases h2 with h2 | h2
        · rcases (key q h2).1 with h | h
          · exact Or.inl h
          · exact Or.inr (by simp [h])
        · exact Or.inr (by simp [h2])
      · intro y hy
        rcases hx with ⟨hx, hq⟩ | hx
        · exact hq.trans ((key x hx).2.1 y hy)
        · unfold pick at hx
          rw [hy] at hx
          split at hx
          · cases hx
          · dsimp only at hx; split at hx <;> cases hx
      · intro y hy hpos
        rcases List.mem_cons.1 hy with rfl | hy
        · rcases hx with ⟨hx, hq⟩ | hx
          · exact hq.trans ((key x hx).2.2 hpos)
          · unfold pick at hx
            rw [if_neg (by omega)] at hx
            split at hx
            · cases hx
            · split at hx <;> cases hx
        · exact h4 y hy hpos

/-! ### Saws (R84, R85) -/

theorem sawsWhere_getLsbD (f : Nat → Bool) (i : Fin 11) : (sawsWhere f).getLsbD i = f (i.val + 1) := by
  unfold sawsWhere
  have key : ∀ (l : List Nat) (acc : SawSet), (l.foldl (fun acc i => if f (i + 1) then acc ||| (1#11 <<< i) else acc)
      acc).getLsbD i = (acc.getLsbD i || (decide (i.val ∈ l) && f (i.val + 1))) := by
    intro l
    induction l with
    | nil => intro acc; simp
    | cons a l ih =>
      intro acc
      simp only [List.foldl_cons]
      rw [ih]
      by_cases ha : i.val = a
      · subst ha
        split
        · rename_i hf
          have hbit : ∀ i : Fin 11, (1#11 <<< i.val).getLsbD i = true := by decide
          rw [BitVec.getLsbD_or, hbit i]
          simp [hf]
        · rename_i hf
          simp [hf]
      · have hbit : (1#11 <<< a).getLsbD i = false := by
          simp only [BitVec.getLsbD_shiftLeft, BitVec.getLsbD_one]
          simp
          omega
        split
        · rw [BitVec.getLsbD_or, hbit]; simp [ha]
        · simp [ha]
  rw [key]
  have : i.val ∈ List.range 11 := List.mem_range.2 i.2
  simp [this]

/-! ### The parts of an override set (R114, R116) -/

theorem withoutKind_sublist (w : OverrideWhat) (l : List Override) : (withoutKind w l).Sublist l := List.filter_sublist

theorem gradeOf_append (l m : List Override) : gradeOf (l ++ m) = (gradeOf l).or (gradeOf m) := by
  simp [gradeOf, List.findSome?_append]

theorem trimOf_append (l m : List Override) : trimOf (l ++ m) = (trimOf l).or (trimOf m) := by
  simp [trimOf, List.findSome?_append]

theorem dispositionOf_append (l m : List Override) : dispositionOf (l ++ m) = (dispositionOf l).or (dispositionOf m) := by
  simp [dispositionOf, List.findSome?_append]

/-- A set without its overrides of one kind has none of that kind, and the others as before. -/
theorem withoutKind_parts (w : OverrideWhat) (l : List Override) :
    gradeOf (withoutKind w l) = (match w with | .grade _ => none | .trim _ _ | .disposition _ => gradeOf l) ∧
    trimOf (withoutKind w l) = (match w with | .trim _ _ => none | .grade _ | .disposition _ => trimOf l) ∧
    dispositionOf (withoutKind w l) =
      (match w with | .disposition _ => none | .grade _ | .trim _ _ => dispositionOf l) := by
  induction l with
  | nil => cases w <;> simp [withoutKind, gradeOf, trimOf, dispositionOf]
  | cons o l ih =>
    obtain ⟨h1, h2, h3⟩ := ih
    obtain ⟨what, st⟩ := o
    cases w <;> cases what <;>
      simp_all [withoutKind, sameKind, gradeOf, trimOf, dispositionOf]

end Sys2Proof.Laws
end

