-- ==== Sys2Proof/Laws/Path.lean ====
section
/-! SUPPORT. The memory path's operations, each by one lemma that says what it can do: the requests made at the end of an
event, the presentation of transactions, the return of responses, and what a grant leaves. -/

namespace Sys2Proof.Machine

open Sys2Proof

/-! ### Requests (R172) -/

theorem mem_insertByRank (k j : OwnTxn) (l : List OwnTxn) : j ∈ insertByRank k l ↔ j = k ∨ j ∈ l := by
  induction l with
  | nil => simp [insertByRank]
  | cons x l ih => simp only [insertByRank]; split <;> simp [ih]; tauto

theorem mem_rankRequests (j : OwnTxn) (ks sorted : List OwnTxn) :
    j ∈ rankRequests sorted ks ↔ j ∈ sorted ∨ j ∈ ks := by
  induction ks generalizing sorted with
  | nil => simp [rankRequests]
  | cons k ks ih => simp only [rankRequests, ih, mem_insertByRank, List.mem_cons]; tauto

theorem mem_oncePerWord (j : OwnTxn) (ks : List OwnTxn) : j ∈ oncePerWord ks ↔ j ∈ ks := by
  induction ks with
  | nil => simp [oncePerWord]
  | cons k ks ih =>
    simp only [oncePerWord]
    split
    · rename_i h
      simp only [Bool.and_eq_true, decide_eq_true_eq] at h
      rw [ih, List.mem_cons]
      exact ⟨Or.inr, fun h' => h'.elim (fun e => e ▸ h.2) id⟩
    · simp [ih]

/-- Only a status word renews itself, and the two other words whose values differ renew one another. -/
theorem OwnTxn.renews_self {k j : OwnTxn} (h : k.renews j = true) : k = j ∨ k.isStatusWord = false := by
  unfold OwnTxn.renews at h
  split at h
  · exact Or.inr rfl
  · exact Or.inr rfl
  · simp only [Bool.and_eq_true, decide_eq_true_eq] at h; exact Or.inl h.2.symm

theorem OwnTxn.WaitsAs.trans {j k l : OwnTxn} (h : j.WaitsAs k) (h' : k.WaitsAs l) : j.WaitsAs l := by
  rcases h with rfl | h
  · exact h'
  rcases h' with rfl | h'
  · exact Or.inr h
  right
  cases k <;> cases j <;> simp_all [OwnTxn.renews, OwnTxn.isStatusWord] <;> cases l <;> simp_all

theorem waitsAs_refl (l : List OwnTxn) : List.Forall₂ OwnTxn.WaitsAs l l := by
  induction l with
  | nil => exact .nil
  | cons k l ih => exact .cons (Or.inl rfl) ih

theorem waitsAs_trans {l m n : List OwnTxn} (h : List.Forall₂ OwnTxn.WaitsAs l m) (h' : List.Forall₂ OwnTxn.WaitsAs m n) :
    List.Forall₂ OwnTxn.WaitsAs l n := by
  induction h generalizing n with
  | nil => exact h'
  | cons a _ ih => cases h' with | cons b h' => exact .cons (a.trans b) (ih h')

theorem waitsAs_append {l m n : List OwnTxn} (h : List.Forall₂ OwnTxn.WaitsAs (l ++ m) n) :
    ∃ x y, n = x ++ y ∧ List.Forall₂ OwnTxn.WaitsAs l x := by
  induction l generalizing n with
  | nil => exact ⟨[], n, rfl, .nil⟩
  | cons k l ih =>
    cases h with
    | cons a h =>
      obtain ⟨x, y, rfl, hx⟩ := ih h
      exact ⟨_ :: x, y, rfl, .cons a hx⟩

theorem WaitingGrew.refl (l : List OwnTxn) : WaitingGrew l l := ⟨l, [], by simp, waitsAs_refl l⟩

theorem WaitingGrew.trans {l m n : List OwnTxn} (h : WaitingGrew l m) (h' : WaitingGrew m n) : WaitingGrew l n := by
  obtain ⟨k1, a1, rfl, f1⟩ := h
  obtain ⟨k2, a2, rfl, f2⟩ := h'
  obtain ⟨x, y, rfl, hx⟩ := waitsAs_append f2
  exact ⟨x, y ++ a2, by simp, waitsAs_trans f1 hx⟩

/-- Where a request that renews nothing different of its own makes room for `j`: a waiting `j` that `k` does not take over. -/
def OwnTxn.spares (k j : OwnTxn) : Prop := k.renews j = true → k = j

/-- A request adds at most itself to the queue; the waiting list grows as R172 says. The request is then asked for, and so is
every other asked for before that it does not take over. -/
theorem Path.request_grows (p : Path) (k : OwnTxn) :
    (∃ more w, p.request k = { p with queue := p.queue ++ more, waiting := w } ∧ WaitingGrew p.waiting w) ∧
      (p.request k).asks k = true ∧ ∀ j, p.asks j = true → k.spares j → (p.request k).asks j = true := by
  unfold Path.request Path.asks
  split
  · rename_i h
    refine ⟨⟨[], _, by rw [List.append_nil], _, [], (List.append_nil _).symm, ?_⟩, ?_, ?_⟩
    · rw [List.forall₂_map_right_iff, List.forall₂_same]
      intro j _
      split
      · exact Or.inr (by assumption)
      · exact Or.inl rfl
    · obtain ⟨j, hj, hk⟩ := List.any_eq_true.1 h
      simp only [Bool.or_eq_true, decide_eq_true_eq, List.mem_map]
      exact Or.inr ⟨j, hj, by simp [hk]⟩
    · intro j hj hs
      simp only [Bool.or_eq_true, decide_eq_true_eq, List.mem_map] at hj ⊢
      refine hj.imp_right fun hj => ⟨j, hj, ?_⟩
      split
      · exact hs (by assumption)
      · rfl
  split
  · rename_i h
    simp only [Bool.and_eq_true, decide_eq_true_eq] at h
    exact ⟨⟨[], _, by rw [List.append_nil], WaitingGrew.refl _⟩, by simp [h.2], fun j hj _ => hj⟩
  split
  · refine ⟨⟨[k], _, rfl, WaitingGrew.refl _⟩, by simp, fun j hj _ => ?_⟩
    simp only [Bool.or_eq_true, decide_eq_true_eq, List.mem_append] at hj ⊢
    tauto
  · refine ⟨⟨[], _, by rw [List.append_nil], _, [k], rfl, waitsAs_refl _⟩, by simp, fun j hj _ => ?_⟩
    simp only [Bool.or_eq_true, decide_eq_true_eq, List.mem_append] at hj ⊢
    tauto

/-- Requests add to the queue, the waiting list grows as R172 says, and nothing else of the path changes. -/
theorem Path.requestAll_grows (ks : List OwnTxn) (p : Path) :
    ∃ more w, p.requestAll ks = { p with queue := p.queue ++ more, waiting := w } ∧ WaitingGrew p.waiting w := by
  induction ks generalizing p with
  | nil => exact ⟨[], _, by rw [List.append_nil]; rfl, WaitingGrew.refl _⟩
  | cons k ks ih =>
    obtain ⟨m, w, h, g⟩ := (p.request_grows k).1
    obtain ⟨m', w', h', g'⟩ := ih (p.request k)
    refine ⟨m ++ m', w', by rw [Path.requestAll, h', h]; simp, g.trans ?_⟩
    rw [h] at g'
    exact g'

/-- What is asked for stays asked for through requests that do not take it over. -/
theorem Path.requestAll_keeps_asks {ks : List OwnTxn} {p : Path} {j : OwnTxn} (h : p.asks j = true)
    (hs : ∀ k ∈ ks, k.spares j) : (p.requestAll ks).asks j = true := by
  induction ks generalizing p with
  | nil => exact h
  | cons k ks ih =>
    exact ih ((p.request_grows k).2.2 j h (hs k (by simp))) fun k' hk' => hs k' (by simp [hk'])

/-- Every request made is asked for afterwards, unless another of the same event takes it over. -/
theorem Path.requestAll_asks (ks : List OwnTxn) (p : Path) :
    ∀ j ∈ ks, (∀ k ∈ ks, k.spares j) → (p.requestAll ks).asks j = true := by
  induction ks generalizing p with
  | nil => simp
  | cons k ks ih =>
    intro j hj hs
    rcases List.mem_cons.1 hj with rfl | hj
    · rw [Path.requestAll]
      exact Path.requestAll_keeps_asks (p.request_grows j).2.1 fun k hk => hs k (by simp [hk])
    · exact ih _ j hj fun k hk => hs k (by simp [hk])

/-- OVR_CONSUMER and the completion write apart, no request is taken over. -/
theorem OwnTxn.spares_of {k j : OwnTxn} (h1 : ∀ v, j ≠ .ovrConsumer v) (h2 : ∀ w, j ≠ .tallyCompletion w) : k.spares j := by
  intro h
  unfold OwnTxn.renews at h
  split at h
  · exact absurd rfl (h1 _)
  · exact absurd rfl (h2 _)
  · simp only [Bool.and_eq_true, decide_eq_true_eq] at h; exact h.2.symm

theorem OwnTxn.renews_comm (k j : OwnTxn) : k.renews j = j.renews k := by
  cases k <;> cases j <;> simp [OwnTxn.renews, OwnTxn.isStatusWord, eq_comm]

theorem OwnTxn.renews_trans {k j l : OwnTxn} (h : k.renews j = true) (h' : k.renews l = true) : l.renews j = true := by
  cases k <;> cases j <;> simp_all [OwnTxn.renews, OwnTxn.isStatusWord] <;> cases l <;> simp_all

/-- R172: the queue holds at most 16, a request waits only behind a full queue, and at most one waits for each thing. -/
def Path.roomy (p : Path) : Prop :=
  p.queue.length ≤ 16 ∧ (p.waiting ≠ [] → p.queue.length = 16) ∧ p.waiting.Pairwise fun j k => k.renews j = false

theorem Path.request_roomy {p : Path} (h : p.roomy) (k : OwnTxn) : (p.request k).roomy := by
  obtain ⟨h1, h2, h3⟩ := h
  unfold Path.request
  split
  · refine ⟨h1, fun hw => h2 fun hn => hw (by simp [hn]), ?_⟩
    rw [List.pairwise_map]
    refine h3.imp fun {a b} hab => ?_
    cases ha : k.renews a <;> cases hb : k.renews b <;> simp only [Bool.false_eq_true, if_true, if_false]
    · exact hab
    · exact ha
    · rw [OwnTxn.renews_comm]; exact hb
    · rw [OwnTxn.renews_trans ha hb] at hab; cases hab
  rename_i hany
  split
  · exact ⟨h1, h2, h3⟩
  split
  · rename_i hlt
    refine ⟨by simp; omega, fun hw => ?_, h3⟩
    have := h2 hw
    simp at hw
    omega
  · refine ⟨h1, fun _ => by simp; omega, ?_⟩
    rw [List.pairwise_append]
    refine ⟨h3, by simp, fun j hj l hl => ?_⟩
    rw [List.mem_singleton.1 hl]
    simpa using fun hr => hany (List.any_eq_true.2 ⟨j, hj, hr⟩)

theorem Path.requestAll_roomy (ks : List OwnTxn) {p : Path} (h : p.roomy) : (p.requestAll ks).roomy := by
  induction ks generalizing p with
  | nil => exact h
  | cons k ks ih => exact ih (Path.request_roomy h k)

/-! ### The end of an event -/

/-- At the end of an event the path has grown by the event's requests and shows the responses returned. -/
theorem Ev.finish_path (e : Ev) : ∃ more w, e.finish.path =
    { e.st.path with queue := e.st.path.queue ++ more, waiting := w, returned := e.returned } ∧
      WaitingGrew e.st.path.waiting w := by
  obtain ⟨m, w, h, g⟩ := Path.requestAll_grows (oncePerWord (rankRequests [] e.asked)) e.st.path
  exact ⟨m, w, by simp [Ev.finish, h], g⟩

/-- What an event asks for is asked for at its end, where nothing else the event asks for takes it over. -/
theorem Ev.finish_asks_of {e : Ev} {k : OwnTxn} (h : k ∈ e.asked) (hs : ∀ j ∈ e.asked, j.spares k) :
    e.finish.path.asks k = true := by
  have hm : ∀ j, j ∈ oncePerWord (rankRequests [] e.asked) ↔ j ∈ e.asked := by
    intro j; rw [mem_oncePerWord, mem_rankRequests]; simp
  have := Path.requestAll_asks (oncePerWord (rankRequests [] e.asked)) e.st.path k ((hm k).2 h)
    fun j hj => hs j ((hm j).1 hj)
  exact this

/-- What an event asks for is asked for at its end, OVR_CONSUMER and the completion write apart. -/
theorem Ev.finish_asks {e : Ev} {k : OwnTxn} (h : k ∈ e.asked) (h1 : ∀ v, k ≠ .ovrConsumer v)
    (h2 : ∀ w, k ≠ .tallyCompletion w) : e.finish.path.asks k = true :=
  Ev.finish_asks_of h fun _ _ => OwnTxn.spares_of h1 h2

/-- An event that asks for nothing and returns nothing leaves the path as its last change left it. -/
theorem Ev.finish_of_quiet {e : Ev} (h : e.asked = []) :
    e.finish = { e.st with path := { e.st.path with returned := e.returned } } := by
  simp [Ev.finish, h, rankRequests, oncePerWord, Path.requestAll]

/-- An event that leaves the path alone but for its requests. -/
theorem Ev.finish_grew {s : State} {e : Ev} (hp : e.st.path = s.path) (hr : e.returned = []) :
    s.path.Grew e.finish.path := by
  obtain ⟨m, w, h, g⟩ := e.finish_path
  rw [hp] at g
  exact ⟨m, by rw [h]; exact g, by rw [h, hp, hr]⟩

theorem Ev.finish_roomy {e : Ev} (h : e.st.path.roomy) : e.finish.path.roomy :=
  Path.requestAll_roomy (oncePerWord (rankRequests [] e.asked)) h

theorem Ev.finishPath_eq (e : Ev) : e.finishPath =
    { e.finish with path := { e.finish.path with flight := presentFrom e.finish [] e.finish.path.flight } } := rfl

theorem Ev.finishPath_asks {e : Ev} {k : OwnTxn} (h : k ∈ e.asked) (h1 : ∀ v, k ≠ .ovrConsumer v)
    (h2 : ∀ w, k ≠ .tallyCompletion w) : e.finishPath.path.asks k = true := by
  have := Ev.finish_asks h h1 h2
  exact this

/-! ### Presentation (R166, R175) -/

theorem presented_cases (s : State) (t : Txn) : presented s t = .ready ∨ ∃ n, presented s t = .held n := by
  unfold presented
  split
  · exact Or.inl rfl
  · exact Or.inr ⟨_, rfl⟩

theorem UpTxn.MayPresent.refl (u : UpTxn) : u.MayPresent u := Or.inl rfl

/-- Presentation changes nothing but transactions BEHIND. -/
theorem presentFrom_forall (s : State) (l : List UpTxn) (blocked : List (Fin 16)) :
    List.Forall₂ UpTxn.MayPresent l (presentFrom s blocked l) := by
  induction l generalizing blocked with
  | nil => exact .nil
  | cons u l ih =>
    rw [presentFrom.eq_def]
    dsimp only
    split
    · rename_i hb
      split
      · exact .cons (.refl u) (ih _)
      · refine .cons (Or.inr ⟨hb, rfl, ?_⟩) (ih _)
        exact presented_cases s u.txn
    all_goals exact .cons (.refl u) (ih _)

theorem presentFrom_length (s : State) (l : List UpTxn) (blocked : List (Fin 16)) :
    (presentFrom s blocked l).length = l.length := (presentFrom_forall s l blocked).length_eq.symm

/-- A transaction that has its response keeps it through a presentation. -/
theorem presentFrom_answered {s : State} {l : List UpTxn} {blocked : List (Fin 16)} {u : UpTxn} {r : Settled}
    (hu : u ∈ l) (hr : u.state = .answered r) : u ∈ presentFrom s blocked l := by
  induction l generalizing blocked with
  | nil => simp at hu
  | cons v l ih =>
    rw [presentFrom.eq_def]
    dsimp only
    rcases List.mem_cons.1 hu with rfl | hu
    · rw [hr]; simp
    · split
      · split <;> exact List.mem_cons_of_mem _ (ih hu)
      all_goals exact List.mem_cons_of_mem _ (ih hu)

/-! ### Returning responses (R166, R189) -/

/-- A transaction with its response is returned or kept as it is. -/
theorem returnFrom_answered {l : List UpTxn} {blocked : List (Fin 16)} {u : UpTxn} {r : Settled}
    (hu : u ∈ l) (hr : u.state = .answered r) :
    { source := u.txn.source, settled := r } ∈ (returnFrom blocked l).2 ∨ u ∈ (returnFrom blocked l).1 := by
  induction l generalizing blocked with
  | nil => simp at hu
  | cons v l ih =>
    rw [returnFrom.eq_def]
    dsimp only
    rcases List.mem_cons.1 hu with rfl | hu
    · rw [hr]; dsimp only; split <;> simp
    · split
      · split
        · rcases ih (blocked := blocked) hu with h | h
          · exact Or.inl h
          · exact Or.inr (List.mem_cons_of_mem _ h)
        · rcases ih (blocked := blocked) hu with h | h
          · exact Or.inl (List.mem_cons_of_mem _ h)
          · exact Or.inr h
      all_goals
        rcases ih (blocked := v.txn.source :: blocked) hu with h | h
        · exact Or.inl h
        · exact Or.inr (List.mem_cons_of_mem _ h)

/-- R166: the responses due are returned and every other transaction is kept; a blocked source is given nothing. -/
theorem returnFrom_due_aux (l : List UpTxn) (blocked : List (Fin 16)) (i : Fin 16) :
    if i ∈ blocked then
      ofSource i (returnFrom blocked l).1 = ofSource i l ∧ ((returnFrom blocked l).2.filter fun x => x.source == i) = []
    else
      ofSource i (returnFrom blocked l).1 = (ofSource i l).dropWhile (fun u => u.settled?.isSome) ∧
      ((returnFrom blocked l).2.filter fun x => x.source == i).map (·.settled) = responsesDue l i := by
  induction l generalizing blocked with
  | nil => split <;> simp [returnFrom, ofSource, responsesDue]
  | cons v l ih =>
    rw [returnFrom.eq_def]
    dsimp only
    have key : ∀ (_ : v.settled? = none),
        let r := returnFrom (v.txn.source :: blocked) l
        if i ∈ blocked then
          ofSource i (v :: r.1) = ofSource i (v :: l) ∧ (r.2.filter fun x => x.source == i) = []
        else
          ofSource i (v :: r.1) = (ofSource i (v :: l)).dropWhile (fun u => u.settled?.isSome) ∧
          (r.2.filter fun x => x.source == i).map (·.settled) = responsesDue (v :: l) i := by
      intro hv
      have h := ih (v.txn.source :: blocked)
      by_cases hi : i ∈ blocked
      · simp only [List.mem_cons, hi, or_true, if_true] at h ⊢
        refine ⟨?_, h.2⟩
        simp only [ofSource, List.filter_cons] at h ⊢
        split <;> simp [h.1]
      · by_cases hs : v.txn.source = i
        · subst hs
          simp only [List.mem_cons, true_or, if_true, hi, if_false, ofSource, responsesDue, List.filter_cons, beq_self_eq_true]
            at h ⊢
          simp [hv, h.1, h.2]
        · have hs' : ¬ i = v.txn.source := fun h => hs h.symm
          simp only [List.mem_cons, hi, hs', or_self, if_false, ofSource, responsesDue, List.filter_cons] at h ⊢
          simp [hs, h.1, h.2]
    cases hr : v.state with
    | answered r =>
      have hv : v.settled? = some r := by simp [UpTxn.settled?, hr]
      have h := ih blocked
      dsimp only
      by_cases hb : v.txn.source ∈ blocked
      · rw [if_pos hb]
        dsimp only
        by_cases hi : i ∈ blocked
        · simp only [hi, if_true, ofSource, List.filter_cons] at h ⊢
          refine ⟨?_, h.2⟩
          split <;> simp [h.1]
        · have hs : ¬ v.txn.source = i := fun hc => hi (hc ▸ hb)
          simp only [hi, if_false, ofSource, responsesDue, List.filter_cons] at h ⊢
          simp [hs, h.1, h.2]
      · rw [if_neg hb]
        dsimp only
        by_cases hi : i ∈ blocked
        · have hs : ¬ v.txn.source = i := fun hc => hb (hc ▸ hi)
          rw [if_pos hi] at h ⊢
          simp only [ofSource, List.filter_cons] at h ⊢
          simp only [beq_eq_false_iff_ne.2 hs, Bool.false_eq_true, if_false, h.1, h.2, and_self]
        · by_cases hs : v.txn.source = i
          · simp only [hi, if_false, ofSource, responsesDue, List.filter_cons] at h ⊢
            simp [hs, hv, h.1, h.2]
          · simp only [hi, if_false, ofSource, responsesDue, List.filter_cons] at h ⊢
            simp [hs, h.1, h.2]
    | behind => exact key (by simp [UpTxn.settled?, hr])
    | held n => exact key (by simp [UpTxn.settled?, hr])
    | ready => exact key (by simp [UpTxn.settled?, hr])
    | inMemory g => exact key (by simp [UpTxn.settled?, hr])

theorem returnFrom_sublist (l : List UpTxn) (blocked : List (Fin 16)) : (returnFrom blocked l).1.Sublist l := by
  induction l generalizing blocked with
  | nil => exact List.Sublist.refl _
  | cons v l ih =>
    rw [returnFrom.eq_def]
    dsimp only
    split
    · split
      · exact (ih _).cons_cons _
      · exact (ih _).cons _
    all_goals exact (ih _).cons_cons _

/-- R166: the return of responses, in its own words. -/
theorem returnFrom_due (l : List UpTxn) : ReturnsDue l (returnFrom [] l).1 (returnFrom [] l).2 :=
  ⟨returnFrom_sublist l [], fun i => by simpa using returnFrom_due_aux l [] i⟩

/-- Every response returned was that of a transaction in flight. -/
theorem returnFrom_source {l : List UpTxn} {blocked : List (Fin 16)} :
    ∀ x ∈ (returnFrom blocked l).2, ∃ u ∈ l, u.txn.source = x.source ∧ u.state = .answered x.settled := by
  induction l generalizing blocked with
  | nil => simp [returnFrom]
  | cons v l ih =>
    intro x hx
    rw [returnFrom.eq_def] at hx
    dsimp only at hx
    have key : ∀ b, x ∈ (returnFrom b l).2 → ∃ u ∈ v :: l, u.txn.source = x.source ∧ u.state = .answered x.settled := by
      intro b hb
      obtain ⟨u, hu, h⟩ := ih x hb
      exact ⟨u, List.mem_cons_of_mem _ hu, h⟩
    split at hx
    · rename_i r hr
      split at hx
      · exact key _ hx
      · rcases List.mem_cons.1 hx with rfl | hx
        · exact ⟨v, by simp, rfl, hr⟩
        · exact key _ hx
    all_goals exact key _ hx

theorem mem_changeFirst {p : UpTxn → Bool} {f : UpTxn → UpTxn} {u : UpTxn} :
    ∀ {l : List UpTxn}, l.find? p = some u → f u ∈ changeFirst p f l
  | [], h => by simp at h
  | v :: l, h => by
    simp only [List.find?_cons] at h
    simp only [changeFirst]
    split at h
    · rename_i hv
      simp only [Option.some.injEq] at h
      subst h
      simp [hv]
    · rename_i hv
      simp [hv, mem_changeFirst (l := l) h]

theorem changeFirst_length (p : UpTxn → Bool) (f : UpTxn → UpTxn) (l : List UpTxn) :
    (changeFirst p f l).length = l.length := by
  induction l with
  | nil => rfl
  | cons u l ih => simp only [changeFirst]; split <;> simp [ih]

theorem SourceCtx.countResponse_keeps (c : SourceCtx) (r : Settled) :
    c.countResponse r = { c with retries := (c.countResponse r).retries } := by
  unfold SourceCtx.countResponse
  split
  · rfl
  · split
    · rfl
    · split <;> rfl
    · rfl

theorem Ev.changeSource_ctx (e : Ev) (i : Fin 16) (f : SourceCtx → SourceCtx) (j : Fin 16) :
    (e.changeSource i f).st.src.ctx[j] = if j = i then f e.st.src.ctx[i] else e.st.src.ctx[j] := by
  have : (e.changeSource i f).st.src.ctx = e.st.src.ctx.set i (f e.st.src.ctx[i]) := by
    unfold Ev.changeSource; dsimp only; split <;> rfl
  simp only [this]
  by_cases h : j = i
  · subst h; simp
  · have hv : i.val ≠ j.val := fun hc => h (Fin.ext hc.symm)
    rw [if_neg h]
    exact Vector.getElem_set_ne i.2 j.2 hv

theorem Ev.changeSource_src (e : Ev) (i : Fin 16) (f : SourceCtx → SourceCtx) :
    (e.changeSource i f).st = { e.st with src := { e.st.src with ctx := e.st.src.ctx.set i (f e.st.src.ctx[i]) } } := by
  unfold Ev.changeSource; dsimp only; split <;> rfl

theorem Ev.changeSource_asked (e : Ev) (i : Fin 16) (f : SourceCtx → SourceCtx) :
    ∀ k ∈ e.asked, k ∈ (e.changeSource i f).asked := by
  intro k hk
  unfold Ev.changeSource; dsimp only; split <;> simp [hk]

theorem Ev.changeSource_returned (e : Ev) (i : Fin 16) (f : SourceCtx → SourceCtx) :
    (e.changeSource i f).returned = e.returned := by
  unfold Ev.changeSource; dsimp only; split <;> rfl

/-- Counting the responses returned changes retry counts alone, and only those of the sources answered. -/
theorem Ev.countAll_st (rs : List Returned) (e : Ev) :
    (e.countAll rs).st = { e.st with src := { e.st.src with ctx := (e.countAll rs).st.src.ctx } } ∧
    (∀ j : Fin 16, (e.countAll rs).st.src.ctx[j] =
      { e.st.src.ctx[j] with retries := ((e.countAll rs).st.src.ctx[j]).retries }) ∧
    (∀ j : Fin 16, (∀ x ∈ rs, x.source ≠ j) → (e.countAll rs).st.src.ctx[j] = e.st.src.ctx[j]) ∧
    (∀ k ∈ e.asked, k ∈ (e.countAll rs).asked) ∧ (e.countAll rs).returned = e.returned := by
  induction rs generalizing e with
  | nil => exact ⟨rfl, fun _ => rfl, fun _ _ => rfl, fun _ h => h, rfl⟩
  | cons r rs ih =>
    obtain ⟨h1, h2, h3, h4, h5⟩ := ih (e.changeSource r.source fun c => c.countResponse r.settled)
    refine ⟨?_, ?_, ?_, ?_, ?_⟩
    · rw [Ev.countAll, h1, Ev.changeSource_src]
    · intro j
      rw [Ev.countAll, h2 j, Ev.changeSource_ctx]
      split
      · rename_i hj; subst hj; rw [SourceCtx.countResponse_keeps]
      · rfl
    · intro j hj
      rw [Ev.countAll, h3 j fun x hx => hj x (List.mem_cons_of_mem _ hx), Ev.changeSource_ctx,
        if_neg fun h => hj r (by simp) h.symm]
    · intro k hk
      exact h4 k (Ev.changeSource_asked _ _ _ k hk)
    · rw [Ev.countAll, h5, Ev.changeSource_returned]

/-- R189, R190: the retry count a response leaves. -/
theorem SourceCtx.countResponse_eq (c : SourceCtx) (r : Settled) :
    c.countResponse r = { c with retries := r.retriesAfter c.retries } := by
  unfold SourceCtx.countResponse Settled.retriesAfter
  cases r.response <;> cases r.givenUp <;> cases r.counted <;> rfl

/-- R167: each source's count after the responses returned, in order. -/
theorem Ev.countAll_ctx (rs : List Returned) (e : Ev) (i : Fin 16) :
    (e.countAll rs).st.src.ctx[i] = { e.st.src.ctx[i] with
      retries := ((rs.filter fun x => x.source == i).map (·.settled)).foldl (fun n r => r.retriesAfter n)
        e.st.src.ctx[i].retries } := by
  induction rs generalizing e with
  | nil => rfl
  | cons r rs ih =>
    rw [Ev.countAll, ih, Ev.changeSource_ctx]
    by_cases h : i = r.source
    · subst h; simp [SourceCtx.countResponse_eq]
    · have h' : ¬ r.source = i := fun hc => h hc.symm
      simp [h, h']

/-- R167, R189: the return of responses counts what is due. -/
theorem Ev.returnResponses_counts (e : Ev) : e.st.src.CountedBy e.returnResponses.st.src e.st.path.flight := by
  have h1 := (Ev.countAll_st (returnFrom [] e.st.path.flight).2
    (e.modify fun s => { s with path := { s.path with flight := (returnFrom [] e.st.path.flight).1 } })).1
  refine ⟨congrArg State.src h1, fun i => ?_⟩
  have h2 := Ev.countAll_ctx (returnFrom [] e.st.path.flight).2
    (e.modify fun s => { s with path := { s.path with flight := (returnFrom [] e.st.path.flight).1 } }) i
  rw [((returnFrom_due e.st.path.flight).2 i).2] at h2
  exact h2

/-- R166: what the return of responses leaves: the flight without the transactions returned, and their sources' counts. -/
theorem Ev.returnResponses_st (e : Ev) :
    e.returnResponses.st = { e.st with
      path := { e.st.path with flight := (returnFrom [] e.st.path.flight).1 }
      src := { e.st.src with ctx := e.returnResponses.st.src.ctx } } ∧
    (∀ j : Fin 16, e.returnResponses.st.src.ctx[j] =
      { e.st.src.ctx[j] with retries := (e.returnResponses.st.src.ctx[j]).retries }) ∧
    (∀ j : Fin 16, (∀ u ∈ e.st.path.flight, u.txn.source = j → ∀ r, u.state ≠ .answered r) →
      e.returnResponses.st.src.ctx[j] = e.st.src.ctx[j]) ∧
    (∀ k ∈ e.asked, k ∈ e.returnResponses.asked) ∧
    e.returnResponses.returned = e.returned ++ (returnFrom [] e.st.path.flight).2 := by
  obtain ⟨h1, h2, h3, h4, _⟩ := Ev.countAll_st (returnFrom [] e.st.path.flight).2
    (e.modify fun s => { s with path := { s.path with flight := (returnFrom [] e.st.path.flight).1 } })
  refine ⟨h1, h2, fun j hj => h3 j fun x hx hs => ?_, h4, rfl⟩
  obtain ⟨u, hu, hs', hr⟩ := returnFrom_source x hx
  exact hj u hu (hs'.trans hs) _ hr

/-! ### What a grant leaves of the path (R176) -/

theorem Ev.issue_finishPath {s : State} {e : Ev} {t : Txn} {ls : List Lane} {g b r : Bool}
    (hp : e.st.path = s.path) (hr : e.returned = []) :
    s.path.Issued (e.issue t ls g b r).finishPath.path (downAs t ls b r) g := by
  obtain ⟨m, w, h, hw⟩ := (e.issue t ls g b r).finish_path
  have hst : (e.issue t ls g b r).st.path =
      { e.st.path with
        flight := changeFirst UpTxn.isReady (fun u => { u with state := .inMemory g }) e.st.path.flight
        down := e.st.path.down ++ [downAs t ls b r], lastGranted := .forwarded } := rfl
  rw [hst, hp] at h hw
  rw [Ev.finishPath_eq]
  refine ⟨?_, ?_, ?_, ?_, ?_, ⟨m, ?_⟩, ?_, ?_⟩
  all_goals dsimp only; rw [h]
  · exact hr
  · exact hw
  · exact presentFrom_forall _ _ _

theorem UpTxn.isReady_iff (u : UpTxn) : u.isReady = true ↔ u.state = .ready := by
  simp [UpTxn.isReady]

/-- The end of an event of the memory path that returned the responses due in its flight. -/
theorem Ev.returnResponses_finishPath {s : State} {e : Ev} {f : List UpTxn}
    (hp : e.st.path = { s.path with flight := f }) (hr : e.returned = []) :
    s.path.Returns e.returnResponses.finishPath.path f := by
  obtain ⟨m, w, h, hw⟩ := e.returnResponses.finish_path
  obtain ⟨h1, _, _, _, h5⟩ := Ev.returnResponses_st e
  have hpath : e.returnResponses.st.path = { s.path with flight := (returnFrom [] f).1 } := by
    have := congrArg State.path h1
    rw [this]
    simp only [hp]
  rw [hr, hp] at h5
  rw [hpath] at h hw
  rw [Ev.finishPath_eq]
  refine ⟨?_, ?_, ?_, ?_, ⟨m, ?_⟩, ?_, (returnFrom [] f).1, ?_, ?_⟩
  all_goals dsimp only; rw [h]
  · exact hw
  · simpa [h5] using returnFrom_due f
  · exact presentFrom_forall _ _ _

/-- R189: what a settled grant counts. -/
theorem Ev.settle_counts {s : State} {e : Ev} (r : Settled) (hp : e.st.path = s.path) :
    e.st.src.CountedBy (e.settle r).finishPath.src (s.path.settledFlight r) := by
  have h := Ev.returnResponses_counts (e.modify fun s =>
    { s with path := { s.path with
      flight := changeFirst UpTxn.isReady (fun u => { u with state := .answered r }) s.path.flight } })
  rw [← hp]
  exact h

theorem Ev.settle_finishPath {s : State} {e : Ev} {t : Txn} {r : Settled} (ht : s.oldestReady = some t)
    (hp : e.st.path = s.path) (hr : e.returned = []) : s.path.SettledBy (e.settle r).finishPath.path t r := by
  refine ⟨Ev.returnResponses_finishPath (by simp [hp, Path.settledFlight]) hr, ?_⟩
  obtain ⟨u, hu, rfl⟩ : ∃ u, s.path.flight.find? UpTxn.isReady = some u ∧ u.txn = t := by
    simpa [State.oldestReady] using ht
  have hm := mem_changeFirst (f := fun u => { u with state := .answered r }) hu
  obtain ⟨m, w, h, hw⟩ := (e.settle r).finish_path
  obtain ⟨h1, _, _, _, h5⟩ := Ev.returnResponses_st (e.modify fun s =>
    { s with path := { s.path with
      flight := changeFirst UpTxn.isReady (fun u => { u with state := .answered r }) s.path.flight } })
  have hpath : (e.settle r).st.path = { s.path with flight := (returnFrom []
      (changeFirst UpTxn.isReady (fun u => { u with state := .answered r }) s.path.flight)).1 } := by
    have := congrArg State.path h1
    rw [← hp]
    exact this
  rw [hpath] at h
  rw [Ev.finishPath_eq]
  dsimp only
  rw [h]
  have hm' := returnFrom_answered (blocked := []) hm rfl
  rcases hm' with hm' | hm'
  · left
    show _ ∈ (e.settle r).returned
    unfold Ev.settle
    rw [h5]
    simp only [Ev.modify_st, Ev.modify_returned, hp, List.mem_append]
    exact Or.inr hm'
  · right
    exact ⟨_, presentFrom_answered hm' rfl, rfl, rfl⟩

end Sys2Proof.Machine
end

