-- ==== Sys2Proof/Laws/Grows.lean ====
section
/-! SUPPORT. Within an event nothing asked for is taken back, no notice is cleared but by a NOTICE word, and only the memory
path returns responses: one lemma for each operation. -/

namespace Sys2Proof.Laws

open Sys2Proof Sys2Proof.Machine

/-- Event `e'` has asked for all that `e` had, has every notice `e` had, and has returned no further response. -/
structure Grows (e e' : Ev) : Prop where
  asked : ∀ k ∈ e.asked, k ∈ e'.asked
  word : ∀ i, e.st.note.word.getLsbD i = true → e'.st.note.word.getLsbD i = true
  returned : e'.returned = e.returned

theorem Grows.refl (e : Ev) : Grows e e := ⟨fun _ h => h, fun _ h => h, rfl⟩

theorem Grows.trans {e f g : Ev} (h : Grows e f) (h' : Grows f g) : Grows e g :=
  ⟨fun k hk => h'.asked k (h.asked k hk), fun i hi => h'.word i (h.word i hi), h'.returned.trans h.returned⟩

/-- A notice had is still had. -/
theorem Grows.has {e f : Ev} (h : Grows e f) {n : Notice} (hn : e.st.note.has n = true) : f.st.note.has n = true :=
  h.word _ hn

theorem grows_modify (e : Ev) (f : State → State) (h : (f e.st).note = e.st.note) : Grows e (e.modify f) :=
  ⟨fun _ hk => hk, fun i hi => by simpa [h] using hi, rfl⟩

theorem grows_ask (e : Ev) (k : OwnTxn) : Grows e (e.ask k) :=
  ⟨fun _ hk => by simp [hk], fun _ h => h, rfl⟩

theorem grows_raise (e : Ev) (n : Notice) : Grows e (e.raise n) :=
  ⟨fun _ hk => by simp [hk], fun i h => by simp [h], rfl⟩

theorem raise_has (e : Ev) (n : Notice) : (e.raise n).st.note.has n = true := by
  simp only [NoticeUnit.has, Ev.raise_word, BitVec.getLsbD_or, Bool.or_eq_true]
  right
  cases n <;> decide

theorem raise_asks (e : Ev) (n : Notice) : OwnTxn.notice ∈ (e.raise n).asked := by simp

theorem grows_changeBoard (e : Ev) (i : Fin 32) (f : Board → Board) : Grows e (e.changeBoard i f) :=
  grows_modify _ _ rfl

theorem grows_changeDec (e : Ev) (f : DecisionWriter → DecisionWriter) : Grows e (e.changeDec f) := grows_modify _ _ rfl

theorem grows_changeOvr (e : Ev) (f : OverrideUnit → OverrideUnit) : Grows e (e.changeOvr f) := grows_modify _ _ rfl

theorem grows_changeHead (e : Ev) (h : Fin 6) (f : HeadCtx → HeadCtx) : Grows e (e.changeHead h f) := by
  unfold Ev.changeHead; dsimp only; split
  · exact grows_modify _ _ rfl
  · exact (grows_modify e _ rfl).trans (grows_ask _ _)

theorem grows_changeSource (e : Ev) (i : Fin 16) (f : SourceCtx → SourceCtx) : Grows e (e.changeSource i f) := by
  unfold Ev.changeSource; dsimp only; split
  · exact grows_modify _ _ rfl
  · exact (grows_modify e _ rfl).trans (grows_ask _ _)

theorem grows_changeTally (e : Ev) (f : Tally → Tally) : Grows e (e.changeTally f) := by
  unfold Ev.changeTally; dsimp only; split
  · exact grows_modify _ _ rfl
  · exact (grows_modify e _ rfl).trans (grows_ask _ _)

theorem grows_foldl {α : Type} (f : Ev → α → Ev) (hf : ∀ e a, Grows e (f e a)) (l : List α) (e : Ev) :
    Grows e (l.foldl f e) := by
  induction l generalizing e with
  | nil => exact Grows.refl _
  | cons a l ih => exact (hf e a).trans (ih _)

/-! ### The head monitor -/

theorem grows_parkTest (e : Ev) (h : Fin 6) : Grows e (e.parkTest h) := by
  unfold Ev.parkTest; split
  · exact grows_changeHead _ _ _
  · exact Grows.refl _

theorem grows_parkTestAll (e : Ev) : Grows e e.parkTestAll := grows_foldl _ (fun e h => grows_parkTest e h) _ _

theorem grows_recordBadCounts (e : Ev) (b : Board) : Grows e (e.recordBadCounts b) := by
  refine grows_foldl _ (fun e h => ?_) _ _
  split
  · exact grows_changeHead _ _ _
  · exact Grows.refl _

theorem grows_admitHeads (e : Ev) : Grows e e.admitHeads := by
  refine grows_foldl _ (fun e h => ?_) _ _
  split
  · exact grows_changeHead _ _ _
  · exact Grows.refl _

theorem grows_answerCommand (e : Ev) (h : Fin 6) (r : CommandResult) : Grows e (e.answerCommand h r) :=
  (grows_changeHead e h fun c => { c with last := r }).trans (grows_ask _ _)

theorem grows_takeAdmit (e : Ev) (h : Fin 6) : Grows e (e.takeAdmit h) := by
  unfold Ev.takeAdmit; dsimp only; split
  · exact (grows_changeHead _ _ _).trans (grows_answerCommand _ _ _)
  · split
    · exact ((grows_changeHead _ _ _).trans (grows_answerCommand _ _ _)).trans (grows_raise _ _)
    · exact grows_answerCommand _ _ _
  all_goals exact grows_answerCommand _ _ _

theorem grows_takeRelease (e : Ev) (h : Fin 6) : Grows e (e.takeRelease h) := by
  unfold Ev.takeRelease; dsimp only; split
  · exact (((grows_changeHead _ _ _).trans (grows_answerCommand _ _ _)).trans (grows_raise _ _)).trans (grows_parkTest _ _)
  · split
    · exact (grows_changeHead _ _ _).trans (grows_answerCommand _ _ _)
    · exact grows_answerCommand _ _ _
  all_goals exact grows_answerCommand _ _ _

theorem grows_takeHeadCommand (e : Ev) (h : Fin 6) (w : Word32) : Grows e (e.takeHeadCommand h w) := by
  unfold Ev.takeHeadCommand; split
  · exact grows_takeAdmit _ _
  · split
    · exact grows_takeRelease _ _
    · split
      · exact Grows.refl _
      · exact grows_answerCommand _ _ _

theorem grows_presentPin (e : Ev) (h : Fin 6) (v : Bool) : Grows e (e.presentPin h v) := grows_modify _ _ rfl

theorem grows_readyPin (e : Ev) (h : Fin 6) (v : Bool) : Grows e (e.readyPin h v) := grows_modify _ _ rfl

/-! ### The solver and the trim output unit -/

theorem grows_startSolve (e : Ev) : Grows e (e.modify State.startSolve) :=
  grows_modify _ _ (keeps_startSolve e.st).note

theorem grows_joinQueue (e : Ev) (i : Fin 32) : Grows e (e.joinQueue i) :=
  ((grows_changeBoard e i fun b => { b with state := .queued }).trans (grows_modify _ _ rfl)).trans (grows_startSolve _)

theorem grows_leaveSolver (e : Ev) (n : Word16) : Grows e (e.leaveSolver n) :=
  (grows_modify e _ rfl).trans (grows_startSolve _)

theorem grows_fire (e : Ev) (a : ArmedFire) : Grows e (e.fire a) := by
  have h1 : Grows e (e.modify fun s => { s with trim := s.trim.drive a.saws }) := grows_modify _ _ rfl
  unfold Ev.fire; dsimp only; split
  · split
    · exact h1.trans (grows_changeBoard _ _ _)
    · exact h1
  · exact h1

theorem grows_lateFire (e : Ev) : Grows e e.lateFire := by
  unfold Ev.lateFire; split
  · exact (grows_fire _ _).trans (grows_raise _ _)
  · exact Grows.refl _

theorem grows_armBoard (e : Ev) : Grows e e.armBoard := by
  unfold Ev.armBoard; split
  · exact Grows.refl _
  · dsimp only; split
    · split
      · exact grows_fire _ _
      · exact grows_modify _ _ rfl
    · exact Grows.refl _

/-! ### The decision writer -/

theorem grows_placeRecord (e : Ev) : Grows e e.placeRecord := by
  unfold Ev.placeRecord; split
  · exact Grows.refl _
  · split
    · exact (grows_changeDec _ _).trans (grows_ask _ _)
    · exact Grows.refl _

theorem grows_handRecord (e : Ev) (r : DecRecord) : Grows e (e.handRecord r) := by
  unfold Ev.handRecord; split
  · exact (grows_changeDec _ _).trans (grows_placeRecord _)
  · exact grows_raise _ _

theorem grows_recordAnswered (e : Ev) : Grows e e.recordAnswered :=
  ((grows_ask e _).trans (grows_changeDec _ _)).trans (grows_placeRecord _)

theorem grows_producerAnswered (e : Ev) (w : Bool) : Grows e (e.producerAnswered w) :=
  (grows_changeDec e _).trans (grows_placeRecord _)

theorem grows_takeConsumer (e : Ev) (w : Word32) : Grows e (e.takeConsumer w) := by
  unfold Ev.takeConsumer; dsimp only; split
  · exact (grows_changeDec _ _).trans (grows_placeRecord _)
  · exact Grows.refl _

/-! ### The tally unit -/

theorem grows_strand (e : Ev) : Grows e e.strand := (grows_changeTally _ _).trans (grows_raise _ _)

theorem grows_holdBoard (e : Ev) (o : TallyOffer) : Grows e (e.holdBoard o) := by
  unfold Ev.holdBoard; split
  · exact grows_changeTally _ _
  · exact grows_strand _

theorem grows_overflow (e : Ev) (k : Bank) (o : TallyOffer) : Grows e (e.overflow k o) := by
  have h1 : Grows e ((e.changeTally fun t => t.setBank k { t.bank k with state := .full }).raise .tallyFull) :=
    (grows_changeTally _ _).trans (grows_raise _ _)
  unfold Ev.overflow; dsimp only; split
  · split
    · exact h1.trans ((grows_changeTally _ _).trans (grows_holdBoard _ _))
    · exact h1.trans ((grows_changeTally _ _).trans (grows_changeTally _ _))
  · exact h1.trans (grows_strand _)

theorem grows_offer (e : Ev) (o : TallyOffer) : Grows e (e.offer o) := by
  unfold Ev.offer; split
  · exact grows_strand _
  · split
    · exact grows_holdBoard _ _
    · split
      · exact grows_changeTally _ _
      · exact grows_overflow _ _ _

theorem grows_offerAll (os : List TallyOffer) (e : Ev) : Grows e (e.offerAll os) := by
  induction os generalizing e with
  | nil => exact Grows.refl _
  | cons o os ih => exact (grows_offer e o).trans (ih _)

theorem grows_completeRequest (e : Ev) : Grows e e.completeRequest := by
  unfold Ev.completeRequest; split
  · exact Grows.refl _
  · split
    · exact Grows.refl _
    · split
      · exact ((grows_changeTally _ _).trans (grows_ask _ _)).trans (grows_raise _ _)
      · exact Grows.refl _

theorem grows_takeRequest (e : Ev) (w : Word32) : Grows e (e.takeRequest w) := by
  unfold Ev.takeRequest; split
  · exact grows_changeTally _ _
  · exact grows_changeTally _ _
  · exact grows_changeTally _ _
  · rename_i k _
    have h := grows_changeTally e fun t =>
      { t with request := some (requestTaken w none (some { bank := k, answered := 0, error := false })) }
    exact ⟨fun j hj => List.mem_append_left _ (h.asked j hj), h.word, h.returned⟩

theorem grows_endSnapshot (e : Ev) (q : TallyRequest) (p : Snapshot) : Grows e (e.endSnapshot q p) :=
  ((grows_changeTally _ _).trans (grows_offerAll _ _)).trans (grows_completeRequest _)

theorem grows_imageAnswered (e : Ev) (ok : Bool) : Grows e (e.imageAnswered ok) := by
  unfold Ev.imageAnswered; split
  · exact Grows.refl _
  · split
    · exact Grows.refl _
    · dsimp only; split
      · exact grows_endSnapshot _ _ _
      · exact grows_changeTally _ _

theorem grows_requestWriteAnswered (e : Ev) : Grows e e.requestWriteAnswered :=
  (grows_changeTally _ _).trans (grows_completeRequest _)

/-! ### The lug table -/

theorem grows_closeBoard (e : Ev) (i : Fin 32) (t : HeadSet) : Grows e (e.closeBoard i t) := by
  unfold Ev.closeBoard
  dsimp only
  refine Grows.trans ?_ (grows_parkTestAll _)
  split
  · exact ((grows_changeBoard _ _ _).trans (grows_recordBadCounts _ _)).trans (grows_changeBoard _ _ _)
  · split
    · exact ((grows_changeBoard _ _ _).trans (grows_recordBadCounts _ _)).trans (grows_joinQueue _ _)
    · exact (((grows_changeBoard _ _ _).trans (grows_recordBadCounts _ _)).trans (grows_changeBoard _ _ _)).trans
        (grows_raise _ _)

theorem grows_closeTest (e : Ev) (i : Fin 32) : Grows e (e.closeTest i) := by
  unfold Ev.closeTest; dsimp only; split
  · exact grows_closeBoard _ _ _
  · exact Grows.refl _

theorem grows_closeTimeout (e : Ev) : Grows e e.closeTimeout := by
  unfold Ev.closeTimeout; split
  · exact Grows.refl _
  · dsimp only; split
    · exact ((grows_changeBoard _ _ _).trans (grows_raise _ _)).trans (grows_closeBoard _ _ _)
    · exact Grows.refl _

theorem grows_handDecision (e : Ev) (i : Fin 32) : Grows e (e.handDecision i) := by
  unfold Ev.handDecision; dsimp only; split
  · exact grows_handRecord _ _
  · exact Grows.refl _

theorem grows_commitBoard (e : Ev) : Grows e e.commitBoard := by
  unfold Ev.commitBoard; split
  · exact Grows.refl _
  · dsimp only; split
    · exact (grows_changeBoard _ _ _).trans (grows_handDecision _ _)
    · exact (((grows_changeBoard _ _ _).trans (grows_leaveSolver _ _)).trans (grows_raise _ _)).trans
        (grows_handDecision _ _)
    · exact (((grows_changeBoard _ _ _).trans (grows_leaveSolver _ _)).trans (grows_raise _ _)).trans
        (grows_handDecision _ _)
    all_goals exact Grows.refl _

theorem grows_freeBoard (e : Ev) (i : Fin 32) : Grows e (e.freeBoard i) := ⟨fun _ h => h, fun _ h => h, rfl⟩

theorem grows_dropBoard (e : Ev) : Grows e e.dropBoard := by
  unfold Ev.dropBoard; split
  · exact Grows.refl _
  · dsimp only; split
    · exact (grows_offer _ _).trans (grows_freeBoard _ _)
    · exact grows_freeBoard _ _

theorem grows_switchPlan (e : Ev) : Grows e e.switchPlan := by
  unfold Ev.switchPlan; split
  · exact Grows.refl _
  · rename_i k _
    exact (grows_modify e (fun s => { s with plan := { s.plan with active := some k, pendingBank := none } }) rfl).trans
      (grows_raise _ _)

theorem grows_initSlot (e : Ev) : Grows e e.initSlot := by
  unfold Ev.initSlot; dsimp only; split
  · exact grows_changeBoard _ _ _
  · exact ((grows_changeBoard _ _ _).trans (grows_modify _ _ rfl)).trans (grows_closeTest _ _)

theorem grows_openBoard (e : Ev) : Grows e e.openBoard :=
  ((grows_switchPlan _).trans (grows_admitHeads _)).trans (grows_initSlot _)

theorem grows_checkSlip (e : Ev) : Grows e e.checkSlip := by
  unfold Ev.checkSlip; dsimp only
  refine Grows.trans (f := if e.st.lug.slipRef && decide (e.st.lug.encCount ≠ e.st.lug.countsPerLug) then
    e.raise .encoderSlip else e) ?_ (grows_modify _ _ rfl)
  split
  · exact grows_raise _ _
  · exact Grows.refl _

theorem grows_commitAndTimeout (e : Ev) : Grows e e.commitAndTimeout := by
  unfold Ev.commitAndTimeout; split
  · dsimp only; split
    · exact (grows_modify e _ rfl).trans ((grows_commitBoard _).trans (grows_closeTimeout _))
    · exact (grows_modify e _ rfl).trans ((grows_closeTimeout _).trans (grows_commitBoard _))
  · exact (grows_commitBoard _).trans (grows_closeTimeout _)

theorem grows_loseAt (h : Fin 6) (e : Ev) (i : Fin 32) : Grows e (Ev.loseAt h e i) := by
  unfold Ev.loseAt; split
  · exact (grows_changeBoard _ _ _).trans (grows_closeTest _ _)
  · exact Grows.refl _

theorem grows_loseHead (e : Ev) (h : Fin 6) : Grows e (e.loseHead h) := by
  unfold Ev.loseHead; dsimp only; split
  · exact (grows_foldl _ (fun e i => grows_loseAt h e i) _ _).trans (grows_raise _ _)
  · exact grows_foldl _ (fun e i => grows_loseAt h e i) _ _

theorem grows_releaseSlot (e : Ev) (i : Fin 32) : Grows e (e.releaseSlot i) := by
  unfold Ev.releaseSlot; split
  · exact Grows.refl _
  · exact grows_freeBoard _ _

/-! ### The scan assembler -/

theorem grows_countBadSlice (e : Ev) (h : Fin 6) (bs : List Byte) : Grows e (e.countBadSlice h bs) := by
  unfold Ev.countBadSlice; split
  · exact grows_changeBoard _ _ _
  · exact Grows.refl _

theorem grows_discardSlice (e : Ev) (f : Option (Fin 32)) : Grows e (e.discardSlice f) := by
  unfold Ev.discardSlice; dsimp only; split
  · exact (grows_raise _ _).trans (grows_changeBoard _ _ _)
  · exact grows_raise _ _

theorem grows_useSlice (e : Ev) (h : Fin 6) (i : Fin 32) (bs : List Byte) : Grows e (e.useSlice h i bs) := by
  unfold Ev.useSlice; split
  · exact grows_changeBoard _ _ _
  · exact (grows_changeBoard _ _ _).trans (grows_closeTest _ _)

theorem grows_foldHeld (e : Ev) (h : Fin 6) (sl : HeldSlice) : Grows e (e.foldHeld h sl) := by
  unfold Ev.foldHeld; split
  · exact (grows_raise _ _).trans (grows_countBadSlice _ _ _)
  · split
    · exact grows_discardSlice _ _
    · split
      · exact grows_useSlice _ _ _ _
      · exact grows_discardSlice _ _

theorem grows_intake (e : Ev) (h : Fin 6) (bs : List Byte) : Grows e (e.intake h bs) := grows_modify _ _ rfl

/-! ### The override unit -/

theorem grows_takeEntry (e : Ev) (d : Option (List Byte)) : Grows e (takeEntry e d).1 := by
  unfold takeEntry; split
  · exact Grows.refl _
  · dsimp only; split
    · exact Grows.refl _
    · split
      · exact Grows.refl _
      · exact ⟨fun _ h => h, fun _ h => h, rfl⟩

theorem grows_fetchEntry (e : Ev) : Grows e e.fetchEntry := by
  unfold Ev.fetchEntry; split
  · exact grows_ask _ _
  · exact Grows.refl _

theorem grows_entryTaken (e : Ev) (b : Batch) (st : EntryStatus) : Grows e (e.entryTaken b st) := by
  unfold Ev.entryTaken; dsimp only; split
  · exact (grows_changeOvr _ _).trans (grows_ask _ _)
  · exact ((grows_changeOvr _ _).trans (grows_ask _ _)).trans (grows_fetchEntry _)

theorem grows_endBatch (e : Ev) (w : Word16) : Grows e (e.endBatch w) :=
  ((grows_changeOvr e _).trans (grows_ask _ _)).trans (grows_raise _ _)

theorem grows_takeProducer (e : Ev) (w : Word32) : Grows e (e.takeProducer w) := by
  unfold Ev.takeProducer; dsimp only; split
  · exact grows_raise _ _
  · split
    · exact grows_endBatch _ _
    · exact grows_changeOvr _ _

theorem grows_statusAnswered (e : Ev) : Grows e e.statusAnswered := by
  unfold Ev.statusAnswered; dsimp only; split
  · split
    · exact (grows_changeOvr _ _).trans (grows_endBatch _ _)
    · exact grows_changeOvr _ _
  · exact grows_changeOvr _ _

/-! ### The plan store and the source table -/

theorem grows_copyPlan (e : Ev) (k : Bank) (off : Nat) (ls : List Lane) : Grows e (e.copyPlan k off ls) :=
  grows_modify _ _ rfl

theorem grows_takeSelect (e : Ev) (w : Word32) : Grows e (e.takeSelect w) := by
  unfold Ev.takeSelect; split
  · exact Grows.refl _
  · dsimp only; split
    · exact grows_modify _ _ rfl
    · exact (grows_modify e _ rfl).trans (grows_ask _ _)

theorem grows_trap (e : Ev) (i : Fin 16) (c : Cause) : Grows e (e.trap i c) :=
  ((grows_changeSource e _ _).trans (grows_ask _ _)).trans (grows_raise _ _)

theorem grows_exhaust (e : Ev) (i : Fin 16) : Grows e (e.exhaust i) := (grows_changeSource e _ _).trans (grows_ask _ _)

theorem grows_acceptWrite (e : Ev) (i : Fin 16) : Grows e (e.acceptWrite i) := grows_changeSource e _ _

theorem grows_takeTrapClear (e : Ev) (w : Word32) : Grows e (e.takeTrapClear w) := by
  refine grows_foldl _ (fun e h => ?_) _ _
  split
  · exact grows_changeSource _ _ _
  · exact Grows.refl _

/-! ### The memory path -/

theorem grows_issue (e : Ev) (t : Txn) (ls : List Lane) (g b r : Bool) : Grows e (e.issue t ls g b r) :=
  grows_modify _ _ rfl

theorem grows_requestRestart (e : Ev) : Grows e e.requestRestart := grows_modify _ _ rfl

/-- Every watched word but NOTICE adds to the event alone. -/
theorem grows_takeWord (e : Ev) (k : CtrlWord) (w : Word32) (hk : k ≠ .notice) : Grows e (e.takeWord k w) := by
  unfold Ev.takeWord; split
  · exact absurd rfl hk
  · exact ⟨fun _ h => h, fun _ h => h, rfl⟩
  · exact grows_takeSelect _ _
  · exact grows_takeRequest _ _
  · split
    · exact grows_requestRestart _
    · exact Grows.refl _
  · exact grows_takeProducer _ _
  · exact grows_takeConsumer _ _
  · exact grows_takeTrapClear _ _
  · exact grows_takeHeadCommand _ _ _
  all_goals exact Grows.refl _

theorem takeWord_asked (e : Ev) (k : CtrlWord) (w : Word32) :
    (∀ j ∈ e.asked, j ∈ (e.takeWord k w).asked) ∧ (e.takeWord k w).returned = e.returned := by
  by_cases h : k = .notice
  · subst h; exact ⟨fun _ hj => hj, rfl⟩
  · exact ⟨(grows_takeWord e k w h).asked, (grows_takeWord e k w h).returned⟩

theorem takeWords_asked (ws : List (CtrlWord × Word32)) (e : Ev) :
    (∀ j ∈ e.asked, j ∈ (e.takeWords ws).asked) ∧ (e.takeWords ws).returned = e.returned := by
  induction ws generalizing e with
  | nil => exact ⟨fun _ h => h, rfl⟩
  | cons x ws ih =>
    obtain ⟨h1, h2⟩ := takeWord_asked e x.1 x.2
    obtain ⟨h3, h4⟩ := ih (e.takeWord x.1 x.2)
    exact ⟨fun j hj => h3 j (h1 j hj), h4.trans h2⟩

theorem grows_popDown (e : Ev) (rest : List Down) (w : Wire) (ok : Bool) : Grows e (e.popDown rest w ok) :=
  grows_modify _ _ rfl

theorem grows_ownAnswered (e : Ev) (k : OwnTxn) (ok : Bool) (d : List Byte) : Grows e (e.ownAnswered k ok d) := by
  unfold Ev.ownAnswered; split
  · exact grows_changeOvr _ _
  · exact grows_statusAnswered _
  · exact grows_recordAnswered _
  · exact grows_producerAnswered _ _
  · exact grows_imageAnswered _ _
  all_goals exact Grows.refl _

theorem grows_releaseLine (e : Ev) (k : OwnTxn) (w : Wire) : Grows e (e.releaseLine k w) := by
  unfold Ev.releaseLine; split
  · exact grows_modify _ _ rfl
  · exact Grows.refl _

end Sys2Proof.Laws
end

