-- ==== Sys2Proof/Laws/Grants.lean ====
section
/-! SUPPORT. The grants of the forwarded side: the rows as conditions on one grant, the words a write carries through the
substitution of R171, and a forwarded write of the control block as the takes of its words. -/

namespace Sys2Proof.Laws

open Sys2Proof Sys2Proof.Machine

/-! ### The rows -/

/-- A row whose condition the granted transaction meets takes the grant. -/
theorem grantIf_taken {row : State → Txn → Bool} {s : State} {x : Txn} (h : s.forwardedTurn = some x)
    (hr : row s x = true) : grantIf row s = .next (grant s x) := by
  unfold grantIf; rw [h]; dsimp only; rw [if_pos hr]

/-- Whatever the row, the command takes the grant or changes nothing. -/
theorem grantIf_cases (row : State → Txn → Bool) (s : State) :
    (∃ x, s.forwardedTurn = some x ∧ row s x = true ∧ grantIf row s = .next (grant s x)) ∨
      grantIf row s = .next s := by
  unfold grantIf
  split
  · rename_i x hx
    split
    · exact Or.inl ⟨x, hx, by assumption, rfl⟩
    · exact Or.inr rfl
  · exact Or.inr rfl

theorem forwardedTurn_oldestReady {s : State} {x : Txn} (h : s.forwardedTurn = some x) : s.oldestReady = some x := by
  unfold State.forwardedTurn at h
  split at h
  · exact h
  · exact absurd h (by simp)

/-- What `grantsInto` says, part by part. -/
theorem grantsInto_iff (s : State) (x : Txn) (ap : Aperture) (off : Nat) :
    s.grantsInto x ap off = true ↔
      s.boot.condition = .running ∧ s.forwardedTurn = some x ∧ x.kind = .write ∧ s.decode x = some (ap, off) := by
  simp [State.grantsInto, State.running, and_assoc]

/-- A granted write into an aperture takes the course of R169. -/
theorem courseOf_write {s : State} {x : Txn} {ap : Aperture} {off : Nat} (h : s.grantsInto x ap off = true) :
    courseOf s x = decideWrite s x ap off := by
  obtain ⟨h1, _, h3, h4⟩ := (grantsInto_iff _ _ _ _).1 h
  simp [courseOf, h1, h3, h4]

theorem writeInto_of_grantsInto {s : State} {x : Txn} {ap : Aperture} {off : Nat} (h : s.grantsInto x ap off = true) :
    writeInto s x = some (ap, off) := by
  obtain ⟨h1, _, h3, h4⟩ := (grantsInto_iff _ _ _ _).1 h
  simp [writeInto, State.running, h1, h3, h4]

theorem forwardsCtrl_iff (s : State) (x : Txn) (off : Nat) :
    s.forwardsCtrl x off = true ↔ s.grantsInto x .ctrl off = true ∧ decideWrite s x .ctrl off = .forward .ctrl off := by
  simp [State.forwardsCtrl]

/-- The grant of a write into CTRL that is forwarded: its words are taken and it is issued (R169, R171, R191). -/
theorem grant_forwardsCtrl {s : State} {x : Txn} {off : Nat} (h : s.forwardsCtrl x off = true) :
    grant s x = (((Ev.start s).acceptWrite x.source).forwardCtrl x off).finishPath := by
  obtain ⟨h1, h2⟩ := (forwardsCtrl_iff _ _ _).1 h
  unfold grant
  rw [courseOf_write h1, h2]
  rfl

theorem forwardedWords_of_forwardsCtrl {s : State} {x : Txn} {off : Nat} (h : s.forwardsCtrl x off = true) :
    forwardedWords s x = ctrlWords off x := by
  obtain ⟨h1, h2⟩ := (forwardsCtrl_iff _ _ _).1 h
  simp [forwardedWords, writeInto_of_grantsInto h1, h2]

theorem mem_of_writesOnce {off : Nat} {x : Txn} {k : CtrlWord} {w : Word32} (h : writesOnce off x k w = true) :
    (k, w) ∈ ctrlWords off x := by
  have : (k, w) ∈ (ctrlWords off x).filter fun p => p.1 == k := by
    simp only [writesOnce, beq_iff_eq] at h
    rw [h]
    simp
  exact (List.mem_filter.1 this).1

theorem writesOnce_of_writesAlone {off : Nat} {x : Txn} {k : CtrlWord} {w : Word32} (h : writesAlone off x k w = true) :
    writesOnce off x k w = true := by
  simp only [writesAlone, beq_iff_eq] at h
  simp [writesOnce, h]

/-- A row for a word of the control block is met by a forwarded write of that word. -/
theorem writesWord_of_writesOnce {s : State} {x : Txn} {off : Nat} {k : CtrlWord} {w : Word32} {p : Word32 → Bool}
    (h : s.forwardsCtrl x off = true) (hk : writesOnce off x k w = true) (hp : p w = true) : writesWord s x k p = true := by
  unfold writesWord
  rw [forwardedWords_of_forwardsCtrl h, List.any_eq_true]
  exact ⟨(k, w), mem_of_writesOnce hk, by simp [hp]⟩

/-- A write of one word is that word's take, and the issue with the word substituted. -/
theorem forwardCtrl_of_writesAlone {off : Nat} {x : Txn} {k : CtrlWord} {w : Word32} (h : writesAlone off x k w = true)
    (e : Ev) : e.forwardCtrl x off =
      (e.takeWord k w).issue x (substituteLanes e.st.note.word off x.lanes) false
        (decide (k = .ovrProducer) && (e.takeWord k w).st.ovr.batch.isSome) (decide (k = .tallyRequest)) := by
  have h' : ctrlWords off x = [(k, w)] := by simpa [writesAlone] using h
  unfold Ev.forwardCtrl
  rw [h']
  have hv : ∀ j : CtrlWord, (valueOf j [(k, w)]).isSome = decide (k = j) := by
    intro j
    simp only [valueOf]
    split <;> simp [*]
  simp only [Ev.takeWords, hv]

/-! ### The words of a write (R170, R171) -/

theorem byteOfWord_ofNat (a b c d : Byte) :
    let w := BitVec.ofNat 32 (leNat [a, b, c, d])
    byteOfWord w 0 = a ∧ byteOfWord w 1 = b ∧ byteOfWord w 2 = c ∧ byteOfWord w 3 = d := by
  have ha := a.isLt
  have hb := b.isLt
  have hc := c.isLt
  have hd := d.isLt
  dsimp only
  unfold byteOfWord leNat leNat leNat leNat leNat
  refine ⟨?_, ?_, ?_, ?_⟩ <;>
    (apply BitVec.eq_of_toNat_eq; simp only [BitVec.toNat_ofNat]; omega)

theorem ofNat_byteOfWord (w : Word32) :
    BitVec.ofNat 32 (leNat [byteOfWord w 0, byteOfWord w 1, byteOfWord w 2, byteOfWord w 3]) = w := by
  have h := w.isLt
  unfold byteOfWord leNat leNat leNat leNat leNat
  apply BitVec.eq_of_toNat_eq
  simp only [BitVec.toNat_ofNat]
  omega

/-- The words the substituted lanes carry are the words written, each substituted. -/
theorem wordsOf_substituteLanes (n : NoticeSet) (off : Nat) (ls : List Lane) :
    wordsOf off (substituteLanes n off ls) = (wordsOf off ls).map fun p => (p.1, substituteWord n p.1 p.2) := by
  induction off, ls using wordsOf.induct with
  | case1 off a b c d rest h ih =>
    have h' := h
    simp only [Bool.and_eq_true] at h'
    obtain ⟨⟨⟨ha, hb⟩, hc⟩, hd⟩ := h'
    simp only [substituteLanes, wordsOf, ha, hb, hc, hd, Bool.and_self, if_true, List.map_cons, ih, ofNat_byteOfWord]
  | case2 off a b c d rest h ih =>
    rw [substituteLanes, if_neg h, wordsOf, if_neg h, wordsOf, if_neg h, ih]
  | case3 off lanes h =>
    rw [substituteLanes, wordsOf]
    · rfl
    · exact h
    · exact h

theorem substituteLanes_strobe (n : NoticeSet) (off : Nat) (ls : List Lane) :
    (substituteLanes n off ls).map (·.strobe) = ls.map (·.strobe) := by
  induction off, ls using wordsOf.induct with
  | case1 off a b c d rest h ih => simp only [substituteLanes, h, if_true, List.map_cons, ih]
  | case2 off a b c d rest h ih => rw [substituteLanes, if_neg h]; simp only [List.map_cons, ih]
  | case3 off lanes h => rw [substituteLanes]; exact h

/-- A write whose words are none of them replaced keeps its lanes. -/
theorem substituteLanes_eq_self (n : NoticeSet) (off : Nat) (ls : List Lane)
    (hw : ∀ p ∈ wordsOf off ls, substituteWord n p.1 p.2 = p.2) : substituteLanes n off ls = ls := by
  induction off, ls using wordsOf.induct with
  | case1 off a b c d rest h ih =>
    simp only [wordsOf, h, if_true, List.mem_cons, forall_eq_or_imp] at hw
    obtain ⟨h1, h2⟩ := hw
    obtain ⟨b0, b1, b2, b3⟩ := byteOfWord_ofNat a.data b.data c.data d.data
    simp only [substituteLanes, h, if_true, h1, b0, b1, b2, b3, ih h2]
  | case2 off a b c d rest h ih =>
    have hw' : ∀ p ∈ wordsOf (off + 4) rest, substituteWord n p.1 p.2 = p.2 := by
      intro p hp
      exact hw p (by rw [wordsOf, if_neg h]; exact hp)
    rw [substituteLanes, if_neg h, ih hw']
  | case3 off lanes h => rw [substituteLanes]; exact h

/-- The words of the control block that pass on their way as written. -/
def passes : CtrlWord → Bool
  | .notice | .lineRestart | .trapClear | .headCommand _ => false
  | .noticeEnable | .planSelect | .lineStatus | .tallyRequest | .tallyStatus | .ovrProducer | .ovrConsumer => true
  | .decProducer | .decConsumer | .headStatus | .sourceStatus | .unlisted => true

theorem substituteLanes_of_passes (n : NoticeSet) (off : Nat) (x : Txn) (h : ∀ p ∈ ctrlWords off x, passes p.1 = true) :
    substituteLanes n off x.lanes = x.lanes := by
  refine substituteLanes_eq_self n off x.lanes fun p hp => ?_
  have := h (ctrlWordAt p.1, p.2) (by unfold ctrlWords; exact List.mem_map.2 ⟨p, hp, rfl⟩)
  unfold substituteWord
  revert this
  cases ctrlWordAt p.1 <;> simp [passes]

/-! ### The source table -/

/-- R191: the take of an aperture write counts it, and asks for the source's status. -/
theorem acceptWrite_src (s : State) (i : Fin 16) :
    ((Ev.start s).acceptWrite i).st = { s with src := s.src.counted i } ∧
      OwnTxn.sourceStatus i ∈ ((Ev.start s).acceptWrite i).asked := by
  refine ⟨Ev.changeSource_src _ _ _, ?_⟩
  unfold Ev.acceptWrite Ev.changeSource
  dsimp only
  split
  · rename_i h
    exact absurd (congrArg SourceCtx.accepted h) (by simp)
  · simp

/-- The row of a word of the control block, where a forwarded write writes it once. -/
theorem grantIf_ctrl {s : State} {x : Txn} {off : Nat} {k : CtrlWord} {w : Word32} {p : Word32 → Bool}
    (h : s.forwardsCtrl x off = true) (hk : writesOnce off x k w = true) (hp : p w = true) :
    grantIf (fun s t => writesWord s t k p) s =
      .next (((Ev.start s).acceptWrite x.source).forwardCtrl x off).finishPath := by
  rw [← grant_forwardsCtrl h]
  exact grantIf_taken ((grantsInto_iff _ _ _ _).1 ((forwardsCtrl_iff _ _ _).1 h).1).2.1 (writesWord_of_writesOnce h hk hp)

theorem substituteLanes_of_writesAlone {off : Nat} {x : Txn} {k : CtrlWord} {w : Word32}
    (h : writesAlone off x k w = true) (hk : passes k = true) (n : NoticeSet) : substituteLanes n off x.lanes = x.lanes := by
  refine substituteLanes_of_passes n off x fun p hp => ?_
  have h' : ctrlWords off x = [(k, w)] := by simpa [writesAlone] using h
  rw [h', List.mem_singleton] at hp
  rw [hp]
  exact hk

theorem wordsOf_of_writesAlone {off : Nat} {x : Txn} {k : CtrlWord} {w : Word32} (h : writesAlone off x k w = true) :
    ∃ o, wordsOf off x.lanes = [(o, w)] ∧ ctrlWordAt o = k := by
  simp only [writesAlone, ctrlWords, beq_iff_eq, List.map_eq_singleton_iff, Prod.mk.injEq] at h
  obtain ⟨⟨o, v⟩, h1, h2, rfl⟩ := h
  exact ⟨o, h1, h2⟩

/-- Beyond the last word of Table 12-3 the control block has no listed word. -/
theorem ctrlWordAt_beyond {o : Nat} (h : 192 ≤ o) : ctrlWordAt o = .unlisted := by
  unfold ctrlWordAt
  iterate 12 rw [if_neg (by omega)]
  rw [dif_neg (by omega), if_neg (by omega), if_neg (by omega)]

theorem ctrlWordAt_notice {o : Nat} (h : ctrlWordAt o = .notice) : o = 0 := by
  have key : ∀ o < 192, ctrlWordAt o = .notice → o = 0 := by decide +kernel
  by_cases ho : o < 192
  · exact key o ho h
  · rw [ctrlWordAt_beyond (by omega)] at h; cases h

theorem ctrlWordAt_lineRestart {o : Nat} (h : ctrlWordAt o = .lineRestart) : o = 0x18 := by
  have key : ∀ o < 192, ctrlWordAt o = .lineRestart → o = 0x18 := by decide +kernel
  by_cases ho : o < 192
  · exact key o ho h
  · rw [ctrlWordAt_beyond (by omega)] at h; cases h

theorem ctrlWordAt_trapClear {o : Nat} (h : ctrlWordAt o = .trapClear) : o = 0x2C := by
  have key : ∀ o < 192, ctrlWordAt o = .trapClear → o = 0x2C := by decide +kernel
  by_cases ho : o < 192
  · exact key o ho h
  · rw [ctrlWordAt_beyond (by omega)] at h; cases h

/-! ### What a grant leaves -/

/-- A grant that issues leaves the path as `Issued` says, and every block as the event left it. -/
theorem issue_grant {s : State} {e : Ev} {x : Txn} {ls : List Lane} {g b r : Bool} (hp : e.st.path = s.path)
    (hr : e.returned = []) :
    s.path.Issued (e.issue x ls g b r).finishPath.path (downAs x ls b r) g ∧
      (e.issue x ls g b r).finishPath = { e.st with path := (e.issue x ls g b r).finishPath.path } :=
  ⟨Ev.issue_finishPath hp hr, rfl⟩

/-- A grant that settles leaves the path as `SettledBy` says, and every other block but the retry counts as the event left
it, with each count as the responses returned make it. -/
theorem settle_grant {s : State} {e : Ev} {x : Txn} {r : Settled} (ht : s.oldestReady = some x)
    (hp : e.st.path = s.path) (hr : e.returned = []) :
    s.path.SettledBy (e.settle r).finishPath.path x r ∧
      e.st.src.CountedBy (e.settle r).finishPath.src (s.path.settledFlight r) ∧
      (e.settle r).finishPath =
        { e.st with path := (e.settle r).finishPath.path, src := (e.settle r).finishPath.src } := by
  refine ⟨Ev.settle_finishPath ht hp hr, Ev.settle_counts r hp, ?_⟩
  have h := (keeps_settle e r).trans ((keeps_finishPath (e.settle r)).mono (cs := [.path, .src]) (by decide))
  generalize (e.settle r).finishPath = t at h ⊢
  have e1 := h.boot
  have e2 := h.head
  have e3 := h.asm
  have e4 := h.lug
  have e5 := h.solv
  have e6 := h.plan
  have e7 := h.ovr
  have e8 := h.trim
  have e9 := h.dec
  have e10 := h.tally
  have e11 := h.note
  have e12 := h.restart
  have e13 := h.pins
  have e14 := h.mem
  have e15 := h.freeCount
  have e16 := h.pending
  cases t
  simp_all

/-! ### The words of a write, one by one -/

/-- The blocks that the take of a word may change. -/
def wordTouches : CtrlWord → List Block
  | .notice | .noticeEnable => [.note]
  | .planSelect => [.plan]
  | .tallyRequest => [.tally]
  | .lineRestart => [.restart]
  | .ovrProducer => [.ovr, .note]
  | .decConsumer => [.dec]
  | .trapClear => [.src]
  | .headCommand _ => [.head, .note]
  | .lineStatus | .tallyStatus | .ovrConsumer | .decProducer | .headStatus | .sourceStatus | .unlisted => []

theorem keeps_takeWord_touches (e : Ev) (k : CtrlWord) (w : Word32) : Keeps (wordTouches k) e.st (e.takeWord k w).st := by
  unfold Ev.takeWord wordTouches
  cases k <;> dsimp only
  case notice => intro b hb; cases b <;> first | rfl | exact absurd (by decide) hb
  case noticeEnable => intro b hb; cases b <;> first | rfl | exact absurd (by decide) hb
  case planSelect => exact keeps_takeSelect _ _
  case tallyRequest => exact keeps_takeRequest _ _
  case lineRestart =>
    split
    · exact keeps_requestRestart _
    · exact Keeps.refl _ _
  case ovrProducer => exact keeps_takeProducer _ _
  case decConsumer => exact keeps_takeConsumer _ _
  case trapClear => exact keeps_takeTrapClear _ _
  case headCommand => exact keeps_takeHeadCommand _ _ _
  all_goals exact Keeps.refl _ _

/-- Words that touch none but the blocks listed keep all others. -/
theorem keeps_takeWords_touches {bs : List Block} (ws : List (CtrlWord × Word32))
    (h : ∀ p ∈ ws, ∀ b ∈ wordTouches p.1, b ∈ bs) (e : Ev) : Keeps bs e.st (e.takeWords ws).st := by
  induction ws generalizing e with
  | nil => exact Keeps.refl _ _
  | cons x ws ih =>
    exact ((keeps_takeWord_touches e x.1 x.2).mono (h x (by simp))).trans (ih (fun p hp => h p (by simp [hp])) _)

theorem takeWords_append (ws vs : List (CtrlWord × Word32)) (e : Ev) :
    e.takeWords (ws ++ vs) = (e.takeWords ws).takeWords vs := by
  induction ws generalizing e with
  | nil => rfl
  | cons x ws ih => exact ih _

/-- A write that writes word `k` once takes the words before it, then it, then the words after it. -/
theorem ctrlWords_split {off : Nat} {x : Txn} {k : CtrlWord} {w : Word32} (h : writesOnce off x k w = true) :
    ∃ l r, ctrlWords off x = l ++ (k, w) :: r ∧ (∀ p ∈ l, p.1 ≠ k) ∧ ∀ p ∈ r, p.1 ≠ k := by
  simp only [writesOnce, beq_iff_eq] at h
  generalize ctrlWords off x = ws at h ⊢
  induction ws with
  | nil => simp at h
  | cons p ws ih =>
    by_cases hp : p.1 = k
    · rw [List.filter_cons_of_pos (by simpa using hp)] at h
      obtain ⟨rfl, h2⟩ := List.cons.inj h
      refine ⟨[], ws, rfl, by simp, fun q hq hk => ?_⟩
      exact List.filter_eq_nil_iff.1 h2 q hq (by simpa using hk)
    · rw [List.filter_cons_of_neg (by simpa using hp)] at h
      obtain ⟨l, r, h1, h2, h3⟩ := ih h
      exact ⟨p :: l, r, by rw [h1]; rfl, by simpa [hp] using h2, h3⟩

end Sys2Proof.Laws
end

