-- ==== Sys2Proof/Laws/Lines.lean ====
section
/-! SUPPORT. The lug table's records through the operations: what a slot holds after a record is put in it, and that every
operation but the freeing and the opening of a slot keeps each record's lug, its bank, whether it is live, and the final
decision of a COMMITTED or TRIMMED board. -/

namespace Sys2Proof.Laws

open Sys2Proof Sys2Proof.Machine

/-! ### Reading a slot -/

theorem boards_set (v : Vector Board 32) (i j : Fin 32) (b : Board) : (v.set i b)[j] = if j = i then b else v[j] := by
  by_cases h : j = i
  · subst h; simp
  · rw [if_neg h]
    exact Vector.getElem_set_ne i.2 j.2 fun hc => h (Fin.ext hc.symm)

/-- The slot after a record has been put in another, or in it. -/
theorem setBoard_read (s : State) (i j : Fin 32) (b : Board) :
    (s.setBoard i b).lug.boards[j] = if j = i then b else s.lug.boards[j] := by
  rw [State.setBoard_boards]; exact boards_set _ _ _ _

theorem changeBoard_read (e : Ev) (i j : Fin 32) (f : Board → Board) :
    (e.changeBoard i f).st.lug.boards[j] = if j = i then f e.st.lug.boards[i] else e.st.lug.boards[j] :=
  setBoard_read _ _ _ _

/-! ### Lookups (R3, R6) -/

theorem lookup_eq_some {s : State} {n : Word16} {i : Fin 32} :
    s.lookup n = some i ↔ slotOf n = i ∧ s.lug.boards[i].state ≠ .free ∧ s.lug.boards[i].lug = n := by
  unfold State.lookup
  constructor
  · intro h
    split at h
    · rename_i hc
      injection h with h
      subst h
      exact ⟨rfl, hc.1, hc.2⟩
    · cases h
  · rintro ⟨rfl, h1, h2⟩
    rw [if_pos ⟨h1, h2⟩]

/-! ### Records that keep their seat -/

/-- Record `c` has the lug and the bank of `b`, is live where `b` is, and keeps the final decision of a frozen `b`. -/
structure Seated (b c : Board) : Prop where
  lug : c.lug = b.lug
  bank : c.bank = b.bank
  live : c.state = .free ↔ b.state = .free
  frozen : b.isFrozen = true → c.isFrozen = true ∧ c.final = b.final

theorem Seated.refl (b : Board) : Seated b b := ⟨rfl, rfl, Iff.rfl, fun h => ⟨h, rfl⟩⟩

theorem Seated.trans {b c d : Board} (h : Seated b c) (h' : Seated c d) : Seated b d :=
  ⟨h'.lug.trans h.lug, h'.bank.trans h.bank, h'.live.trans h.live, fun hf =>
    ⟨(h'.frozen (h.frozen hf).1).1, (h'.frozen (h.frozen hf).1).2.trans (h.frozen hf).2⟩⟩

/-- A record whose lug, bank, state and final decision are kept. -/
theorem Seated.of_same {b c : Board} (h1 : c.lug = b.lug) (h2 : c.bank = b.bank) (h3 : c.state = b.state)
    (h4 : c.final = b.final) : Seated b c :=
  ⟨h1, h2, by rw [h3], fun h => ⟨by simpa [Board.isFrozen, h3] using h, h4⟩⟩

/-- A live record whose decision is not frozen, put in another live state. -/
theorem Seated.of_open {b c : Board} (st : BoardState) (h1 : c.lug = b.lug) (h2 : c.bank = b.bank)
    (h3 : b.state ≠ .free) (h4 : c.state = st) (h5 : b.isFrozen = false) (h6 : st ≠ .free := by decide) : Seated b c :=
  ⟨h1, h2, ⟨fun h => absurd (h4.symm.trans h) h6, fun h => absurd h h3⟩, fun h => by rw [h5] at h; cases h⟩

/-- Every record keeps its seat, and the lug table its current lug and its geometry. -/
structure Seats (s t : State) : Prop where
  boards : ∀ i : Fin 32, Seated s.lug.boards[i] t.lug.boards[i]
  current : t.lug.current = s.lug.current
  closeLugs : t.lug.closeLugs = s.lug.closeLugs
  commitPos : t.lug.commitPos = s.lug.commitPos
  trimPos : t.lug.trimPos = s.lug.trimPos
  dropPos : t.lug.dropPos = s.lug.dropPos

theorem Seats.refl (s : State) : Seats s s := ⟨fun _ => Seated.refl _, rfl, rfl, rfl, rfl, rfl⟩

theorem Seats.trans {s t u : State} (h : Seats s t) (h' : Seats t u) : Seats s u :=
  ⟨fun i => (h.boards i).trans (h'.boards i), h'.current.trans h.current, h'.closeLugs.trans h.closeLugs,
    h'.commitPos.trans h.commitPos, h'.trimPos.trans h.trimPos, h'.dropPos.trans h.dropPos⟩

theorem Seats.of_lug {s t : State} (h : t.lug = s.lug) : Seats s t := by
  refine ⟨fun i => ?_, ?_, ?_, ?_, ?_, ?_⟩ <;> rw [h]
  exact Seated.refl _

theorem Seats.of_keeps {bs : List Block} {s t : State} (h : Keeps bs s t) (hb : Block.lug ∉ bs := by decide) : Seats s t :=
  Seats.of_lug (h.lug hb)

theorem seats_setBoard (s : State) (i : Fin 32) (b : Board) (h : Seated s.lug.boards[i] b) : Seats s (s.setBoard i b) := by
  refine ⟨fun j => ?_, rfl, rfl, rfl, rfl, rfl⟩
  rw [setBoard_read]
  split
  · rename_i hj; subst hj; exact h
  · exact Seated.refl _

theorem seats_changeBoard (e : Ev) (i : Fin 32) (f : Board → Board) (h : Seated e.st.lug.boards[i] (f e.st.lug.boards[i])) :
    Seats e.st (e.changeBoard i f).st := seats_setBoard _ _ _ h

theorem seats_modify (e : Ev) (f : State → State) (h : (f e.st).lug = e.st.lug) : Seats e.st (e.modify f).st :=
  Seats.of_lug h

/-- A lookup finds the same slot where every record keeps its seat. -/
theorem Seats.lookup {s t : State} (h : Seats s t) (n : Word16) : t.lookup n = s.lookup n := by
  have hb := h.boards (slotOf n)
  unfold State.lookup
  rw [hb.lug]
  by_cases hf : s.lug.boards[slotOf n].state = .free
  · rw [if_neg fun hc => hc.1 (hb.live.2 hf), if_neg fun hc => hc.1 hf]
  · have : t.lug.boards[slotOf n].state ≠ .free := fun hc => hf (hb.live.1 hc)
    simp only [this, hf, ne_eq, not_false_eq_true, true_and]

/-! ### The solver -/

theorem seats_startSolve (s : State) : Seats s s.startSolve := by
  unfold State.startSolve
  split
  · dsimp only
    split
    · split
      · rename_i n rest _ _ _ i _ hq
        have h1 : Seats s { s with solv := { queue := rest, solving := some n } } := Seats.of_lug rfl
        refine h1.trans (seats_setBoard _ i _ (Seated.of_open .solving rfl rfl ?_ rfl ?_))
        · rw [hq]; decide
        · simp only [Board.isFrozen, hq]; decide
      · exact Seats.of_lug rfl
    · exact Seats.of_lug rfl
  · exact Seats.refl _

theorem seats_joinQueue (e : Ev) (i : Fin 32) (h1 : e.st.lug.boards[i].state ≠ .free)
    (h2 : e.st.lug.boards[i].isFrozen = false) : Seats e.st (e.joinQueue i).st := by
  refine (seats_changeBoard e i (fun b => { b with state := .queued })
    (Seated.of_open .queued rfl rfl h1 rfl h2)).trans ?_
  unfold Ev.joinQueue
  rw [Ev.modify_st]
  exact (seats_modify _ _ rfl).trans (seats_startSolve _)

theorem seats_leaveSolver (e : Ev) (n : Word16) : Seats e.st (e.leaveSolver n).st :=
  (seats_modify e _ rfl).trans (seats_startSolve _)

theorem endOfSolveCheck_seat (b : Board) : b.endOfSolveCheck.lug = b.lug ∧ b.endOfSolveCheck.bank = b.bank ∧
    b.endOfSolveCheck.state = b.state ∧ b.endOfSolveCheck.final = b.final := ⟨rfl, rfl, rfl, rfl⟩

/-! ### The trim output unit and the decision writer -/

theorem seats_fire (e : Ev) (a : ArmedFire) : Seats e.st (e.fire a).st := by
  unfold Ev.fire
  dsimp only
  split
  · rename_i i _
    split
    · rename_i hc
      refine (seats_modify e _ rfl).trans (seats_changeBoard _ i _ ⟨rfl, rfl, ?_, fun _ => ⟨rfl, rfl⟩⟩)
      rw [hc]
      show BoardState.trimmed = .free ↔ _
      decide
    · exact Seats.of_lug rfl
  · exact Seats.of_lug rfl

theorem seats_lateFire (e : Ev) : Seats e.st e.lateFire.st := by
  unfold Ev.lateFire
  split
  · exact (seats_fire _ _).trans (Seats.of_keeps (keeps_raise _ _))
  · exact Seats.refl _

theorem seats_armBoard (e : Ev) : Seats e.st e.armBoard.st := by
  unfold Ev.armBoard
  split
  · exact Seats.refl _
  · dsimp only
    split
    · split
      · exact seats_fire _ _
      · exact Seats.of_lug rfl
    · exact Seats.refl _

/-! ### Closing and committing -/

/-- The close of a SCANNING board. -/
theorem seats_closeBoard (e : Ev) (i : Fin 32) (t : HeadSet) (h : e.st.lug.boards[i].state = .scanning) :
    Seats e.st (e.closeBoard i t).st := by
  unfold Ev.closeBoard
  dsimp only
  refine Seats.trans ?_ (Seats.of_keeps (keeps_parkTestAll _))
  generalize hm : ({ e.st.lug.boards[i] with
    classes := scanMarks e.st.head.fitted e.st.lug.boards[i] t (planMaxBad (e.st.shadowOf e.st.lug.boards[i].bank)) }
    : Board) = marked
  generalize he1 : (e.changeBoard i fun _ => marked).recordBadCounts e.st.lug.boards[i] = e1
  have hl : e1.st.lug = (e.changeBoard i fun _ => marked).st.lug := by rw [← he1]; exact (keeps_recordBadCounts _ _).lug
  have hs : marked.state = .scanning := by rw [← hm]; exact h
  have hr : e1.st.lug.boards[i] = marked := by
    simp only [hl]; rw [changeBoard_read, if_pos rfl]
  have h1 : Seats e.st e1.st := by
    refine Seats.trans (seats_changeBoard e i (fun _ => marked) ?_) (Seats.of_lug hl)
    rw [← hm]
    exact Seated.of_same rfl rfl rfl rfl
  have hne : e1.st.lug.boards[i].state ≠ .free := by rw [hr, hs]; decide
  have hnf : e1.st.lug.boards[i].isFrozen = false := by rw [hr]; simp only [Board.isFrozen, hs]; decide
  refine h1.trans ?_
  split
  · exact seats_changeBoard _ _ _ (Seated.of_open .void rfl rfl hne rfl hnf)
  · split
    · exact seats_joinQueue _ _ hne hnf
    · refine (seats_changeBoard e1 i _ ?_).trans (Seats.of_keeps (keeps_raise _ _))
      exact Seated.of_open .solved rfl rfl hne rfl hnf

theorem seats_closeTest (e : Ev) (i : Fin 32) : Seats e.st (e.closeTest i).st := by
  unfold Ev.closeTest
  dsimp only
  split
  · rename_i h
    simp only [Bool.and_eq_true, decide_eq_true_eq] at h
    exact seats_closeBoard _ _ _ h.1
  · exact Seats.refl _

theorem seats_closeTimeout (e : Ev) : Seats e.st e.closeTimeout.st := by
  unfold Ev.closeTimeout
  split
  · exact Seats.refl _
  · rename_i i _
    dsimp only
    split
    · rename_i h
      refine ((seats_changeBoard e i _ (Seated.of_same rfl rfl rfl rfl)).trans
        (Seats.of_keeps (keeps_raise _ _))).trans (seats_closeBoard _ _ _ ?_)
      have : ((e.changeBoard i fun b => { b with flags := { b.flags with scanTimeout := true } }).raise
        .scanTimeout).st.lug = (e.changeBoard i fun b => { b with flags := { b.flags with scanTimeout := true } }).st.lug :=
        (keeps_raise _ _).lug
      simp only [this]
      rw [changeBoard_read, if_pos rfl]
      exact h
    · exact Seats.refl _

theorem seats_commitBoard (e : Ev) : Seats e.st e.commitBoard.st := by
  unfold Ev.commitBoard
  split
  · exact Seats.refl _
  · rename_i i _
    dsimp only
    split
    · rename_i h
      refine (seats_changeBoard e i _ ?_).trans (Seats.of_keeps (keeps_handDecision _ _))
      exact Seated.of_open .committed rfl rfl (by rw [h]; decide) rfl (by simp only [Board.isFrozen, h]; decide)
    · rename_i h
      refine (((seats_changeBoard e i _ ?_).trans (seats_leaveSolver _ _)).trans
        (Seats.of_keeps (keeps_raise _ _))).trans (Seats.of_keeps (keeps_handDecision _ _))
      exact Seated.of_open .committed rfl rfl (by rw [h]; decide) rfl (by simp only [Board.isFrozen, h]; decide)
    · rename_i h
      refine (((seats_changeBoard e i _ ?_).trans (seats_leaveSolver _ _)).trans
        (Seats.of_keeps (keeps_raise _ _))).trans (Seats.of_keeps (keeps_handDecision _ _))
      exact Seated.of_open .committed rfl rfl (by rw [h]; decide) rfl (by simp only [Board.isFrozen, h]; decide)
    all_goals exact Seats.refl _

theorem seats_commitAndTimeout (e : Ev) : Seats e.st e.commitAndTimeout.st := by
  unfold Ev.commitAndTimeout
  split
  · dsimp only
    split
    · exact (seats_modify e _ rfl).trans ((seats_commitBoard _).trans (seats_closeTimeout _))
    · exact (seats_modify e _ rfl).trans ((seats_closeTimeout _).trans (seats_commitBoard _))
  · exact (seats_commitBoard _).trans (seats_closeTimeout _)

/-! ### Losing a head, folding a slice, taking an entry -/

theorem seats_foldl {α : Type} (f : Ev → α → Ev) (hf : ∀ e a, Seats e.st (f e a).st) (l : List α) (e : Ev) :
    Seats e.st (l.foldl f e).st := by
  induction l generalizing e with
  | nil => exact Seats.refl _
  | cons a l ih => exact (hf e a).trans (ih _)

theorem seats_loseAt (h : Fin 6) (e : Ev) (i : Fin 32) : Seats e.st (Ev.loseAt h e i).st := by
  unfold Ev.loseAt
  split
  · exact (seats_changeBoard e i _ (Seated.of_same rfl rfl rfl rfl)).trans (seats_closeTest _ _)
  · exact Seats.refl _

theorem seats_loseHead (e : Ev) (h : Fin 6) : Seats e.st (e.loseHead h).st := by
  unfold Ev.loseHead
  dsimp only
  split
  · exact (seats_foldl _ (seats_loseAt h) _ _).trans (Seats.of_keeps (keeps_raise _ _))
  · exact seats_foldl _ (seats_loseAt h) _ _

theorem seats_countBadSlice (e : Ev) (h : Fin 6) (bs : List Byte) : Seats e.st (e.countBadSlice h bs).st := by
  unfold Ev.countBadSlice
  split
  · rename_i i _
    refine seats_changeBoard e i _ ?_
    unfold Board.countBad
    split
    · exact Seated.of_same rfl rfl rfl rfl
    · exact Seated.refl _
  · exact Seats.refl _

theorem seats_discardSlice (e : Ev) (f : Option (Fin 32)) : Seats e.st (e.discardSlice f).st := by
  unfold Ev.discardSlice
  dsimp only
  split
  · rename_i i
    exact (Seats.of_keeps (keeps_raise e _)).trans (seats_changeBoard _ i _ (Seated.of_same rfl rfl rfl rfl))
  · exact Seats.of_keeps (keeps_raise e _)

theorem seats_useSlice (e : Ev) (h : Fin 6) (i : Fin 32) (bs : List Byte) : Seats e.st (e.useSlice h i bs).st := by
  unfold Ev.useSlice
  split
  · exact seats_changeBoard e i _ (Seated.of_same rfl rfl rfl rfl)
  · exact (seats_changeBoard e i _ (Seated.of_same rfl rfl rfl rfl)).trans (seats_closeTest _ _)

theorem seats_foldHeld (e : Ev) (h : Fin 6) (sl : HeldSlice) : Seats e.st (e.foldHeld h sl).st := by
  unfold Ev.foldHeld
  split
  · exact (Seats.of_keeps (keeps_raise e _)).trans (seats_countBadSlice _ _ _)
  · split
    · exact seats_discardSlice _ _
    · split
      · exact seats_useSlice _ _ _ _
      · exact seats_discardSlice _ _

theorem takeAgainst_seated (b : Board) (n : Entry) : Seated b (takeAgainst b n).1 := by
  unfold takeAgainst
  split
  · exact Seated.of_same rfl rfl rfl rfl
  · exact Seated.of_same rfl rfl rfl rfl
  · exact Seated.of_same rfl rfl rfl rfl
  · split
    · exact Seated.of_same rfl rfl rfl rfl
    · exact Seated.refl _
  all_goals exact Seated.refl _

theorem seats_takeEntry (e : Ev) (d : Option (List Byte)) : Seats e.st (takeEntry e d).1.st := by
  unfold takeEntry
  split
  · exact Seats.refl _
  · dsimp only
    split
    · exact Seats.refl _
    · split
      · exact Seats.refl _
      · exact seats_changeBoard e _ _ (takeAgainst_seated _ _)

/-! ### The grants of the forwarded side -/

theorem seats_grant (s : State) (t : Txn) : Seats s (grant s t) := by
  unfold grant
  refine Seats.trans ?_ (Seats.of_keeps (keeps_finishPath _))
  generalize courseOf s t = c
  have h0 : Seats s ((Ev.start s).acceptWrite t.source).st := Seats.of_keeps (keeps_acceptWrite (Ev.start s) _)
  cases c
  case giveUp h =>
    exact h0.trans ((seats_countBadSlice _ _ _).trans (((Seats.of_keeps (keeps_raise _ _)).trans
      (Seats.of_keeps (keeps_exhaust _ _))).trans (Seats.of_keeps (keeps_issue _ _ _ _ _ _))))
  case asIssued => exact Seats.of_keeps (keeps_issue _ _ _ _ _ _)
  case bootRetry => exact Seats.of_keeps (keeps_settle _ _)
  case refusedTrapped => exact Seats.of_keeps (keeps_settle _ _)
  case retry => exact Seats.of_keeps (keeps_settle _ _)
  case refused => exact (Seats.of_keeps (keeps_trap (Ev.start s) _ _)).trans (Seats.of_keeps (keeps_settle _ _))
  case refusedExhausted =>
    exact (Seats.of_keeps (keeps_exhaust (Ev.start s) _)).trans (Seats.of_keeps (keeps_settle _ _))
  case forward ap off => exact h0.trans (Seats.of_keeps (keeps_forwardWrite _ _ _ _))
  case partialSlice =>
    exact (h0.trans (Seats.of_keeps (keeps_raise _ _))).trans (Seats.of_keeps (keeps_issue _ _ _ _ _ _))
  case passBy => exact h0.trans (Seats.of_keeps (keeps_issue _ _ _ _ _ _))
  case intake h =>
    exact (h0.trans (Seats.of_keeps (keeps_intake _ _ _))).trans (Seats.of_keeps (keeps_issue _ _ _ _ _ _))

end Sys2Proof.Laws
end

