-- ==== Sys2Proof/Laws/Memory.lean ====
section
/-! SUPPORT. The memory behind the part: every operation keeps its canonical form, a read after a write gives what was
written, and a write leaves every other byte. -/

namespace Sys2Proof.Machine

open Sys2Proof

/-! ### The canonical form -/

theorem Memory.wf_cons (k : Nat) (b : Byte) (m : Memory) :
    Memory.wf ((k, b) :: m) = true ↔ b ≠ Memory.unlisted ∧ Memory.wf m = true ∧ ∀ c ∈ m.head?, k < c.1 := by
  cases m with
  | nil => simp [Memory.wf]
  | cons c m => obtain ⟨k', b'⟩ := c; simp [Memory.wf]; tauto

/-- Every listed address of a canonical memory lies beyond what stands before it. -/
theorem Memory.wf_lt {k : Nat} {b : Byte} {m : Memory} (h : Memory.wf ((k, b) :: m) = true) : ∀ c ∈ m, k < c.1 := by
  induction m generalizing k b with
  | nil => simp
  | cons c m ih =>
    obtain ⟨k', b'⟩ := c
    obtain ⟨_, h2, h3⟩ := (Memory.wf_cons _ _ _).1 h
    have hk : k < k' := h3 (k', b') rfl
    intro c hc
    rcases List.mem_cons.1 hc with rfl | hc
    · exact hk
    · exact hk.trans (ih h2 c hc)

theorem Memory.read_of_lt {m : Memory} {a : Nat} (h : ∀ c ∈ m, a < c.1) : m.read a = Memory.unlisted := by
  induction m with
  | nil => rfl
  | cons c m ih =>
    obtain ⟨k, b⟩ := c
    have hk : a < k := h (k, b) (by simp)
    simp only [Memory.read]
    rw [if_neg (by omega), ih fun c hc => h c (by simp [hc])]

theorem Memory.head_write (m : Memory) (a : Nat) (b : Byte) (k : Nat) (hk : k < a) (h : ∀ c ∈ m.head?, k < c.1)
    (h' : ∀ c ∈ m, k < c.1) : ∀ c ∈ (m.write a b).head?, k < c.1 := by
  cases m with
  | nil =>
    simp only [Memory.write]
    split <;> simp [hk]
  | cons c m =>
    obtain ⟨k', c⟩ := c
    have hk' := h (k', c) rfl
    simp only [Memory.write]
    repeat' split
    all_goals intro x hx; simp at hx
    · subst hx; exact hk'
    · subst hx; exact hk
    · exact h' x (List.mem_cons_of_mem _ (List.mem_of_mem_head? hx))
    · subst hx; exact hk
    · subst hx; exact hk'

/-- A write keeps the canonical form. -/
theorem Memory.wf_write {m : Memory} (h : m.wf = true) (a : Nat) (b : Byte) : (m.write a b).wf = true := by
  induction m with
  | nil => simp only [Memory.write]; split <;> simp_all [Memory.wf]
  | cons c m ih =>
    obtain ⟨k, c⟩ := c
    obtain ⟨h1, h2, h3⟩ := (Memory.wf_cons _ _ _).1 h
    simp only [Memory.write]
    repeat' split
    · exact h
    · exact (Memory.wf_cons _ _ _).2 ⟨by assumption, h, by simp; assumption⟩
    · exact h2
    · subst_vars; exact (Memory.wf_cons _ _ _).2 ⟨by assumption, h2, h3⟩
    · exact (Memory.wf_cons _ _ _).2 ⟨h1, ih h2, Memory.head_write _ _ _ _ (by omega) h3 (Memory.wf_lt h)⟩

/-! ### Reads after writes -/

/-- A write leaves every other byte as it was. -/
theorem Memory.read_write_ne (m : Memory) {a x : Nat} (b : Byte) (h : x ≠ a) : (m.write a b).read x = m.read x := by
  induction m with
  | nil => simp only [Memory.write]; split <;> simp [Memory.read, h]
  | cons c m ih =>
    obtain ⟨k, c⟩ := c
    simp only [Memory.write]
    repeat' split
    all_goals simp_all [Memory.read]

/-- In a canonical memory the byte written is read back. -/
theorem Memory.read_write_same {m : Memory} (hm : m.wf = true) (a : Nat) (b : Byte) : (m.write a b).read a = b := by
  induction m with
  | nil => simp only [Memory.write]; split <;> simp_all [Memory.read]
  | cons c m ih =>
    obtain ⟨k, c⟩ := c
    obtain ⟨_, h2, _⟩ := (Memory.wf_cons _ _ _).1 hm
    have hlt := Memory.wf_lt hm
    simp only [Memory.write]
    split
    · split
      · subst_vars
        rw [Memory.read, if_neg (by omega), Memory.read_of_lt fun c hc => by have := hlt c hc; omega]
      · simp [Memory.read]
    · split
      · split
        · subst_vars; exact Memory.read_of_lt hlt
        · simp [Memory.read]
      · rw [Memory.read, if_neg (by assumption), ih h2]

/-! ### The lanes of a write -/

theorem Memory.wf_writeLanes (ls : List Lane) {m : Memory} (h : m.wf = true) (a : Nat) :
    (m.writeLanes a ls).wf = true := by
  induction ls generalizing m a with
  | nil => exact h
  | cons l ls ih =>
    simp only [Memory.writeLanes]
    split
    · exact ih (Memory.wf_write h _ _) _
    · exact ih h _

/-- A byte that no strobed lane covers is as it was. -/
theorem Memory.read_writeLanes_other (ls : List Lane) (m : Memory) (a x : Nat)
    (h : ∀ j : Nat, x = a + j → (ls[j]?.map (·.strobe)).getD false = false) : (m.writeLanes a ls).read x = m.read x := by
  induction ls generalizing m a with
  | nil => rfl
  | cons l ls ih =>
    simp only [Memory.writeLanes]
    rw [ih _ (a + 1) fun j hj => by simpa using h (j + 1) (by omega)]
    split
    · rename_i hl
      refine Memory.read_write_ne _ _ fun hx => ?_
      have := h 0 (by omega)
      simp_all
    · rfl

/-- In a canonical memory each strobed lane is read back. -/
theorem Memory.read_writeLanes (ls : List Lane) {m : Memory} (hm : m.wf = true) (a j : Nat) (l : Lane)
    (hl : ls[j]? = some l) (hs : l.strobe = true) : (m.writeLanes a ls).read (a + j) = l.data := by
  induction ls generalizing m a j with
  | nil => simp at hl
  | cons x ls ih =>
    simp only [Memory.writeLanes]
    cases j with
    | zero =>
      simp at hl
      subst hl
      rw [if_pos hs, Memory.read_writeLanes_other _ _ _ _ fun j hj => by omega, Nat.add_zero]
      exact Memory.read_write_same hm _ _
    | succ j =>
      have := ih (m := if x.strobe then m.write a x.data else m) (by split; exact Memory.wf_write hm _ _; exact hm)
        (a + 1) j (by simpa using hl)
      rwa [show a + (j + 1) = a + 1 + j by omega]

/-! ### A transaction answered, and the writes in flight at a device reset -/

theorem Memory.wf_apply {m : Memory} (h : m.wf = true) (w : Wire) : (m.apply w).wf = true := by
  unfold Memory.apply
  split
  · exact h
  · exact Memory.wf_writeLanes _ h _

theorem Memory.read_apply_other (m : Memory) (w : Wire) (x : Nat)
    (h : ∀ j : Nat, x = w.start + j → (w.lanes[j]?.map (·.strobe)).getD false = false) :
    (m.apply w).read x = m.read x := by
  unfold Memory.apply
  split
  · rfl
  · exact Memory.read_writeLanes_other _ _ _ _ h

theorem wf_landLanes (n i : Nat) (ls : List Lane) {m : Memory} (h : m.wf = true) (a : Nat) :
    (landLanes n i m a ls).wf = true := by
  induction ls generalizing m a with
  | nil => exact h
  | cons l ls ih =>
    simp only [landLanes]
    split
    · exact ih (Memory.wf_write h _ _) _
    · exact ih h _

theorem wf_landAll (n : Nat) (ds : List Down) (i : Nat) {m : Memory} (h : m.wf = true) : (landAll n i m ds).wf = true := by
  induction ds generalizing m i with
  | nil => exact h
  | cons d ds ih =>
    simp only [landAll]
    split
    · exact ih _ h
    · exact ih _ (wf_landLanes _ _ _ h _)

theorem read_landLanes_other (n i : Nat) (ls : List Lane) (m : Memory) (a x : Nat)
    (h : ∀ j : Nat, x = a + j → (ls[j]?.map (·.strobe)).getD false = false) : (landLanes n i m a ls).read x = m.read x := by
  induction ls generalizing m a with
  | nil => rfl
  | cons l ls ih =>
    simp only [landLanes]
    rw [ih _ (a + 1) fun j hj => by simpa using h (j + 1) (by omega)]
    split
    · rename_i hl
      refine Memory.read_write_ne _ _ fun hx => ?_
      have := h 0 (by omega)
      simp_all
    · rfl

/-- The memory right after reset has the canonical form. -/
theorem wf_reset : State.reset.mem.wf = true := rfl

end Sys2Proof.Machine
end

