-- ==== Sys2Proof/Laws/Tally.lean ====
section
/-! SUPPORT. The tally unit's operations keep its banks sound: boards_dropped is the sum of the piece counts, an EMPTY bank is
all zero, and one bank at most is OPEN (R145, R146, R148). -/

namespace Sys2Proof.Laws

open Sys2Proof Sys2Proof.Machine

/-- Both banks are sound and at most one is OPEN, said bank by bank. -/
def SoundBanks (t : Tally) : Prop :=
  (∀ k, (t.bank k).sound) ∧ ∀ k, ¬ ((t.bank k).state = .opened ∧ (t.bank k.other).state = .opened)

theorem tallyInv_iff (s : State) : TallyInv s ↔ SoundBanks s.tally := by
  constructor
  · rintro ⟨h1, h2, h3⟩
    refine ⟨fun k => ?_, fun k => ?_⟩
    · cases k
      · exact h1
      · exact h2
    · cases k
      · exact h3
      · exact fun h => h3 h.symm
  · rintro ⟨h1, h2⟩
    exact ⟨h1 .a, h1 .b, h2 .a⟩

theorem SoundBanks.congr {t u : Tally} (h : SoundBanks t) (ha : u.bankA = t.bankA) (hb : u.bankB = t.bankB) :
    SoundBanks u := by
  have : ∀ k, u.bank k = t.bank k := fun k => by cases k <;> assumption
  exact ⟨fun k => by rw [this]; exact h.1 k, fun k => by rw [this, this]; exact h.2 k⟩

theorem changeTally_tally (e : Ev) (f : Tally → Tally) : (e.changeTally f).st.tally = f e.st.tally := by
  unfold Ev.changeTally; dsimp only; split <;> rfl

theorem sum_set_add_one (l : List Nat) (i : Nat) (h : i < l.length) : (l.set i (l[i] + 1)).sum = l.sum + 1 := by
  induction l generalizing i with
  | nil => simp at h
  | cons a l ih =>
    cases i with
    | zero => simp; omega
    | succ i =>
      simp only [List.length_cons, Nat.add_lt_add_iff_right] at h
      simp only [List.set_cons_succ, List.getElem_cons_succ, List.sum_cons, ih i h]
      omega

/-- R148: the addition of a board keeps boards_dropped the sum of the piece counts. -/
theorem add_sound (b : TallyBank) (o : TallyOffer) (h : b.dropped = b.pieceSum) (hs : b.state ≠ .empty) :
    (b.add o).sound := by
  refine ⟨?_, fun he => absurd he hs⟩
  have hl : o.cell.1 < (b.cells.toList.map (·.pieces)).length := by simp
  have key := sum_set_add_one _ _ hl
  unfold TallyBank.add TallyBank.pieceSum
  dsimp only
  rw [h, Vector.toList_set, List.map_set]
  simp only [List.getElem_map, Vector.getElem_toList] at key
  exact key.symm

theorem zeroed_sound (st : TallyState) : (TallyBank.zeroed st).sound := by
  refine ⟨by cases st <;> decide +kernel, fun h => ?_⟩
  have : st = .empty := h
  rw [this]

/-- A bank replaced by a sound one that does not open a second bank. -/
theorem SoundBanks.setBank {t : Tally} (h : SoundBanks t) (k : Bank) (v : TallyBank) (hv : v.sound)
    (ho : v.state = .opened → (t.bank k.other).state ≠ .opened) : SoundBanks (t.setBank k v) := by
  obtain ⟨h1, h2⟩ := h
  refine ⟨fun j => ?_, fun j => ?_⟩
  · cases j <;> cases k <;> first | exact hv | exact h1 .a | exact h1 .b
  · cases j <;> cases k <;> first | exact fun h => ho h.1 h.2 | exact fun h => ho h.2 h.1

/-- A bank whose state alone changes, to one that is neither EMPTY nor OPEN. -/
theorem SoundBanks.setState {t : Tally} (h : SoundBanks t) (k : Bank) (st : TallyState) (h1 : st ≠ .empty)
    (h2 : st ≠ .opened) : SoundBanks (t.setBank k { t.bank k with state := st }) :=
  h.setBank k _ ⟨(h.1 k).1, fun hc => absurd hc h1⟩ fun hc => absurd hc h2

/-- The other bank opened, the first one not OPEN. -/
theorem SoundBanks.openOther {t : Tally} (h : SoundBanks t) (k : Bank) (hk : (t.bank k).state ≠ .opened) :
    SoundBanks (t.setBank k.other { t.bank k.other with state := .opened }) :=
  h.setBank k.other _ ⟨(h.1 k.other).1, fun hc => by injection hc⟩ fun _ => by rw [Bank.other_other]; exact hk

theorem openBank_state {t : Tally} {k : Bank} (h : t.openBank = some k) : (t.bank k).state = .opened := by
  unfold Tally.openBank at h
  split at h
  · injection h with h; subst h; assumption
  · split at h
    · injection h with h; subst h; assumption
    · cases h

/-! ### A board offered (R147 to R150, R158) -/

theorem strand_sound {e : Ev} (h : SoundBanks e.st.tally) : SoundBanks e.strand.st.tally := by
  unfold Ev.strand
  rw [Ev.raise_tally, changeTally_tally]
  exact h.congr rfl rfl

theorem holdBoard_sound {e : Ev} (o : TallyOffer) (h : SoundBanks e.st.tally) :
    SoundBanks (e.holdBoard o).st.tally := by
  unfold Ev.holdBoard
  split
  · rw [changeTally_tally]; exact h.congr rfl rfl
  · exact strand_sound h

theorem addTo_sound {e : Ev} (k : Bank) (o : TallyOffer) (h : SoundBanks e.st.tally)
    (hk : (e.st.tally.bank k).state = .opened) : SoundBanks (e.addTo k o).st.tally := by
  unfold Ev.addTo
  rw [changeTally_tally]
  exact h.setBank k _ (add_sound _ _ (h.1 k).1 (by rw [hk]; decide)) fun _ hc => h.2 k ⟨hk, hc⟩

theorem overflow_sound {e : Ev} (k : Bank) (o : TallyOffer) (h : SoundBanks e.st.tally) :
    SoundBanks (e.overflow k o).st.tally := by
  unfold Ev.overflow
  dsimp only
  generalize he1 : (e.changeTally fun t => t.setBank k { t.bank k with state := .full }).raise .tallyFull = e1
  have ht1 : e1.st.tally = e.st.tally.setBank k { e.st.tally.bank k with state := .full } := by
    rw [← he1, Ev.raise_tally, changeTally_tally]
  have h1 : SoundBanks e1.st.tally := by rw [ht1]; exact h.setState k _ (by decide) (by decide)
  have hk : (e1.st.tally.bank k).state ≠ .opened := by rw [ht1, Tally.bank_setBank_same]; exact fun hc => by injection hc
  split
  · generalize he2 : (e1.changeTally fun t => t.setBank k.other { t.bank k.other with state := .opened }) = e2
    have ht2 : e2.st.tally = e1.st.tally.setBank k.other { e1.st.tally.bank k.other with state := .opened } := by
      rw [← he2, changeTally_tally]
    have h2 : SoundBanks e2.st.tally := by rw [ht2]; exact h1.openOther k hk
    split
    · exact holdBoard_sound o h2
    · exact addTo_sound _ o h2 (by rw [ht2, Tally.bank_setBank_same])
  · exact strand_sound h1

theorem offer_sound {e : Ev} (o : TallyOffer) (h : SoundBanks e.st.tally) : SoundBanks (e.offer o).st.tally := by
  unfold Ev.offer
  split
  · exact strand_sound h
  · rename_i k hk
    split
    · exact holdBoard_sound o h
    · split
      · exact addTo_sound k o h (openBank_state hk)
      · exact overflow_sound k o h

theorem offerAll_sound (os : List TallyOffer) {e : Ev} (h : SoundBanks e.st.tally) :
    SoundBanks (e.offerAll os).st.tally := by
  induction os generalizing e with
  | nil => exact h
  | cons o os ih => exact ih (offer_sound o h)

/-! ### Requests and answers (R151 to R159) -/

theorem completeRequest_sound {e : Ev} (h : SoundBanks e.st.tally) : SoundBanks e.completeRequest.st.tally := by
  unfold Ev.completeRequest
  split
  · exact h
  · split
    · exact h
    · split
      · rw [Ev.raise_tally, Ev.ask_st, changeTally_tally]; exact h.congr rfl rfl
      · exact h

theorem closeShift_sound {t : Tally} (h : SoundBanks t) : SoundBanks t.closeShift.1 := by
  unfold Tally.closeShift
  split
  · exact h
  · rename_i k _
    split
    · have h1 := h.setState k .closed (by decide) (by decide)
      have h2 := h1.openOther k (by rw [Tally.bank_setBank_same]; exact fun hc => by injection hc)
      rwa [Tally.bank_setBank_other] at h2
    · exact h

theorem clearBank_sound {t : Tally} (h : SoundBanks t) (k : Bank) : SoundBanks (t.clearBank k).1 := by
  have key : SoundBanks (if (t.bank k.other).state = .opened then (t.setBank k (TallyBank.zeroed .empty), RequestStatus.ok)
      else (t.setBank k (TallyBank.zeroed .opened), RequestStatus.ok)).1 := by
    split
    · exact h.setBank k _ (zeroed_sound _) fun hc => by injection hc
    · exact h.setBank k _ (zeroed_sound _) fun _ => by assumption
  unfold Tally.clearBank
  split
  · exact key
  · exact key
  · exact h
  · exact h

theorem takeRequest_sound {e : Ev} (w : Word32) (h : SoundBanks e.st.tally) : SoundBanks (e.takeRequest w).st.tally := by
  unfold Ev.takeRequest
  split
  · rw [changeTally_tally]; exact (closeShift_sound h).congr rfl rfl
  · rw [changeTally_tally]; exact (clearBank_sound h _).congr rfl rfl
  · rw [changeTally_tally]; exact h.congr rfl rfl
  · dsimp only; rw [changeTally_tally]; exact h.congr rfl rfl

theorem imageAnswered_sound {e : Ev} (ok : Bool) (h : SoundBanks e.st.tally) :
    SoundBanks (e.imageAnswered ok).st.tally := by
  unfold Ev.imageAnswered
  split
  · exact h
  · split
    · exact h
    · dsimp only
      split
      · exact completeRequest_sound (offerAll_sound _ (by rw [changeTally_tally]; exact h.congr rfl rfl))
      · rw [changeTally_tally]; exact h.congr rfl rfl

theorem requestWriteAnswered_sound {e : Ev} (h : SoundBanks e.st.tally) :
    SoundBanks e.requestWriteAnswered.st.tally :=
  completeRequest_sound (by rw [changeTally_tally]; exact h.congr rfl rfl)

end Sys2Proof.Laws
end

