-- ==== Sys2Proof/Tests/Slice0.lean ====
section
/-! SUPPORT. Tests: each check of `WellFormed` refuses an ill-formed term; the spec's worked examples; and for each obligation
with hypotheses, states and operands that meet them. -/

namespace Sys2Proof.Tests

open Sys2Proof Sys2Proof.Machine

-- One proof at a time: each needs a deep stack.
set_option Elab.async false

/-! ### Commands and their operands -/

/-- A write of bytes `bs` from address `a` on, with the strobes of those bytes alone. -/
def writeTo (src : Fin 16) (a : Nat) (bs : List Byte) : Txn :=
  let lanes := strobedLanes a bs
  { source := src, kind := .write, addr := BitVec.ofNat 32 a, beats := lanes.length / 8, lanes := lanes }

/-- A read of `n` beats from address `a` on. -/
def readFrom (src : Fin 16) (a n : Nat) : Txn :=
  { source := src, kind := .read, addr := BitVec.ofNat 32 a, beats := n, lanes := [] }

/-- An attempt whose every byte is acknowledged, with data `bs`. -/
def goodAttempt (bs : List Byte) : Attempt :=
  { sdaHeldLow := false, ackWriteAddress := true, ackWordAddress := true, ackReadAddress := true, bytes := bs }

/-- The state a command leaves. -/
def after (c : Instr) (s : State) : State :=
  match exec c s with
  | .next t => t
  | .fault _ => s
  | .refused _ => s

theorem smoke_no_beat : (Instr.upstreamAccept (readFrom 0 0 0)).wellFormed = false := by decide

theorem smoke_nine_beats : (Instr.upstreamAccept (readFrom 0 0 9)).wellFormed = false := by decide

theorem smoke_read_with_lanes :
    (Instr.upstreamAccept { writeTo 0 0 [1] with kind := .read }).wellFormed = false := by decide

theorem smoke_write_short_of_lanes :
    (Instr.upstreamAccept { writeTo 0 0 [1] with beats := 2 }).wellFormed = false := by decide

theorem smoke_attempt_short_of_bytes :
    (Instr.bootAttemptEnd (goodAttempt (List.replicate 255 0))).wellFormed = false := by decide +kernel

theorem smoke_well_formed : (Instr.upstreamAccept (writeTo 0 0 [1])).wellFormed = true ∧
    (Instr.upstreamAccept (readFrom 0 0 8)).wellFormed = true ∧
    (Instr.bootAttemptEnd (goodAttempt (List.replicate 256 0))).wellFormed = true := by decide +kernel

/-! ### The boot block: Table 11-3 and section 11.2 -/

/-- The bytes 18 to 21 of a boot block that holds these four positions, the others 0. -/
def geometryImage (close commit trim drop : Byte) : List Byte :=
  List.replicate 18 0 ++ [close, commit, trim, drop]

/-- The geometry taken from an image. -/
def takenGeometry (bs : List Byte) : List Nat := [bootCloseLugs bs, bootCommitPos bs, bootTrimPos bs, bootDropPos bs]

/-- Table 11-3. -/
theorem test_boot_geometry :
    takenGeometry (geometryImage 2 8 10 14) = [2, 8, 10, 14] ∧ takenGeometry (geometryImage 5 3 9 12) = [3, 4, 9, 12] ∧
    takenGeometry (geometryImage 0 2 2 40) = [1, 2, 3, 40] ∧ imageGood (geometryImage 0 2 2 40) = false := by decide

/-- Section 11.2: scan slots held as 300, 0 and 5000. -/
theorem test_boot_scan_slots :
    ringSizeOf 16 1024 300 = 256 ∧ ringSizeOf 16 1024 0 = 16 ∧ ringSizeOf 16 1024 5000 = 1024 := by decide

/-- A 256-byte boot block: six heads fitted, control source 1, head sources 2 to 7, max_retry 3, credits of 16, geometry
2, 8, 10, 14, counts_per_lug 64, fire_delay 40, saw_hold 250, every notice enabled, apertures 0x1000 to 0x8000. -/
def image : List Byte :=
  [0x5A, 0xC3, 1, 0x3F, 1, 2, 3, 4, 5, 6, 7, 3] ++ List.replicate 6 16 ++ [2, 8, 10, 14, 64, 0, 40, 0, 250, 0] ++
  leBytes 4 0x3FFFF ++ leBytes 4 0x1000 ++ leBytes 4 0x2000 ++ leBytes 4 0x3000 ++ leBytes 4 0x4000 ++ leBytes 4 0x6000 ++
  leBytes 4 0x7000 ++ leBytes 4 0x8000 ++ leBytes 2 16 ++ leBytes 2 8 ++ leBytes 2 16 ++ leBytes 2 0x0201 ++
  leBytes 2 2 ++ leBytes 2 2 ++ leBytes 2 2 ++ List.replicate 182 0

/-- The part while booting. -/
def booting : State :=
  { State.reset with boot := { condition := .booting, attemptsEnded := 0, image := [] }, pins := { present := 3, ready := 1 } }

/-- R44: credits of 16 leave nothing of the pool of 48 to the last three heads. -/
theorem test_boot_grants : bootGrants image = #v[16, 16, 16, 0, 0, 0] := by decide +kernel

/-- R38, R205: head 0 is sampled WAITING and head 1 JOINING, HEAD_WAITING is raised, and the part is RUNNING. -/
theorem test_boot_success :
    let t := after (.bootAttemptEnd (goodAttempt image)) booting
    t.boot.condition = .running ∧ t.head.ctx.map (·.state) = #v[.waiting, .joining, .absent, .absent, .absent, .absent] ∧
    t.note.has .headWaiting = true ∧ t.path.queue.length = 16 ∧ t.path.waiting.length = 12 := by decide +kernel

theorem witness_BootStartsAndFails :
    State.reset.boot.condition = .deviceReset ∧ booting.boot.condition = .booting ∧
    (let a := goodAttempt (List.replicate 256 0)
     a.wellFormed = true ∧ imageGood a.bytes = false ∧ { a with sdaHeldLow := true }.wellFormed = true) ∧
    (0 < 16 ∧ 16 ≤ 1024 ∧ 15 < 16 ∧ 1024 < 1025 ∧ 16 ≤ 300 ∧ 300 ≤ 1024) := by
  decide +kernel

theorem witness_BootSucceeds :
    booting.boot.condition = .booting ∧ (goodAttempt image).wellFormed = true ∧ imageGood image = true := by decide +kernel

theorem witness_BootGrantsAndRequests :
    booting.boot.condition = .booting ∧ Sys2Proof.Machine.Attempt.fails (goodAttempt image) = false ∧
    imageGood image = true ∧ booting.path.queue = [] ∧ booting.path.waiting = [] := by decide +kernel

/-! ### Plan bank A of the worked cases -/

/-- A grade rule's 8 bytes (Table 12-9). -/
def ruleBytes (enabled minWidth maxWane maxDefects minThick : Nat) : List Byte :=
  [BitVec.ofNat 8 enabled, BitVec.ofNat 8 minWidth] ++ leBytes 2 maxWane ++ leBytes 2 maxDefects ++ leBytes 2 minThick

/-- Bank A: Tables 4-3 and 4-4, blind class G4, the fold values of section 3.7, `mode` as given. -/
def bankBytes (mode : Byte) : List Byte :=
  [0x26, 0x00, 8, 6] ++ leBytes 2 100 ++ leBytes 2 330 ++ [100, mode, 4, 1, 0, 0, 0, 0] ++
  ruleBytes 1 60 50 1 370 ++ ruleBytes 1 55 150 3 360 ++ ruleBytes 1 50 300 6 340 ++ ruleBytes 1 40 500 12 300 ++
  ruleBytes 1 30 800 30 250 ++ ruleBytes 0 0 0 0 0 ++
  [0, 0, 0, 420, 540, 660, 800, 930, 1050, 1180, 1300, 1420].flatMap (leBytes 2) ++
  [0, 0, 0, 380, 480, 590, 640, 740, 830, 930, 1020, 1110].flatMap (leBytes 2) ++
  [0, 0, 0, 300, 390, 470, 540, 610, 680, 750, 820, 890].flatMap (leBytes 2) ++
  [0, 0, 120, 160, 200, 240, 280, 320, 360, 400, 440, 480].flatMap (leBytes 2) ++
  [0, 40, 60, 80, 100, 120, 140, 160, 180, 200, 220, 240].flatMap (leBytes 2) ++ List.replicate 24 0

/-- The shadow built from a bank's bytes. -/
def shadowFrom (bs : List Byte) : Shadow := Vector.ofFn fun (i : Fin 208) => bs.getD i.val 0

/-- Bank A in the mode RUNS. -/
def bankA : Shadow := shadowFrom (bankBytes 2)

/-- Bank A in the mode SAMPLES. -/
def bankASamples : Shadow := shadowFrom (bankBytes 0)

/-- Section 12.7: price[G4][2] of bank A lies at bytes 140 and 141. -/
theorem test_price_place : (bankBytes 2).length = 208 ∧ planHalf bankA 140 = 120 ∧ planPrice bankA .g4 2 = 120 := by
  decide +kernel

/-! ### The fold: Tables 3-4, 3-5 and 3-6 -/

/-- Closes a slice with the byte that makes its XOR 0. -/
def withCheck (bs : List Byte) : List Byte := bs ++ [xorAll bs]

/-- A slice of head `h` for lug `n` whose first segment has these samples, the second none present. -/
def sliceBytes (kind h n : Nat) (thick grey : List Nat) : List Byte :=
  withCheck ([BitVec.ofNat 8 kind, BitVec.ofNat 8 h] ++ leBytes 2 n ++ thick.flatMap (leBytes 2) ++ List.replicate 16 255 ++
    grey.map (BitVec.ofNat 8) ++ List.replicate 8 0 ++ List.replicate 11 0)

/-- Slice A of Table 3-4. -/
def sliceA : List Byte :=
  sliceBytes 1 1 1207 [320, 325, 1023, 318, 90, 340, 341, 342] [150, 150, 150, 60, 150, 150, 150, 150]

/-- Slice B: line 7's word has bit 12 set. -/
def sliceB : List Byte :=
  sliceBytes 1 1 1207 [372, 375, 370, 371, 369, 374, 376, 4096] [140, 140, 140, 70, 65, 140, 140, 140]

/-- Slice C. -/
def sliceC : List Byte :=
  sliceBytes 1 1 1207 (List.replicate 8 374) [140, 140, 140, 160, 50, 140, 140, 140]

/-- Table 3-5, in the mode RUNS and, as its text says, with RUNS clear. -/
theorem test_fold_table :
    foldSegment bankA sliceA 0 Acc.opening = { ps := 6, ws := 3, dc := 1, mt := 318, sl := 1, prev := 0x08 } ∧
    foldSegment bankA sliceB 0 (foldSegment bankA sliceA 0 Acc.opening) =
      { ps := 13, ws := 3, dc := 2, mt := 318, sl := 2, prev := 0x18 } ∧
    foldSegment bankA sliceC 0 (foldSegment bankA sliceB 0 (foldSegment bankA sliceA 0 Acc.opening)) =
      { ps := 21, ws := 3, dc := 2, mt := 318, sl := 3, prev := 0x10 } ∧
    (foldSegment bankASamples sliceC 0
      (foldSegment bankASamples sliceB 0 (foldSegment bankASamples sliceA 0 Acc.opening))).dc = 4 := by decide +kernel

/-- The defect counts of one line over four slices whose greys are given. -/
def lineCounts (mode : Byte) : List Nat → Acc → List Nat
  | [], _ => []
  | g :: gs, a =>
    let b := foldSample (shadowFrom (bankBytes mode)) a 0 374 g
    b.dc :: lineCounts mode gs b

/-- Table 3-6. -/
theorem test_fold_modes :
    lineCounts 0 [200, 90, 85, 210] Acc.opening = [0, 1, 2, 2] ∧ lineCounts 2 [200, 90, 85, 210] Acc.opening = [0, 1, 1, 1] ∧
    lineCounts 1 [200, 90, 85, 210] Acc.opening = [1, 1, 1, 2] ∧ lineCounts 3 [200, 90, 85, 210] Acc.opening = [1, 1, 1, 2] := by
  decide +kernel

/-! ### Board 1207: sections 4.8 to 4.10, 6.7, 6.8 and 12.6 -/

/-- An accumulator of Table 4-5. -/
def accOf (ps ws dc mt sl : Nat) : Acc := { ps := ps, ws := ws, dc := dc, mt := mt, sl := sl, prev := 0 }

/-- The accumulators of board 1207 at its close. -/
def accs1207 : Vector Acc 12 :=
  #v[accOf 560 10 0 381 70, accOf 560 20 1 379 70, accOf 560 60 2 376 70, accOf 560 42 2 372 70, accOf 552 11 1 377 69,
     accOf 544 130 5 350 68, accOf 520 480 40 240 65, accOf 480 40 1 368 60, Acc.opening, Acc.opening, Acc.opening,
     Acc.opening]

/-- The classes of Table 4-5. -/
def classes1207 : Vector (Option SegMark) 12 :=
  #v[some (.grade .g1), some (.grade .g1), some (.grade .g2), some (.grade .g2), some (.grade .g1), some (.grade .g3),
     some .reject, some (.grade .g2), some .empty, some .empty, some .empty, some .empty]

/-- The solution of Table 4-7. -/
def solution1207 : Solution :=
  { cls := .grade .g2, run := some (0, 4), pieceLength := 10, value := 480, bf10 := 100, saws := 0x70, boardLength := 16 }

/-- Tables 4-5 to 4-7. -/
theorem test_solve_1207 :
    solveClasses bankA (Vector.replicate 12 none) accs1207 = classes1207 ∧
    solveSolution bankA classes1207 = solution1207 := by decide +kernel

/-- Segments 4 and 5 UNSCANNED (section 4.9). -/
def marksWithoutH2 : Vector (Option SegMark) 12 :=
  ((Vector.replicate 12 none).set 4 (some .unscanned)).set 5 (some .unscanned)

/-- Tables 4-8 and 4-9: the degraded board. -/
theorem test_solve_degraded :
    let c := solveClasses bankA marksWithoutH2 accs1207
    c = (classes1207.set 4 (some (.grade .g4))).set 5 (some (.grade .g4)) ∧ degradedBy marksWithoutH2 accs1207 = true ∧
    solveSolution bankA c = { cls := .grade .g2, run := some (0, 3), pieceLength := 8, value := 380, bf10 := 80, saws := 0x78
                              boardLength := 16 } := by decide +kernel

/-- The classes of board 2210 (section 4.10). -/
def classes2210 : Vector (Option SegMark) 12 :=
  (((Vector.replicate 12 (some .empty)).set 0 (some (.grade .g5))).set 1 (some .reject)).set 2 (some (.grade .g5))

/-- Section 4.10. -/
theorem test_solve_trash :
    solveSolution bankA classes2210 = { cls := .trash, run := none, pieceLength := 0, value := 0, bf10 := 60, saws := 3
                                        boardLength := 6 } := by decide +kernel

/-- A grade override. -/
def gradeBy (g : Grade) (station : Byte) : Override := { what := .grade g, station := station }

/-- A trim override. -/
def trimBy (a b : Nat) (station : Byte) : Override := { what := .trim a b, station := station }

/-- Table 6-3 and the decision of board 1207 with FORCE_GRADE G1 alone. -/
theorem test_standing_decision :
    standingDecision bankA classes1207 solution1207 [gradeBy .g1 1] =
      { solution1207 with cls := .grade .g1, value := 540 } ∧
    standingDecision bankA classes1207 solution1207 [gradeBy .g1 1, trimBy 0 3 2] =
      { cls := .grade .g1, run := some (0, 3), pieceLength := 8, value := 420, bf10 := 80, saws := 0x78
        boardLength := 16 } := by decide +kernel

/-- Board 1207 while SOLVED, bound to bank A (Table 1-3). -/
def solved1207 : Board :=
  { Board.blank 1207 .solved with
      bank := some .a, expected := 0x3F, ended := 0x3F, acc := accs1207, classes := classes1207
      solution := some solution1207 }

/-- Table 6-4. -/
theorem test_end_of_solve_check :
    (let b := { solved1207 with overrides := [trimBy 5 7 3] }.endOfSolveCheck
     b.overrides = [] ∧ b.flags.overrideDropped = true ∧ b.flags.overridden = false ∧
     standingDecision bankA b.classes solution1207 b.overrides = solution1207) ∧
    (let b := { solved1207 with overrides := [trimBy 5 7 3, gradeBy .g4 3] }.endOfSolveCheck
     b.overrides = [trimBy 5 7 3, gradeBy .g4 3] ∧ b.flags.overrideDropped = false ∧ b.flags.overridden = true ∧
     b.station = some 3 ∧ standingDecision bankA b.classes solution1207 b.overrides =
      { cls := .grade .g4, run := some (5, 7), pieceLength := 6, value := 120, bf10 := 60, saws := 0x1F
        boardLength := 16 }) := by decide +kernel

/-- Section 12.6: the record of board 1207 committed with FORCE_GRADE G1 from station 1. -/
theorem test_record_bytes :
    ({ lug := 1207, decision := { solution1207 with cls := .grade .g1, value := 540 }
       flags := { BoardFlags.clear with overridden := true }, bank := .a, station := some 1, classes := classes1207
       product := 0x26 } : DecRecord).bytes =
      [0xB7, 0x04, 1, 0, 4, 10, 0x70, 0, 28, 2, 100, 0, 16, 0x02, 0, 1, 0x11, 0x22, 0x31, 0x27, 0, 0, 0x26, 0,
       0, 0, 0, 0, 0, 0, 0, 0] := by decide +kernel

/-! ### The part on the line -/

/-- The apertures of the tests. -/
def testBases : Bases :=
  { ctrl := 0x1000, planA := 0x2000, planB := 0x3000, scan := 0x4000, ovr := 0x6000, dec := 0x7000, tally := 0x8000 }

/-- An ACTIVE head. -/
def activeHead : HeadCtx := { HeadCtx.reset with state := .active, present := true, ready := true }

/-- RUNNING with the geometry 2, 8, 10, 14, current lug 1214, bank A active, control source 0, head sources 2 to 7, and
source 9 in the masks of CTRL and OVR. -/
def line : State :=
  { State.reset with
    boot := { condition := .running, attemptsEnded := 1, image := [] }
    path := { Path.reset with bases := testBases, scanSlots := 16 }
    src := { SourceTable.reset with
      headSource := #v[2, 3, 4, 5, 6, 7], maxRetry := 3, maskCtrl := 0x0201, maskPlanA := 1, maskPlanB := 1, maskOvr := 0x0201 }
    head := { ctx := Vector.replicate 6 activeHead, fitted := 0x3F, flashLit := false }
    asm := { Assembler.reset with granted := #v[16, 16, 16, 0, 0, 0] }
    lug := { LugTable.reset with
      current := 1214, encCount := 64, slipRef := true, closeLugs := 2, commitPos := 8, trimPos := 10, dropPos := 14
      countsPerLug := 64 }
    plan := { PlanStore.reset with bankA := { shadow := bankA, count := 0 }, active := some .a }
    ovr := { OverrideUnit.reset with ringSize := 32 }
    trim := { TrimUnit.reset with fireDelay := 40, sawHold := 250 }
    dec := { DecisionWriter.reset with ringSize := 16 } }

/-- The line with a board in its slot, bound to bank A. -/
def lineWith (s : State) (b : Board) : State :=
  let t := s.setBoard (slotOf b.lug) { b with bank := some .a }
  { t with plan := t.plan.bind .a }

/-- The slot of a lug in the tests. -/
def at1207 : Fin 32 := slotOf 1207

/-- A final decision with the saws given. -/
def finalWith (saws : SawSet) : FinalDecision :=
  { decision := { solution1207 with saws := saws }, classes := classes1207, station := none }

/-- A COMMITTED board. -/
def committed (n : Word16) (saws : SawSet) : Board :=
  { solved1207 with lug := n, state := .committed, final := some (finalWith saws) }

/-- A TRIMMED board. -/
def trimmed (n : Word16) : Board := { committed n 0x70 with state := .trimmed }

/-- A SCANNING board that expects every head. -/
def scanning (n : Word16) (ended : HeadSet) : Board :=
  { Board.blank n .scanning with expected := 0x3F, ended := ended }

/-- The part with these notices. -/
def noticed (s : State) (n : Notice) : Bool := s.note.has n

/-- Table 6-3: the LUG event that brings the current lug to 1215 commits board 1207, hands its record over, and opens lug 1215
in slot 31. -/
theorem test_lug_event_commit :
    let t := after .lugEvent (lineWith line { solved1207 with overrides := [gradeBy .g1 1, trimBy 0 3 2], station := some 2 })
    t.lug.current = 1215 ∧ t.lug.boards[at1207].state = .committed ∧
    (t.lug.boards[at1207].final.map (·.decision)) = some
      { cls := .grade .g1, run := some (0, 3), pieceLength := 8, value := 420, bf10 := 80, saws := 0x78, boardLength := 16 } ∧
    t.lug.boards[(31 : Fin 32)].state = .scanning ∧ t.lug.boards[(31 : Fin 32)].expected = 0x3F ∧
    t.dec.producer = 1 ∧ t.plan.bankA.count = 2 := by decide +kernel

/-- Table 1-3: the close timeout marks segments 10 and 11 of board 1213 UNSCANNED where H5 has not ended. -/
theorem test_lug_event_timeout :
    let t := after .lugEvent (lineWith line { scanning 1213 0x1F with acc := accs1207 })
    let b := t.lug.boards[slotOf 1213]
    b.flags.scanTimeout = true ∧ b.classes[(10 : Fin 12)] = some .unscanned ∧ b.classes[(9 : Fin 12)] = none ∧
    b.state = .solving ∧ t.solv.solving = some 1213 := by decide +kernel

theorem witness_StepTakesFront :
    ({ State.reset with pending := [.bootStart, .lugEvent] } : State).pending = .bootStart :: [.lugEvent] ∧
    State.reset.pending = [] := by decide

theorem witness_EveryCommandAnswers :
    Instr.lugEvent ≠ .deviceReset ∧ (∀ ok, Instr.lugEvent ≠ .memoryAnswer ok) ∧
    (∀ ok, Instr.lugEvent ≠ .ownTransactionAnswer ok) := by decide

/-- The part with head `h`'s context as given. -/
def withHead (s : State) (h : Fin 6) (c : HeadCtx) : State := { s with head := { s.head with ctx := s.head.ctx.set h c } }

/-- A head in state `st` with READY as given. -/
def headIn (st : HeadState) (ready pending : Bool) : HeadCtx :=
  { HeadCtx.reset with state := st, present := true, ready := ready, admitPending := pending }

/-- LineInv of a concrete state. -/
theorem lineInv_of {s : State} (h1 : s.lug.geometry = true)
    (h2 : ∀ i : Fin 32, s.lug.boards[i].state ≠ .free →
      slotOf s.lug.boards[i].lug = i ∧ s.lug.position s.lug.boards[i].lug < s.lug.dropPos)
    (h3 : s.plan.bankA.count = s.lug.boundTo .a) (h4 : s.plan.bankB.count = s.lug.boundTo .b)
    (h5 : s.plan.pendingBank = none) (h6 : s.running = true) : LineInv s :=
  ⟨fun _ => h1, h2, h3, h4, fun h => absurd h5 h, fun h => absurd h6 (by rw [h]; decide)⟩

/-- A slip; a QUEUED board that comes to none of the positions and whose solve the event starts; a LEAVING head that no board
expects, and one with admission pending. -/
theorem witness_LugEventAdvances :
    State.reset.running = false ∧ line.running = true ∧ line.lug.slipRef = true ∧
    ({ line with lug := { line.lug with encCount := 63 } } : State).lug.encCount ≠ line.lug.countsPerLug ∧
    (let s := { lineWith (lineWith line { solved1207 with state := .solving }) { solved1207 with lug := 1209, state := .queued } with
       solv := { queue := [1209], solving := some 1207 } }
     let j := slotOf 1209
     s.takesLug = true ∧ j ≠ slotOf (s.lug.current + 1) ∧
     (∀ p ∈ [s.lug.closeLugs, s.lug.commitPos, s.lug.trimPos, s.lug.dropPos], s.brings p j = false) ∧
     s.trim.armed = none ∧ s.lug.boards[j].state = .queued ∧ (after .lugEvent s).lug.boards[j].state = .solving ∧
     ∀ i, s.brings s.lug.closeLugs i = false) ∧
    (withHead line 3 (headIn .waiting true true)).head.ctx[(3 : Fin 6)].admitPending = true ∧
    line.head.ctx[(3 : Fin 6)].admitPending = false := by decide +kernel

theorem witness_LugEventOpens :
    line.running = true ∧ line.plan.pendingBank.or line.plan.active = some .a ∧
    (let s := { line with plan := PlanStore.reset }
     s.running = true ∧ s.plan.pendingBank.or s.plan.active = none) ∧
    (let s := { line with
      plan := { line.plan with pendingBank := some .b }
      head := { line.head with ctx := line.head.ctx.set 3 { activeHead with state := .waiting, admitPending := true } } }
     s.running = true ∧ s.plan.pendingBank ≠ none ∧ s.head.ctx[(3 : Fin 6)].admitPending = true) ∧
    (after .lugEvent line).lug.boards[slotOf 1215].expected ≠ 0 ∧
    (after .lugEvent { line with head := HeadMonitor.reset false }).lug.boards[slotOf 1215].expected = 0 := by decide +kernel

/-- The close timeout's premises, with material and room, with a full queue, and with no material. -/
theorem witness_LugEventTimesOut :
    (let s := lineWith line { scanning 1213 0x1F with acc := accs1207 }
     let b := s.lug.boards[slotOf 1213]
     s.takesLug = true ∧ s.brings s.lug.closeLugs (slotOf 1213) = true ∧ b.state = .scanning ∧ s.solv.queue.length < 4 ∧
     s.head.fitted.getLsbD 0 = true ∧ b.expected.getLsbD 0 = true ∧ b.lost.getLsbD 0 = false ∧ b.ended.getLsbD 0 = true ∧
     b.bad[(0 : Fin 6)] ≤ planByte (s.shadowOf b.bank) 11 ∧ 0 < b.acc[(0 : Fin 12)].ps ∧
     ∀ k, s.brings s.lug.commitPos k = true →
       s.lug.boards[k].state ≠ .queued ∧ s.lug.boards[k].state ≠ .solving) ∧
    (let s := { lineWith line { scanning 1213 0x1F with acc := accs1207 } with
       solv := { queue := [1209, 1210, 1211, 1212], solving := some 1208 } }
     s.takesLug = true ∧ s.brings s.lug.closeLugs (slotOf 1213) = true ∧ 4 ≤ s.solv.queue.length) ∧
    (let s := lineWith line (scanning 1213 0)
     s.takesLug = true ∧ s.brings s.lug.closeLugs (slotOf 1213) = true ∧
     s.lug.boards[slotOf 1213].state = .scanning ∧
     (s.lug.boards[slotOf 1213]).hasMaterial s.head.fitted (s.shadowOf s.lug.boards[slotOf 1213].bank) = false) := by
  decide +kernel

/-- The invariant holds of the part with board 1213 at close_lugs and H3 LEAVING. -/
theorem witness_LugEventTimesOut_heads :
    let s := withHead (lineWith line { scanning 1213 0x1F with acc := accs1207 }) 3 (headIn .leaving true false)
    LineInv s ∧ s.brings s.lug.closeLugs (slotOf 1213) = true ∧ s.head.ctx[(3 : Fin 6)].state = .leaving ∧
    s.lug.boards[slotOf 1213].hasMaterial s.head.fitted (s.shadowOf s.lug.boards[slotOf 1213].bank) = true :=
  ⟨lineInv_of (by decide +kernel) (by decide +kernel) (by decide +kernel) (by decide +kernel) (by decide) (by decide),
    by decide +kernel, by decide, by decide +kernel⟩

/-- R9, R12, R120: closed by timeout with the queue full, the board is SOLVED as REMAN with its unsolved classes, and its trim
override, whose run holds REJECT, is dropped. -/
theorem test_lug_event_timeout_full :
    let t := after .lugEvent
      { lineWith line { scanning 1213 0x3F with ended := 0x1F, acc := accs1207, overrides := [trimBy 0 3 2] } with
        solv := { queue := [1209, 1210, 1211, 1212], solving := some 1208 } }
    let b := t.lug.boards[slotOf 1213]
    b.state = .solved ∧ b.solution.map (·.cls) = some .reman ∧ b.classes[(0 : Fin 12)] = some .reject ∧
    b.classes[(10 : Fin 12)] = some .empty ∧ b.overrides = [] ∧ b.flags.overrideDropped = true ∧ b.flags.unsolved = true ∧
    noticed t .solveQueueFull = true := by decide +kernel

theorem witness_LugEventCommitsSolved :
    (let s := lineWith line solved1207
     s.takesLug = true ∧ s.brings s.lug.commitPos at1207 = true ∧ s.lug.boards[at1207].state = .solved ∧
     s.lug.boards[at1207].bank = some .a ∧ s.lug.boards[at1207].solution = some solution1207 ∧ s.dec.list.length < 8) ∧
    (let r : DecRecord := { lug := 1206, decision := solution1207, flags := BoardFlags.clear, bank := .a, station := none
                            classes := classes1207, product := 0 }
     8 ≤ ({ line with dec := { line.dec with list := List.replicate 8 r } } : State).dec.list.length) := by decide +kernel

theorem witness_LugEventCommitsUnsolved :
    (let s := { lineWith line { solved1207 with state := .solving } with solv := { queue := [1208], solving := some 1207 } }
     s.takesLug = true ∧ s.brings s.lug.commitPos at1207 = true ∧ s.lug.boards[at1207].state = .solving ∧
     s.lug.boards[at1207].bank = some .a) ∧
    (let s := { lineWith line { solved1207 with state := .queued } with solv := { queue := [1207], solving := some 1206 } }
     s.takesLug = true ∧ s.brings s.lug.commitPos at1207 = true ∧ s.lug.boards[at1207].state = .queued) := by decide +kernel

/-- Board 1205 at trim_pos, alone; with fire_delay 0; and with the fire of 1204 still armed. -/
theorem witness_LugEventArmsAndFires :
    (let s := lineWith line (committed 1205 0x70)
     s.takesLug = true ∧ s.brings s.lug.trimPos (slotOf 1205) = true ∧ s.lug.boards[slotOf 1205].state = .committed ∧
     s.lug.boards[slotOf 1205].final = some (finalWith 0x70) ∧ s.trim.armed = none ∧ 0 < s.trim.fireDelay ∧
     ({ s with trim := { s.trim with fireDelay := 0 } } : State).trim.fireDelay = 0) ∧
    (let s := { lineWith (lineWith line (committed 1205 0x70)) (committed 1204 3) with
       trim := { line.trim with armed := some { lug := 1204, saws := 3 } } }
     s.takesLug = true ∧ s.brings s.lug.trimPos (slotOf 1205) = true ∧ s.trim.armed = some { lug := 1204, saws := 3 } ∧
     (1204 : Word16) ≠ s.lug.boards[slotOf 1205].lug ∧ s.lookup 1204 = some (slotOf 1204) ∧
     s.lug.boards[slotOf 1204].state = .committed ∧ slotOf 1204 ≠ slotOf (s.lug.current + 1) ∧
     s.brings s.lug.dropPos (slotOf 1204) = false) ∧
    (line.takesLug = true ∧ line.trim.armed = none ∧ ∀ i, line.brings line.lug.trimPos i = false) ∧
    (let s := { lineWith (lineWith line (Board.blank 1205 .void)) (committed 1204 3) with
       trim := { line.trim with armed := some { lug := 1204, saws := 3 } } }
     s.takesLug = true ∧ s.lug.boards[slotOf 1205].state = .void ∧
     (∀ i, s.brings s.lug.trimPos i = true → i = slotOf 1205) ∧ s.lookup 1204 = some (slotOf 1204)) ∧
    (let s := { lineWith line (committed 1201 3) with trim := { line.trim with armed := some { lug := 1201, saws := 3 } } }
     s.takesLug = true ∧ (∀ i, s.brings s.lug.trimPos i = false) ∧ s.lookup 1201 = some (slotOf 1201) ∧
     s.brings s.lug.dropPos (slotOf 1201) = true) := by decide +kernel

/-- Table 7-4 at 666 ms: the late fire holds the saws of 1204, the fire of 1205 is armed, and ENCODER_SLIP is raised. -/
theorem test_lug_event_late_fire :
    let t := after .lugEvent { lineWith (lineWith line (committed 1205 0x30)) (committed 1204 0x13) with
       trim := { line.trim with armed := some { lug := 1204, saws := 0x13 } } }
    t.trim.armed = some { lug := 1205, saws := 0x30 } ∧ t.lug.boards[slotOf 1204].state = .trimmed ∧
    t.trim.channels = #v[some 250, some 250, none, none, some 250, none, none, none, none, none, none] ∧
    noticed t .encoderSlip = true := by decide +kernel

theorem witness_EncPulseCountsAndFires :
    State.reset.running = false ∧
    (let s := { line with lug := { line.lug with encCount := 39 }, trim := { line.trim with armed := some { lug := 1205, saws := 0x70 } } }
     s.running = true ∧ s.trim.armed = some { lug := 1205, saws := 0x70 } ∧
     min 65535 (s.lug.encCount + 1) = s.trim.fireDelay) ∧ line.trim.armed = none ∧
    min 65535 (line.lug.encCount + 1) ≠ line.trim.fireDelay := by decide

theorem witness_TimersTaken :
    ({ line with trim := { line.trim with channels := line.trim.channels.set 10 (some 250) } } : State).trim.channels[(10 : Fin 11)]
      ≠ none := by decide

/-- The line with H0 to H2 alone fitted. -/
def threeHeads : State := { line with head := { line.head with fitted := 7 } }

/-- An edge is not taken while PASSIVE with every head fitted, nor while RUNNING at an unfitted head. -/
theorem witness_edges_not_taken :
    (let s := { line with boot := { line.boot with condition := .passive } }
     s.running = false ∧ s.head.fitted.getLsbD 5 = true) ∧
    threeHeads.running = true ∧ threeHeads.head.fitted.getLsbD 3 = false ∧ threeHeads.head.fitted.getLsbD 2 = true := by decide

/-- R23: edges at unfitted H3 leave its context as it was, and one at fitted H2 does not. -/
theorem test_unfitted_edges :
    (after (.headPresentRise 3) threeHeads).head = threeHeads.head ∧ (after (.headReadyRise 3) threeHeads).head = threeHeads.head ∧
    (after (.headReadyFall 3) threeHeads).head = threeHeads.head ∧ (after (.headPresentFall 3) threeHeads).head = threeHeads.head ∧
    (after (.headPresentFall 2) threeHeads).head ≠ threeHeads.head := by decide +kernel

theorem witness_HeadLinesRise :
    line.running = true ∧ line.head.fitted.getLsbD 5 = true ∧
    (withHead line 5 { HeadCtx.reset with ready := true }).head.ctx[(5 : Fin 6)].state = .absent ∧
    (withHead line 5 (headIn .joining false false)).head.ctx[(5 : Fin 6)].state = .joining := by decide

theorem witness_HeadReadyFalls :
    line.running = true ∧ line.head.fitted.getLsbD 3 = true ∧ line.head.ctx[(3 : Fin 6)].state = .active ∧
    (withHead line 3 (headIn .waiting true true)).head.ctx[(3 : Fin 6)].state = .waiting ∧
    (withHead line 3 (headIn .parked true false)).head.ctx[(3 : Fin 6)].state = .parked ∧
    (let s := lineWith line (scanning 1214 0)
     ∃ i : Fin 32, s.lug.boards[i].state = .scanning ∧ s.lug.boards[i].expected.getLsbD 3 = true) ∧
    (∀ i : Fin 32, line.lug.boards[i].state ≠ .scanning) := by decide +kernel

/-- H3 is lost with board 1214 SCANNING, all other heads ended or not. -/
theorem witness_HeadPresentFalls :
    (let s := lineWith line (scanning 1214 0x37)
     s.running = true ∧ s.head.fitted.getLsbD 3 = true ∧ s.head.ctx[(3 : Fin 6)].state = .active ∧
     s.lug.boards[slotOf 1214].state = .scanning ∧ s.lug.boards[slotOf 1214].expected.getLsbD 3 = true) ∧
    (withHead line 3 (headIn .parked false false)).head.ctx[(3 : Fin 6)].state = .parked ∧
    (∀ i : Fin 32, line.lug.boards[i].state ≠ .scanning ∧ line.lug.boards[i].state ≠ .queued) ∧
    (let b := scanning 1214 0x37
     b.awaitsOnly 3 = true ∧ (scanning 1214 0x33).awaitsOnly 3 = false) := by decide +kernel

/-- Two boards that wait for H3 alone, with material beside it, and room for one of them. -/
def twoAwaiting : State :=
  { lineWith (lineWith line { scanning 1214 0x37 with acc := accs1207 }) { scanning 1213 0x37 with acc := accs1207 } with
    solv := { queue := [1210, 1211, 1212], solving := some 1209 } }

/-- The invariant, the boards the loss of H3 closes, and the room the queue has. -/
theorem witness_HeadPresentFalls_order :
    LineInv twoAwaiting ∧ twoAwaiting.closedByLoss 3 = [slotOf 1213, slotOf 1214] ∧ twoAwaiting.solv.room = 1 :=
  ⟨lineInv_of (by decide +kernel) (by decide +kernel) (by decide +kernel) (by decide +kernel) (by decide) (by decide),
    by decide +kernel, by decide⟩

/-- R29: the board of greatest lug position joins the solve queue first, and the other finds it full. -/
theorem test_head_lost_order :
    let t := after (.headPresentFall 3) twoAwaiting
    t.solv.queue = [1210, 1211, 1212, 1213] ∧ t.lug.boards[slotOf 1213].state = .queued ∧
    t.lug.boards[slotOf 1214].state = .solved ∧ t.lug.boards[slotOf 1214].flags.unsolved = true ∧
    noticed t .solveQueueFull = true := by decide +kernel

/-- Section 2.9: H3 pulled while ACTIVE joins lost on the two boards that expect it, and HEAD_LOST is raised. -/
theorem test_head_lost :
    let t := after (.headPresentFall 3) (lineWith (lineWith line (scanning 1214 0)) (scanning 1213 0))
    t.lug.boards[slotOf 1214].lost = 8 ∧ t.lug.boards[slotOf 1213].lost = 8 ∧
    t.lug.boards[slotOf 1213].flags.headLost = true ∧ noticed t .headLost = true ∧
    t.head.ctx[(3 : Fin 6)].state = .absent := by decide +kernel

/-- Table 2-6: the close that the last END brings parks H3. -/
theorem test_close_parks_head :
    let s := withHead (lineWith line { scanning 1214 0x3D with acc := accs1207 }) 3 (headIn .leaving true false)
    let sl : HeldSlice := { bytes := sliceBytes 2 1 1214 (List.replicate 8 0) (List.replicate 8 0), mark := true }
    let t := after (.sliceFold 1) { s with asm := { s.asm with held := s.asm.held.set 1 [sl] } }
    t.head.ctx[(3 : Fin 6)].state = .parked ∧ t.lug.boards[slotOf 1214].state = .solving ∧ t.asm.held[(1 : Fin 6)] = [] := by
  decide +kernel

/-- The part with one HELD slice of H1. -/
def holding (s : State) (bs : List Byte) (mark : Bool) : State :=
  { s with asm := { s.asm with held := s.asm.held.set 1 [{ bytes := bs, mark := mark }] } }

/-- An END of H1 for lug 1207. -/
def endSlice : List Byte := sliceBytes 2 1 1207 (List.replicate 8 0) (List.replicate 8 0)

/-- The premises of a slice used: a DATA slice, an END with another head outstanding, and the last END. -/
theorem witness_SliceFoldUses :
    ∀ c ∈ [(sliceA, (0 : HeadSet)), (endSlice, 0), (endSlice, 0x3D)],
      let s := holding (lineWith line (scanning 1207 c.2)) c.1 true
      s.running = true ∧ s.asm.held[(1 : Fin 6)] = { bytes := c.1, mark := true } :: [] ∧ xorAll c.1 = 0 ∧
      sliceHead c.1 = 1 ∧ s.lookup (sliceLug c.1) = some at1207 ∧ s.lug.boards[at1207].state = .scanning ∧
      s.lug.boards[at1207].expected.getLsbD 1 = true ∧ s.lug.boards[at1207].ended.getLsbD 1 = false ∧
      s.lug.boards[at1207].lost.getLsbD 1 = false ∧ (sliceKind c.1 = 1 ∨ sliceKind c.1 = 2) ∧
      ((s.lug.boards[at1207]).awaitsOnly 1 = true ↔ c.2 = 0x3D) ∧ s.solv.queue.length < 4 ∧
      4 ≤ ({ s with solv := { s.solv with queue := [1, 2, 3, 4] } } : State).solv.queue.length := by decide +kernel

/-- The premises of a slice not used: a failed check byte; a mark not set; and no board. -/
theorem witness_SliceFoldRejects :
    (let s := holding (lineWith line (scanning 1207 0)) (sliceA ++ [1]) true
     s.running = true ∧ s.asm.held[(1 : Fin 6)] = { bytes := sliceA ++ [1], mark := true } :: [] ∧
     xorAll (sliceA ++ [1]) ≠ 0) ∧
    xorAll sliceA = 0 ∧ sliceKind sliceA = 1 ∧ sliceHead sliceA = 1 ∧
    (holding (lineWith line (scanning 1207 0)) sliceA false).asm.held[(1 : Fin 6)] = [{ bytes := sliceA, mark := false }] ∧
    (holding line sliceA true).lookup (sliceLug sliceA) = none := by decide +kernel

/-- Table 3-5: the slice with a failed check byte. -/
theorem test_bad_slice :
    let t := after (.sliceFold 1) (holding (lineWith line (scanning 1207 0)) (sliceA ++ [1]) true)
    t.lug.boards[at1207].bad = #v[0, 1, 0, 0, 0, 0] ∧ noticed t .sliceCheck = true ∧
    t.lug.boards[at1207].acc[(2 : Fin 12)] = Acc.opening := by decide +kernel

/-- Table 4-10: the solve end of 603 with 604 waiting. -/
theorem witness_SolveEnds :
    let s := { lineWith (lineWith line { solved1207 with state := .solving }) { solved1207 with lug := 1208, state := .queued } with
      solv := { queue := [1208], solving := some 1207 } }
    s.running = true ∧ s.solv.solving = some 1207 ∧ s.lookup 1207 = some at1207 ∧ s.lug.boards[at1207].state = .solving ∧
    s.solv.queue.head? = some 1208 ∧ s.lookup 1208 = some (slotOf 1208) ∧ s.lug.boards[slotOf 1208].state = .queued := by
  decide +kernel

/-- Tables 1-3 and 4-10: the solve of board 1207 ends, and the next board of the queue is taken. -/
theorem test_solve_end :
    let t := after .solveEnd
      { lineWith (lineWith line { solved1207 with state := .solving, classes := Vector.replicate 12 none, solution := none })
          { solved1207 with lug := 1208, state := .queued } with solv := { queue := [1208], solving := some 1207 } }
    t.lug.boards[at1207].state = .solved ∧ t.lug.boards[at1207].classes = classes1207 ∧
    t.lug.boards[at1207].solution = some solution1207 ∧ t.lug.boards[slotOf 1208].state = .solving ∧
    t.solv = { queue := [], solving := some 1208 } := by decide +kernel

/-! ### The tally -/

/-- A bank with cell (G2, 4) at `n` pieces. -/
def tallyWith (st : TallyState) (n : Nat) : TallyBank :=
  { TallyBank.zeroed st with
      cells := (TallyBank.zeroed st).cells.set 16 { pieces := n, bf10 := 100 * n }, dropped := n }

/-- A snapshot of bank A with `n` image writes answered, carrying a request whose own write is answered or not. -/
def snapshotOf (n : Nat) (written : Bool) : TallyRequest :=
  { code := 2, bankField := 1, writeAnswered := written, status := none
    snapshot := some { bank := .a, answered := n, error := false } }

/-- A board offered to the tally. -/
def someOffer : TallyOffer := offerOf (finalWith 0x70) BoardFlags.clear

/-- The line at the drop of the TRIMMED board 1201 with the tally given. -/
def dropping (t : Tally) : State := { lineWith line (trimmed 1201) with tally := t }

/-- Table 8-6: the last piece that fits, and the one that does not, with bank B CLOSED and EMPTY. -/
theorem test_tally_overflow :
    (let t := after .lugEvent (dropping { Tally.reset with bankA := tallyWith .opened 16777214, bankB := tallyWith .closed 5 })
     t.tally.bankA.cells[(16 : Fin 96)] = { pieces := 16777215, bf10 := 1677721500 } ∧ t.tally.stranded = 0 ∧
     t.lug.boards[slotOf 1201].state = .free) ∧
    (let t := after .lugEvent (dropping { Tally.reset with bankA := tallyWith .opened 16777215, bankB := tallyWith .closed 5 })
     t.tally.bankA.state = .full ∧ t.tally.stranded = 1 ∧ noticed t .tallyFull = true ∧ noticed t .tallyStranded = true) ∧
    (let t := after .lugEvent (dropping { Tally.reset with bankA := tallyWith .opened 16777215 })
     t.tally.bankA.state = .full ∧ t.tally.stranded = 0 ∧ t.tally.bankB.state = .opened ∧
     t.tally.bankB.cells[(16 : Fin 96)] = { pieces := 1, bf10 := 100 }) := by decide +kernel

/-- Table 8-7: a drop while the OPEN bank is under snapshot. -/
theorem test_tally_hold :
    let t := after .lugEvent (dropping { Tally.reset with request := some (snapshotOf 0 true) })
    t.tally.holding = [someOffer] ∧ t.tally.bankA.dropped = 0 := by decide +kernel

/-- Section 12.8: cell (G2, 4) at image offset 160. -/
theorem test_image_cell :
    ((imageBytes .a (tallyWith .full 16777215)).drop 160).take 8 = [0xFF, 0xFF, 0xFF, 0, 0x9C, 0xFF, 0xFF, 0x63] ∧
    (imageBytes .a (tallyWith .full 16777215)).length = 800 := by decide +kernel

theorem witness_LugEventDrops :
    (∀ st ∈ [BoardState.trimmed, .void],
      let s := lineWith line { trimmed 1201 with state := st }
      s.takesLug = true ∧ s.brings s.lug.dropPos (slotOf 1201) = true ∧ s.lug.boards[slotOf 1201].state = st ∧
      s.lug.boards[slotOf 1201].final = some (finalWith 0x70)) ∧
    (Tally.reset.openBank = some .a ∧ Tally.reset.underSnapshot = none ∧ Tally.reset.bankA.fits someOffer = true) ∧
    (let t := { Tally.reset with request := some (snapshotOf 0 true) }
     t.openBank = some .a ∧ t.underSnapshot = some .a ∧ t.holding.length < 4 ∧
     4 ≤ ({ t with holding := List.replicate 4 someOffer } : Tally).holding.length) ∧
    ({ Tally.reset with bankA := TallyBank.zeroed .full } : Tally).openBank = none ∧
    (let t := { Tally.reset with bankA := tallyWith .opened 16777215 }
     t.openBank = some .a ∧ t.underSnapshot = none ∧ t.bankA.fits someOffer = false ∧ t.bankB.state = .empty ∧
     ({ t with bankB := tallyWith .closed 5 } : Tally).bankB.state ≠ .empty) ∧
    (let q := { snapshotOf 0 true with bankField := 2, snapshot := some { bank := .b, answered := 0, error := false } }
     let t := { Tally.reset with bankA := tallyWith .opened 16777215, request := some q }
     t.openBank = some .a ∧ t.underSnapshot = some .b ∧ t.bankA.fits someOffer = false ∧ t.bankB.state = .empty ∧
     t.holding.length < 4) ∧
    (let s := { lineWith line (committed 1201 3) with trim := { line.trim with armed := some { lug := 1201, saws := 3 } } }
     s.takesLug = true ∧ s.brings s.lug.dropPos (slotOf 1201) = true ∧ s.lug.boards[slotOf 1201].state = .committed ∧
     s.lookup 1201 = some (slotOf 1201) ∧ s.lug.boards[slotOf 1201].final = some (finalWith 3)) ∧
    someOffer.lengthIdx < 12 := by decide +kernel

/-- R149, R158: the board that does not fit is handed over to the bank under snapshot, and held for it. -/
theorem test_tally_hand_over :
    let q := { snapshotOf 0 true with bankField := 2, snapshot := some { bank := .b, answered := 0, error := false } }
    let t := after .lugEvent (dropping { Tally.reset with bankA := tallyWith .opened 16777215, request := some q })
    t.tally.bankA.state = .full ∧ t.tally.bankB.state = .opened ∧ t.tally.holding = [someOffer] ∧
    t.tally.bankB.dropped = 0 := by decide +kernel

/-! ### The memory path -/

/-- One transaction in flight, READY. -/
def ready (s : State) (x : Txn) : State := { s with path := { s.path with flight := [{ txn := x, state := .ready }] } }

/-- A word of the control block written alone. -/
def ctrlWrite (src : Fin 16) (off n : Nat) : Txn := writeTo src (0x1000 + off) (leBytes 4 n)

/-- A memory that holds a byte, and the part with it. -/
def withByte (s : State) : State := { s with mem := [(0x1000, 7)] }

theorem witness_UpstreamAccepts :
    booting.boot.condition ≠ .deviceReset ∧ line.path.flight.length < 8 ∧
    64 < txnStart (readFrom 0 56 2) % 64 + 8 * 2 ∧ txnStart (readFrom 0 56 1) % 64 + 8 * 1 ≤ 64 ∧
    (∃ u ∈ (ready line (readFrom 0 0 1)).path.flight, u.txn.source = 0 ∧ u.state = .ready) ∧
    (pendingOwn line.path).countP
      (fun k => k.isWrite && decide (lineOf (ownStart line k) = lineOf (txnStart (readFrom 0 0x1000 1)))) = 0 ∧
    (let s := { line with path := { line.path with queue := [.notice, .lineStatus, .headStatus 0] } }
     (pendingOwn s.path).countP
       (fun k => k.isWrite && decide (lineOf (ownStart s k) = lineOf (txnStart (readFrom 0 0x1000 1)))) = 2) := by decide

/-- R175: a read of NOTICE is HELD behind the two own writes pending on its line. -/
theorem test_hold :
    (after (.upstreamAccept (readFrom 0 0x1000 1))
      { line with path := { line.path with queue := [.notice, .lineStatus, .headStatus 0] } }).path.flight.map (·.state) =
      [.held 2] := by decide +kernel

theorem witness_ArbiterGrantsOwn :
    (let s := { ready line (readFrom 0 0 1) with
       path := { (ready line (readFrom 0 0 1)).path with queue := [.notice, .lineStatus] } }
     s.path.queue = .notice :: [.lineStatus] ∧ s.path.lastGranted = .forwarded ∧ OwnTxn.notice.isWrite = true) ∧
    (let s := { line with path := { line.path with queue := [.ovrFetch 3], lastGranted := .own } }
     s.path.queue = .ovrFetch 3 :: [] ∧ (∀ u ∈ s.path.flight, u.state ≠ .ready) ∧ (OwnTxn.ovrFetch 3).isWrite = false) := by
  decide

/-- Table 9-5: a NOTICE write is issued with the word as it stands. -/
theorem test_own_issue :
    (after .arbiterGrantOwn { line with note := { word := 0x8010, enable := 0 }, path := { line.path with queue := [.notice] } }
      ).path.down.map (fun d => (d.wire.start, (d.wire.lanes.filter (·.strobe)).map (·.data))) =
      [(0x1000, [0x10, 0x80, 0, 0])] := by decide +kernel

/-- One upstream transaction of source 0 IN_MEMORY. -/
def inMemory (s : State) (x : Txn) : State :=
  { s with path := { s.path with
      flight := [{ txn := x, state := .inMemory false }], down := [downAs x x.lanes false false] } }

theorem witness_MemoryAnswers :
    ∀ x ∈ [ctrlWrite 0 0x30 5, readFrom 0 0x1030 1],
      let s := withByte (inMemory line x)
      s.path.down = { origin := .forwarded 0 false false
                      wire := { kind := x.kind, start := 0x1030, beats := 1, lanes := x.lanes } } :: [] ∧
      s.path.flight = [] ++ { txn := x, state := .inMemory false } :: [] ∧ x.source = 0 ∧ s.mem.wf = true := by decide +kernel

/-- The forwarded write that began a batch or carries a tally request, with the batch, and the request in each of its states. -/
theorem witness_MemoryAnswers_blocks :
    (∀ f ∈ [(true, false), (false, true)],
      let s := { inMemory line (ctrlWrite 0 0x10 1) with path := { (inMemory line (ctrlWrite 0 0x10 1)).path with
        down := [downAs (ctrlWrite 0 0x10 1) (ctrlWrite 0 0x10 1).lanes f.1 f.2] } }
      s.path.down = { origin := .forwarded 0 f.1 f.2
                      wire := { kind := .write, start := 0x1010, beats := 1, lanes := (ctrlWrite 0 0x10 1).lanes } } :: []) ∧
    ({ line with ovr := { line.ovr with batch := some { stop := 45, index := 40 } } } : State).ovr.batch =
      some { stop := 45, index := 40 } ∧
    (requestTaken 1 (some .ok) none).status = some .ok ∧ (requestTaken 0x12 none none).status = none ∧
    line.tally.request = none := by decide +kernel

/-- R153: the answer of the request write of a CLOSE_SHIFT completes it. -/
theorem test_tally_completion :
    let s := inMemory line (ctrlWrite 0 0x10 1)
    let t := after (.memoryAnswer true) { s with
      path := { s.path with down := [downAs (ctrlWrite 0 0x10 1) (ctrlWrite 0 0x10 1).lanes false true] }
      tally := { Tally.reset with request := some (requestTaken 1 (some .ok) none) } }
    t.tally.request = none ∧ t.path.queue = [.notice, .tallyStatus, .tallyCompletion 0x101] ∧
    noticed t .tallyRequestDone = true := by decide +kernel

/-- A lane that no write strobes. -/
theorem unstrobed (w : Wire) (a : Nat) (h : (w.lanes[a - w.start]?.map (·.strobe)).getD false = false) (j : Nat)
    (hj : a = w.start + j) : (w.lanes[j]?.map (·.strobe)).getD false = false := by
  subst hj; simpa using h

/-- The lanes of a word written at 0x1030 strobe offsets 0 to 3 and not offset 4. -/
theorem witness_MemoryAnswers_bytes :
    let w := (downAs (ctrlWrite 0 0x30 5) (ctrlWrite 0 0x30 5).lanes false false).wire
    w.lanes[3]? = some { strobe := true, data := 0 } ∧
    ∀ j : Nat, 0x1034 = w.start + j → (w.lanes[j]?.map (·.strobe)).getD false = false :=
  ⟨by decide +kernel, fun j hj => unstrobed _ 0x1034 (by decide +kernel) j hj⟩

theorem witness_DeviceResetDropsAll :
    ∀ d ∈ (inMemory line (ctrlWrite 0 0x30 5)).path.down, d.wire.kind = .write → ∀ j : Nat, 0x1034 = d.wire.start + j →
      (d.wire.lanes[j]?.map (·.strobe)).getD false = false := by
  intro d hd _ j hj
  simp only [inMemory, List.mem_singleton] at hd
  subst hd
  exact unstrobed _ 0x1034 (by decide +kernel) j hj

/-- An own transaction in flight downstream. -/
def ownDown (s : State) (k : OwnTxn) : State :=
  { s with path := { s.path with down := [{ origin := .own k, wire := ownWire s k }] } }

theorem witness_OwnTransactionAnswered :
    (let s := withByte (ownDown line .notice)
     s.path.down = { origin := .own .notice, wire := ownWire line .notice } :: [] ∧ s.mem.wf = true ∧
     (ownWire line .notice).kind = .write ∧ (ownWire line .notice).lanes[3]? = some { strobe := true, data := 0 } ∧
     OwnTxn.notice.isStatusWord = true) ∧
    (∀ j : Nat, 0x1004 = (ownWire line .notice).start + j →
      ((ownWire line .notice).lanes[j]?.map (·.strobe)).getD false = false) :=
  ⟨by decide +kernel, fun j hj => unstrobed _ 0x1004 (by decide +kernel) j hj⟩

/-- A batch from index 40 to 45 with the entry at index `i` worked on and `n` status writes out. -/
def batchAt (i : Word16) (n : Nat) (data : Option (Option (List Byte))) : State :=
  { line with ovr := { ringSize := 32, consumer := 40, batch := some { stop := 45, index := i }, fetched := data, statusOut := n } }

/-- A decision record of board 1207. -/
def record1207 : DecRecord :=
  { lug := 1207, decision := solution1207, flags := BoardFlags.clear, bank := .a, station := none, classes := classes1207
    product := 0x26 }

theorem witness_OwnAnswerReachesBlock :
    (∀ k ∈ [OwnTxn.ovrFetch 8, .ovrStatus 12 1, .decRecord 2 record1207.bytes, .decProducer 1 true],
      (ownDown line k).path.down = { origin := .own k, wire := ownWire line k } :: []) ∧
    ((batchAt 45 1 none).ovr.batch = some { stop := 45, index := 45 } ∧ (batchAt 45 1 none).ovr.statusOut = 1) ∧
    ((batchAt 43 2 none).ovr.batch = some { stop := 45, index := 43 } ∧ (43 : Word16) ≠ 45 ∧
      1 ≤ (batchAt 43 2 none).ovr.statusOut) ∧
    (let d := { line.dec with list := [record1207] }
     d.writing = none ∧ (d.producer - d.consumerShadow).toNat < d.ringSize ∧ d.list = record1207 :: []) ∧
    (let s := { line with tally := { Tally.reset with request := some (snapshotOf 12 true) } }
     (ownDown s (.imageLine .a 12 [])).path.down = { origin := .own (.imageLine .a 12 []), wire := ownWire s (.imageLine .a 12 []) }
       :: [] ∧ s.tally.request = some (snapshotOf 12 true) ∧
     (snapshotOf 12 true).snapshot = some { bank := .a, answered := 12, error := false } ∧
     (snapshotOf 12 true).writeAnswered = true ∧ (snapshotOf 12 false).writeAnswered = false ∧
     (snapshotOf 3 true).snapshot = some { bank := .a, answered := 3, error := false }) := by decide +kernel

/-- Table 6-3, last row: the last status write answered ends the batch. -/
theorem test_batch_end :
    let t := after (.ownTransactionAnswer true) (ownDown (batchAt 45 1 none) (.ovrStatus 12 4))
    t.ovr.batch = none ∧ t.ovr.consumer = 45 ∧ noticed t .overridesDone = true ∧
    t.path.queue = [.notice, .ovrConsumer 45] ∧ t.mem = [(0x6067, 4)] := by decide +kernel

/-- Table 8-7, last row: the snapshot end drains the holding list and completes the request. -/
theorem test_snapshot_end :
    let t := after (.ownTransactionAnswer true) (ownDown
      { line with tally := { Tally.reset with holding := [someOffer], request := some (snapshotOf 12 true) } }
      (.imageLine .a 12 []))
    t.tally.bankA.dropped = 1 ∧ t.tally.holding = [] ∧ t.tally.request = none ∧
    noticed t .tallyRequestDone = true := by decide +kernel

theorem witness_ForwardedSideGranted :
    (let x := readFrom 0 0x1000 1
     (ready line x).forwardedTurn = some x ∧ x.kind = .read) ∧
    (let x := writeTo 0 0x9000 [1]
     (ready line x).forwardedTurn = some x ∧ (ready line x).running = true ∧ (ready line x).decode x = none) ∧
    (let x := ctrlWrite 0 0 1
     let passive := { line with boot := { line.boot with condition := .passive } }
     (ready passive x).forwardedTurn = some x ∧ (ready passive x).boot.condition = .passive ∧
     (ready booting x).forwardedTurn = some x ∧ (ready booting x).boot.condition = .booting ∧ x.kind = .write) := by
  decide +kernel

theorem witness_EveryGrantHasARow :
    (ready line (readFrom 0 0x1000 1)).forwardedTurn = some (readFrom 0 0x1000 1) := by decide +kernel

/-! ### Grants of the forwarded side -/

/-- The part with one source trapped by RANGE. -/
def trappedSource (s : State) (i : Fin 16) : State :=
  { s with src := { s.src with ctx := s.src.ctx.set i { s.src.ctx[i] with trapped := true, range := true } } }

/-- The part with source `i`'s retry count at `n`. -/
def retried (s : State) (i : Fin 16) (n : Nat) : State :=
  { s with src := { s.src with ctx := s.src.ctx.set i { s.src.ctx[i] with retries := n } } }

/-- A partial word; a trapped source; an owned word and an owned aperture; a source outside a mask, a ring of another
source and a reserved word; a bound bank. -/
theorem witness_ProtectionRefuses :
    (let x := writeTo 9 0x1028 [1, 2]
     (ready line x).grantsInto x .ctrl 0x28 = true ∧ wholeWords x.lanes = false) ∧
    (let x := ctrlWrite 9 0x28 130
     let s := trappedSource line 9
     (ready s x).grantsInto x .ctrl 0x28 = true ∧ wholeWords x.lanes = true ∧
     s.src.ctx[(9 : Fin 16)].trapped = true ∧ (9 : Fin 16) ≠ s.src.control) ∧
    (let x := ctrlWrite 9 0x24 1
     (ready line x).grantsInto x .ctrl 0x20 = true ∧ wholeWords x.lanes = true ∧
     ctrlWords 0x20 x = [(.decProducer, 1)] ∧ CtrlWord.decProducer.owned = true) ∧
    (let x := writeTo 9 0x7000 [1]
     (ready line x).grantsInto x .dec 0 = true) ∧
    (let x := writeTo 9 0x3000 (leBytes 4 1)
     (ready line x).grantsInto x .planB 0 = true ∧ wholeWords x.lanes = true ∧
     line.src.mask .planB = some 1 ∧ (1 : SourceSet).getLsbD 9 = false) ∧
    (let x := writeTo 2 0x4400 (List.replicate 64 0)
     (ready line x).grantsInto x .scan 0x400 = true ∧ line.src.headSource[ringOf line.path.scanSlots 0x400] = 3) ∧
    (let x := ctrlWrite 9 8 1
     (ready line x).grantsInto x .ctrl 8 = true ∧ ctrlWords 8 x = [(.planSelect, 1)] ∧ CtrlWord.planSelect.reserved = true) ∧
    (let x := writeTo 0 0x2000 (leBytes 4 1)
     (ready line x).grantsInto x .planA 0 = true ∧ wholeWords x.lanes = true ∧ (1 : SourceSet).getLsbD 0 = true ∧
     line.plan.bound .a = true) := by decide +kernel

/-- Table 10-4: a word of PLAN_B by source 9 traps it; trapped, its DEC_CONSUMER write is refused with no cause added. -/
theorem test_trap :
    (let x := writeTo 9 0x3000 (leBytes 4 1)
     let t := after .planBankWrite (ready line x)
     t.src.ctx[(9 : Fin 16)] = { SourceCtx.reset with trapped := true, range := true } ∧ noticed t .sourceTrapped = true ∧
     t.path.down = [] ∧ t.path.flight = []) ∧
    (let x := ctrlWrite 9 0x28 130
     let t := after .apertureWrite (ready (trappedSource line 9) x)
     t.src.ctx[(9 : Fin 16)] = { SourceCtx.reset with trapped := true, range := true } ∧
     noticed t .sourceTrapped = false) := by decide +kernel

theorem witness_ApertureWriteForwards :
    (let x := writeTo 9 0x6040 (leBytes 4 1)
     (ready line x).grantsInto x .ovr 0x40 = true ∧ line.src.maskOvr.getLsbD 9 = true ∧ wholeWords x.lanes = true ∧
     line.src.ctx[(9 : Fin 16)].trapped = false) ∧
    (let x := ctrlWrite 9 0x30 1
     (ready line x).grantsInto x .ctrl 0x30 = true ∧ line.src.maskCtrl.getLsbD 9 = true ∧
     ∀ p ∈ ctrlWords 0x30 x, p.1 = .unlisted) ∧
    (let x := ctrlWrite 0 0x18 2
     (ready line x).forwardsCtrl x 0x18 = true ∧ writesAlone 0x18 x .lineRestart 2 = true) ∧
    (let x := ctrlWrite 0 0x4C 0
     (ready line x).forwardsCtrl x 0x48 = true ∧ writesAlone 0x48 x (.headCommand 3) 0 = true) := by decide +kernel

/-- R207: LINE_RESTART written with 2 reaches memory as 0 and requests nothing. -/
theorem test_line_restart_unknown :
    let t := after .apertureWrite (ready line (ctrlWrite 0 0x18 2))
    t.restart = line.restart ∧ t.path.down.map (fun d => (d.wire.lanes.take 4).map (·.data)) = [[0, 0, 0, 0]] := by decide +kernel

theorem witness_PlanBankWritten :
    (let x := writeTo 0 0x3000 (leBytes 4 0x06080026)
     (ready line x).grantsInto x .planB 0 = true ∧ wholeWords x.lanes = true ∧
     line.src.ctx[(0 : Fin 16)].trapped = false ∧ line.src.maskPlanB.getLsbD 0 = true ∧ line.plan.bound .b = false) ∧
    (let x := writeTo 0 0x20CC (leBytes 4 1)
     let s := { line with plan := { line.plan with active := none } }
     (ready s x).grantsInto x .planA 0xC8 = true ∧ s.src.maskPlanA.getLsbD 0 = true ∧ s.plan.bound .a = false) := by
  decide +kernel

/-- R92: the word at offset 0xCC of a bank is in its shadow, and the word at 0xD0 is not. -/
theorem test_plan_bank_write :
    (after .planBankWrite (ready line (writeTo 0 0x30CC (leBytes 4 0xAABBCCDD)))).plan.bankB.shadow =
      ((((Vector.replicate 208 0).set 204 0xDD).set 205 0xCC).set 206 0xBB).set 207 0xAA ∧
    (after .planBankWrite (ready line (writeTo 0 0x30D0 (leBytes 4 0xAABBCCDD)))).plan = line.plan := by decide +kernel

theorem witness_PlanSelected :
    ∀ n ∈ [0, 1, 2, 3],
      let x := ctrlWrite 0 8 n
      (ready line x).forwardsCtrl x 8 = true ∧ writesOnce 8 x .planSelect (BitVec.ofNat 32 n) = true ∧
      writesAlone 8 x .planSelect (BitVec.ofNat 32 n) = true := by decide +kernel

/-- Table 5-4: PLAN_SELECT 2 sets bank B pending; naming the active bank A cancels it (Table 5-2). -/
theorem test_plan_select :
    (after .planSelect (ready line (ctrlWrite 0 8 2))).plan.pendingBank = some .b ∧
    (after .planSelect (ready { line with plan := { line.plan with pendingBank := some .b } } (ctrlWrite 0 8 1))
      ).plan.pendingBank = none := by decide +kernel

/-- A whole slice of H0 written by its source. -/
def sliceTxn : Txn := writeTo 2 0x4000 (sliceBytes 1 0 1207 (List.replicate 8 374) (List.replicate 8 200))

/-- Not a whole slice; a head that does not serve; free credit; no credit; an exhausted source. -/
theorem witness_SliceWritten :
    (let x := writeTo 2 0x4000 [1]
     (ready line x).grantsInto x .scan 0 = true ∧ x.source = line.src.headSource[ringOf line.path.scanSlots 0] ∧
     x.beats ≠ 8) ∧
    (ready line sliceTxn).grantsInto sliceTxn .scan 0 = true ∧ sliceTxn.source = line.src.headSource[ringOf line.path.scanSlots 0] ∧
    line.src.ctx[sliceTxn.source].trapped = false ∧ sliceTxn.beats = 8 ∧ sliceTxn.lanes.length = 64 ∧
    (∀ l ∈ sliceTxn.lanes, l.strobe = true) ∧ ringOf line.path.scanSlots 0 = 0 ∧
    line.head.ctx[(0 : Fin 6)].state = .active ∧ line.asm.held[(0 : Fin 6)].length < line.asm.granted[(0 : Fin 6)] ∧
    (withHead line 0 (headIn .parked true false)).head.ctx[(0 : Fin 6)].state = .parked ∧
    (let s := { line with asm := Assembler.reset }
     ¬ s.asm.held[(0 : Fin 6)].length < s.asm.granted[(0 : Fin 6)]) ∧
    0 < (retried line 2 3).src.maxRetry ∧ (retried line 2 3).src.maxRetry ≤ (retried line 2 3).src.ctx[(2 : Fin 16)].retries ∧
    ¬ line.src.maxRetry ≤ line.src.ctx[(2 : Fin 16)].retries := by decide +kernel

/-- Table 3-7: without free credit the write is answered RETRY and counted; from an exhausted source it is given up. -/
theorem test_slice_retry_and_give_up :
    (let t := after .sliceWrite (ready { line with asm := Assembler.reset } sliceTxn)
     t.src.ctx[(2 : Fin 16)].retries = 1 ∧ t.path.down = [] ∧ t.path.flight = []) ∧
    (let t := after .sliceWrite (ready (retried (lineWith line (scanning 1207 0)) 2 3) sliceTxn)
     t.src.ctx[(2 : Fin 16)].retries = 0 ∧ t.src.ctx[(2 : Fin 16)].mark = true ∧ t.asm = line.asm ∧
     noticed t .sliceDiscarded = true ∧ t.lug.boards[at1207].bad = #v[1, 0, 0, 0, 0, 0]) := by decide +kernel

/-- HEAD_COMMAND of H3 with 1, 2 and 3, and the states of Tables 2-3 and 2-4. -/
theorem witness_HeadCommandsTaken :
    (∀ n ∈ [1, 2, 3],
      let x := ctrlWrite 0 0x4C n
      (ready line x).forwardsCtrl x 0x48 = true ∧ writesOnce 0x48 x (.headCommand 3) (BitVec.ofNat 32 n) = true ∧
      writesAlone 0x48 x (.headCommand 3) (BitVec.ofNat 32 n) = true) ∧
    (∀ st ∈ [HeadState.absent, .joining, .waiting, .active, .leaving, .parked], ∀ r a : Bool,
      (withHead line 3 (headIn st r a)).head.ctx[(3 : Fin 6)].state = st ∧
      (withHead line 3 (headIn st r a)).head.ctx[(3 : Fin 6)].ready = r ∧
      (withHead line 3 (headIn st r a)).head.ctx[(3 : Fin 6)].admitPending = a) ∧
    (let s := lineWith line (scanning 1214 0)
     ∃ i : Fin 32, s.lug.boards[i].state = .scanning ∧ s.lug.boards[i].expected.getLsbD 3 = true) ∧
    (∀ i : Fin 32, line.lug.boards[i].state ≠ .scanning) := by decide +kernel

/-- Tables 2-3 and 2-6: RELEASE of the ACTIVE H3 that a board expects; ADMIT of the WAITING H3. -/
theorem test_head_commands :
    (let t := after (.release 3) (ready (lineWith line (scanning 1214 0)) (ctrlWrite 0 0x4C 2))
     t.head.ctx[(3 : Fin 6)] = { activeHead with state := .leaving, last := .accepted } ∧ noticed t .headLeaving = true) ∧
    (let t := after (.admitHead 3) (ready (withHead line 3 (headIn .waiting true false)) (ctrlWrite 0 0x4C 1))
     t.head.ctx[(3 : Fin 6)] = { headIn .waiting true true with last := .accepted }) := by decide +kernel

theorem witness_NoticeWordsWritten :
    (let x := ctrlWrite 0 0 0x10
     (ready line x).forwardsCtrl x 0 = true ∧ writesAlone 0 x .notice 0x10 = true) ∧
    (let x := ctrlWrite 0 4 0x3FFFF
     (ready line x).forwardsCtrl x 0 = true ∧ writesOnce 0 x .noticeEnable 0x3FFFF = true ∧
     writesAlone 0 x .noticeEnable 0x3FFFF = true) := by decide +kernel

/-- Table 9-5, last rows: clearing SLICE_CHECK leaves ENCODER_SLIP, in the part and in memory's data. -/
theorem test_notice_clear :
    let t := after .notice (ready { line with note := { word := 0x8010, enable := 0x3FFFF } } (ctrlWrite 0 0 0x10))
    t.note.word = 0x8000 ∧ t.noticeAsserted = true ∧
    t.path.down.map (fun d => (d.wire.lanes.take 4).map (·.data)) = [[0, 0x80, 0, 0]] := by decide +kernel

theorem witness_TrapsCleared :
    let x := ctrlWrite 0 0x2C 0x0200
    (ready (trappedSource line 9) x).forwardsCtrl x 0x28 = true ∧ writesOnce 0x28 x .trapClear 0x0200 = true ∧
    writesAlone 0x28 x .trapClear 0x0200 = true ∧ (0x0200 : Word32).getLsbD 9 = true := by decide +kernel

/-- Table 10-4: TRAP_CLEAR with bit 9 frees source 9 and counts for source 0; memory gets 0. -/
theorem test_trap_clear :
    let t := after .trapClear (ready (trappedSource line 9) (ctrlWrite 0 0x2C 0x0200))
    t.src.ctx[(9 : Fin 16)] = SourceCtx.reset ∧ t.src.ctx[(0 : Fin 16)].accepted = 1 ∧
    t.path.down.map (fun d => (d.wire.lanes.drop 4).map (·.data)) = [[0, 0, 0, 0]] := by decide +kernel

/-- IDLE with a count of 33, 0 and 5; BUSY with a source that is exhausted and one that is not. -/
theorem witness_OverrideProducerWritten :
    let idle := { line with ovr := { line.ovr with consumer := 40 } }
    (∀ s ∈ [idle, batchAt 40 0 none, retried (batchAt 40 0 none) 9 3], ∀ n ∈ [73, 40, 45],
      let x := ctrlWrite 9 0x1C n
      (ready s x).grantsInto x .ctrl 0x18 = true ∧ wholeWords x.lanes = true ∧ s.src.ctx[(9 : Fin 16)].trapped = false ∧
      s.src.maskCtrl.getLsbD 9 = true ∧ writesAlone 0x18 x .ovrProducer (BitVec.ofNat 32 n) = true) ∧
    idle.ovr.batch = none ∧ idle.ovr.ringSize < ((73 : Word16) - idle.ovr.consumer).toNat ∧
    ((72 : Word16) - idle.ovr.consumer).toNat ≤ idle.ovr.ringSize ∧ ((40 : Word16) - idle.ovr.consumer).toNat = 0 ∧
    (batchAt 40 0 none).ovr.batch ≠ none ∧ ¬ line.src.maxRetry ≤ line.src.ctx[(9 : Fin 16)].retries ∧
    (let s := retried (batchAt 40 0 none) 9 3
     0 < s.src.maxRetry ∧ s.src.maxRetry ≤ s.src.ctx[(9 : Fin 16)].retries ∧
     ∀ u ∈ (ready s (ctrlWrite 9 0x1C 45)).path.flight, u.state = .ready) := by decide +kernel

/-- R108, R111: a producer value taken while IDLE begins a batch; while BUSY the write is answered RETRY. -/
theorem test_ovr_producer :
    (after .ovrProducer (ready { line with ovr := { line.ovr with consumer := 40 } } (ctrlWrite 9 0x1C 45))).ovr.batch =
      some { stop := 45, index := 40 } ∧
    (let t := after .ovrProducer (ready (batchAt 40 0 none) (ctrlWrite 9 0x1C 46))
     t.src.ctx[(9 : Fin 16)].retries = 1 ∧ t.path.down = [] ∧ t.ovr = (batchAt 40 0 none).ovr) := by decide +kernel

/-- The bytes of an override entry. -/
def entryBytes (n : Nat) (kind grade first last station : Byte) : List Byte :=
  leBytes 2 n ++ [kind, grade, first, last, station, 0]

/-- The batch with its entry 40 fetched: FORCE_TRIM 0..3 of 1207 by station 2 (Table 6-2). -/
def fetched40 : State := batchAt 40 0 (some (some (entryBytes 1207 3 0 0 3 2)))

/-- An entry usable against a board in each state, one malformed, one unreadable, one without a board; a trim that a SOLVED
board refuses. -/
theorem witness_OverrideEntryTaken :
    fetched40.running = true ∧ fetched40.path.statusWaiting = false ∧ fetched40.ovr.batch = some { stop := 45, index := 40 } ∧
    fetched40.ovr.fetched = some (some (entryBytes 1207 3 0 0 3 2)) ∧ (40 : Word16) + 1 ≠ 45 ∧
    (entryOf (entryBytes 1207 3 0 0 3 2)).malformed = false ∧ (entryOf (entryBytes 1207 2 9 0 0 2)).malformed = true ∧
    fetched40.lookup 1207 = none ∧
    (∀ st ∈ [BoardState.void, .scanning, .queued, .solving, .solved, .committed, .trimmed],
      (lineWith fetched40 { solved1207 with state := st }).lookup 1207 = some at1207 ∧
      (lineWith fetched40 { solved1207 with state := st }).lug.boards[at1207].state = st) ∧
    validSet classes1207 (some solution1207) (setAfter [] (entryOf (entryBytes 1207 3 0 0 3 2))) = true ∧
    validSet classes1207 (some solution1207) (setAfter [] (entryOf (entryBytes 1207 3 0 5 7 2))) = false := by decide +kernel

/-- Table 6-3: entry 40 is APPLIED to the SOLVED board 1207. -/
theorem test_entry_applied :
    let t := after .overrideEntryTake (lineWith fetched40 { solved1207 with overrides := [gradeBy .g1 1], station := some 1 })
    t.lug.boards[at1207].overrides = [gradeBy .g1 1, trimBy 0 3 2] ∧ t.lug.boards[at1207].station = some 2 ∧
    t.path.queue = [.ovrStatus 8 1, .ovrFetch 9] := by decide +kernel

/-- R172: with the queue full, a second empty batch adds no second waiting OVR_CONSUMER; the waiting one carries the newer
value. -/
theorem test_waits_once :
    let full := { line.path with queue := List.replicate 16 (.ovrFetch 0), waiting := [.notice, .ovrConsumer 40] }
    ((full.request (.ovrConsumer 41)).request .notice).waiting = [.notice, .ovrConsumer 41] := by decide +kernel

theorem witness_DecisionConsumerWritten :
    let d := { line.dec with producer := 114, consumerShadow := 98, list := [record1207] }
    (let x := ctrlWrite 9 0x28 101
     (ready { line with dec := d } x).forwardsCtrl x 0x28 = true ∧ writesOnce 0x28 x .decConsumer 101 = true ∧
     writesAlone 0x28 x .decConsumer 101 = true) ∧
    (d.producer - 97).toNat > d.ringSize ∧ (d.producer - 98).toNat = d.ringSize ∧ (d.producer - 101).toNat < d.ringSize ∧
    d.writing = none ∧ d.announcing = false ∧ d.list = record1207 :: [] ∧ line.dec.list = [] := by decide +kernel

/-- Table 7-8: DEC_CONSUMER 101 is taken and the oldest record placed in slot 2; 120, past the producer 117, is ignored. -/
theorem test_dec_consumer :
    (let t := after .decConsumer
      (ready { line with dec := { line.dec with producer := 114, consumerShadow := 98, list := [record1207] } } (ctrlWrite 9 0x28 101))
     t.dec.consumerShadow = 101 ∧ t.dec.producer = 115 ∧ t.dec.list = [] ∧
     t.dec.writing = some { record := record1207, slot := 2 }) ∧
    (after .decConsumer (ready { line with dec := { line.dec with producer := 117, consumerShadow := 101 } }
      (ctrlWrite 9 0x28 120))).dec.consumerShadow = 101 := by decide +kernel

/-- Each code and bank field, and the bank states of Tables 8-3 and 8-5. -/
theorem witness_TallyRequestsTaken :
    (∀ n ∈ [0x00, 0x01, 0x02, 0x03, 0x04, 0x12, 0x13, 0x22, 0x23, 0x32],
      let x := ctrlWrite 0 0x10 n
      (ready line x).forwardsCtrl x 0x10 = true ∧ writesOnce 0x10 x .tallyRequest (BitVec.ofNat 32 n) = true ∧
      writesAlone 0x10 x .tallyRequest (BitVec.ofNat 32 n) = true) ∧
    line.tally.request = none ∧ line.tally.openBank = some .a ∧ line.tally.bankB.state = .empty ∧
    line.tally.bankA.state = .opened ∧
    (let t := { Tally.reset with bankA := tallyWith .full 3, bankB := tallyWith .closed 5 }
     t.openBank = none ∧ t.bankA.state = .full ∧ t.bankB.state = .closed) ∧
    ({ Tally.reset with bankB := tallyWith .closed 5 } : Tally).bankB.state ≠ .empty ∧
    (let busy := { line with tally := { Tally.reset with request := some (snapshotOf 3 true) } }
     ∀ s ∈ [busy, retried busy 0 3],
       let x := ctrlWrite 0 0x10 1
       (ready s x).grantsInto x .ctrl 0x10 = true ∧ wholeWords x.lanes = true ∧ x.source = s.src.control ∧
       s.src.ctx[(0 : Fin 16)].trapped = false ∧ s.src.maskCtrl.getLsbD 0 = true ∧
       writesAlone 0x10 x .tallyRequest 1 = true ∧ s.tally.request ≠ none) ∧
    (0 < line.src.maxRetry ∧ ¬ line.src.maxRetry ≤ line.src.ctx[(0 : Fin 16)].retries ∧
      (retried line 0 3).src.maxRetry ≤ (retried line 0 3).src.ctx[(0 : Fin 16)].retries) := by decide +kernel

/-- R152: TALLY_REQUEST while BUSY is answered RETRY and counted; from an exhausted source it is REFUSED with the mark. -/
theorem test_tally_busy :
    let busy := { line with tally := { Tally.reset with request := some (snapshotOf 3 true) } }
    (let t := after .apertureWrite (ready busy (ctrlWrite 0 0x10 1))
     t.path.returned = [{ source := 0, settled := { response := .retry, counted := true, givenUp := false } }] ∧
     t.src.ctx[(0 : Fin 16)].retries = 1 ∧ t.tally = busy.tally) ∧
    (let t := after .apertureWrite (ready (retried busy 0 3) (ctrlWrite 0 0x10 1))
     t.path.returned = [{ source := 0, settled := { response := .refused, counted := false, givenUp := true } }] ∧
     t.src.ctx[(0 : Fin 16)].retries = 0 ∧ t.src.ctx[(0 : Fin 16)].mark = true) := by decide +kernel

/-- Table 8-6: CLEAR B with bank A FULL opens B at once; CLOSE_SHIFT is then REFUSED. -/
theorem test_tally_requests :
    (let t := after .tallyClear (ready { line with tally :=
      { Tally.reset with bankA := tallyWith .full 3, bankB := tallyWith .closed 5 } } (ctrlWrite 0 0x10 0x23))
     t.tally.bankB = TallyBank.zeroed .opened ∧ t.tally.bankA.state = .full ∧
     t.tally.request.bind (·.status) = some .ok) ∧
    ((after .tallyCloseShift (ready { line with tally :=
      { Tally.reset with bankA := tallyWith .full 3, bankB := TallyBank.zeroed .opened } } (ctrlWrite 0 0x10 1))
      ).tally.request.bind (·.status) = some .refused) := by decide +kernel

/-- Section 8.5: a snapshot requests its 13 image writes. -/
theorem test_tally_snapshot :
    let t := after .tallySnapshot (ready line (ctrlWrite 0 0x10 0x12))
    t.tally.underSnapshot = some .a ∧ t.path.queue.length + t.path.waiting.length = 15 := by decide +kernel

theorem witness_LineRestartRequested :
    let x := ctrlWrite 0 0x18 1
    (ready line x).forwardsCtrl x 0x18 = true ∧ writesOnce 0x18 x .lineRestart 1 = true ∧
    writesAlone 0x18 x .lineRestart 1 = true := by decide +kernel

/-! ### The whole part -/

/-- A live record on the line, with every restart outstanding. -/
def busyLine : State :=
  { withHead (lineWith line (committed 1207 0x70)) 3 (headIn .leaving true false) with
      restart := { lug := 1, head := 1, asm := 1, solv := 1, trim := 1 } }

theorem lineInv_busyLine : LineInv busyLine := by
  unfold LineInv
  refine ⟨by decide +kernel, by decide +kernel, by decide +kernel, by decide +kernel, by decide +kernel, ?_⟩
  intro h; exact absurd h (by decide)

theorem witness_RestartsTaken :
    busyLine.running = true ∧ LineInv busyLine ∧ 0 < busyLine.restart.lug ∧ 0 < busyLine.restart.head ∧
    0 < busyLine.restart.asm ∧ 0 < busyLine.restart.solv ∧ 0 < busyLine.restart.trim ∧
    busyLine.head.ctx[(3 : Fin 6)].state = .leaving ∧ busyLine.head.ctx[(2 : Fin 6)].state ≠ .leaving ∧
    (let t := after .lugTableRestart busyLine
     t.plan.boundMask = busyLine.plan.boundMask) :=
  ⟨by decide, lineInv_busyLine, by decide, by decide, by decide, by decide, by decide, by decide, by decide, by decide +kernel⟩

/-- A bound bank that is neither active nor pending is released by the restart, and LINE_STATUS is requested. -/
theorem test_lug_table_restart :
    let t := after .lugTableRestart { busyLine with plan := { busyLine.plan with active := some .b } }
    t.plan.boundMask = 2 ∧ t.path.queue = [.lineStatus] ∧ t.lug.boards[at1207].state = .free := by decide +kernel

theorem witness_MemoryInvKept :
    MemoryInv (withByte { busyLine with pending := [.lugEvent] }) ∧
    ∃ t, step (withByte { busyLine with pending := [.lugEvent] }) = .next t :=
  ⟨by unfold MemoryInv; decide, ⟨_, rfl⟩⟩

theorem witness_TallyInvKept :
    TallyInv { busyLine with pending := [.lugEvent] } ∧ ∃ t, step { busyLine with pending := [.lugEvent] } = .next t := by
  refine ⟨?_, _, rfl⟩
  unfold TallyInv TallyBank.sound
  decide +kernel

theorem witness_CapacityInvKept :
    CapacityInv { busyLine with pending := [.lugEvent] } ∧ ∃ t, step { busyLine with pending := [.lugEvent] } = .next t := by
  refine ⟨?_, _, rfl⟩
  unfold CapacityInv
  refine ⟨by decide, by decide, by decide, by decide, by decide, by decide, by decide, by decide, by decide, ?_⟩
  intro h; exact absurd h (by decide)

theorem witness_LineInvKept :
    LineInv { busyLine with pending := [.lugEvent] } ∧ ∃ t, step { busyLine with pending := [.lugEvent] } = .next t :=
  ⟨lineInv_busyLine, _, rfl⟩

theorem witness_FrozenDecisionKept :
    LineInv busyLine ∧ (∃ t, exec .lugEvent busyLine = .next t) ∧ busyLine.lug.boards[at1207].isFrozen = true :=
  ⟨lineInv_busyLine, ⟨_, rfl⟩, by decide⟩

theorem witness_BoundShadowKept :
    Instr.lugEvent ≠ .deviceReset ∧ busyLine.plan.bound .a = true ∧ ∃ t, exec .lugEvent busyLine = .next t :=
  ⟨by decide, by decide, _, rfl⟩

theorem witness_NoticesAreSticky :
    ∃ t, exec .notice (ready { line with note := { word := 0x10, enable := 0 } } (ctrlWrite 0 0 0x10)) = .next t ∧
      Instr.notice ≠ .deviceReset ∧
      ({ word := 0x10, enable := 0 } : NoticeUnit).has .sliceCheck = true ∧ t.note.has .sliceCheck = false :=
  ⟨after .notice (ready { line with note := { word := 0x10, enable := 0 } } (ctrlWrite 0 0 0x10)), by rfl, by decide, by decide,
    by decide +kernel⟩

/-- While the clearing write waits for its grant, a command that is not a grant takes no notice out of the word. -/
theorem test_notice_kept_by_others :
    let s := ready { line with note := { word := 0x10, enable := 0 } } (ctrlWrite 0 0 0x10)
    (after .lugEvent s).note.has .sliceCheck = true ∧ (after (.headPresentFall 3) s).note.has .sliceCheck = true := by
  decide +kernel

/-! ### Grading and overrides -/

theorem witness_SegmentClassIsFirstRuleMet :
    accs1207[(8 : Fin 12)].ps = 0 ∧ 0 < accs1207[(0 : Fin 12)].ps ∧ 0 < accs1207[(6 : Fin 12)].ps := by decide

/-- The run 0 to 4 of board 1207 has worst grade G2. -/
theorem worst1207 : WorstGrade classes1207 .g2 0 4 := by
  refine ⟨⟨2, by decide, by decide, by decide⟩, ?_⟩
  intro i k _ h4 hk
  have h : i = 0 ∨ i = 1 ∨ i = 2 ∨ i = 3 ∨ i = 4 := by omega
  rcases h with rfl | rfl | rfl | rfl | rfl <;>
    · simp [classAt, classes1207] at hk
      subst hk
      decide

theorem witness_TrimSearchPicksBest : ∃ g a b, Candidate bankA classes1207 g a b := by
  refine ⟨.g2, 0, 4, by decide, by decide, ?_, worst1207, by decide +kernel⟩
  intro i _ h4
  have h : i = 0 ∨ i = 1 ∨ i = 2 ∨ i = 3 ∨ i = 4 := by omega
  rcases h with rfl | rfl | rfl | rfl | rfl
  exacts [⟨.g1, by decide⟩, ⟨.g1, by decide⟩, ⟨.g2, by decide⟩, ⟨.g2, by decide⟩, ⟨.g1, by decide⟩]

/-- R81: a bank of zeros prices every run at 0. -/
theorem price_of_zeros (g : Grade) (i : Nat) : planPrice (Vector.replicate 208 0) g i = 0 := by
  have h : ∀ n, planByte (Vector.replicate 208 0) n = 0 := by
    intro n
    unfold planByte
    by_cases hn : n < 208 <;> simp [hn]
  unfold planPrice planHalf
  rw [h, h]

theorem witness_NoCandidateIsTrash : ∀ g a b, ¬ Candidate (Vector.replicate 208 0) classes1207 g a b := by
  intro g a b h
  have h0 := h.2.2.2.2
  rw [price_of_zeros] at h0
  exact absurd h0 (by decide)

theorem witness_SawsAndMeasures :
    1 ≤ 1 ∧ 11 ≤ 11 ∧ 24 ≤ 24 ∧ isMaterial classes1207[(7 : Fin 12)] = true ∧
    ∀ i : Fin 12, 7 < i → isMaterial classes1207[i] = false := by decide

theorem witness_UnscannedResolved :
    (Vector.replicate 12 (some SegMark.empty))[(0 : Fin 12)] = some .empty ∧ marksWithoutH2[(0 : Fin 12)] = none ∧
    (marksWithoutH2[(4 : Fin 12)] = some .unscanned ∧
      ∃ i : Fin 12, 4 < i ∧ marksWithoutH2[i] = none ∧ 0 < accs1207[i].ps) ∧
    (let m := marksWithoutH2.set 10 (some .unscanned)
     m[(10 : Fin 12)] = some .unscanned ∧ ¬ ∃ i : Fin 12, 10 < i ∧ m[i] = none ∧ 0 < accs1207[i].ps) := by decide

theorem witness_OverrideSetChanges :
    (entryOf (entryBytes 1207 1 0 0 0 15)).malformed = false ∧ (entryOf (entryBytes 1207 2 6 0 0 0)).malformed = false ∧
    (entryOf (entryBytes 1207 2 6 0 0 0)).grade = Grade.g6.code ∧ (entryOf (entryBytes 1207 3 0 0 11 0)).malformed = false ∧
    (entryOf (entryBytes 1207 4 0 0 0 0)).malformed = false ∧ (entryOf (entryBytes 1207 5 0 0 0 0)).malformed = false := by
  decide +kernel

theorem witness_StandingDecision :
    solution1207.boardLength = boardLength classes1207 ∧
    dispositionOf [{ what := .disposition .reman, station := 4 }] = some .reman ∧
    ([gradeBy .g1 1] ≠ [] ∧ dispositionOf [gradeBy .g1 1] = none ∧ trimOf [gradeBy .g1 1] = none ∧
      solution1207.run = some (0, 4) ∧ gradeOf [gradeBy .g1 1] = some .g1) ∧
    ([trimBy 0 4 1] ≠ [] ∧ dispositionOf [trimBy 0 4 1] = none ∧ trimOf [trimBy 0 4 1] = some (0, 4) ∧
      gradeOf [trimBy 0 4 1] = none ∧ WorstGrade classes1207 .g2 0 4) :=
  ⟨by decide +kernel, by decide, by decide, by decide, by decide, by decide, by decide, worst1207⟩

theorem witness_EndOfSolveCheck :
    validSet classes1207 (some solution1207) [gradeBy .g1 1] = true ∧
    ({ solved1207 with overrides := [gradeBy .g1 1] }.endOfSolveCheck).overrides.getLast? = some (gradeBy .g1 1) ∧
    (solved1207.endOfSolveCheck).overrides = [] ∧ trimOf [trimBy 5 7 3, gradeBy .g4 3] = some (5, 7) ∧
    runHasReject classes1207 (5, 7) = true ∧ gradeOf [trimBy 5 7 3] = none := by decide +kernel

/-- Thicknesses 100 and 1022 are present under bank A and 99 and 1023 are not; grey 99 is dark and 100 is not. -/
theorem witness_SampleFold :
    max 1 (min 1022 (planHalf bankA 4)) = 100 ∧ (planByte bankA 9).testBit 0 = false ∧ planByte bankA 8 = 100 := by
  decide +kernel

end Sys2Proof.Tests
end

section
/-! The line through each command: where the live records lie and what the binding counts count (R6, R91, R131), and that a
frozen decision stays with its record (R14). Most commands keep every record in its seat (`Seats`); the LUG event, the lug
table's restart and a device reset are the ones that free or open slots. -/

namespace Sys2Proof.Proofs

open Sys2Proof Sys2Proof.Machine Sys2Proof.Laws

/-! ### How many records hold a bank -/

/-- A live record bound to bank `k` (R91). -/
def holdsBank (b : Board) (k : Bank) : Bool := b.state != .free && b.bank == some k

theorem boundTo_eq (l : LugTable) (k : Bank) :
    l.boundTo k = (List.finRange 32).countP fun i => holdsBank l.boards[i] k := rfl

/-- Two tests that differ at one element of a list without repetitions differ by it alone in their counts. -/
theorem countP_differ {α : Type} {p q : α → Bool} {i : α} {l : List α} (hn : l.Nodup) (hi : i ∈ l)
    (h : ∀ j, j ≠ i → q j = p j) : l.countP q + (p i).toNat = l.countP p + (q i).toNat := by
  induction l with
  | nil => simp at hi
  | cons a l ih =>
    obtain ⟨ha, hl⟩ := List.nodup_cons.1 hn
    simp only [List.countP_cons]
    by_cases hai : a = i
    · subst hai
      have hc : l.countP q = l.countP p := List.countP_congr fun j hj => by rw [h j fun hc => ha (hc ▸ hj)]
      rw [hc]
      cases p a <;> cases q a <;> simp
    · have := ih hl ((List.mem_cons.1 hi).resolve_left fun hc => hai hc.symm)
      rw [h a hai]
      omega

/-- A record put in a slot changes the counts by what the slot held and what it holds. -/
theorem setBoard_boundTo (s : State) (i : Fin 32) (b : Board) (k : Bank) :
    (s.setBoard i b).lug.boundTo k + (holdsBank s.lug.boards[i] k).toNat =
      s.lug.boundTo k + (holdsBank b k).toNat := by
  have h := countP_differ (p := fun j => holdsBank s.lug.boards[j] k)
    (q := fun j => holdsBank (s.setBoard i b).lug.boards[j] k) (List.nodup_finRange 32) (List.mem_finRange i)
    fun j hj => by rw [setBoard_read, if_neg hj]
  simpa only [boundTo_eq, setBoard_read, if_pos] using h

theorem holdsBank_seated {b c : Board} (h : Seated b c) (k : Bank) : holdsBank c k = holdsBank b k := by
  have hl : (c.state != .free) = (b.state != .free) := by
    rw [Bool.eq_iff_iff]; simpa using not_congr h.live
  simp only [holdsBank, h.bank, hl]

theorem boundTo_seats {s t : State} (h : Seats s t) (k : Bank) : t.lug.boundTo k = s.lug.boundTo k := by
  rw [boundTo_eq, boundTo_eq]
  exact List.countP_congr fun i _ => by rw [holdsBank_seated (h.boards i)]

/-! ### The line in order -/

/-- Each live record lies in its lug's slot at a lug position from `lo` on and below `hi` (R6). -/
def Placed (s : State) (lo hi : Nat) : Prop :=
  ∀ i : Fin 32, s.lug.boards[i].state ≠ .free →
    slotOf s.lug.boards[i].lug = i ∧ lo ≤ s.lug.position s.lug.boards[i].lug ∧
      s.lug.position s.lug.boards[i].lug < hi

/-- The binding counts count the live records of each bank (R91). -/
def Counted (s : State) : Prop := ∀ k, (s.plan.bank k).count = s.lug.boundTo k

theorem counted_iff (s : State) :
    Counted s ↔ s.plan.bankA.count = s.lug.boundTo .a ∧ s.plan.bankB.count = s.lug.boundTo .b :=
  ⟨fun h => ⟨h .a, h .b⟩, fun h k => by cases k <;> simp [PlanStore.bank, h.1, h.2]⟩

/-- R96: a pending bank is never the active one. -/
def PendingOther (p : PlanStore) : Prop := p.pendingBank ≠ none → p.pendingBank ≠ p.active

/-- Outside RUNNING no fire is armed and every saw is RELEASED (R131). -/
def SawsUp (s : State) : Prop := s.trim.armed = none ∧ ∀ k : Fin 11, s.trim.channels[k] = none

/-- The invariant of the line, by its parts. -/
theorem lineInv_iff (s : State) : LineInv s ↔ (s.running = true → s.lug.geometry = true) ∧ Placed s 0 s.lug.dropPos ∧
    Counted s ∧ PendingOther s.plan ∧
    (s.running = false → (∀ i : Fin 32, s.lug.boards[i].state = .free) ∧ SawsUp s) := by
  rw [counted_iff]
  unfold LineInv Placed PendingOther SawsUp
  simp only [Nat.zero_le, true_and, and_assoc]

theorem placed_seats {s t : State} (h : Seats s t) {lo hi : Nat} (hp : Placed s lo hi) : Placed t lo hi := by
  intro i hi
  have hb := h.boards i
  have := hp i fun hc => hi (hb.live.2 hc)
  simpa only [LugTable.position, hb.lug, h.current] using this

theorem geometry_seats {s t : State} (h : Seats s t) : t.lug.geometry = s.lug.geometry := by
  simp only [LugTable.geometry, h.closeLugs, h.commitPos, h.trimPos, h.dropPos]

/-- What a step that keeps every record in its seat must keep besides: the plan store's counts, the order of its two banks,
whether the part is RUNNING, and, outside RUNNING, the saws. -/
structure KeepsLine (s t : State) : Prop where
  seats : Seats s t
  counts : ∀ k, (t.plan.bank k).count = (s.plan.bank k).count
  pending : PendingOther s.plan → PendingOther t.plan
  running : t.running = s.running
  saws : s.running = false → SawsUp s → SawsUp t

theorem KeepsLine.refl (s : State) : KeepsLine s s :=
  ⟨Seats.refl s, fun _ => rfl, fun h => h, rfl, fun _ h => h⟩

theorem KeepsLine.lineInv {s t : State} (h : KeepsLine s t) (hs : LineInv s) : LineInv t := by
  obtain ⟨hg, hp, hc, ho, hr⟩ := (lineInv_iff s).1 hs
  refine (lineInv_iff t).2 ⟨fun ht => ?_, ?_, fun k => ?_, h.pending ho, fun ht => ?_⟩
  · rw [geometry_seats h.seats]; exact hg (h.running ▸ ht)
  · rw [h.seats.dropPos]; exact placed_seats h.seats hp
  · rw [h.counts, boundTo_seats h.seats]; exact hc k
  · have hs' : s.running = false := h.running ▸ ht
    exact ⟨fun i => (h.seats.boards i).live.2 ((hr hs').1 i), h.saws hs' (hr hs').2⟩

/-- A command that keeps the plan store, the boot loader and the trim output unit. -/
theorem KeepsLine.of_keeps {bs : List Block} {s t : State} (h : Keeps bs s t) (hs : Seats s t)
    (hp : Block.plan ∉ bs := by decide) (hb : Block.boot ∉ bs := by decide) (ht : Block.trim ∉ bs := by decide) :
    KeepsLine s t :=
  ⟨hs, fun k => by rw [h.plan hp], fun ho => by rw [h.plan hp]; exact ho, by simp only [State.running, h.boot hb],
    fun _ hu => by unfold SawsUp; rw [h.trim ht]; exact hu⟩

/-- A command that leaves the lug table, the plan store, the boot loader and the trim output unit. -/
theorem KeepsLine.of_idle {bs : List Block} {s t : State} (h : Keeps bs s t) (hl : Block.lug ∉ bs := by decide)
    (hp : Block.plan ∉ bs := by decide) (hb : Block.boot ∉ bs := by decide) (ht : Block.trim ∉ bs := by decide) :
    KeepsLine s t := KeepsLine.of_keeps h (Seats.of_keeps h hl) hp hb ht

/-- A command taken while RUNNING that keeps the plan store and the boot loader. -/
theorem KeepsLine.of_running {bs : List Block} {s t : State} (h : Keeps bs s t) (hs : Seats s t) (hr : s.running = true)
    (hp : Block.plan ∉ bs := by decide) (hb : Block.boot ∉ bs := by decide) : KeepsLine s t :=
  ⟨hs, fun k => by rw [h.plan hp], fun ho => by rw [h.plan hp]; exact ho, by simp only [State.running, h.boot hb],
    fun hf => by rw [hr] at hf; cases hf⟩

/-! ### The plan store at a grant -/

/-- The binding counts are kept, and a pending bank is still not the active one. -/
def PlanKept (p q : PlanStore) : Prop :=
  (∀ k, (q.bank k).count = (p.bank k).count) ∧ (PendingOther p → PendingOther q)

theorem PlanKept.refl (p : PlanStore) : PlanKept p p := ⟨fun _ => rfl, fun h => h⟩

theorem PlanKept.trans {p q r : PlanStore} (h : PlanKept p q) (h' : PlanKept q r) : PlanKept p r :=
  ⟨fun k => (h'.1 k).trans (h.1 k), fun ho => h'.2 (h.2 ho)⟩

theorem PlanKept.of_keeps {bs : List Block} {s t : State} (h : Keeps bs s t) (hp : Block.plan ∉ bs := by decide) :
    PlanKept s.plan t.plan := by rw [h.plan hp]; exact PlanKept.refl _

/-- R96: naming the active bank leaves none pending, and naming the other leaves the other pending. -/
theorem planKept_select (p : PlanStore) (k : Bank) : PlanKept p (p.select k) := by
  unfold PlanStore.select
  split
  · exact ⟨fun j => by cases j <;> rfl, fun _ h => absurd rfl h⟩
  · rename_i hk
    exact ⟨fun j => by cases j <;> rfl, fun _ _ h => hk h.symm⟩

theorem planKept_takeSelect (e : Ev) (w : Word32) : PlanKept e.st.plan (e.takeSelect w).st.plan := by
  unfold Ev.takeSelect
  split
  · exact PlanKept.refl _
  · dsimp only
    split <;> exact planKept_select _ _

theorem planKept_copyPlan (e : Ev) (k : Bank) (off : Nat) (ls : List Lane) :
    PlanKept e.st.plan (e.copyPlan k off ls).st.plan := by
  refine ⟨fun j => ?_, fun h => ?_⟩
  · cases k <;> cases j <;> rfl
  · simpa [Ev.copyPlan, PendingOther] using h

theorem planKept_takeWord (e : Ev) (k : CtrlWord) (w : Word32) : PlanKept e.st.plan (e.takeWord k w).st.plan := by
  unfold Ev.takeWord
  split
  case h_3 => exact planKept_takeSelect _ _
  case h_4 => exact PlanKept.of_keeps (keeps_takeRequest _ _)
  case h_5 =>
    split
    · exact PlanKept.of_keeps (keeps_requestRestart _)
    · exact PlanKept.refl _
  case h_6 => exact PlanKept.of_keeps (keeps_takeProducer _ _)
  case h_7 => exact PlanKept.of_keeps (keeps_takeConsumer _ _)
  case h_8 => exact PlanKept.of_keeps (keeps_takeTrapClear _ _)
  case h_9 => exact PlanKept.of_keeps (keeps_takeHeadCommand _ _ _)
  all_goals exact PlanKept.refl _

theorem planKept_takeWords (ws : List (CtrlWord × Word32)) (e : Ev) : PlanKept e.st.plan (e.takeWords ws).st.plan := by
  induction ws generalizing e with
  | nil => exact PlanKept.refl _
  | cons x ws ih => exact (planKept_takeWord e x.1 x.2).trans (ih _)

theorem planKept_forwardWrite (e : Ev) (t : Txn) (ap : Aperture) (off : Nat) :
    PlanKept e.st.plan (e.forwardWrite t ap off).st.plan := by
  unfold Ev.forwardWrite
  split
  · exact (planKept_takeWords _ e).trans (PlanKept.of_keeps (keeps_issue _ _ _ _ _ _))
  · exact (planKept_copyPlan e _ _ _).trans (PlanKept.of_keeps (keeps_issue _ _ _ _ _ _))
  · exact (planKept_copyPlan e _ _ _).trans (PlanKept.of_keeps (keeps_issue _ _ _ _ _ _))
  all_goals exact PlanKept.of_keeps (keeps_issue _ _ _ _ _ _)

theorem planKept_grant (s : State) (t : Txn) : PlanKept s.plan (grant s t).plan := by
  unfold grant
  refine PlanKept.trans ?_ (PlanKept.of_keeps (keeps_finishPath _))
  generalize courseOf s t = c
  have h0 : PlanKept s.plan ((Ev.start s).acceptWrite t.source).st.plan :=
    PlanKept.of_keeps (keeps_acceptWrite (Ev.start s) _)
  cases c
  case forward ap off => exact h0.trans (planKept_forwardWrite _ _ _ _)
  case giveUp h =>
    exact h0.trans ((PlanKept.of_keeps (keeps_countBadSlice _ _ _)).trans ((PlanKept.of_keeps (keeps_raise _ _)).trans
      ((PlanKept.of_keeps (keeps_exhaust _ _)).trans (PlanKept.of_keeps (keeps_issue _ _ _ _ _ _)))))
  case partialSlice =>
    exact h0.trans ((PlanKept.of_keeps (keeps_raise _ _)).trans (PlanKept.of_keeps (keeps_issue _ _ _ _ _ _)))
  case passBy => exact h0.trans (PlanKept.of_keeps (keeps_issue _ _ _ _ _ _))
  case intake h =>
    exact h0.trans ((PlanKept.of_keeps (keeps_intake _ _ _)).trans (PlanKept.of_keeps (keeps_issue _ _ _ _ _ _)))
  case asIssued => exact PlanKept.of_keeps (keeps_issue (Ev.start s) _ _ _ _ _)
  case refused =>
    exact (PlanKept.of_keeps (keeps_trap (Ev.start s) _ _)).trans (PlanKept.of_keeps (keeps_settle _ _))
  case refusedExhausted =>
    exact (PlanKept.of_keeps (keeps_exhaust (Ev.start s) _)).trans (PlanKept.of_keeps (keeps_settle _ _))
  all_goals exact PlanKept.of_keeps (keeps_settle (Ev.start s) _)

theorem keepsLine_grant (s : State) (t : Txn) : KeepsLine s (grant s t) :=
  have h := keeps_grant s t
  ⟨seats_grant s t, (planKept_grant s t).1, (planKept_grant s t).2, by simp only [State.running, h.boot],
    fun _ hu => by unfold SawsUp; rw [h.trim]; exact hu⟩

theorem keepsLine_grantIf {row : State → Txn → Bool} {s t : State} (h : grantIf row s = .next t) : KeepsLine s t := by
  rcases grantIf_cases row s with ⟨x, _, _, hx⟩ | hx
  · rw [hx] at h; injection h with h; subst h; exact keepsLine_grant s x
  · rw [hx] at h; injection h with h; subst h; exact KeepsLine.refl s

end Sys2Proof.Proofs
end

section
/-! The commands that keep every record in its seat, one lemma for each; the LUG event in its phases; and the two claims about
every command: the line's invariant (R6, R91, R131) and the frozen decision (R14). -/

namespace Sys2Proof.Proofs

open Sys2Proof Sys2Proof.Machine Sys2Proof.Laws

/-! ### The commands that keep every record in its seat -/

theorem done_next {e : Ev} {t : State} (h : e.done = .next t) : t = e.finish := by
  unfold Ev.done at h; injection h with h; exact h.symm

theorem notTaken_next {s t : State} (h : notTaken s = .next t) : t = s := by
  unfold notTaken at h; injection h with h; exact h.symm

/-- The end of an event asks for own transactions and does nothing else to the line. -/
theorem KeepsLine.finish {s : State} {e : Ev} (h : KeepsLine s e.st) : KeepsLine s e.finish :=
  ⟨h.seats.trans (Seats.of_keeps (keeps_finish e)), h.counts, h.pending, h.running, h.saws⟩

theorem keepsLine_encPulse {s t : State} (h : exec .encPulse s = .next t) : KeepsLine s t := by
  change execEncPulse s = .next t at h
  unfold execEncPulse at h
  generalize he : ((Ev.start s).modify fun s =>
    { s with lug := { s.lug with encCount := min 65535 (s.lug.encCount + 1) } }) = e at h
  have hk : Keeps [.lug, .trim] s e.st := by
    subst he; intro b hb; cases b <;> first | rfl | exact absurd (by decide) hb
  have hs : Seats s e.st := by subst he; exact ⟨fun _ => Seated.refl _, rfl, rfl, rfl, rfl, rfl⟩
  split at h
  · rename_i hr
    have hq : KeepsLine s e.finish := (KeepsLine.of_running hk hs hr).finish
    dsimp only at h
    split at h
    · split at h
      · rw [done_next h]
        exact (KeepsLine.of_running (hk.trans ((keeps_fire _ _).mono (by decide))) (hs.trans (seats_fire _ _)) hr).finish
      · rw [done_next h]; exact hq
    · rw [done_next h]; exact hq
  · rw [notTaken_next h]; exact KeepsLine.refl s

theorem keepsLine_sawHoldExpiry {k : Fin 11} {s t : State} (h : exec (.sawHoldExpiry k) s = .next t) : KeepsLine s t := by
  change execSawHoldExpiry k s = .next t at h
  unfold execSawHoldExpiry at h
  split at h
  · rw [done_next h]
    refine KeepsLine.finish ⟨Seats.of_lug rfl, fun _ => rfl, fun h => h, rfl, fun _ hu => ⟨hu.1, fun j => ?_⟩⟩
    by_cases hj : (k : Nat) = j
    · exact (Vector.getElem_set k.2 j.2).trans (if_pos hj)
    · exact ((Vector.getElem_set k.2 j.2).trans (if_neg hj)).trans (hu.2 j)
  · rw [notTaken_next h]; exact KeepsLine.refl s

theorem keepsLine_lampFlashToggle {s t : State} (h : exec .lampFlashToggle s = .next t) : KeepsLine s t := by
  rw [done_next (show Ev.done _ = .next t from h)]
  exact KeepsLine.finish ⟨Seats.of_lug rfl, fun _ => rfl, fun h => h, rfl, fun _ hu => hu⟩

theorem keepsLine_headPresentRise {k : Fin 6} {s t : State} (h : exec (.headPresentRise k) s = .next t) :
    KeepsLine s t := by
  change execHeadPresentRise k s = .next t at h
  unfold execHeadPresentRise at h
  dsimp only at h
  have h0 : Keeps [.pins, .head, .note] s ((Ev.start s).presentPin k true).st := (keeps_presentPin _ _ _).mono (by decide)
  have h1 := h0.trans ((keeps_changeHead ((Ev.start s).presentPin k true) k fun c => { c with present := true }).mono
    (by decide))
  have step : ∀ (e : Ev) (f : HeadCtx → HeadCtx), Keeps [.pins, .head, .note] e.st (e.changeHead k f).st :=
    fun e f => (keeps_changeHead e k f).mono (by decide)
  split at h
  · split at h
    · split at h
      · rw [done_next h]
        exact (KeepsLine.of_idle ((h1.trans (step _ _)).trans ((keeps_raise _ _).mono (by decide)))).finish
      · rw [done_next h]; exact (KeepsLine.of_idle (h1.trans (step _ _))).finish
    all_goals rw [done_next h]; exact (KeepsLine.of_idle h1).finish
  · rw [done_next h]; exact (KeepsLine.of_idle h0).finish

theorem keepsLine_headReadyRise {k : Fin 6} {s t : State} (h : exec (.headReadyRise k) s = .next t) :
    KeepsLine s t := by
  change execHeadReadyRise k s = .next t at h
  unfold execHeadReadyRise at h
  dsimp only at h
  have h0 : Keeps [.pins, .head, .note] s ((Ev.start s).readyPin k true).st := (keeps_readyPin _ _ _).mono (by decide)
  have h1 := h0.trans ((keeps_changeHead ((Ev.start s).readyPin k true) k fun c => { c with ready := true }).mono
    (by decide))
  split at h
  · split at h
    · rw [done_next h]
      exact (KeepsLine.of_idle ((h1.trans ((keeps_changeHead _ k _).mono (by decide))).trans
        ((keeps_raise _ _).mono (by decide)))).finish
    all_goals rw [done_next h]; exact (KeepsLine.of_idle h1).finish
  · rw [done_next h]; exact (KeepsLine.of_idle h0).finish

theorem keepsLine_headReadyFall {k : Fin 6} {s t : State} (h : exec (.headReadyFall k) s = .next t) :
    KeepsLine s t := by
  change execHeadReadyFall k s = .next t at h
  unfold execHeadReadyFall at h
  dsimp only at h
  have h0 : Keeps [.pins, .head, .note] s ((Ev.start s).readyPin k false).st := (keeps_readyPin _ _ _).mono (by decide)
  have h1 := h0.trans ((keeps_changeHead ((Ev.start s).readyPin k false) k fun c => { c with ready := false }).mono
    (by decide))
  have step : ∀ (e : Ev) (f : HeadCtx → HeadCtx), Keeps [.pins, .head, .note] e.st (e.changeHead k f).st :=
    fun e f => (keeps_changeHead e k f).mono (by decide)
  split at h
  · split at h
    · rw [done_next h]; exact (KeepsLine.of_idle (h1.trans (step _ _))).finish
    · rw [done_next h]
      exact (KeepsLine.of_idle (((h1.trans (step _ _)).trans ((keeps_raise _ _).mono (by decide))).trans
        ((keeps_parkTest _ _).mono (by decide)))).finish
    all_goals rw [done_next h]; exact (KeepsLine.of_idle h1).finish
  · rw [done_next h]; exact (KeepsLine.of_idle h0).finish

theorem keepsLine_headPresentFall {k : Fin 6} {s t : State} (h : exec (.headPresentFall k) s = .next t) :
    KeepsLine s t := by
  change execHeadPresentFall k s = .next t at h
  unfold execHeadPresentFall at h
  dsimp only at h
  have h0 : Keeps [.pins, .lug, .head, .solv, .note] s ((Ev.start s).presentPin k false).st :=
    (keeps_presentPin _ _ _).mono (by decide)
  have s0 : Seats s ((Ev.start s).presentPin k false).st := Seats.of_lug rfl
  have h1 := h0.trans ((keeps_loseHead ((Ev.start s).presentPin k false) k).mono (by decide))
  have s1 := s0.trans (seats_loseHead ((Ev.start s).presentPin k false) k)
  have finish : ∀ (e : Ev) (f : HeadCtx → HeadCtx), Keeps [.pins, .lug, .head, .solv, .note] s e.st → Seats s e.st →
      KeepsLine s (e.changeHead k f).finish := fun e f hk hs =>
    (KeepsLine.of_keeps (hk.trans ((keeps_changeHead e k f).mono (by decide)))
      (hs.trans (Seats.of_keeps (keeps_changeHead e k f)))).finish
  split at h
  · rw [done_next h]
    split
    · exact finish _ _ h1 s1
    · exact finish _ _ h1 s1
    all_goals exact finish _ _ h0 s0
  · rw [done_next h]; exact (KeepsLine.of_keeps h0 s0).finish

theorem keepsLine_upstreamAccept {x : Txn} {s t : State} (h : exec (.upstreamAccept x) s = .next t) : KeepsLine s t := by
  change execUpstreamAccept x s = .next t at h
  unfold execUpstreamAccept at h
  have idle : ∀ (f : State → Path), Keeps [.path, .src] s ((Ev.start s).modify fun s => { s with path := f s }).st := by
    intro f b hb; cases b <;> first | rfl | exact absurd (by decide) hb
  split at h
  · split at h
    · rw [done_next h]
      exact (KeepsLine.of_idle ((idle _).trans (keeps_returnResponses _))).finish
    · unfold Ev.donePath at h
      injection h with h
      rw [← h]
      exact KeepsLine.of_idle ((idle _).trans ((keeps_finishPath _).mono (by decide)))
  · rw [notTaken_next h]; exact KeepsLine.refl s

theorem keepsLine_sliceFold {k : Fin 6} {s t : State} (h : exec (.sliceFold k) s = .next t) : KeepsLine s t := by
  change execSliceFold k s = .next t at h
  unfold execSliceFold at h
  split at h
  · rename_i hr
    split at h
    · rw [notTaken_next h]; exact KeepsLine.refl s
    · rename_i sl rest _
      rw [done_next h]
      generalize he : ((Ev.start s).modify fun s =>
        { s with asm := { s.asm with held := s.asm.held.set k rest } }) = e
      have hk : Keeps [.asm, .lug, .head, .solv, .note] s e.st := by
        subst he; intro b hb; cases b <;> first | rfl | exact absurd (by decide) hb
      have hs : Seats s e.st := by subst he; exact Seats.of_lug rfl
      exact (KeepsLine.of_keeps (hk.trans ((keeps_foldHeld e k sl).mono (by decide)))
        (hs.trans (seats_foldHeld e k sl))).finish
  · rw [notTaken_next h]; exact KeepsLine.refl s

theorem keepsLine_solveEnd {s t : State} (h : exec .solveEnd s = .next t) : KeepsLine s t := by
  change execSolveEnd s = .next t at h
  unfold execSolveEnd at h
  split at h
  · rename_i hr
    split at h
    · rw [notTaken_next h]; exact KeepsLine.refl s
    · dsimp only at h
      rw [done_next h]
      have finish : ∀ e : Ev, Keeps [.lug, .solv] s e.st → Seats s e.st →
          KeepsLine s ((e.modify fun s => { s with solv := { s.solv with solving := none } }).modify
            State.startSolve).finish := by
        intro e hk hs
        have h1 : Keeps [.lug, .solv] e.st (e.modify fun s => { s with solv := { s.solv with solving := none } }).st := by
          intro b hb; cases b <;> first | rfl | exact absurd (by decide) hb
        exact (KeepsLine.of_keeps ((hk.trans h1).trans (keeps_startSolve _))
          ((hs.trans (seats_modify e _ rfl)).trans (seats_startSolve _))).finish
      split
      · split
        · rename_i i _ hi
          refine finish _ ((keeps_changeBoard (Ev.start s) _ _).mono (by decide)) (seats_changeBoard (Ev.start s) i _ ?_)
          have hi' : (Ev.start s).st.lug.boards[i].state = .solving := hi
          exact Seated.of_open .solved rfl rfl (by rw [hi']; decide) rfl (by simp only [Board.isFrozen, hi']; decide)
        · exact finish _ (Keeps.refl _ _) (Seats.refl _)
      · exact finish _ (Keeps.refl _ _) (Seats.refl _)
  · rw [notTaken_next h]; exact KeepsLine.refl s

theorem keepsLine_overrideEntryTake {s t : State} (h : exec .overrideEntryTake s = .next t) : KeepsLine s t := by
  change execOverrideEntryTake s = .next t at h
  unfold execOverrideEntryTake at h
  split at h
  · split at h
    · rw [done_next h]
      exact (KeepsLine.of_keeps ((keeps_takeEntry (Ev.start s) _).comp (ds := [.lug, .ovr]) (keeps_entryTaken _ _ _)
        (by decide) (by decide))
        ((seats_takeEntry (Ev.start s) _).trans (Seats.of_keeps (keeps_entryTaken _ _ _)))).finish
    · rw [notTaken_next h]; exact KeepsLine.refl s
  · rw [notTaken_next h]; exact KeepsLine.refl s

theorem keepsLine_headMonitorRestart {s t : State} (h : exec .headMonitorRestart s = .next t) : KeepsLine s t := by
  change execHeadMonitorRestart s = .next t at h
  unfold execHeadMonitorRestart at h
  split at h
  · rw [done_next h]
    have h0 : Keeps [.restart, .head] s ((Ev.start s).modify fun s =>
        { s with restart := { s.restart with head := s.restart.head - 1 } }).st := by
      intro b hb; cases b <;> first | rfl | exact absurd (by decide) hb
    refine (KeepsLine.of_idle (h0.trans (keeps_foldl _ (fun e k => ?_) _ _))).finish
    split
    · exact (keeps_changeHead e k _).mono (by decide)
    · exact Keeps.refl _ _
  · rw [notTaken_next h]; exact KeepsLine.refl s

theorem keepsLine_intakeRestart {s t : State} (h : exec .intakeRestart s = .next t) : KeepsLine s t := by
  change execIntakeRestart s = .next t at h
  unfold execIntakeRestart at h
  split at h
  · rw [done_next h]
    exact KeepsLine.finish ⟨Seats.of_lug rfl, fun _ => rfl, fun h => h, rfl, fun _ hu => hu⟩
  · rw [notTaken_next h]; exact KeepsLine.refl s

theorem keepsLine_solverRestart {s t : State} (h : exec .solverRestart s = .next t) : KeepsLine s t := by
  change execSolverRestart s = .next t at h
  unfold execSolverRestart at h
  split at h
  · rw [done_next h]
    exact KeepsLine.finish ⟨Seats.of_lug rfl, fun _ => rfl, fun h => h, rfl, fun _ hu => hu⟩
  · rw [notTaken_next h]; exact KeepsLine.refl s

theorem keepsLine_trimRestart {s t : State} (h : exec .trimRestart s = .next t) : KeepsLine s t := by
  change execTrimRestart s = .next t at h
  unfold execTrimRestart at h
  split at h
  · rw [done_next h]
    exact KeepsLine.finish ⟨Seats.of_lug rfl, fun _ => rfl, fun h => h, rfl, fun _ _ =>
      ⟨rfl, fun k => Vector.getElem_replicate k.2⟩⟩
  · rw [notTaken_next h]; exact KeepsLine.refl s

theorem keepsLine_arbiterGrantOwn {s t : State} (h : exec .arbiterGrantOwn s = .next t) : KeepsLine s t := by
  change execArbiterGrantOwn s = .next t at h
  unfold execArbiterGrantOwn at h
  split at h
  · rw [done_next h]
    exact KeepsLine.finish ⟨Seats.of_lug rfl, fun _ => rfl, fun h => h, rfl, fun _ hu => hu⟩
  · rw [notTaken_next h]; exact KeepsLine.refl s

theorem keepsLine_memoryAnswer {ok : Bool} {s t : State} (h : exec (.memoryAnswer ok) s = .next t) : KeepsLine s t := by
  change execMemoryAnswer ok s = .next t at h
  unfold execMemoryAnswer at h
  split at h
  · dsimp only at h
    rw [done_next h]
    have h1 := fun rest w i r => ((keeps_popDown (Ev.start s) rest w ok).comp (ds := [.path, .mem, .src, .tally, .note])
      (keeps_answerForwarded _ i r) (by decide) (by decide))
    refine (KeepsLine.of_idle (bs := [.path, .mem, .src, .tally, .note]) ?_).finish
    split
    · refine Keeps.trans ?_ ((keeps_requestWriteAnswered _).mono (by decide))
      split
      · exact (h1 _ _ _ _).trans ((keeps_fetchEntry _).mono (by decide))
      · exact h1 _ _ _ _
    · split
      · exact (h1 _ _ _ _).trans ((keeps_fetchEntry _).mono (by decide))
      · exact h1 _ _ _ _
  · rw [notTaken_next h]; exact KeepsLine.refl s

theorem keepsLine_ownTransactionAnswer {ok : Bool} {s t : State} (h : exec (.ownTransactionAnswer ok) s = .next t) :
    KeepsLine s t := by
  change execOwnTransactionAnswer ok s = .next t at h
  unfold execOwnTransactionAnswer at h
  split at h
  · dsimp only at h
    rw [done_next h]
    have h1 := fun rest k w => ((keeps_popDown (Ev.start s) rest w ok).comp
      (ds := [.path, .mem, .ovr, .note, .dec, .tally]) (keeps_releaseLine _ k w) (by decide) (by decide))
    refine (KeepsLine.of_idle (bs := [.path, .mem, .ovr, .note, .dec, .tally]) ?_).finish
    refine Keeps.trans ?_ ((keeps_ownAnswered _ _ _ _).mono (by decide))
    split
    · exact h1 _ _ _
    · exact (h1 _ _ _).trans ((keeps_raise _ _).mono (by decide))
  · rw [notTaken_next h]; exact KeepsLine.refl s

theorem keepsLine_bootStart {s t : State} (h : exec .bootStart s = .next t) : KeepsLine s t := by
  change execBootStart s = .next t at h
  unfold execBootStart at h
  split at h
  · rename_i hc
    injection h with h
    subst h
    exact ⟨Seats.of_lug rfl, fun _ => rfl, fun h => h, by simp [State.running, hc], fun _ hu => hu⟩
  · rw [notTaken_next h]; exact KeepsLine.refl s

/-- A command that is no LUG event, no take of the lug table's restart, no end of a boot attempt and no device reset. -/
def keepsRecords : Instr → Bool
  | .lugEvent | .lugTableRestart | .bootAttemptEnd _ | .deviceReset => false
  | _ => true

theorem keepsLine_exec {c : Instr} {s t : State} (hc : keepsRecords c = true) (h : exec c s = .next t) :
    KeepsLine s t := by
  cases c
  case lugEvent | lugTableRestart | bootAttemptEnd a | deviceReset => cases hc
  case bootStart => exact keepsLine_bootStart h
  case encPulse => exact keepsLine_encPulse h
  case sawHoldExpiry => exact keepsLine_sawHoldExpiry h
  case lampFlashToggle => exact keepsLine_lampFlashToggle h
  case headPresentRise => exact keepsLine_headPresentRise h
  case headPresentFall => exact keepsLine_headPresentFall h
  case headReadyRise => exact keepsLine_headReadyRise h
  case headReadyFall => exact keepsLine_headReadyFall h
  case upstreamAccept => exact keepsLine_upstreamAccept h
  case sliceFold => exact keepsLine_sliceFold h
  case solveEnd => exact keepsLine_solveEnd h
  case overrideEntryTake => exact keepsLine_overrideEntryTake h
  case headMonitorRestart => exact keepsLine_headMonitorRestart h
  case intakeRestart => exact keepsLine_intakeRestart h
  case solverRestart => exact keepsLine_solverRestart h
  case trimRestart => exact keepsLine_trimRestart h
  case arbiterGrantOwn => exact keepsLine_arbiterGrantOwn h
  case memoryAnswer => exact keepsLine_memoryAnswer h
  case ownTransactionAnswer => exact keepsLine_ownTransactionAnswer h
  all_goals
    simp only [exec, execApertureWrite, execPlanBankWrite, execSliceWrite, execPlanSelect, execAdmit, execRelease,
      execHeadCommandUnknown, execOvrProducer, execDecConsumer, execTallyCloseShift, execTallySnapshot, execTallyClear,
      execTallyRequestRefused, execNotice, execNoticeEnable, execTrapClear, execLineRestart,
      execForwardedSideGrant] at h
    exact keepsLine_grantIf h

end Sys2Proof.Proofs
end

section
/-! The LUG event in its phases, the lug table's restart and the boot attempt's end, for the line's invariant (R6, R91, R131)
and the frozen decision (R14). -/

namespace Sys2Proof.Proofs

open Sys2Proof Sys2Proof.Machine Sys2Proof.Laws

/-! ### The phases of a LUG event (R6) -/

/-- The LUG event once the line has advanced: the slip check is made and the current lug is the next one. -/
@[irreducible] def advanced (s : State) : Ev :=
  (Ev.start s).checkSlip.modify fun s => { s with lug := { s.lug with current := s.lug.current + 1 } }

/-- The LUG event before its commit and its close timeout. -/
@[irreducible] def beforeCommit (s : State) : Ev := (advanced s).lateFire.dropBoard.armBoard

/-- The LUG event before its opening. -/
@[irreducible] def beforeOpen (s : State) : Ev := (beforeCommit s).commitAndTimeout

/-- The state a LUG event leaves. -/
@[irreducible] def afterLug (s : State) : State := ((beforeOpen s).openBoard.ask .lineStatus).finish

theorem exec_lugEvent {s : State} (h : s.running = true) : exec .lugEvent s = .next (afterLug s) := by
  show execLugEvent s = _
  unfold execLugEvent
  rw [if_pos h]
  unfold afterLug beforeOpen beforeCommit advanced
  rfl

theorem exec_lugEvent_idle {s : State} (h : s.running = false) : exec .lugEvent s = .next s := by
  show execLugEvent s = _
  unfold execLugEvent
  rw [h]
  rfl

theorem advanced_lug (s : State) : (advanced s).st.lug =
    { s.lug with current := s.lug.current + 1, encCount := 0, slipRef := true } := by
  unfold advanced Ev.checkSlip
  dsimp only
  split <;> rfl

theorem keeps_advanced (s : State) : Keeps [.lug, .note] s (advanced s).st := by
  have h := keeps_checkSlip (Ev.start s)
  unfold advanced
  refine h.trans ?_
  intro b hb; cases b <;> first | rfl | exact absurd (by decide) hb

theorem keeps_beforeCommit (s : State) : Keeps [.lug, .note, .trim, .plan, .tally] s (beforeCommit s).st := by
  unfold beforeCommit
  exact (((keeps_advanced s).mono (by decide)).trans ((keeps_lateFire _).mono (by decide))).trans
    (((keeps_dropBoard _).mono (by decide)).trans ((keeps_armBoard _).mono (by decide)))

theorem keeps_beforeOpen (s : State) :
    Keeps [.lug, .note, .trim, .plan, .tally, .head, .solv, .dec, .freeCount] s (beforeOpen s).st := by
  unfold beforeOpen
  exact ((keeps_beforeCommit s).mono (by decide)).trans ((keeps_commitAndTimeout _).mono (by decide))

/-- What a LUG event may change. -/
theorem keeps_afterLug (s : State) :
    Keeps [.lug, .note, .trim, .plan, .tally, .head, .solv, .dec, .freeCount, .path] s (afterLug s) := by
  unfold afterLug
  exact (((keeps_beforeOpen s).mono (by decide)).trans (Keeps.of_ask ((keeps_openBoard _).mono (by decide)))).trans
    ((keeps_finish _).mono (by decide))

/-! ### The drop (R18, R19) -/

theorem boardAt_eq_some {s : State} {p : Nat} {i : Fin 32} : s.boardAt p = some i ↔
    slotOf (s.lug.current - BitVec.ofNat 16 p) = i ∧ s.lug.boards[i].state ≠ .free ∧
      s.lug.boards[i].lug = s.lug.current - BitVec.ofNat 16 p := lookup_eq_some

/-- The record freed (R19). -/
def freed (b : Board) : Board := { b with state := .free }

/-- The freeing of a record: its slot is FREE and its bank is held by one record fewer (R19, R99). -/
theorem freeBoard_st (e : Ev) (i : Fin 32) : (e.freeBoard i).st =
    { e.st.setBoard i (freed e.st.lug.boards[i]) with plan := e.st.plan.unbind e.st.lug.boards[i].bank } := rfl

theorem freeBoard_read (e : Ev) (i j : Fin 32) : (e.freeBoard i).st.lug.boards[j] =
    if j = i then freed e.st.lug.boards[i] else e.st.lug.boards[j] :=
  setBoard_read e.st i j _

/-- The drop makes its offer to the tally, if any, and then frees the record. -/
theorem dropBoard_frees {e : Ev} {i : Fin 32} (h : e.st.boardAt e.st.lug.dropPos = some i) :
    ∃ e1 : Ev, Keeps [.tally, .note] e.st e1.st ∧ e.dropBoard = e1.freeBoard i := by
  unfold Ev.dropBoard
  rw [h]
  dsimp only
  split
  · exact ⟨_, keeps_offer _ _, rfl⟩
  · exact ⟨e, Keeps.refl _ _, rfl⟩

theorem dropBoard_idle {e : Ev} (h : e.st.boardAt e.st.lug.dropPos = none) : e.dropBoard = e := by
  unfold Ev.dropBoard
  rw [h]

theorem unbind_count (p : PlanStore) (k : Option Bank) (j : Bank) :
    ((p.unbind k).bank j).count = (p.bank j).count - (k == some j).toNat := by
  rcases k with _ | k
  · simp [PlanStore.unbind]
  · cases k <;> cases j <;> rfl

theorem bind_count (p : PlanStore) (k j : Bank) :
    ((p.bind k).bank j).count = (p.bank j).count + (some k == some j).toNat := by
  cases k <;> cases j <;> rfl

theorem holdsBank_live {b : Board} (h : b.state ≠ .free) (k : Bank) : holdsBank b k = (b.bank == some k) := by
  simp [holdsBank, h]

theorem holdsBank_free {b : Board} (h : b.state = .free) (k : Bank) : holdsBank b k = false := by
  simp [holdsBank, h]

/-- R99: the freed record's bank is held by one record fewer. -/
theorem freeBoard_counted {e : Ev} {i : Fin 32} (hc : Counted e.st) (hl : e.st.lug.boards[i].state ≠ .free) :
    Counted (e.freeBoard i).st := by
  intro k
  have hset := setBoard_boundTo e.st i (freed e.st.lug.boards[i]) k
  rw [holdsBank_live hl, holdsBank_free (b := freed _) rfl, ← hc k, Bool.toNat_false] at hset
  rw [freeBoard_st]
  dsimp only
  rw [unbind_count]
  omega

theorem counted_of_keeps {bs : List Block} {s t : State} (h : Keeps bs s t) (hs : Seats s t) (hc : Counted s)
    (hp : Block.plan ∉ bs := by decide) : Counted t := by
  intro k
  rw [h.plan hp, boundTo_seats hs]
  exact hc k

theorem dropBoard_counted {e : Ev} (hc : Counted e.st) : Counted e.dropBoard.st := by
  cases hb : e.st.boardAt e.st.lug.dropPos with
  | none => rw [dropBoard_idle hb]; exact hc
  | some i =>
    obtain ⟨e1, hk, he⟩ := dropBoard_frees hb
    rw [he]
    refine freeBoard_counted (counted_of_keeps hk (Seats.of_keeps hk) hc) ?_
    rw [hk.lug]
    exact (boardAt_eq_some.1 hb).2.1

/-- The lug table after the drop: the record at drop_pos is FREE, and nothing else has changed. -/
theorem dropBoard_lug (e : Ev) : e.dropBoard.st.lug = { e.st.lug with boards := e.dropBoard.st.lug.boards } ∧
    ∀ j : Fin 32, e.dropBoard.st.lug.boards[j] =
      if e.st.boardAt e.st.lug.dropPos = some j then freed e.st.lug.boards[j]
      else e.st.lug.boards[j] := by
  cases hb : e.st.boardAt e.st.lug.dropPos with
  | none => rw [dropBoard_idle hb]; exact ⟨rfl, fun j => by simp⟩
  | some i =>
    obtain ⟨e1, hk, he⟩ := dropBoard_frees hb
    have hl := hk.lug
    rw [he]
    constructor
    · rw [freeBoard_st]
      simp only [State.setBoard, hl]
    · intro j
      rw [freeBoard_read]
      simp only [hl]
      by_cases hj : j = i
      · subst hj; simp
      · simp [hj, Ne.symm hj]

theorem dropBoard_current (e : Ev) : e.dropBoard.st.lug.current = e.st.lug.current := by rw [(dropBoard_lug e).1]

theorem dropBoard_dropPos (e : Ev) : e.dropBoard.st.lug.dropPos = e.st.lug.dropPos := by rw [(dropBoard_lug e).1]

/-- A record live after the drop was live before it, and was not at drop_pos. -/
theorem dropBoard_live {e : Ev} {j : Fin 32} (h : e.dropBoard.st.lug.boards[j].state ≠ .free) :
    e.dropBoard.st.lug.boards[j] = e.st.lug.boards[j] ∧ e.st.boardAt e.st.lug.dropPos ≠ some j := by
  have hb := (dropBoard_lug e).2 j
  split at hb
  · rw [hb] at h; exact absurd rfl h
  · rename_i hne; exact ⟨hb, hne⟩

/-- R18: after the drop no live record is at drop_pos. -/
theorem dropBoard_placed {e : Ev} {lo : Nat} (hd : e.st.lug.dropPos ≤ 31)
    (hp : Placed e.st lo (e.st.lug.dropPos + 1)) : Placed e.dropBoard.st lo e.st.lug.dropPos := by
  intro i hi
  obtain ⟨hb, hat⟩ := dropBoard_live hi
  rw [hb] at hi ⊢
  obtain ⟨hslot, hlo, hhi⟩ := hp i hi
  rw [LugTable.position, dropBoard_current, ← LugTable.position]
  refine ⟨hslot, hlo, lt_of_le_of_ne (Nat.lt_succ_iff.1 hhi) fun hpos => hat ?_⟩
  have hlug : e.st.lug.boards[i].lug = e.st.lug.current - BitVec.ofNat 16 e.st.lug.dropPos := by
    have hpos' : (e.st.lug.current - e.st.lug.boards[i].lug).toNat = e.st.lug.dropPos := hpos
    rw [← hpos', BitVec.ofNat_toNat, BitVec.setWidth_eq]
    bv_omega
  exact boardAt_eq_some.2 ⟨by rw [← hlug, hslot], hi, hlug⟩

/-! ### The opening (R7, R98) -/

theorem switchPlan_lug (e : Ev) : e.switchPlan.st.lug = e.st.lug := (keeps_switchPlan e).lug

/-- The plan store after the plan switch. -/
theorem switchPlan_plan (e : Ev) : e.switchPlan.st.plan =
    { e.st.plan with active := e.st.plan.pendingBank.or e.st.plan.active, pendingBank := none } := by
  unfold Ev.switchPlan
  split
  · rename_i h
    simp only [h, Option.none_or]
    rw [← h]
  · rename_i k h
    simp only [h, Option.some_or]
    rfl

/-- R7: the record of lug `n` as it is opened under bank `k`. -/
def openedBoard (n : Word16) (k : Bank) (expected : HeadSet) : Board :=
  { Board.blank n .scanning with bank := some k, expected := expected }

/-- R7, by whether a bank is active. -/
theorem initSlot_none {e : Ev} (h : e.st.plan.active = none) :
    e.initSlot = e.changeBoard (slotOf e.st.lug.current) fun _ => Board.blank e.st.lug.current .void := by
  unfold Ev.initSlot
  rw [h]

theorem initSlot_some {e : Ev} {k : Bank} (h : e.st.plan.active = some k) : e.initSlot =
    ((e.changeBoard (slotOf e.st.lug.current) fun _ => openedBoard e.st.lug.current k e.st.activeHeads).modify fun s =>
      { s with plan := s.plan.bind k }).closeTest (slotOf e.st.lug.current) := by
  unfold Ev.initSlot
  rw [h]
  rfl

/-- The opening puts one record in the new lug's slot: VOID without an active bank, and otherwise a record of the new lug that
holds the active bank, live whether or not it is closed at once. -/
theorem initSlot_seats (e : Ev) : ∃ b : Board, b.lug = e.st.lug.current ∧ b.state ≠ .free ∧ b.bank = e.st.plan.active ∧
    b.isFrozen = false ∧
    Seats (e.st.setBoard (slotOf e.st.lug.current) b) e.initSlot.st ∧
    ∀ j, (e.initSlot.st.plan.bank j).count = (e.st.plan.bank j).count + (e.st.plan.active == some j).toNat := by
  cases ha : e.st.plan.active with
  | none =>
    rw [initSlot_none ha]
    exact ⟨Board.blank e.st.lug.current .void, rfl, nofun, rfl, rfl, Seats.of_lug rfl, fun j => rfl⟩
  | some k =>
    rw [initSlot_some ha]
    refine ⟨openedBoard e.st.lug.current k e.st.activeHeads, rfl, nofun, rfl, rfl, ?_, fun j => ?_⟩
    · refine Seats.trans ?_ (seats_closeTest _ _)
      exact Seats.of_lug rfl
    · rw [(keeps_closeTest _ _).plan]
      exact bind_count _ _ _

theorem placed_setBoard {s : State} {i : Fin 32} {b : Board} {lo hi : Nat} (hp : Placed s lo hi)
    (hb : slotOf b.lug = i ∧ lo ≤ s.lug.position b.lug ∧ s.lug.position b.lug < hi) : Placed (s.setBoard i b) lo hi := by
  intro j hj
  rw [setBoard_read] at hj ⊢
  split
  · rename_i hji; subst hji; exact hb
  · rename_i hji; rw [if_neg hji] at hj; exact hp j hj

/-- The new lug's slot is free when its board is opened: every live record has another lug position below 32. -/
theorem newSlot_free {s : State} {hi : Nat} (hp : Placed s 1 hi) (hh : hi ≤ 32) :
    s.lug.boards[slotOf s.lug.current].state = .free := by
  by_contra hc
  obtain ⟨hslot, hlo, hlt⟩ := hp _ hc
  have hmod : s.lug.boards[slotOf s.lug.current].lug.toNat % 32 = s.lug.current.toNat % 32 :=
    congrArg Fin.val hslot
  simp only [LugTable.position] at hlo hlt
  bv_omega

/-- The opening of a line with no record at position 0. -/
theorem openBoard_line {e : Ev} {hi : Nat} (hp : Placed e.st 1 hi) (hh : hi ≤ 32) (h0 : 0 < hi) (hc : Counted e.st) :
    Placed e.openBoard.st 0 hi ∧ Counted e.openBoard.st ∧ e.openBoard.st.plan.pendingBank = none := by
  unfold Ev.openBoard
  generalize he : e.switchPlan.admitHeads = e1
  have hk : Keeps [.head] e.switchPlan.st e1.st := by subst he; exact keeps_admitHeads _
  have hlug : e1.st.lug = e.st.lug := hk.lug.trans (switchPlan_lug e)
  have hplan := hk.plan.trans (switchPlan_plan e)
  have hp1 : Placed e1.st 1 hi := placed_seats (Seats.of_lug hlug) hp
  have hc1 : Counted e1.st := fun k => by
    rw [hlug, ← hc k, hplan]
    cases k <;> rfl
  obtain ⟨b, hlugb, hlive, hbank, _, hs, hcount⟩ := initSlot_seats e1
  refine ⟨placed_seats hs (placed_setBoard (fun i hi' => ?_) ⟨by rw [hlugb], Nat.zero_le _, ?_⟩), fun k => ?_, ?_⟩
  · obtain ⟨h1, _, h2⟩ := hp1 i hi'
    exact ⟨h1, Nat.zero_le _, h2⟩
  · simpa [LugTable.position, hlugb] using h0
  · have hset := setBoard_boundTo e1.st (slotOf e1.st.lug.current) b k
    rw [holdsBank_free (newSlot_free hp1 hh), holdsBank_live hlive, hbank] at hset
    rw [hcount, boundTo_seats hs, hc1 k]
    simpa using hset.symm
  · have hpend : e1.st.plan.pendingBank = none := by rw [hplan]
    unfold Ev.initSlot
    dsimp only
    split
    · exact hpend
    · rw [(keeps_closeTest _ _).plan]
      simpa using hpend

/-! ### The whole LUG event -/

theorem lineInv_geometry {s : State} (h : LineInv s) (hr : s.running = true) :
    0 < s.lug.closeLugs ∧ s.lug.closeLugs < s.lug.commitPos ∧ s.lug.commitPos < s.lug.trimPos ∧
      s.lug.trimPos < s.lug.dropPos ∧ s.lug.dropPos ≤ 31 := by
  simpa [LugTable.geometry, and_assoc] using h.1 hr

/-- The advance of the line takes each live record one lug position on. -/
theorem advanced_placed {s : State} (h : LineInv s) (hr : s.running = true) :
    Placed (advanced s).st 1 (s.lug.dropPos + 1) := by
  obtain ⟨_, _, _, _, hd⟩ := lineInv_geometry h hr
  intro i hi
  simp only [LugTable.position, advanced_lug] at hi ⊢
  obtain ⟨hslot, hpos⟩ := h.2.1 i hi
  simp only [LugTable.position] at hpos
  exact ⟨hslot, by bv_omega, by bv_omega⟩

/-- The slot that a LUG event opens holds no live record. -/
theorem openingSlot_free {s : State} (h : LineInv s) (hr : s.running = true) :
    s.lug.boards[slotOf (s.lug.current + 1)].state = .free := by
  obtain ⟨_, _, _, _, hd⟩ := lineInv_geometry h hr
  simpa only [advanced_lug] using newSlot_free (advanced_placed h hr) (by omega)

theorem counted_advanced {s : State} (h : LineInv s) : Counted (advanced s).st := by
  intro k
  have hb : (advanced s).st.lug.boundTo k = s.lug.boundTo k := by simp only [boundTo_eq, advanced_lug]
  rw [(keeps_advanced s).plan, hb]
  exact ((lineInv_iff s).1 h).2.2.1 k

theorem beforeCommit_seats (s : State) : Seats (advanced s).lateFire.dropBoard.st (beforeCommit s).st := by
  unfold beforeCommit
  exact seats_armBoard _

/-- Before its opening the event has dropped the record at drop_pos, and every other record keeps its seat. -/
theorem beforeOpen_seats (s : State) : Seats (advanced s).lateFire.dropBoard.st (beforeOpen s).st := by
  refine (beforeCommit_seats s).trans ?_
  unfold beforeOpen
  exact seats_commitAndTimeout _

/-- The line before the opening: no live record at position 0 or from drop_pos on. -/
theorem beforeOpen_line {s : State} (h : LineInv s) (hr : s.running = true) :
    Placed (beforeOpen s).st 1 s.lug.dropPos ∧ Counted (beforeOpen s).st := by
  obtain ⟨_, _, _, _, hd⟩ := lineInv_geometry h hr
  have hs := seats_lateFire (advanced s)
  have hdrop : (advanced s).lateFire.st.lug.dropPos = s.lug.dropPos := by rw [hs.dropPos, advanced_lug]
  constructor
  · refine placed_seats (beforeOpen_seats s) ?_
    rw [← hdrop]
    exact dropBoard_placed (by omega) (by rw [hdrop]; exact placed_seats hs (advanced_placed h hr))
  · have hk : Keeps [.trim, .lug, .head, .solv, .note, .dec, .freeCount] (advanced s).lateFire.dropBoard.st
        (beforeOpen s).st := by
      unfold beforeOpen beforeCommit
      exact ((keeps_armBoard _).mono (by decide)).trans ((keeps_commitAndTimeout _).mono (by decide))
    exact counted_of_keeps hk (beforeOpen_seats s)
      (dropBoard_counted (counted_of_keeps (keeps_lateFire _) hs (counted_advanced h)))

/-- The opening puts one record in the new lug's slot, and keeps every other in its seat. -/
theorem openBoard_seats (e : Ev) : ∃ b : Board, b.lug = e.st.lug.current ∧ b.state ≠ .free ∧ b.isFrozen = false ∧
    Seats (e.st.setBoard (slotOf e.st.lug.current) b) e.openBoard.st := by
  obtain ⟨b, hl, hf, _, hz, hs, _⟩ := initSlot_seats e.switchPlan.admitHeads
  have hlug : e.switchPlan.admitHeads.st.lug = e.st.lug := (keeps_admitHeads _).lug.trans (switchPlan_lug e)
  rw [hlug] at hl hs
  refine ⟨b, hl, hf, hz, Seats.trans ?_ hs⟩
  refine Seats.of_lug ?_
  simp only [State.setBoard, hlug]

theorem geometry_setBoard (s : State) (i : Fin 32) (b : Board) : (s.setBoard i b).lug.geometry = s.lug.geometry := rfl

/-- The geometry is the boot loader's: a LUG event keeps it. -/
theorem geometry_beforeOpen (s : State) : (beforeOpen s).st.lug.geometry = s.lug.geometry ∧
    (beforeOpen s).st.lug.dropPos = s.lug.dropPos := by
  have hb := beforeOpen_seats s
  have hf := seats_lateFire (advanced s)
  have hd : (advanced s).lateFire.dropBoard.st.lug.geometry = (advanced s).lateFire.st.lug.geometry := by
    rw [(dropBoard_lug _).1]; rfl
  constructor
  · rw [geometry_seats hb, hd, geometry_seats hf, advanced_lug]
    rfl
  · rw [hb.dropPos, dropBoard_dropPos, hf.dropPos, advanced_lug]

theorem afterLug_lug (s : State) : (afterLug s).lug = (beforeOpen s).openBoard.st.lug := by
  unfold afterLug; simp only [Ev.finish_lug, Ev.ask_st]

theorem afterLug_plan (s : State) : (afterLug s).plan = (beforeOpen s).openBoard.st.plan := by
  unfold afterLug; simp only [Ev.finish_plan, Ev.ask_st]

theorem lineInv_afterLug {s : State} (h : LineInv s) (hr : s.running = true) : LineInv (afterLug s) := by
  obtain ⟨h1, h2, h3, h4, h5⟩ := lineInv_geometry h hr
  obtain ⟨hp, hc⟩ := beforeOpen_line h hr
  obtain ⟨hp', hc', hn⟩ := openBoard_line hp (by omega) (by omega) hc
  obtain ⟨b, _, _, _, hopen⟩ := openBoard_seats (beforeOpen s)
  have hgeo : (afterLug s).lug.geometry = s.lug.geometry ∧ (afterLug s).lug.dropPos = s.lug.dropPos := by
    rw [afterLug_lug, geometry_seats hopen, geometry_setBoard, hopen.dropPos, State.setBoard_dropPos]
    exact geometry_beforeOpen s
  have hseat : Seats (beforeOpen s).openBoard.st (afterLug s) := Seats.of_lug (afterLug_lug s)
  have hrun : (afterLug s).running = true := by
    simp only [State.running, (keeps_afterLug s).boot]; exact hr
  refine (lineInv_iff _).2 ⟨fun _ => by rw [hgeo.1]; exact h.1 hr,
    by rw [hgeo.2]; exact placed_seats hseat hp', fun k => ?_, ?_, fun hf => ?_⟩
  · rw [afterLug_plan, boundTo_seats hseat]; exact hc' k
  · rw [afterLug_plan]; exact fun hne => absurd hn hne
  · rw [hrun] at hf; cases hf

/-! ### The lug table's restart (R20, R104) -/

/-- Only the binding counts of the plan store may have changed. -/
def CountsOnly (p q : PlanStore) : Prop :=
  q = { p with bankA := { p.bankA with count := q.bankA.count }, bankB := { p.bankB with count := q.bankB.count } }

theorem countsOnly_unbind (p : PlanStore) (k : Option Bank) : CountsOnly p (p.unbind k) := by
  rcases k with _ | k
  · rfl
  · cases k <;> rfl

theorem CountsOnly.trans {p q r : PlanStore} (h : CountsOnly p q) (h' : CountsOnly q r) : CountsOnly p r := by
  unfold CountsOnly at *
  rw [h', h]

theorem freed_of_free {b : Board} (h : b.state = .free) : freed b = b := by
  cases b; subst h; rfl

theorem releaseSlot_read (e : Ev) (i j : Fin 32) : (e.releaseSlot i).st.lug.boards[j] =
    if j = i then freed e.st.lug.boards[i] else e.st.lug.boards[j] := by
  unfold Ev.releaseSlot
  split
  · rename_i hf
    split
    · rename_i hj; subst hj; exact (freed_of_free hf).symm
    · rfl
  · exact freeBoard_read _ _ _

/-- Slots released in turn: their records are FREE and the binding counts still count the live ones. -/
theorem foldl_releaseSlot (l : List (Fin 32)) (e : Ev) (hc : Counted e.st) :
    let u := l.foldl Ev.releaseSlot e
    Counted u.st ∧ CountsOnly e.st.plan u.st.plan ∧ u.st.lug = { e.st.lug with boards := u.st.lug.boards } ∧
      ∀ j : Fin 32, u.st.lug.boards[j] = if j ∈ l then freed e.st.lug.boards[j] else e.st.lug.boards[j] := by
  induction l generalizing e with
  | nil => exact ⟨hc, rfl, rfl, fun j => by simp⟩
  | cons i l ih =>
    have hstep : Counted (e.releaseSlot i).st ∧ CountsOnly e.st.plan (e.releaseSlot i).st.plan ∧
        (e.releaseSlot i).st.lug = { e.st.lug with boards := (e.releaseSlot i).st.lug.boards } := by
      unfold Ev.releaseSlot
      split
      · exact ⟨hc, rfl, rfl⟩
      · rename_i hf
        exact ⟨freeBoard_counted hc hf, countsOnly_unbind _ _, rfl⟩
    obtain ⟨hc1, hp1, hl1⟩ := hstep
    obtain ⟨hc2, hp2, hl2, hb2⟩ := ih (e.releaseSlot i) hc1
    refine ⟨hc2, hp1.trans hp2, ?_, fun j => ?_⟩
    · rw [List.foldl_cons, hl2, hl1]
    · rw [List.foldl_cons, hb2 j, releaseSlot_read]
      by_cases hj : j = i
      · subst hj; simp [freed]
      · simp [hj]

/-- The state of the lug table's restart before its request. -/
@[irreducible] def released (s : State) : Ev := (List.finRange 32).foldl Ev.releaseSlot
  ((Ev.start s).modify fun s => { s with restart := { s.restart with lug := s.restart.lug - 1 } })

theorem exec_lugTableRestart {s : State} (hr : s.running = true) (hl : 0 < s.restart.lug) :
    exec .lugTableRestart s = .next (if (released s).st.plan.boundMask = s.plan.boundMask then (released s).finish
      else ((released s).ask .lineStatus).finish) := by
  show execLugTableRestart s = _
  unfold execLugTableRestart
  rw [if_pos (by simp [hr, hl])]
  unfold released
  dsimp only
  split <;> rfl

theorem exec_lugTableRestart_idle {s : State} (h : ¬ (s.running = true ∧ 0 < s.restart.lug)) :
    exec .lugTableRestart s = .next s := by
  show execLugTableRestart s = _
  unfold execLugTableRestart
  rw [if_neg (by simpa using h)]
  rfl

theorem keeps_released (s : State) : Keeps [.restart, .lug, .plan] s (released s).st := by
  unfold released
  refine Keeps.trans ?_ (keeps_foldl _ (fun e i => (keeps_releaseSlot e i).mono (by decide)) _ _)
  intro b hb; cases b <;> first | rfl | exact absurd (by decide) hb

/-- The lug table's restart leaves every record FREE, and the binding counts count the live records, so none. -/
theorem released_line {s : State} (h : LineInv s) :
    Counted (released s).st ∧ CountsOnly s.plan (released s).st.plan ∧
      (released s).st.lug = { s.lug with boards := (released s).st.lug.boards } ∧
      ∀ j : Fin 32, (released s).st.lug.boards[j] = freed s.lug.boards[j] := by
  have key := foldl_releaseSlot (List.finRange 32)
    ((Ev.start s).modify fun s => { s with restart := { s.restart with lug := s.restart.lug - 1 } })
    ((lineInv_iff s).1 h).2.2.1
  unfold released
  dsimp only at key
  generalize (List.finRange 32).foldl Ev.releaseSlot _ = u at key ⊢
  obtain ⟨h1, h2, h3, h4⟩ := key
  exact ⟨h1, h2, h3, fun j => by rw [h4 j, if_pos (List.mem_finRange j)]; rfl⟩

theorem lineInv_released {s : State} (h : LineInv s) (hr : s.running = true) (e : Ev) (he : e.st = (released s).st) :
    LineInv e.finish := by
  obtain ⟨hc, hp, hl, hb⟩ := released_line h
  have hrun : e.finish.running = true := by
    simp only [State.running, Ev.finish_boot, he, (keeps_released s).boot]; exact hr
  refine (lineInv_iff _).2 ⟨fun _ => ?_, fun i hi => ?_, fun k => ?_, ?_, fun hf => ?_⟩
  · rw [Ev.finish_lug, he, hl]; exact h.1 hr
  · simp only [Ev.finish_lug, he, hb] at hi
    exact absurd rfl hi
  · rw [Ev.finish_plan, Ev.finish_lug, he, hc k]
  · rw [Ev.finish_plan, he]
    unfold CountsOnly at hp
    rw [hp]
    exact ((lineInv_iff s).1 h).2.2.2.1
  · rw [hrun] at hf; cases hf

theorem lineInv_lugTableRestart {s t : State} (hs : LineInv s) (h : exec .lugTableRestart s = .next t) : LineInv t := by
  by_cases hc : s.running = true ∧ 0 < s.restart.lug
  · rw [exec_lugTableRestart hc.1 hc.2] at h
    injection h with h
    subst h
    split
    · exact lineInv_released hs hc.1 _ rfl
    · exact lineInv_released hs hc.1 _ rfl
  · rw [exec_lugTableRestart_idle hc] at h
    injection h with h
    subst h
    exact hs

/-! ### Device reset and the end of a boot attempt -/

theorem lineInv_of_reset {t : State} (h1 : t.boot = Boot.reset) (h2 : t.lug = LugTable.reset) (h3 : t.plan = PlanStore.reset)
    (h4 : t.trim = TrimUnit.reset) : LineInv t := by
  have hfree : ∀ i : Fin 32, t.lug.boards[i].state = .free := fun i => by
    rw [h2]; simp [LugTable.reset, Board.blank]
  have hrun : t.running = false := by rw [State.running, h1]; rfl
  refine (lineInv_iff t).2 ⟨fun h => ?_, fun i hi => absurd (hfree i) hi, fun k => ?_, ?_, fun _ => ⟨hfree, ?_⟩⟩
  · rw [hrun] at h; cases h
  · have : t.lug.boundTo k = 0 := by
      rw [boundTo_eq, List.countP_eq_zero]
      intro i _
      rw [holdsBank_free (hfree i)]
      decide
    rw [this, h3]
    cases k <;> rfl
  · rw [h3]; exact fun h => absurd rfl h
  · rw [SawsUp, h4]
    exact ⟨rfl, fun k => Vector.getElem_replicate k.2⟩

/-- A step outside RUNNING that leaves the lines empty, whatever geometry it hands over. -/
theorem lineInv_of_idle {s t : State} (h : LineInv s) (hr : s.running = false) (hb : t.lug.boards = s.lug.boards)
    (hp : t.plan = s.plan) (hg : t.running = true → t.lug.geometry = true)
    (ht : t.running = false → t.trim = s.trim) : LineInv t := by
  obtain ⟨_, _, hc, ho, hf⟩ := (lineInv_iff s).1 h
  obtain ⟨hfree, hsaws⟩ := hf hr
  have hfree' : ∀ i : Fin 32, t.lug.boards[i].state = .free := fun i => by simp only [hb]; exact hfree i
  refine (lineInv_iff t).2 ⟨hg, fun i hi => absurd (hfree' i) hi, fun k => ?_, by rw [hp]; exact ho, fun hn =>
    ⟨hfree', by rw [SawsUp, ht hn]; exact hsaws⟩⟩
  rw [hp, hc k, boundTo_eq, boundTo_eq, hb]

theorem lineInv_bootAttemptEnd {a : Attempt} {s t : State} (hs : LineInv s) (h : exec (.bootAttemptEnd a) s = .next t) :
    LineInv t := by
  change execBootAttemptEnd a s = .next t at h
  unfold execBootAttemptEnd at h
  have next : ∀ u : State, Host.Outcome.next u = (.next t : Result) → LineInv u → LineInv t := by
    intro u hu hl; injection hu with hu; exact hu ▸ hl
  split at h
  · rename_i hb
    have hr : s.running = false := by simp [State.running, hb]
    dsimp only at h
    split at h
    · split at h
      · exact next _ h (lineInv_of_idle hs hr rfl rfl (by simp [State.running, bootFail]) fun _ => rfl)
      · exact next _ h (lineInv_of_idle hs hr rfl rfl (by simp [State.running, hb]) fun _ => rfl)
    · split at h
      · rename_i hgood
        refine next _ h (lineInv_of_idle hs hr rfl rfl (fun _ => ?_) (by simp [State.running, bootSucceed, handOver]))
        have hd : bootDropPos a.bytes ≤ 31 := by
          simp only [imageGood, Bool.and_eq_true, decide_eq_true_eq] at hgood
          exact hgood.2
        simp only [LugTable.geometry, bootSucceed, handOver, Bool.and_eq_true, decide_eq_true_eq]
        have hc : 0 < bootCloseLugs a.bytes := by simp only [bootCloseLugs, clamp]; omega
        refine ⟨⟨⟨⟨hc, ?_⟩, ?_⟩, ?_⟩, hd⟩
        · simp only [bootCommitPos]; omega
        · simp only [bootTrimPos]; omega
        · simp only [bootDropPos]; omega
      · exact next _ h (lineInv_of_idle hs hr rfl rfl (by simp [State.running, bootFail]) fun _ => rfl)
  · rw [notTaken_next h]; exact hs

/-! ### Every command -/

theorem lineInv_exec {c : Instr} {s t : State} (hs : LineInv s) (h : exec c s = .next t) : LineInv t := by
  cases hc : keepsRecords c with
  | true => exact (keepsLine_exec hc h).lineInv hs
  | false =>
    cases c <;> simp only [keepsRecords, reduceCtorEq] at hc
    case deviceReset =>
      injection h with h
      subst h
      exact lineInv_of_reset rfl rfl rfl rfl
    case bootAttemptEnd a => exact lineInv_bootAttemptEnd hs h
    case lugEvent =>
      cases hr : s.running with
      | true =>
        rw [exec_lugEvent hr] at h
        injection h with h
        subst h
        exact lineInv_afterLug hs hr
      | false =>
        rw [exec_lugEvent_idle hr] at h
        injection h with h
        subst h
        exact hs
    case lugTableRestart => exact lineInv_lugTableRestart hs h

/-- Settles O57: every command keeps the line's invariant, by the commands that keep every record in its seat and the four
that do not; a step takes one command off the queue, which the invariant does not read. -/
theorem lineInvKept : Obligations.LineInvKept := by
  unfold Obligations.LineInvKept
  intro s t hs h
  unfold step at h
  split at h
  · injection h with h; subst h; exact hs
  · rename_i rest _
    exact lineInv_exec (s := { s with pending := rest }) hs h

/-- Record `c` is free, or holds the frozen decision of `b`, COMMITTED or TRIMMED still (R14). -/
def KeepsDecision (b c : Board) : Prop :=
  c.state = .free ∨ (c.isFrozen = true ∧ c.lug = b.lug ∧ c.final = b.final)

theorem Seats.keepsDecision {s t : State} (h : Seats s t) {i : Fin 32} {b : Board}
    (hk : KeepsDecision b s.lug.boards[i]) : KeepsDecision b t.lug.boards[i] := by
  have hb := h.boards i
  rcases hk with hf | ⟨hf, hl, hd⟩
  · exact Or.inl (hb.live.2 hf)
  · exact Or.inr ⟨(hb.frozen hf).1, hb.lug.trans hl, (hb.frozen hf).2.trans hd⟩

theorem keepsDecision_refl {b : Board} (h : b.isFrozen = true) : KeepsDecision b b := Or.inr ⟨h, rfl, rfl⟩

/-- A LUG event fires, drops, commits and closes; it opens only a slot with no live record. -/
theorem keepsDecision_afterLug {s : State} {i : Fin 32} (hs : LineInv s) (hr : s.running = true)
    (hi : s.lug.boards[i].isFrozen = true) : KeepsDecision s.lug.boards[i] (afterLug s).lug.boards[i] := by
  have h0 : KeepsDecision s.lug.boards[i] (advanced s).st.lug.boards[i] := by
    simp only [advanced_lug]; exact keepsDecision_refl hi
  have h1 := Seats.keepsDecision (seats_lateFire (advanced s)) h0
  have h2 : KeepsDecision s.lug.boards[i] (advanced s).lateFire.dropBoard.st.lug.boards[i] := by
    rw [(dropBoard_lug _).2 i]
    split
    · exact Or.inl rfl
    · exact h1
  have h3 := Seats.keepsDecision (beforeOpen_seats s) h2
  obtain ⟨b, _, _, _, hopen⟩ := openBoard_seats (beforeOpen s)
  have hcur : (beforeOpen s).st.lug.current = s.lug.current + 1 := by
    rw [(beforeOpen_seats s).current, dropBoard_current, (seats_lateFire _).current, advanced_lug]
  have hne : i ≠ slotOf (beforeOpen s).st.lug.current := by
    rintro rfl
    rw [hcur] at hi
    have hf := openingSlot_free hs hr
    simp only [Board.isFrozen, hf] at hi
    exact absurd hi (by decide)
  rw [afterLug_lug]
  refine Seats.keepsDecision (s := (beforeOpen s).st.setBoard (slotOf (beforeOpen s).st.lug.current) b) hopen ?_
  rw [setBoard_read, if_neg hne]
  exact h3

/-- Settles O58: a command that keeps every record in its seat keeps a frozen decision; the LUG event and the restart only
free such a record besides; boot has none, and a device reset frees all. -/
theorem frozenDecisionKept : Obligations.FrozenDecisionKept := by
  unfold Obligations.FrozenDecisionKept
  intro c s t i hs h hi
  show KeepsDecision s.lug.boards[i] t.lug.boards[i]
  have self : KeepsDecision s.lug.boards[i] s.lug.boards[i] := keepsDecision_refl hi
  cases hc : keepsRecords c with
  | true => exact Seats.keepsDecision (keepsLine_exec hc h).seats self
  | false =>
    cases c <;> simp only [keepsRecords, reduceCtorEq] at hc
    case deviceReset =>
      injection h with h
      subst h
      exact Or.inl (by simp [State.reset, LugTable.reset, Board.blank])
    case bootAttemptEnd a =>
      have hr : s.running = true := by
        by_contra hn
        have hf := (((lineInv_iff s).1 hs).2.2.2.2 (by simpa using hn)).1 i
        simp only [Board.isFrozen, hf] at hi
        exact absurd hi (by decide)
      have hb : ¬ s.boot.condition = .booting := by
        intro hb; simp [State.running, hb] at hr
      change execBootAttemptEnd a s = .next t at h
      unfold execBootAttemptEnd at h
      rw [if_neg hb] at h
      rw [notTaken_next h]
      exact self
    case lugEvent =>
      cases hr : s.running with
      | true =>
        rw [exec_lugEvent hr] at h
        injection h with h
        subst h
        exact keepsDecision_afterLug hs hr hi
      | false =>
        rw [exec_lugEvent_idle hr] at h
        injection h with h
        subst h
        exact self
    case lugTableRestart =>
      by_cases hc : s.running = true ∧ 0 < s.restart.lug
      · rw [exec_lugTableRestart hc.1 hc.2] at h
        injection h with h
        subst h
        have hb := (released_line hs).2.2.2 i
        split <;> exact Or.inl (by simp only [Ev.finish_lug, Ev.ask_st, hb, freed])
      · rw [exec_lugTableRestart_idle hc] at h
        injection h with h
        subst h
        exact self

end Sys2Proof.Proofs
end

section
/-! The classing of segments (R12, R73 to R78), the state right after reset (R21 to R201), the encoder pulse (R2, R127), and
the five takes of a line restart (R20, R39, R65, R72, R132). -/

namespace Sys2Proof.Proofs

open Sys2Proof Sys2Proof.Machine Sys2Proof.Laws

/-! ### Frames -/

/-- The state with the blocks listed from `t` and every other from `s`. -/
def mixed (bs : List Block) (s t : State) : State :=
  { boot := if .boot ∈ bs then t.boot else s.boot, path := if .path ∈ bs then t.path else s.path
    src := if .src ∈ bs then t.src else s.src, head := if .head ∈ bs then t.head else s.head
    asm := if .asm ∈ bs then t.asm else s.asm, lug := if .lug ∈ bs then t.lug else s.lug
    solv := if .solv ∈ bs then t.solv else s.solv, plan := if .plan ∈ bs then t.plan else s.plan
    ovr := if .ovr ∈ bs then t.ovr else s.ovr, trim := if .trim ∈ bs then t.trim else s.trim
    dec := if .dec ∈ bs then t.dec else s.dec, tally := if .tally ∈ bs then t.tally else s.tally
    note := if .note ∈ bs then t.note else s.note, restart := if .restart ∈ bs then t.restart else s.restart
    pins := if .pins ∈ bs then t.pins else s.pins, mem := if .mem ∈ bs then t.mem else s.mem
    freeCount := if .freeCount ∈ bs then t.freeCount else s.freeCount
    pending := if .pending ∈ bs then t.pending else s.pending }

/-- A footprint as a record update: the form the claims give their frames. -/
theorem eq_mixed {bs : List Block} {s t : State} (h : Keeps bs s t) : t = mixed bs s t := by
  have field : ∀ {α : Type} (b : Block) {x y : α}, (b ∉ bs → x = y) → x = if b ∈ bs then x else y := by
    intro α b x y hxy
    split
    · rfl
    · rename_i hb; exact hxy hb
  unfold mixed
  rw [← field .boot (h .boot), ← field .path (h .path), ← field .src (h .src), ← field .head (h .head),
    ← field .asm (h .asm), ← field .lug (h .lug), ← field .solv (h .solv), ← field .plan (h .plan),
    ← field .ovr (h .ovr), ← field .trim (h .trim), ← field .dec (h .dec), ← field .tally (h .tally),
    ← field .note (h .note), ← field .restart (h .restart), ← field .pins (h .pins), ← field .mem (h .mem),
    ← field .freeCount (h .freeCount), ← field .pending (h .pending)]

/-! ### Segment classes (R12, R73 to R78) -/

section Classes
variable (scanned : Acc → SegMark) (blind : SegMark) {marks : Vector (Option SegMark) 12} {acc : Vector Acc 12} {j : Fin 12}

theorem resolveClasses_empty (h : marks[j] = some .empty) :
    (resolveClasses scanned blind marks acc)[j] = some .empty := by
  unfold resolveClasses
  simp only [Fin.getElem_fin, Vector.getElem_ofFn] at h ⊢
  rw [h]

theorem resolveClasses_scanned (h : marks[j] = none) :
    (resolveClasses scanned blind marks acc)[j] = some (scanned acc[j]) := by
  unfold resolveClasses
  simp only [Fin.getElem_fin, Vector.getElem_ofFn] at h ⊢
  rw [h]

theorem resolveClasses_unscanned (h : marks[j] = some .unscanned) :
    (resolveClasses scanned blind marks acc)[j] = some (if seenBeyond marks acc j then blind else .empty) := by
  unfold resolveClasses
  simp only [Fin.getElem_fin, Vector.getElem_ofFn] at h ⊢
  rw [h]

end Classes

theorem seenBeyond_iff (marks : Vector (Option SegMark) 12) (acc : Vector Acc 12) (j : Fin 12) :
    seenBeyond marks acc j = true ↔ ∃ i : Fin 12, j < i ∧ marks[i] = none ∧ 0 < acc[i].ps := by
  simp [seenBeyond, seenAt, allSegments]

/-- R74: a scanned segment without samples is EMPTY, whatever its other counts. -/
theorem classify_eq (p : Shadow) (a : Acc) : classify p a = if a.ps = 0 then .empty else classify p a := by
  split
  · rename_i h; simp [classify, h]
  · rfl

/-- Settles O13: each segment is resolved by its mark. -/
theorem unscannedResolved : Obligations.UnscannedResolved := by
  unfold Obligations.UnscannedResolved
  intro p marks acc
  dsimp only
  refine ⟨fun j => ⟨fun h => ?_, fun h => ?_, fun h hb => ?_, fun h hb => ?_⟩, ?_⟩
  · exact ⟨resolveClasses_empty _ _ h, resolveClasses_empty _ _ h⟩
  · exact ⟨by rw [← classify_eq]; exact resolveClasses_scanned _ _ h, resolveClasses_scanned _ _ h⟩
  · have hs := (seenBeyond_iff marks acc j).2 hb
    exact ⟨(resolveClasses_unscanned _ _ h).trans (by rw [if_pos hs]),
      (resolveClasses_unscanned _ _ h).trans (by rw [if_pos hs])⟩
  · have hs : ¬ seenBeyond marks acc j = true := fun hc => hb ((seenBeyond_iff marks acc j).1 hc)
    exact ⟨(resolveClasses_unscanned _ _ h).trans (by rw [if_neg hs]),
      (resolveClasses_unscanned _ _ h).trans (by rw [if_neg hs])⟩
  · simp only [degradedBy, allSegments, List.any_eq_true, List.mem_finRange, true_and, Bool.and_eq_true, beq_iff_eq,
      seenBeyond_iff]

/-! ### The state right after reset -/

/-- Settles O3: each block's reset condition is read off its definition; the vectors are constant. -/
theorem resetCondition : Obligations.ResetCondition := by
  unfold Obligations.ResetCondition
  dsimp only
  refine ⟨rfl, rfl, ⟨rfl, rfl, rfl, fun i => ?_⟩, fun h => ?_, fun h => ?_, rfl, rfl, ⟨rfl, rfl, rfl, rfl, rfl, rfl⟩,
    ⟨rfl, rfl⟩, ⟨rfl, fun k => ?_⟩, ⟨rfl, rfl, rfl, rfl⟩, ⟨rfl, rfl, rfl, rfl, rfl⟩, ⟨rfl, rfl⟩, fun i => ?_,
    rfl, rfl, rfl, rfl, rfl⟩
  · simp [State.reset, LugTable.reset, Board.blank]
  · simp [State.reset, HeadMonitor.reset, HeadCtx.reset]
  · simp [State.reset, Assembler.reset]
  · simp [State.reset, TrimUnit.reset]
  · simp [State.reset, SourceTable.reset]

theorem tallyInv_reset : TallyInv State.reset :=
  ⟨zeroed_sound .opened, zeroed_sound .empty, fun h => by cases h.2⟩

theorem capacityInv_reset : CapacityInv State.reset := by
  have hheld : ∀ h : Fin 6, State.reset.asm.held[h] = [] := fun h => by simp [State.reset, Assembler.reset]
  refine ⟨Nat.zero_le _, Nat.zero_le _, fun h => absurd rfl h, List.Pairwise.nil, Nat.zero_le _, Nat.zero_le _,
    Nat.zero_le _, fun h => by rw [hheld]; exact Nat.zero_le _, Nat.zero_le _, fun _ => ⟨hheld, rfl, rfl⟩⟩

/-- Settles O4: the four invariants, each at the reset state. -/
theorem invariantsAtReset : Obligations.InvariantsAtReset :=
  ⟨rfl, tallyInv_reset, capacityInv_reset, lineInv_of_reset rfl rfl rfl rfl⟩

/-! ### Firing (R17, R127, R129) -/

/-- The saws of the pattern are HELD for saw_hold and the others left as they are (R129). -/
theorem drive_channels (u : TrimUnit) (saws : SawSet) (k : Fin 11) :
    (u.drive saws).channels[k] = if saws.getLsbD k = true then some u.sawHold else u.channels[k] := by
  simp [TrimUnit.drive]

/-- A fire drives the saws, and of the records touches only that of the fired lug, where COMMITTED. -/
theorem fire_st (e : Ev) (a : ArmedFire) : (e.fire a).st = { e.st with
    trim := e.st.trim.drive a.saws, lug := { e.st.lug with boards := (e.fire a).st.lug.boards } } := by
  unfold Ev.fire
  dsimp only
  split
  · split <;> rfl
  · rfl

theorem fire_asked (e : Ev) (a : ArmedFire) : (e.fire a).asked = e.asked := by
  unfold Ev.fire
  dsimp only
  split
  · split <;> rfl
  · rfl

/-- The record trimmed (R17). -/
def trimmedBoard (b : Board) : Board := { b with state := .trimmed }

theorem fire_boards (e : Ev) (a : ArmedFire) (j : Fin 32) : (e.fire a).st.lug.boards[j] =
    if e.st.lookup a.lug = some j ∧ e.st.lug.boards[j].state = .committed then trimmedBoard e.st.lug.boards[j]
    else e.st.lug.boards[j] := by
  unfold Ev.fire
  dsimp only
  split
  · rename_i i hi
    have hi' : e.st.lookup a.lug = some i := hi
    split
    · rename_i hc
      rw [changeBoard_read, hi']
      have hc' : e.st.lug.boards[i].state = .committed := hc
      by_cases hj : j = i
      · subst hj; rw [if_pos rfl, if_pos ⟨rfl, hc'⟩]; rfl
      · rw [if_neg hj, if_neg fun h : some i = some j ∧ _ => hj (Option.some.inj h.1).symm]; rfl
    · rename_i hc
      have hc' : ¬ e.st.lug.boards[i].state = .committed := hc
      rw [hi', if_neg fun h : some i = some j ∧ _ => hc' (by rw [Option.some.inj h.1]; exact h.2)]; rfl
  · rename_i hi
    have hi' : e.st.lookup a.lug = none := hi
    rw [hi', if_neg (by simp)]; rfl

/-! ### The encoder pulse (R2, R127) -/

/-- The pulse counted, before any fire. -/
def counted (s : State) : Ev :=
  (Ev.start s).modify fun s => { s with lug := { s.lug with encCount := min 65535 (s.lug.encCount + 1) } }

theorem exec_encPulse_fires {s : State} {a : ArmedFire} (hr : s.running = true) (ha : s.trim.armed = some a)
    (hn : min 65535 (s.lug.encCount + 1) = s.trim.fireDelay) :
    exec .encPulse s = .next ((counted s).fire a).finish := by
  show execEncPulse s = _
  unfold execEncPulse
  rw [if_pos hr, ha]
  exact if_pos hn

theorem exec_encPulse_counts {s : State} (hr : s.running = true)
    (hn : ∀ a, s.trim.armed = some a → min 65535 (s.lug.encCount + 1) ≠ s.trim.fireDelay) :
    exec .encPulse s = .next (counted s).finish := by
  show execEncPulse s = _
  unfold execEncPulse
  rw [if_pos hr]
  cases ha : s.trim.armed with
  | none => rfl
  | some a => exact if_neg (hn a ha)

theorem exec_encPulse_idle {s : State} (hr : s.running = false) : exec .encPulse s = .next s := by
  show execEncPulse s = _
  unfold execEncPulse
  rw [hr]
  rfl

/-- Settles O27: the pulse fires the armed fire where the count reaches fire_delay, and otherwise counts alone. -/
theorem encPulseCountsAndFires : Obligations.EncPulseCountsAndFires := by
  unfold Obligations.EncPulseCountsAndFires
  refine ⟨fun s hr => exec_encPulse_idle hr, fun s hr => ?_⟩
  dsimp only
  by_cases hf : ∃ a, s.trim.armed = some a ∧ min 65535 (s.lug.encCount + 1) = s.trim.fireDelay
  · obtain ⟨a, ha, hn⟩ := hf
    have hst := fire_st (counted s) a
    have hq : ((counted s).fire a).asked = [] := fire_asked _ _
    have hret : ((counted s).fire a).returned = [] := (grows_fire (counted s) a).returned
    refine ⟨_, exec_encPulse_fires hr ha hn, ?_, ?_, ?_, fun hc => ?_, fun a' ha' _ => ?_⟩
    · rw [Ev.finish_of_quiet hq, hst]; rfl
    · rw [Ev.finish_of_quiet hq, hst, hret]; rfl
    · rw [Ev.finish_lug, hst]; rfl
    · rcases hc with hc | hc
      · rw [ha] at hc; cases hc
      · exact absurd hn hc
    · obtain rfl : a = a' := Option.some.inj (ha.symm.trans ha')
      have htrim : ((counted s).fire a).finish.trim = s.trim.drive a.saws := by rw [Ev.finish_trim, hst]; rfl
      refine ⟨?_, fun k => ?_, fun j => ?_⟩
      · rw [htrim]; rfl
      · simp only [htrim]; exact drive_channels _ _ _
      · exact fire_boards (counted s) a j
  · have hn : ∀ a, s.trim.armed = some a → min 65535 (s.lug.encCount + 1) ≠ s.trim.fireDelay :=
      fun a ha hc => hf ⟨a, ha, hc⟩
    exact ⟨_, exec_encPulse_counts hr hn, rfl, rfl, rfl, fun _ => ⟨rfl, rfl⟩, fun a ha hc => absurd hc (hn a ha)⟩

/-! ### The heads, one after another (R34 to R36, R39) -/

theorem ctx_set (v : Vector HeadCtx 6) (h k : Fin 6) (c : HeadCtx) : (v.set h c)[k] = if k = h then c else v[k] := by
  by_cases hk : k = h
  · subst hk; simp
  · rw [if_neg hk]
    exact Vector.getElem_set_ne h.2 k.2 fun hc => hk (Fin.ext hc.symm)

/-- The head contexts of `e` have become `g`, and nothing else of the state has changed. HEAD_STATUS is asked for each head
whose context has changed (R22). -/
structure HeadsBecome (e e' : Ev) (g : Fin 6 → HeadCtx) : Prop where
  st : e'.st = { e.st with head := { e.st.head with ctx := e'.st.head.ctx } }
  ctx : ∀ k : Fin 6, e'.st.head.ctx[k] = g k
  grows : Grows e e'
  asks : ∀ k : Fin 6, g k ≠ e.st.head.ctx[k] → .headStatus k ∈ e'.asked

theorem HeadsBecome.refl (e : Ev) : HeadsBecome e e fun k => e.st.head.ctx[k] :=
  ⟨rfl, fun _ => rfl, Grows.refl e, fun _ h => absurd rfl h⟩

/-- A change of one head that keeps its two line levels. -/
theorem changeHead_becomes (e : Ev) (h : Fin 6) (f : HeadCtx → HeadCtx)
    (hp : (f e.st.head.ctx[h]).present = e.st.head.ctx[h].present)
    (hr : (f e.st.head.ctx[h]).ready = e.st.head.ctx[h].ready) :
    HeadsBecome e (e.changeHead h f) fun k => if k = h then f e.st.head.ctx[h] else e.st.head.ctx[k] := by
  have hctx : (e.changeHead h f).st.head.ctx = e.st.head.ctx.set h (f e.st.head.ctx[h]) := by
    unfold Ev.changeHead; dsimp only; split <;> rfl
  refine ⟨?_, fun k => ?_, grows_changeHead e h f, fun k hk => ?_⟩
  · unfold Ev.changeHead; dsimp only; split <;> rfl
  · simp only [hctx]; exact ctx_set _ _ _ _
  · by_cases hkh : k = h
    · subst hkh
      rw [if_pos rfl] at hk
      have hshown : ¬ (f e.st.head.ctx[k]).shown = e.st.head.ctx[k].shown := by
        intro hs
        simp only [HeadCtx.shown, Prod.mk.injEq] at hs
        obtain ⟨h1, h2, h3, h4⟩ := hs
        refine hk ?_
        generalize f e.st.head.ctx[k] = c at hp hr h1 h2 h3 h4
        generalize e.st.head.ctx[k] = d at hp hr h1 h2 h3 h4
        cases c; cases d; simp_all
      unfold Ev.changeHead
      dsimp only
      rw [if_neg hshown]
      simp
    · rw [if_neg hkh] at hk; exact absurd rfl hk

/-- Heads changed one after another, each by the lug table and its own context: each has then changed as from the start. -/
theorem foldl_becomes {F : Ev → Fin 6 → Ev} {G : State → Fin 6 → HeadCtx}
    (hF : ∀ e h, HeadsBecome e (F e h) fun k => if k = h then G e.st h else e.st.head.ctx[k])
    (hG : ∀ s t h, t.lug = s.lug → t.head.ctx[h] = s.head.ctx[h] → G t h = G s h) (e : Ev) :
    HeadsBecome e (allHeads.foldl F e) (G e.st) := by
  have key : ∀ (l : List (Fin 6)), l.Nodup → ∀ e : Ev,
      HeadsBecome e (l.foldl F e) fun k => if k ∈ l then G e.st k else e.st.head.ctx[k] := by
    intro l
    induction l with
    | nil => intro _ e; simpa using HeadsBecome.refl e
    | cons h l ih =>
      intro hn e
      obtain ⟨hh, hl⟩ := List.nodup_cons.1 hn
      have h1 := hF e h
      have h2 := ih hl (F e h)
      have hlug : (F e h).st.lug = e.st.lug := by rw [h1.st]
      have hstep : ∀ k, (if k ∈ l then G (F e h).st k else (F e h).st.head.ctx[k]) =
          if k ∈ h :: l then G e.st k else e.st.head.ctx[k] := by
        intro k
        have hk1 := h1.ctx k
        by_cases hkh : k = h
        · subst hkh
          rw [if_neg hh, hk1, if_pos rfl, if_pos (List.mem_cons_self)]
        · rw [if_neg hkh] at hk1
          have hmem : k ∈ h :: l ↔ k ∈ l := by simp [hkh]
          rw [hG _ _ k hlug hk1, hk1]
          simp only [hmem]
      refine ⟨?_, fun k => ?_, h1.grows.trans h2.grows, fun k hk => ?_⟩
      · rw [List.foldl_cons, h2.st, h1.st]
      · rw [List.foldl_cons, h2.ctx k, hstep]
      · rw [← hstep] at hk
        rw [List.foldl_cons]
        by_cases hk1 : (F e h).st.head.ctx[k] = e.st.head.ctx[k]
        · exact h2.asks k fun hc => hk (hc.trans hk1)
        · refine h2.grows.asked _ (h1.asks k ?_)
          rw [← h1.ctx k]; exact hk1
  have h := key allHeads (List.nodup_finRange 6) e
  have hall : ∀ k, k ∈ allHeads := List.mem_finRange
  simpa only [hall, if_true] using h

/-- A fold of the shape "where the head meets `P`, change it by `f`". -/
theorem foldl_changeHead {F : Ev → Fin 6 → Ev} {P : State → Fin 6 → Prop} {f : Fin 6 → HeadCtx → HeadCtx}
    (hyes : ∀ e h, P e.st h → F e h = e.changeHead h (f h)) (hno : ∀ e h, ¬ P e.st h → F e h = e)
    (hP : ∀ s t h, t.lug = s.lug → t.head.ctx[h] = s.head.ctx[h] → (P t h ↔ P s h))
    (hf : ∀ h c, (f h c).present = c.present ∧ (f h c).ready = c.ready) {g : Fin 6 → HeadCtx} {e : Ev}
    (hg : ∀ k, (P e.st k → g k = f k e.st.head.ctx[k]) ∧ (¬ P e.st k → g k = e.st.head.ctx[k])) :
    HeadsBecome e (allHeads.foldl F e) g := by
  classical
  have h := foldl_becomes (F := F) (G := fun s h => if P s h then f h s.head.ctx[h] else s.head.ctx[h])
    (fun e h => by
      by_cases hp : P e.st h
      · rw [hyes e h hp]
        simpa only [if_pos hp] using changeHead_becomes e h (f h) (hf _ _).1 (hf _ _).2
      · rw [hno e h hp]
        have hid : (fun k => if k = h then e.st.head.ctx[h] else e.st.head.ctx[k]) = fun k => e.st.head.ctx[k] := by
          funext k; split
          · rename_i hk; rw [hk]
          · rfl
        simp only [if_neg hp, hid]
        exact HeadsBecome.refl e)
    (fun s t h hl hc => by simp only [hP s t h hl hc, hc]) e
  have hfun : (fun k => if P e.st k then f k e.st.head.ctx[k] else e.st.head.ctx[k]) = g := by
    funext k
    by_cases hp : P e.st k
    · rw [if_pos hp, (hg k).1 hp]
    · rw [if_neg hp, (hg k).2 hp]
  rwa [hfun] at h

/-! ### The takes of a line restart -/

/-- The head parked (R35, R39). -/
def parkedHead (c : HeadCtx) : HeadCtx := { c with state := if c.state = .leaving then .parked else c.state }

/-- Every LEAVING head is PARKED (R39). -/
theorem parkLeaving_becomes (e : Ev) : HeadsBecome e
    (allHeads.foldl (fun e h => if e.st.head.ctx[h].state = .leaving then
      e.changeHead h fun c => { c with state := .parked } else e) e) fun k => parkedHead e.st.head.ctx[k] := by
  refine foldl_changeHead (P := fun s h => s.head.ctx[h].state = .leaving)
    (f := fun _ c => { c with state := .parked }) (fun e h hp => if_pos hp) (fun e h hp => if_neg hp)
    (fun s t h _ hc => by rw [hc]) (fun _ _ => ⟨rfl, rfl⟩) fun k => ⟨fun hp => ?_, fun hp => ?_⟩
  · unfold parkedHead; rw [if_pos hp]
  · unfold parkedHead; rw [if_neg hp]

theorem grows_released (s : State) : Grows (Ev.start s) (released s) := by
  unfold released
  exact (grows_modify (Ev.start s) _ rfl).trans (grows_foldl _ (fun e i => grows_releaseSlot e i) _ _)

theorem released_restart (s : State) : (released s).st.restart = { s.restart with lug := s.restart.lug - 1 } := by
  unfold released
  exact (keeps_foldl _ (fun e i => keeps_releaseSlot e i) (List.finRange 32) _).restart

/-- R104: no record holds a bank once every record is FREE. -/
theorem released_plan {s : State} (hs : LineInv s) : (released s).st.plan =
    { s.plan with bankA := { s.plan.bankA with count := 0 }, bankB := { s.plan.bankB with count := 0 } } := by
  obtain ⟨hc, hp, _, hb⟩ := released_line hs
  have hzero : ∀ k, (released s).st.lug.boundTo k = 0 := fun k => by
    rw [boundTo_eq, List.countP_eq_zero]
    intro i _
    rw [hb i, holdsBank_free (b := freed _) rfl]
    decide
  have ha : (released s).st.plan.bankA.count = 0 := (hc .a).trans (hzero .a)
  have hb : (released s).st.plan.bankB.count = 0 := (hc .b).trans (hzero .b)
  unfold CountsOnly at hp
  rw [hp, ha, hb]

/-- The lug table's take, whatever it asks for at its end. -/
theorem released_finish {s : State} (hs : LineInv s) {e : Ev} (he : e.st = (released s).st) (hret : e.returned = []) :
    e.finish = { s with restart := { s.restart with lug := s.restart.lug - 1 }, lug := e.finish.lug
                        plan := e.finish.plan, path := e.finish.path } ∧
      s.path.Grew e.finish.path ∧ e.finish.lug = { s.lug with boards := e.finish.lug.boards } ∧
      (∀ i : Fin 32, e.finish.lug.boards[i].state = .free) ∧
      e.finish.plan =
        { s.plan with bankA := { s.plan.bankA with count := 0 }, bankB := { s.plan.bankB with count := 0 } } := by
  obtain ⟨_, _, hlug, hb⟩ := released_line hs
  have hk : Keeps [.restart, .lug, .plan] s e.st := by rw [he]; exact keeps_released s
  have hrest : e.finish.restart = { s.restart with lug := s.restart.lug - 1 } := by
    rw [Ev.finish_restart, he, released_restart]
  refine ⟨?_, Ev.finish_grew hk.path hret, ?_, fun i => ?_, ?_⟩
  · rw [← hrest]
    exact eq_mixed (bs := [.restart, .lug, .plan, .path])
      ((hk.mono (by decide)).trans ((keeps_finish e).mono (by decide)))
  · rw [Ev.finish_lug, he]; exact hlug
  · simp only [Ev.finish_lug, he, hb]; rfl
  · rw [Ev.finish_plan, he, released_plan hs]

/-- R20, R104: the take of the lug table. -/
theorem lugTableRestart_taken {s : State} (hr : s.running = true) (hl : 0 < s.restart.lug) (hs : LineInv s) :
    ∃ t, exec .lugTableRestart s = .next t ∧
      t = { s with restart := { s.restart with lug := s.restart.lug - 1 }, lug := t.lug, plan := t.plan, path := t.path } ∧
      s.path.Grew t.path ∧ t.lug = { s.lug with boards := t.lug.boards } ∧
      (∀ i : Fin 32, t.lug.boards[i].state = .free) ∧
      t.plan = { s.plan with bankA := { s.plan.bankA with count := 0 }, bankB := { s.plan.bankB with count := 0 } } ∧
      (t.plan.boundMask ≠ s.plan.boundMask → t.path.asks .lineStatus = true) := by
  have hret : (released s).returned = [] := (grows_released s).returned
  rw [exec_lugTableRestart hr hl]
  split
  · rename_i hm
    obtain ⟨h1, h2, h3, h4, h5⟩ := released_finish hs (e := released s) rfl hret
    exact ⟨_, rfl, h1, h2, h3, h4, h5, fun hne => absurd hm hne⟩
  · obtain ⟨h1, h2, h3, h4, h5⟩ := released_finish hs (e := (released s).ask .lineStatus) rfl hret
    exact ⟨_, rfl, h1, h2, h3, h4, h5, fun _ => Ev.finish_asks (by simp) nofun nofun⟩

/-- R39: the take of the head monitor. -/
theorem headMonitorRestart_taken {s : State} (hr : s.running = true) (hl : 0 < s.restart.head) :
    ∃ t, exec .headMonitorRestart s = .next t ∧
      t = { s with restart := { s.restart with head := s.restart.head - 1 }, head := t.head, path := t.path } ∧
      s.path.Grew t.path ∧ t.head = { s.head with ctx := t.head.ctx } ∧
      ∀ h : Fin 6, (s.head.ctx[h].state = .leaving → t.path.asks (.headStatus h) = true ∧
          t.head.ctx[h] = { s.head.ctx[h] with state := .parked }) ∧
        (s.head.ctx[h].state ≠ .leaving → t.head.ctx[h] = s.head.ctx[h]) := by
  have h := parkLeaving_becomes ((Ev.start s).modify fun s =>
    { s with restart := { s.restart with head := s.restart.head - 1 } })
  refine ⟨_, if_pos (by simp [hr, hl]), ?_, ?_, ?_, fun k => ⟨fun hk => ⟨?_, ?_⟩, fun hk => ?_⟩⟩
  all_goals generalize allHeads.foldl _ _ = u at h ⊢
  · have hst := h.st
    unfold Ev.finish
    rw [hst]
    rfl
  · exact Ev.finish_grew (by rw [h.st]; rfl) h.grows.returned
  · rw [Ev.finish_head, h.st]; rfl
  · refine Ev.finish_asks (h.asks k fun hc => ?_) nofun nofun
    have hstate : (parkedHead s.head.ctx[k]).state = s.head.ctx[k].state := congrArg HeadCtx.state hc
    rw [show (parkedHead s.head.ctx[k]).state = .parked from if_pos hk, hk] at hstate
    cases hstate
  · refine (h.ctx k).trans ?_
    show parkedHead s.head.ctx[k] = _
    unfold parkedHead
    rw [if_pos hk]
  · refine (h.ctx k).trans ?_
    show parkedHead s.head.ctx[k] = _
    unfold parkedHead
    rw [if_neg hk]

/-- Settles O53: the lug table's take frees every record; each of the other takes is one change of its block. -/
theorem restartsTaken : Obligations.RestartsTaken := by
  unfold Obligations.RestartsTaken
  refine ⟨fun s hr hl hs => lugTableRestart_taken hr hl hs, fun s hr =>
    ⟨headMonitorRestart_taken hr, fun hl => ?_, fun hl => if_pos (by simp [hr, hl]), fun hl => ?_⟩⟩
  · exact ⟨_, if_pos (by simp [hr, hl]), rfl, rfl, fun h => Vector.getElem_replicate h.2⟩
  · refine ⟨_, if_pos (by simp [hr, hl]), rfl, rfl, fun k => ?_⟩
    show (Vector.replicate 11 none)[k].isSome = false
    simp

end Sys2Proof.Proofs
end

section
/-! The close of a board: the head contexts it leaves (R35, R36), the solve it may start (R67, R68), the scan marks (R10), and
one lemma that says all that a close does (R10 to R12). -/

namespace Sys2Proof.Proofs

open Sys2Proof Sys2Proof.Machine Sys2Proof.Laws

/-! ### Head contexts at a close and at an opening (R34 to R36) -/

theorem expectsHead_iff (s : State) (k : Fin 6) : s.expectsHead k = true ↔ s.Expects k := by
  unfold State.expectsHead State.Expects
  rw [Vector.any_eq_true]
  constructor
  · rintro ⟨i, hi, h⟩
    simp only [Bool.and_eq_true, beq_iff_eq] at h
    exact ⟨⟨i, hi⟩, h⟩
  · rintro ⟨i, h1, h2⟩
    exact ⟨i.1, i.2, by simp only [Bool.and_eq_true, beq_iff_eq]; exact ⟨h1, h2⟩⟩

theorem expects_of_boards {s t : State} (h : t.lug.boards = s.lug.boards) (k : Fin 6) : t.Expects k ↔ s.Expects k := by
  unfold State.Expects
  rw [h]

theorem parkedIn_congr {s t : State} {k : Fin 6} (h : t.Expects k ↔ s.Expects k) (c : HeadState) :
    c.parkedIn t k = c.parkedIn s k := by
  unfold HeadState.parkedIn
  simp only [h]

theorem parkedIn_of_ne {t : State} {k : Fin 6} {c : HeadState} (h : c ≠ .leaving) : c.parkedIn t k = c := by
  unfold HeadState.parkedIn
  exact if_neg fun hc => h hc.1

theorem parkTestAll_becomes (e : Ev) : HeadsBecome e e.parkTestAll fun k =>
    { e.st.head.ctx[k] with state := e.st.head.ctx[k].state.parkedIn e.st k } := by
  have hiff : ∀ (e : Ev) (h : Fin 6), (e.st.head.ctx[h].state = .leaving && !e.st.expectsHead h) = true ↔
      e.st.head.ctx[h].state = .leaving ∧ ¬ e.st.Expects h := fun e h => by
    rw [← expectsHead_iff]; simp
  unfold Ev.parkTestAll
  refine foldl_changeHead (P := fun s h => s.head.ctx[h].state = .leaving ∧ ¬ s.Expects h)
    (f := fun _ c => { c with state := .parked }) (fun e h hp => ?_) (fun e h hp => ?_)
    (fun s t h hl hc => by rw [hc, expects_of_boards (congrArg LugTable.boards hl)]) (fun _ _ => ⟨rfl, rfl⟩)
    fun k => ⟨fun hp => ?_, fun hp => ?_⟩
  · exact if_pos ((hiff e h).2 hp)
  · exact if_neg fun hc => hp ((hiff e h).1 hc)
  · unfold HeadState.parkedIn; rw [if_pos hp]
  · unfold HeadState.parkedIn; rw [if_neg hp]

theorem recordBadCounts_becomes (e : Ev) (b : Board) : HeadsBecome e (e.recordBadCounts b) fun k =>
    { e.st.head.ctx[k] with badLast := if b.expected.getLsbD k = true then b.bad[k] else e.st.head.ctx[k].badLast } := by
  unfold Ev.recordBadCounts
  refine foldl_changeHead (P := fun _ h => b.expected.getLsbD h = true)
    (f := fun h c => { c with badLast := b.bad[h] }) (fun e h hp => if_pos hp) (fun e h hp => if_neg hp)
    (fun _ _ _ _ _ => Iff.rfl) (fun _ _ => ⟨rfl, rfl⟩) fun k => ⟨fun hp => by rw [if_pos hp], fun hp => by rw [if_neg hp]⟩

/-- A head context after the admissions (R34). -/
def admittedHead (c : HeadCtx) : HeadCtx :=
  { c with state := if c.admitPending = true then .active else c.state, admitPending := false }

theorem admitHeads_becomes (e : Ev) : HeadsBecome e e.admitHeads fun k => admittedHead e.st.head.ctx[k] := by
  unfold Ev.admitHeads
  refine foldl_changeHead (P := fun s h => s.head.ctx[h].admitPending = true)
    (f := fun _ c => { c with state := .active, admitPending := false }) (fun e h hp => if_pos hp)
    (fun e h hp => if_neg hp) (fun s t h _ hc => by rw [hc]) (fun _ _ => ⟨rfl, rfl⟩)
    fun k => ⟨fun hp => ?_, fun hp => ?_⟩
  · unfold admittedHead; rw [if_pos hp]
  · have hfalse : e.st.head.ctx[k].admitPending = false := by simpa using hp
    unfold admittedHead
    rw [if_neg hp]
    generalize e.st.head.ctx[k] = c at hfalse
    cases c
    subst hfalse
    rfl

/-! ### The start of a solve (R68) -/

/-- The record whose solve has started. -/
def startedBoard (b : Board) : Board := { b with state := .solving }

theorem startSolve_busy {s : State} {n : Word16} (h : s.solv.solving = some n) : s.startSolve = s := by
  unfold State.startSolve
  rw [h]

theorem startSolve_empty {s : State} (h : s.solv.queue = []) : s.startSolve = s := by
  unfold State.startSolve
  rw [h]
  cases s.solv.solving <;> rfl

/-- An idle solver with a queue takes its oldest entry, and the record of that lug becomes SOLVING if QUEUED. -/
theorem startSolve_takes {s : State} {n : Word16} {rest : List Word16} (h : s.solv.solving = none)
    (hq : s.solv.queue = n :: rest) : s.startSolve.solv = { queue := rest, solving := some n } ∧
      s.startSolve.lug = { s.lug with boards := s.startSolve.lug.boards } ∧
      ∀ j : Fin 32, s.startSolve.lug.boards[j] = if s.lug.boards[j].state = .queued ∧ s.lookup n = some j then
        startedBoard s.lug.boards[j] else s.lug.boards[j] := by
  unfold State.startSolve
  rw [h, hq]
  dsimp only
  split
  · rename_i i hi
    have hi' : s.lookup n = some i := hi
    split
    · rename_i hs
      refine ⟨rfl, rfl, fun j => ?_⟩
      rw [setBoard_read, hi']
      by_cases hj : j = i
      · subst hj; rw [if_pos rfl, if_pos ⟨hs, rfl⟩]; rfl
      · rw [if_neg hj, if_neg fun hc : _ ∧ some i = some j => hj (Option.some.inj hc.2).symm]
    · rename_i hs
      refine ⟨rfl, rfl, fun j => ?_⟩
      rw [hi', if_neg fun hc : _ ∧ some i = some j => hs (by rw [Option.some.inj hc.2]; exact hc.1)]
  · rename_i hi
    have hi' : s.lookup n = none := hi
    exact ⟨rfl, rfl, fun j => by rw [hi', if_neg (by simp)]⟩

/-- The solver has nothing to start, or is idle with a queue. -/
theorem startSolve_cases (s : State) : (s.startSolve = s ∧ (s.solv.solving ≠ none ∨ s.solv.queue = [])) ∨
    ∃ n rest, s.solv.solving = none ∧ s.solv.queue = n :: rest := by
  rcases Option.eq_none_or_eq_some s.solv.solving with hs | ⟨n, hs⟩
  · cases hq : s.solv.queue with
    | nil => exact Or.inl ⟨startSolve_empty hq, Or.inr rfl⟩
    | cons n rest => exact Or.inr ⟨n, rest, hs, rfl⟩
  · exact Or.inl ⟨startSolve_busy hs, Or.inl (by rw [hs]; nofun)⟩

theorem startSolve_lug (s : State) : s.startSolve.lug = { s.lug with boards := s.startSolve.lug.boards } := by
  rcases startSolve_cases s with ⟨h, _⟩ | ⟨n, rest, hs, hq⟩
  · rw [h]
  · exact (startSolve_takes hs hq).2.1

/-- The one record that may change at a start is the QUEUED one the solver takes up. -/
theorem startSolve_boards (s : State) (j : Fin 32) : s.startSolve.lug.boards[j] =
    if s.lug.boards[j].state = .queued ∧ s.SolveStarts s.startSolve j then startedBoard s.lug.boards[j]
    else s.lug.boards[j] := by
  rcases startSolve_cases s with ⟨h, hidle⟩ | ⟨n, rest, hs, hq⟩
  · rw [h, if_neg]
    rintro ⟨_, hn, hstart⟩
    rw [hn] at hstart
    cases hstart
  · obtain ⟨h1, _, h3⟩ := startSolve_takes hs hq
    rw [h3 j]
    simp only [State.SolveStarts, h1, hs, Option.bind_some, true_and]

/-- The solver after a start: what it solves and what waits are as they were, and it is busy if it had anything to do. -/
theorem startSolve_solv (s : State) :
    s.startSolve.solv.solving.toList ++ s.startSolve.solv.queue = s.solv.solving.toList ++ s.solv.queue ∧
      (s.solv.queue ≠ [] → s.startSolve.solv.solving ≠ none) := by
  rcases startSolve_cases s with ⟨h, hidle⟩ | ⟨n, rest, hs, hq⟩
  · rw [h]
    exact ⟨rfl, fun hne => hidle.resolve_right hne⟩
  · rw [(startSolve_takes hs hq).1, hs, hq]
    exact ⟨rfl, fun _ => nofun⟩

/-! ### A board joins the solve queue (R67) -/

/-- The record that waits for its solve. -/
def queuedBoard (b : Board) : Board := { b with state := .queued }

/-- The state with a board in the queue, before any start. -/
def enqueued (s : State) (i : Fin 32) : State :=
  { s.setBoard i (queuedBoard s.lug.boards[i]) with
    solv := { s.solv with queue := s.solv.queue ++ [s.lug.boards[i].lug] } }

theorem joinQueue_eq (e : Ev) (i : Fin 32) : (e.joinQueue i).st = (enqueued e.st i).startSolve := by
  unfold Ev.joinQueue
  show State.startSolve { e.st.setBoard i (queuedBoard e.st.lug.boards[i]) with
    solv := { e.st.solv with queue := e.st.solv.queue ++
      [(e.st.setBoard i (queuedBoard e.st.lug.boards[i])).lug.boards[i].lug] } } = _
  rw [setBoard_read, if_pos rfl]
  rfl

theorem enqueued_read (s : State) (i j : Fin 32) : (enqueued s i).lug.boards[j] =
    if j = i then queuedBoard s.lug.boards[i] else s.lug.boards[j] := setBoard_read s i j _

theorem enqueued_lookup {s : State} {i : Fin 32} (h : s.lug.boards[i].state = .scanning) (n : Word16) :
    (enqueued s i).lookup n = s.lookup n := by
  have h1 : Seats s (s.setBoard i (queuedBoard s.lug.boards[i])) := seats_setBoard s i _
    (Seated.of_open .queued rfl rfl (by rw [h]; decide) rfl (by simp only [Board.isFrozen, h]; decide))
  exact h1.lookup n

/-- R67: the solver takes the board in, and is busy. -/
theorem joinQueue_solv (e : Ev) (i : Fin 32) : (e.joinQueue i).st.solv.solving ≠ none ∧
    (e.joinQueue i).st.solv.solving.toList ++ (e.joinQueue i).st.solv.queue =
      e.st.solv.solving.toList ++ e.st.solv.queue ++ [e.st.lug.boards[i].lug] := by
  obtain ⟨h1, h2⟩ := startSolve_solv (enqueued e.st i)
  rw [joinQueue_eq]
  refine ⟨h2 (by simp [enqueued]), h1.trans ?_⟩
  rw [List.append_assoc]
  rfl

/-- The records once a SCANNING board has joined the queue: it is SOLVING if the solver took it up and QUEUED otherwise; of
the others, a QUEUED one that the solver took up is SOLVING. -/
theorem joinQueue_boards {e : Ev} {i : Fin 32} (h : e.st.lug.boards[i].state = .scanning) (j : Fin 32) :
    (e.joinQueue i).st.lug.boards[j] =
      if j = i then
        (if e.st.SolveStarts (e.joinQueue i).st i then startedBoard e.st.lug.boards[i] else queuedBoard e.st.lug.boards[i])
      else if e.st.lug.boards[j].state = .queued ∧ e.st.SolveStarts (e.joinQueue i).st j then
        startedBoard e.st.lug.boards[j] else e.st.lug.boards[j] := by
  have hst : ∀ k, (enqueued e.st i).SolveStarts (e.joinQueue i).st k ↔ e.st.SolveStarts (e.joinQueue i).st k := by
    intro k
    unfold State.SolveStarts
    have hl : (enqueued e.st i).lookup = e.st.lookup := funext (enqueued_lookup h)
    rw [hl]
    rfl
  have hb := startSolve_boards (enqueued e.st i) j
  rw [← joinQueue_eq] at hb
  rw [hb, enqueued_read]
  by_cases hj : j = i
  · subst hj
    simp only [if_true, hst]
    by_cases hc : e.st.SolveStarts (e.joinQueue j).st j
    · rw [if_pos hc, if_pos ⟨rfl, hc⟩]; rfl
    · rw [if_neg hc, if_neg fun hx => hc hx.2]
  · simp only [if_neg hj, hst]

/-! ### The scan marks (R10, R11) -/

/-- The heads timed out at a close are those expected and not lost that have not ended. -/
def TimedOut (b : Board) (t : HeadSet) : Prop :=
  ∀ h : Fin 6, b.expected.getLsbD h = true → b.lost.getLsbD h = false → t.getLsbD h = !b.ended.getLsbD h

theorem marked_eq {b : Board} {t : HeadSet} (h : TimedOut b t) (fitted : HeadSet) (p : Shadow) :
    { b with classes := scanMarks fitted b t (planMaxBad p) } = b.marked fitted p := by
  unfold Board.marked scanMarks
  congr 1
  refine congrArg Vector.ofFn (funext fun j => ?_)
  generalize headOfSegment j = k
  cases hf : fitted.getLsbD k
  · rfl
  · have hiff : unscannedHead b t (planMaxBad p) k = true ↔ ¬ b.scannedBy fitted p k = true := by
      have hs : b.scannedBy fitted p k = (fitted.getLsbD k && b.expected.getLsbD k && !b.lost.getLsbD k &&
        b.ended.getLsbD k && decide (b.bad[k] ≤ planMaxBad p)) := rfl
      simp only [unscannedHead, hs, hf, Bool.true_and, Bool.and_eq_true, Bool.or_eq_true,
        Bool.not_eq_true', decide_eq_true_eq]
      cases he : b.expected.getLsbD k
      · simp
      · cases hl : b.lost.getLsbD k
        · rw [h k he hl]
          cases b.ended.getLsbD k <;> simp
        · simp
    simp only [Bool.not_true, Bool.false_eq_true, if_false, hiff, ite_not]
    rfl

theorem scannedMaterial_marked (b : Board) (fitted : HeadSet) (p : Shadow) :
    (b.marked fitted p).scannedMaterial = b.hasMaterial fitted p := by
  unfold Board.scannedMaterial Board.hasMaterial allSegments
  refine congrArg (List.any _) (funext fun j => ?_)
  have hmark : (b.marked fitted p).classes[j] =
      if fitted.getLsbD (headOfSegment j) = false then some .empty
      else if b.scannedBy fitted p (headOfSegment j) then none else some .unscanned := by
    simp [Board.marked]
  unfold seenAt
  rw [hmark]
  cases hf : fitted.getLsbD (headOfSegment j)
  · have hs : b.scannedBy fitted p (headOfSegment j) = false := by
      unfold Board.scannedBy
      rw [hf]
      simp only [Bool.false_and]
    rw [hs]
    rfl
  · cases hs : b.scannedBy fitted p (headOfSegment j) <;> simp [Board.marked]

end Sys2Proof.Proofs
end

section
/-! All that the close of a board does (R10 to R12, R35, R36, R67), said once; the close test of R62; and the opening of a
board, whose close at once touches neither the solver nor any other board (R7, R101). -/

namespace Sys2Proof.Proofs

open Sys2Proof Sys2Proof.Machine Sys2Proof.Laws

/-- The shadow that the board in slot `i` is graded with. -/
abbrev shadowAt (s : State) (i : Fin 32) : Shadow := s.shadowOf s.lug.boards[i].bank

/-- The board in slot `i` would close with material (R11). -/
abbrev hasMaterialAt (s : State) (i : Fin 32) : Prop :=
  s.lug.boards[i].hasMaterial s.head.fitted (shadowAt s i) = true

/-- The lug table, the solver and the notice word once the board in slot `i` has closed (R10 to R12, R67, R68). -/
structure ClosesBoard (e e' : Ev) (i : Fin 32) : Prop where
  lug : e'.st.lug = { e.st.lug with boards := e'.st.lug.boards }
  closed : e.st.lug.boards[i].ClosesTo e.st.head.fitted (shadowAt e.st i) (decide (e.st.solv.queue.length < 4))
    e'.st.lug.boards[i]
  others : ∀ j : Fin 32, j ≠ i → e'.st.lug.boards[j] =
    if e.st.lug.boards[j].state = .queued ∧ e.st.SolveStarts e'.st j then startedBoard e.st.lug.boards[j]
    else e.st.lug.boards[j]
  starts : e'.st.lug.boards[i].state = .solving ↔ e.st.SolveStarts e'.st i
  joined : e.st.solv.JoinedBy e'.st.solv
    (if hasMaterialAt e.st i ∧ e.st.solv.queue.length < 4 then [e.st.lug.boards[i].lug] else [])
  note : e'.st.note = if hasMaterialAt e.st i ∧ 4 ≤ e.st.solv.queue.length then e.st.note.raised .solveQueueFull
    else e.st.note
  full : hasMaterialAt e.st i → 4 ≤ e.st.solv.queue.length → .notice ∈ e'.asked

/-- All that the close of the board in slot `i` does, the heads' contexts included (R35, R36). -/
structure Closes (e e' : Ev) (i : Fin 32) : Prop where
  board : ClosesBoard e e' i
  keeps : Keeps [.lug, .head, .solv, .note] e.st e'.st
  head : e'.st.head = { e.st.head with ctx := e'.st.head.ctx }
  ctx : ∀ k : Fin 6, e'.st.head.ctx[k] = { e.st.head.ctx[k] with
    state := e.st.head.ctx[k].state.parkedIn e'.st k
    badLast := if e.st.lug.boards[i].expected.getLsbD k = true then e.st.lug.boards[i].bad[k]
      else e.st.head.ctx[k].badLast }
  asks : ∀ k : Fin 6, e'.st.head.ctx[k] ≠ e.st.head.ctx[k] → .headStatus k ∈ e'.asked
  grows : Grows e e'

theorem solveStarts_congr {s t u : State} (h : u.solv = t.solv) (j : Fin 32) : s.SolveStarts u j ↔ s.SolveStarts t j := by
  unfold State.SolveStarts
  rw [h]

/-- The close seen from a later point of the event where the lug table, the solver and the notices are the same. -/
theorem ClosesBoard.later {e e1 e2 : Ev} {i : Fin 32} (h : ClosesBoard e e1 i) (hl : e2.st.lug = e1.st.lug)
    (hs : e2.st.solv = e1.st.solv) (hn : e2.st.note = e1.st.note) (ha : ∀ k ∈ e1.asked, k ∈ e2.asked) :
    ClosesBoard e e2 i := by
  have hst := fun j => solveStarts_congr (s := e.st) hs j
  refine ⟨by rw [hl]; exact h.lug, by simp only [hl]; exact h.closed, fun j hj => ?_, ?_, by rw [hs]; exact h.joined,
    by rw [hn]; exact h.note, fun h1 h2 => ha _ (h.full h1 h2)⟩
  · simp only [hl, hst]; exact h.others j hj
  · simp only [hl, hst]; exact h.starts

/-- A close that only puts the closed record in its slot leaves the solver alone: none starts. -/
theorem not_solveStarts_self {s t : State} (h : t.solv = s.solv) (j : Fin 32) : ¬ s.SolveStarts t j := by
  rintro ⟨h1, h2⟩
  rw [h, h1] at h2
  cases h2

section Close
variable {e e1 : Ev} {i : Fin 32}

/-- The point of a close at which its board is marked and its heads' counts recorded. -/
structure Marked (e e1 : Ev) (i : Fin 32) : Prop where
  scanning : e.st.lug.boards[i].state = .scanning
  lug : e1.st.lug = { e.st.lug with
    boards := e.st.lug.boards.set i (e.st.lug.boards[i].marked e.st.head.fitted (shadowAt e.st i)) }
  solv : e1.st.solv = e.st.solv
  note : e1.st.note = e.st.note

theorem Marked.read (h : Marked e e1 i) (j : Fin 32) : e1.st.lug.boards[j] =
    if j = i then e.st.lug.boards[i].marked e.st.head.fitted (shadowAt e.st i) else e.st.lug.boards[j] := by
  simp only [h.lug]; exact boards_set _ _ _ _

theorem Marked.lookup (h : Marked e e1 i) : e1.st.lookup = e.st.lookup := by
  have hs : Seats e.st (e.st.setBoard i (e.st.lug.boards[i].marked e.st.head.fitted (shadowAt e.st i))) :=
    seats_setBoard _ _ _ (Seated.of_same rfl rfl rfl rfl)
  have hl : Seats e.st e1.st := hs.trans (Seats.of_lug h.lug)
  exact funext hl.lookup

theorem Marked.closesVoid (h : Marked e e1 i) (hm : ¬ hasMaterialAt e.st i) :
    ClosesBoard e (e1.changeBoard i fun b => { b with state := .void }) i := by
  have hread := h.read i
  rw [if_pos rfl] at hread
  have hi : (e1.changeBoard i fun b => { b with state := .void }).st.lug.boards[i] =
      { e.st.lug.boards[i].marked e.st.head.fitted (shadowAt e.st i) with state := .void } := by
    rw [changeBoard_read, if_pos rfl, hread]
  refine ⟨?_, ⟨fun _ => hi, fun hc => absurd hc hm, fun hc => absurd hc hm⟩, fun j hj => ?_, ?_, ?_, ?_, fun hc => absurd hc hm⟩
  · rw [Ev.changeBoard, Ev.modify_st, State.setBoard, h.lug]
  · rw [changeBoard_read, if_neg hj, h.read j, if_neg hj, if_neg fun hc => not_solveStarts_self h.solv j hc.2]
  · rw [hi]
    exact ⟨nofun, fun hc => absurd hc (not_solveStarts_self h.solv i)⟩
  · rw [if_neg fun hc => hm hc.1]
    exact ⟨fun _ => h.solv, fun hc => absurd rfl hc⟩
  · rw [if_neg fun hc => hm hc.1]
    exact h.note

theorem Marked.closesQueued (h : Marked e e1 i) (hm : hasMaterialAt e.st i) (hq : e.st.solv.queue.length < 4) :
    ClosesBoard e (e1.joinQueue i) i := by
  have hread := h.read i
  rw [if_pos rfl] at hread
  have hscan : e1.st.lug.boards[i].state = .scanning := by rw [hread]; exact h.scanning
  have hst : ∀ j, e1.st.SolveStarts (e1.joinQueue i).st j ↔ e.st.SolveStarts (e1.joinQueue i).st j := fun j => by
    unfold State.SolveStarts
    rw [h.solv, h.lookup]
  have hb := joinQueue_boards hscan
  simp only [hst] at hb
  have hi := hb i
  rw [if_pos rfl, hread] at hi
  refine ⟨?_, ⟨fun hc => absurd (hc.symm.trans hm) Bool.false_ne_true, fun _ _ => ?_, fun _ hc => ?_⟩, fun j hj => ?_, ?_, ?_, ?_,
    fun _ hc => absurd hq (by omega)⟩
  · rw [joinQueue_eq, startSolve_lug]
    simp only [enqueued, State.setBoard, h.lug]
  · rw [hi]
    split
    · exact ⟨rfl, Or.inr rfl⟩
    · exact ⟨rfl, Or.inl rfl⟩
  · exact absurd hq (by simpa using hc)
  · rw [hb j, if_neg hj, h.read j, if_neg hj]
  · rw [hi]
    split
    · rename_i hc; exact ⟨fun _ => hc, fun _ => rfl⟩
    · rename_i hc; exact ⟨nofun, fun hx => absurd hx hc⟩
  · rw [if_pos ⟨hm, hq⟩]
    obtain ⟨h1, h2⟩ := joinQueue_solv e1 i
    rw [h.solv, hread] at h2
    exact ⟨nofun, fun _ => ⟨h1, h2⟩⟩
  · rw [if_neg fun hc => absurd hq (by omega), (keeps_joinQueue e1 i).note]
    exact h.note

theorem Marked.closesUnsolved (h : Marked e e1 i) (hm : hasMaterialAt e.st i) (hq : ¬ e.st.solv.queue.length < 4) :
    ClosesBoard e ((e1.changeBoard i fun b => b.closedUnsolved (shadowAt e.st i)).raise .solveQueueFull) i := by
  have hread := h.read i
  rw [if_pos rfl] at hread
  have hi : ((e1.changeBoard i fun b => b.closedUnsolved (shadowAt e.st i)).raise .solveQueueFull).st.lug.boards[i] =
      (e.st.lug.boards[i].marked e.st.head.fitted (shadowAt e.st i)).closedUnsolved (shadowAt e.st i) := by
    rw [Ev.raise_lug, changeBoard_read, if_pos rfl, hread]
  refine ⟨?_, ⟨fun hc => absurd (hc.symm.trans hm) Bool.false_ne_true, fun _ hc => absurd (by simpa using hc) hq, fun _ _ => hi⟩,
    fun j hj => ?_, ?_, ?_, ?_, fun _ _ => by simp⟩
  · rw [Ev.raise_lug, Ev.changeBoard, Ev.modify_st, State.setBoard, h.lug]
  · rw [Ev.raise_lug, changeBoard_read, if_neg hj, h.read j, if_neg hj,
      if_neg fun hc => not_solveStarts_self h.solv j hc.2]
  · rw [hi]
    exact ⟨nofun, fun hc => absurd hc (not_solveStarts_self h.solv i)⟩
  · rw [if_neg fun hc => hq hc.2]
    exact ⟨fun _ => h.solv, fun hc => absurd rfl hc⟩
  · rw [if_pos ⟨hm, by omega⟩]
    show NoticeUnit.raised e1.st.note _ = _
    rw [h.note]

end Close

/-- The close of a SCANNING board (R10 to R12, R35, R36, R67). -/
theorem closeBoard_closes {e : Ev} {i : Fin 32} {t : HeadSet} (hs : e.st.lug.boards[i].state = .scanning)
    (ht : TimedOut e.st.lug.boards[i] t) : Closes e (e.closeBoard i t) i := by
  have hmark := marked_eq ht e.st.head.fitted (shadowAt e.st i)
  generalize hm : e.st.lug.boards[i].marked e.st.head.fitted (shadowAt e.st i) = m at hmark
  have hrec := recordBadCounts_becomes (e.changeBoard i fun _ => m) e.st.lug.boards[i]
  generalize he1 : (e.changeBoard i fun _ => m).recordBadCounts e.st.lug.boards[i] = e1 at hrec
  have hpoint : Marked e e1 i := ⟨hs, by rw [hrec.st, hm]; rfl, by rw [hrec.st]; rfl, by rw [hrec.st]; rfl⟩
  -- the three ways to close, before the parking tests
  obtain ⟨e2, heq, hclose, hkeep, hgrow⟩ : ∃ e2, e.closeBoard i t = e2.parkTestAll ∧ ClosesBoard e e2 i ∧
      Keeps [.lug, .solv, .note] e1.st e2.st ∧ Grows e1 e2 := by
    unfold Ev.closeBoard
    dsimp only
    rw [hmark, he1, ← hm, scannedMaterial_marked, hpoint.solv]
    by_cases hmat : hasMaterialAt e.st i
    · rw [if_neg (by rw [show e.st.lug.boards[i].hasMaterial _ _ = true from hmat]; decide)]
      by_cases hq : e.st.solv.queue.length < 4
      · rw [if_pos hq]
        exact ⟨_, rfl, hpoint.closesQueued hmat hq, (keeps_joinQueue _ _).mono (by decide), grows_joinQueue _ _⟩
      · rw [if_neg hq]
        exact ⟨_, rfl, hpoint.closesUnsolved hmat hq,
          (keeps_changeBoard e1 i _).comp (keeps_raise _ _) (by decide) (by decide),
          (grows_changeBoard e1 i _).trans (grows_raise _ _)⟩
    · rw [if_pos (by simpa using hmat)]
      exact ⟨_, rfl, hpoint.closesVoid hmat, (keeps_changeBoard _ _ _).mono (by decide), grows_changeBoard e1 i _⟩
  have hpark := parkTestAll_becomes e2
  rw [heq]
  generalize e2.parkTestAll = e3 at hpark ⊢
  have hlug : e3.st.lug = e2.st.lug := by rw [hpark.st]
  have hhead2 : e2.st.head = e1.st.head := hkeep.head
  have hctx : ∀ k : Fin 6, e3.st.head.ctx[k] = { e.st.head.ctx[k] with
      state := e.st.head.ctx[k].state.parkedIn e3.st k
      badLast := if e.st.lug.boards[i].expected.getLsbD k = true then e.st.lug.boards[i].bad[k]
        else e.st.head.ctx[k].badLast } := fun k => by
    have hk := hrec.ctx k
    rw [hpark.ctx k, hhead2, hk, parkedIn_congr (expects_of_boards (congrArg LugTable.boards hlug) k)]
    rfl
  refine ⟨hclose.later hlug (by rw [hpark.st]) (by rw [hpark.st]) hpark.grows.asked, ?_, ?_, hctx, fun k hne => ?_, ?_⟩
  · have h1 : Keeps [.lug, .head, .solv, .note] e.st e1.st := by
      have hb := keeps_recordBadCounts (e.changeBoard i fun _ => m) e.st.lug.boards[i]
      rw [he1] at hb
      exact ((keeps_changeBoard e i fun _ => m).mono (by decide)).trans (hb.mono (by decide))
    refine (h1.trans (hkeep.mono (by decide))).trans ?_
    intro b hb
    cases b <;> first | exact absurd (by decide) hb | (show _ = _; rw [hpark.st])
  · have h1 : e1.st.head = { e.st.head with ctx := e1.st.head.ctx } := congrArg State.head hrec.st
    have h3 : e3.st.head = { e2.st.head with ctx := e3.st.head.ctx } := congrArg State.head hpark.st
    exact h3.trans (by rw [hhead2, h1])
  · by_cases h2 : e3.st.head.ctx[k] = e2.st.head.ctx[k]
    · refine hpark.grows.asked _ (hgrow.asked _ (hrec.asks k ?_))
      intro hc
      refine hne (h2.trans ?_)
      rw [hhead2]
      exact (hrec.ctx k).trans hc
    · exact hpark.asks k fun hc => h2 ((hpark.ctx k).trans hc)
  · exact (((grows_changeBoard e i _).trans hrec.grows).trans hgrow).trans hpark.grows

/-! ### The close test (R62) -/

theorem headSet_eq_zero (v : HeadSet) : v = 0 ↔ ∀ h : Fin 6, v.getLsbD h = false := by
  constructor
  · rintro rfl h; simp
  · intro h
    refine BitVec.eq_of_getLsbD_eq fun i hi => ?_
    simpa using h ⟨i, hi⟩

theorem scanDone_iff (b : Board) : b.scanDone = true ↔
    ∀ h : Fin 6, b.expected.getLsbD h = true → b.ended.getLsbD h = true ∨ b.lost.getLsbD h = true := by
  unfold Board.scanDone
  rw [beq_iff_eq, headSet_eq_zero]
  refine forall_congr' fun h => ?_
  have hh : (h : Nat) < 6 := h.2
  simp only [BitVec.getLsbD_and, BitVec.getLsbD_not, BitVec.getLsbD_or, hh, decide_true, Bool.true_and]
  cases b.expected.getLsbD h <;> cases b.ended.getLsbD h <;> cases b.lost.getLsbD h <;> simp

/-- A board that waits for no head has none timed out (R62). -/
theorem timedOut_of_scanDone {b : Board} (h : b.scanDone = true) : TimedOut b 0 := by
  intro k he hl
  rcases (scanDone_iff b).1 h k he with hd | hd
  · rw [hd]; simp
  · rw [hl] at hd; cases hd

theorem closeTest_closes {e : Ev} {i : Fin 32} (hs : e.st.lug.boards[i].state = .scanning)
    (hd : e.st.lug.boards[i].scanDone = true) : Closes e (e.closeTest i) i := by
  have h : e.closeTest i = e.closeBoard i 0 := if_pos (by simp only [hs, hd]; decide)
  rw [h]
  exact closeBoard_closes hs (timedOut_of_scanDone hd)

theorem closeTest_idle {e : Ev} {i : Fin 32}
    (h : ¬ (e.st.lug.boards[i].state = .scanning ∧ e.st.lug.boards[i].scanDone = true)) : e.closeTest i = e :=
  if_neg (by simpa using h)

end Sys2Proof.Proofs
end

section
/-! SLICE_FOLD of a slice used (R50, R53, R55, R61): a DATA slice is folded, an END is taken and may close its board. -/

namespace Sys2Proof.Proofs

open Sys2Proof Sys2Proof.Machine Sys2Proof.Laws

theorem headBit_getLsbD : ∀ h k : Fin 6, (headBit h).getLsbD k = decide (k = h) := by decide

theorem awaitsOnly_iff (b : Board) (h : Fin 6) : b.awaitsOnly h = true ↔ ∀ k : Fin 6, b.expected.getLsbD k = true →
    k = h ∨ b.ended.getLsbD k = true ∨ b.lost.getLsbD k = true := by
  simp only [Board.awaitsOnly, List.all_eq_true, List.mem_finRange, true_implies, Bool.or_eq_true, Bool.not_eq_true',
    beq_iff_eq]
  refine forall_congr' fun k => ?_
  cases b.expected.getLsbD k <;> simp [or_assoc]

/-- The board once head `h` has ended (R61). -/
def endedBoard (b : Board) (h : Fin 6) : Board := { b with ended := b.ended ||| headBit h }

theorem scanDone_ended (b : Board) (h : Fin 6) : (endedBoard b h).scanDone = b.awaitsOnly h := by
  rw [Bool.eq_iff_iff, scanDone_iff, awaitsOnly_iff]
  refine forall_congr' fun k => imp_congr_right fun _ => ?_
  simp only [endedBoard, BitVec.getLsbD_or, headBit_getLsbD, Bool.or_eq_true, decide_eq_true_eq]
  tauto

/-! ### The course of a slice at its fold (R51 to R53) -/

/-- The slice taken out of its intake slot (R47). -/
def taken (s : State) (h : Fin 6) (rest : List HeldSlice) : Ev :=
  (Ev.start s).modify fun s => { s with asm := { s.asm with held := s.asm.held.set h rest } }

theorem exec_sliceFold {s : State} {h : Fin 6} {sl : HeldSlice} {rest : List HeldSlice} (hr : s.running = true)
    (hh : s.asm.held[h] = sl :: rest) : exec (.sliceFold h) s = .next ((taken s h rest).foldHeld h sl).finish := by
  show execSliceFold h s = _
  unfold execSliceFold
  rw [if_pos hr, hh]
  rfl

theorem badSlice_kind {h : Fin 6} {bs : List Byte} (hx : xorAll bs = 0) (hd : sliceHead bs = h.val) :
    badSlice h bs = true ↔ ¬ (sliceKind bs = 1 ∨ sliceKind bs = 2) := by
  simp [badSlice, hx, hd]

/-- A good slice for a board that waits for the head is used. -/
theorem foldHeld_uses {e : Ev} {h : Fin 6} {sl : HeldSlice} {i : Fin 32} (hb : ¬ badSlice h sl.bytes = true)
    (hm : sl.mark = true) (hi : e.st.lookup (sliceLug sl.bytes) = some i)
    (hw : e.st.lug.boards[i].waitsFor h = true) : e.foldHeld h sl = e.useSlice h i sl.bytes := by
  unfold Ev.foldHeld
  rw [if_neg hb, hi]
  dsimp only
  rw [hm, hw]
  rfl

theorem useSlice_data {e : Ev} {h : Fin 6} {i : Fin 32} {bs : List Byte} (hk : sliceKind bs = 1) :
    e.useSlice h i bs = e.changeBoard i fun b => b.foldSlice (e.st.shadowOf b.bank) h bs := if_pos hk

theorem useSlice_end {e : Ev} {h : Fin 6} {i : Fin 32} {bs : List Byte} (hk : sliceKind bs = 2) :
    e.useSlice h i bs = (e.changeBoard i fun b => endedBoard b h).closeTest i := if_neg (by rw [hk]; decide)

/-- R55: of the accumulators a DATA slice changes those of the head's two segments. -/
theorem foldSlice_acc (b : Board) (p : Shadow) (h : Fin 6) (bs : List Byte) (j : Fin 12) :
    (b.foldSlice p h bs).acc[j] =
      if j.val = 2 * h.val then foldSegment p bs 0 b.acc[j]
      else if j.val = 2 * h.val + 1 then foldSegment p bs 1 b.acc[j] else b.acc[j] := by
  have hset : ∀ (v : Vector Acc 12) (i : Fin 12) (x : Acc), (v.set i x)[j] = if j = i then x else v[j] := by
    intro v i x
    by_cases hj : j = i
    · subst hj; simp
    · rw [if_neg hj]
      exact Vector.getElem_set_ne i.2 j.2 fun hc => hj (Fin.ext hc.symm)
  have h1 : j = firstSegment h ↔ j.val = 2 * h.val := by rw [Fin.ext_iff]; rfl
  have h2 : j = secondSegment h ↔ j.val = 2 * h.val + 1 := by rw [Fin.ext_iff]; rfl
  unfold Board.foldSlice
  dsimp only
  rw [hset, hset]
  by_cases hj2 : j = secondSegment h
  · have hv := h2.1 hj2
    rw [if_pos hj2, if_neg (by omega), if_pos hv]
    simp only [hj2]
  · rw [if_neg hj2]
    by_cases hj1 : j = firstSegment h
    · rw [if_pos hj1, if_pos (h1.1 hj1)]
      simp only [hj1]
    · rw [if_neg hj1, if_neg fun hc => hj1 (h1.2 hc), if_neg fun hc => hj2 (h2.2 hc)]

/-! ### The three courses -/

section Courses
variable {s : State} {h : Fin 6} {sl : HeldSlice} {rest : List HeldSlice} {i : Fin 32}

/-- What every course keeps: the slot is freed, and of the other boards the solver alone may take one up. -/
structure FoldFrame (s t : State) (h : Fin 6) (rest : List HeldSlice) (i : Fin 32) : Prop where
  asm : t.asm = { s.asm with held := s.asm.held.set h rest }
  path : s.path.Grew t.path
  others : ∀ j : Fin 32, j ≠ i → t.lug.boards[j] =
    if s.lug.boards[j].state = .queued ∧ s.SolveStarts t j then startedBoard s.lug.boards[j] else s.lug.boards[j]

theorem foldFrame {e : Ev} (hk : Keeps [.lug, .head, .solv, .note] (taken s h rest).st e.st)
    (hg : Grows (taken s h rest) e)
    (ho : ∀ j : Fin 32, j ≠ i → e.st.lug.boards[j] =
      if s.lug.boards[j].state = .queued ∧ s.SolveStarts e.st j then startedBoard s.lug.boards[j]
      else s.lug.boards[j]) : FoldFrame s e.finish h rest i :=
  ⟨by rw [Ev.finish_asm, hk.asm]; rfl, Ev.finish_grew (by rw [hk.path]; rfl) hg.returned, ho⟩

/-- Boards changed at the slice's slot alone, with the solver as it was. -/
theorem others_of_quiet {e : Ev} (hs : e.st.solv = s.solv)
    (ho : ∀ j : Fin 32, j ≠ i → e.st.lug.boards[j] = s.lug.boards[j]) (j : Fin 32) (hj : j ≠ i) :
    e.st.lug.boards[j] =
      if s.lug.boards[j].state = .queued ∧ s.SolveStarts e.st j then startedBoard s.lug.boards[j]
      else s.lug.boards[j] := by
  rw [if_neg fun hc => not_solveStarts_self hs j hc.2, ho j hj]

/-- The course of a slice of neither kind. -/
theorem fold_badKind (hb : badSlice h sl.bytes = true) (hi : s.lookup (sliceLug sl.bytes) = some i) :
    FoldFrame s ((taken s h rest).foldHeld h sl).finish h rest i := by
  have hfold : (taken s h rest).foldHeld h sl = ((taken s h rest).raise .sliceCheck).countBadSlice h sl.bytes :=
    if_pos hb
  refine foldFrame (keeps_foldHeld _ _ _) (grows_foldHeld _ _ _) (others_of_quiet ?_ fun j hj => ?_)
  · rw [hfold, (keeps_countBadSlice _ _ _).solv]; rfl
  · have hi' : ((taken s h rest).raise .sliceCheck).st.lookup (sliceLug sl.bytes) = some i := hi
    rw [hfold]
    unfold Ev.countBadSlice
    rw [hi']
    dsimp only
    rw [changeBoard_read, if_neg hj]
    rfl

/-- The END taken, before the close test. -/
def endTaken (s : State) (h : Fin 6) (rest : List HeldSlice) (i : Fin 32) : Ev :=
  (taken s h rest).changeBoard i fun b => endedBoard b h

theorem endTaken_read (j : Fin 32) : (endTaken s h rest i).st.lug.boards[j] =
    if j = i then endedBoard s.lug.boards[i] h else s.lug.boards[j] := changeBoard_read (taken s h rest) i j _

theorem keeps_endTaken : Keeps [.asm, .lug] s (endTaken s h rest i).st := by
  intro b hb; cases b <;> first | rfl | exact absurd (by decide) hb

theorem endTaken_lookup : (endTaken s h rest i).st.lookup = s.lookup := by
  have hs : Seats s (endTaken s h rest i).st :=
    (seats_modify (Ev.start s) _ rfl).trans (seats_changeBoard (taken s h rest) i _ (Seated.of_same rfl rfl rfl rfl))
  exact funext hs.lookup

/-- The END that is the last one awaited closes its board. -/
theorem endTaken_closes (hscan : s.lug.boards[i].state = .scanning) (hw : s.lug.boards[i].awaitsOnly h = true) :
    Closes (endTaken s h rest i) ((endTaken s h rest i).closeTest i) i := by
  have hread := endTaken_read (s := s) (h := h) (rest := rest) (i := i) i
  rw [if_pos rfl] at hread
  refine closeTest_closes ?_ ?_
  · rw [hread]; exact hscan
  · rw [hread, scanDone_ended]; exact hw

end Courses

/-- R61: an END while another head is awaited. -/
theorem endTaken_waits {s : State} {h : Fin 6} {rest : List HeldSlice} {i : Fin 32}
    (hw : s.lug.boards[i].awaitsOnly h = false) : (endTaken s h rest i).closeTest i = endTaken s h rest i := by
  refine closeTest_idle fun hc => ?_
  have hd := hc.2
  rw [endTaken_read, if_pos rfl, scanDone_ended, hw] at hd
  cases hd

/-- R61, R62, R67: the board that has its last END closes, read from the state at the fold. -/
theorem endTaken_closed {s : State} {h : Fin 6} {rest : List HeldSlice} {i : Fin 32} {e : Ev}
    (hc : Closes (endTaken s h rest i) e i) :
    let b := s.lug.boards[i]
    let p := s.shadowOf b.bank
    let ended := endedBoard b h
    let joins := ended.hasMaterial s.head.fitted p = true ∧ s.solv.queue.length < 4
    let full := ended.hasMaterial s.head.fitted p = true ∧ 4 ≤ s.solv.queue.length
    let t := e.finish
    ended.ClosesTo s.head.fitted p (decide (s.solv.queue.length < 4)) t.lug.boards[i] ∧
      (t.lug.boards[i].state = .solving ↔ s.SolveStarts t i) ∧
      s.solv.JoinedBy t.solv (if joins then [b.lug] else []) ∧
      (¬ full → t.note = s.note) ∧
      (full → t.note = s.note.raised .solveQueueFull ∧ t.path.asks .notice = true) ∧
      t.head = { s.head with ctx := t.head.ctx } ∧
      ∀ k : Fin 6, t.head.ctx[k] = { s.head.ctx[k] with
          state := s.head.ctx[k].state.parkedIn t k
          badLast := if b.expected.getLsbD k then b.bad[k] else s.head.ctx[k].badLast } ∧
        (t.head.ctx[k] ≠ s.head.ctx[k] → t.path.asks (.headStatus k) = true) := by
  have hread := endTaken_read (s := s) (h := h) (rest := rest) (i := i) i
  rw [if_pos rfl] at hread
  have hshadow : shadowAt (endTaken s h rest i).st i = s.shadowOf s.lug.boards[i].bank := by
    unfold shadowAt
    rw [hread]
    rfl
  have hstart : (endTaken s h rest i).st.SolveStarts e.st i ↔ s.SolveStarts e.finish i := by
    unfold State.SolveStarts
    rw [endTaken_lookup]
    rfl
  obtain ⟨hb, _, hhead, hctx, hasks, _⟩ := hc
  have hclosed := hb.closed
  have hjoined := hb.joined
  have hnote := hb.note
  have hfull := hb.full
  simp only [hasMaterialAt, hshadow, hread] at hclosed hjoined hnote hfull
  dsimp only
  refine ⟨hclosed, hb.starts.trans hstart, hjoined, fun hn => ?_, fun hf => ⟨?_, ?_⟩, hhead, fun k => ⟨?_, fun hne => ?_⟩⟩
  · exact hnote.trans (if_neg hn)
  · exact hnote.trans (if_pos hf)
  · exact Ev.finish_asks (hfull hf.1 hf.2) nofun nofun
  · have hk := hctx k
    rw [hread] at hk
    exact hk
  · exact Ev.finish_asks (hasks k hne) nofun nofun

/-- Settles O18: a slice of neither kind, a DATA slice, and an END that does or does not close its board. -/
theorem sliceFoldUses : Obligations.SliceFoldUses := by
  unfold Obligations.SliceFoldUses
  intro h sl rest i s hr hheld hx hd hm hi hscan hexp hend hlost
  dsimp only
  refine ⟨_, exec_sliceFold hr hheld, ?_⟩
  by_cases hkind : sliceKind sl.bytes = 1 ∨ sliceKind sl.bytes = 2
  · have hbad : ¬ badSlice h sl.bytes = true := fun hc => (badSlice_kind hx hd).1 hc hkind
    have hwait : s.lug.boards[i].waitsFor h = true := by
      unfold Board.waitsFor
      rw [hscan, hexp, hend, hlost]
      rfl
    rw [foldHeld_uses (e := taken s h rest) hbad hm hi hwait]
    rcases hkind with hk | hk
    · rw [useSlice_data hk]
      have hread : ∀ j, ((taken s h rest).changeBoard i fun b => b.foldSlice ((taken s h rest).st.shadowOf b.bank) h
          sl.bytes).st.lug.boards[j] = if j = i then s.lug.boards[i].foldSlice (s.shadowOf s.lug.boards[i].bank) h sl.bytes
            else s.lug.boards[j] := fun j => changeBoard_read (taken s h rest) i j _
      have hframe := foldFrame (i := i) ((keeps_changeBoard (taken s h rest) i _).mono (by decide))
        (grows_changeBoard _ i _) (others_of_quiet rfl fun j hj => (hread j).trans (if_neg hj))
      have hi := (hread i).trans (if_pos rfl)
      refine ⟨hframe.asm, hframe.path, hframe.others, fun _ => ⟨rfl, rfl, ?_, fun j => ?_⟩, fun hk2 => ?_⟩
      · rw [Ev.finish_lug, hi]; rfl
      · rw [Ev.finish_lug, hi]; exact foldSlice_acc _ _ _ _ _
      · rw [hk] at hk2; cases hk2
    · rw [useSlice_end hk]
      have hkeep := keeps_endTaken (s := s) (h := h) (rest := rest) (i := i)
      cases hw : s.lug.boards[i].awaitsOnly h with
      | false =>
        rw [show ((taken s h rest).changeBoard i fun b => endedBoard b h).closeTest i = endTaken s h rest i from
          endTaken_waits hw]
        have hframe := foldFrame (i := i) (e := endTaken s h rest i)
          ((keeps_changeBoard (taken s h rest) i _).mono (by decide)) (grows_changeBoard _ i _)
          (others_of_quiet rfl fun j hj => (endTaken_read j).trans (if_neg hj))
        refine ⟨hframe.asm, hframe.path, hframe.others, fun hk1 => ?_, fun _ => ⟨rfl, rfl, fun _ => ⟨?_, rfl⟩, nofun⟩⟩
        · rw [hk] at hk1; cases hk1
        · exact (endTaken_read i).trans (if_pos rfl)
      | true =>
        have hc := endTaken_closes (rest := rest) hscan hw
        rw [show ((taken s h rest).changeBoard i fun b => endedBoard b h).closeTest i =
          (endTaken s h rest i).closeTest i from rfl]
        generalize (endTaken s h rest i).closeTest i = e at hc ⊢
        have hclosed := endTaken_closed hc
        obtain ⟨hb, hk', _, _, _, hg⟩ := hc
        have hothers : ∀ j : Fin 32, j ≠ i → e.st.lug.boards[j] =
            if s.lug.boards[j].state = .queued ∧ s.SolveStarts e.st j then startedBoard s.lug.boards[j]
            else s.lug.boards[j] := fun j hj => by
          have hj' := hb.others j hj
          rw [endTaken_read, if_neg hj] at hj'
          have hst : (endTaken s h rest i).st.SolveStarts e.st j ↔ s.SolveStarts e.st j := by
            unfold State.SolveStarts
            rw [endTaken_lookup]
            rfl
          simpa only [hst] using hj'
        have hframe := foldFrame (((keeps_changeBoard (taken s h rest) i _).mono (by decide)).trans hk')
          ((grows_changeBoard (taken s h rest) i _).trans hg) hothers
        refine ⟨hframe.asm, hframe.path, hframe.others, fun hk1 => ?_, fun _ => ⟨?_, ?_, fun hf => ?_, fun _ => hclosed⟩⟩
        · rw [hk] at hk1; cases hk1
        · exact eq_mixed (bs := [.asm, .lug, .path, .head, .solv, .note])
            (((hkeep.mono (by decide)).trans (hk'.mono (by decide))).trans ((keeps_finish e).mono (by decide)))
        · exact hb.lug
        · cases hf
  · have hframe := fold_badKind (rest := rest) ((badSlice_kind hx hd).2 hkind) hi
    exact ⟨hframe.asm, hframe.path, hframe.others, fun hk => absurd (Or.inl hk) hkind, fun hk =>
      absurd (Or.inr hk) hkind⟩

end Sys2Proof.Proofs
end

section
/-! The loss of a head (R28, R29): the SCANNING boards that expect it, taken one after another, and what all of them leave. -/

namespace Sys2Proof.Proofs

open Sys2Proof Sys2Proof.Machine Sys2Proof.Laws

/-! ### The solver as boards join it (R67) -/

theorem JoinedBy.trans {u v w : Solver} {l m : List Word16} (h : u.JoinedBy v l) (h' : v.JoinedBy w m) :
    u.JoinedBy w (l ++ m) := by
  rcases List.eq_nil_or_concat l with rfl | ⟨_, _, hl⟩
  · rw [h.1 rfl] at h'
    simpa using h'
  · have hne : l ≠ [] := by rw [hl]; simp
    obtain ⟨hv, hq⟩ := h.2 hne
    refine ⟨fun hc => absurd (List.append_eq_nil_iff.1 hc).1 hne, fun _ => ?_⟩
    by_cases hm : m = []
    · rw [h'.1 hm, hm, List.append_nil]
      exact ⟨hv, hq⟩
    · obtain ⟨hw, hq'⟩ := h'.2 hm
      exact ⟨hw, by rw [hq', hq, List.append_assoc]⟩

/-- A busy solver that boards join goes on with its solve. -/
theorem JoinedBy.busy {u v : Solver} {l : List Word16} {n : Word16} (h : u.JoinedBy v l) (hn : u.solving = some n) :
    v.solving = some n := by
  by_cases hl : l = []
  · rw [h.1 hl, hn]
  · obtain ⟨hv, hq⟩ := h.2 hl
    cases hs : v.solving with
    | none => exact absurd hs hv
    | some m =>
      rw [hs, hn] at hq
      simp only [Option.toList_some, List.cons_append, List.cons.injEq] at hq
      rw [hq.1]

/-- One board joined leaves room for one fewer. -/
theorem JoinedBy.room {u v : Solver} {n : Word16} (h : u.JoinedBy v [n]) (hq : u.queue.length < 4) :
    u.room = v.room + 1 := by
  obtain ⟨hv, hl⟩ := h.2 (by simp)
  have hlen := congrArg List.length hl
  unfold Solver.room
  rw [if_pos hq, if_neg hv]
  cases hs : v.solving with
  | none => exact absurd hs hv
  | some m =>
    cases hu : u.solving with
    | none =>
      rw [hs, hu] at hlen
      simp only [Option.toList_some, Option.toList_none, List.length_append, List.length_cons, List.length_nil] at hlen
      rw [if_pos rfl]
      split <;> omega
    | some k =>
      rw [hs, hu] at hlen
      simp only [Option.toList_some, List.length_append, List.length_cons, List.length_nil] at hlen
      rw [if_neg nofun]
      split <;> omega

theorem room_pos (u : Solver) : 0 < u.room ↔ u.queue.length < 4 := by
  unfold Solver.room
  split <;> omega

/-! ### A closed board afterwards -/

/-- Where a board closes without material, the room of the queue plays no part. -/
theorem ClosesTo.any_room {b c : Board} {fitted : HeadSet} {p : Shadow} {r r' : Bool} (h : b.ClosesTo fitted p r c)
    (hm : ¬ b.hasMaterial fitted p = true) : b.ClosesTo fitted p r' c :=
  ⟨h.1, fun hc => absurd hc hm, fun hc => absurd hc hm⟩

/-- A closed board is not SCANNING. -/
theorem ClosesTo.not_scanning {b c : Board} {fitted : HeadSet} {p : Shadow} {r : Bool} (h : b.ClosesTo fitted p r c) :
    c.state ≠ .scanning := by
  obtain ⟨h1, h2, h3⟩ := h
  cases hm : b.hasMaterial fitted p
  · rw [h1 hm]; nofun
  · cases r
    · rw [h3 hm rfl]; nofun
    · rcases (h2 hm rfl).2 with hs | hs <;> rw [hs] <;> nofun

/-- A closed board that was left QUEUED may have its solve started. -/
theorem ClosesTo.started {b c : Board} {fitted : HeadSet} {p : Shadow} {r : Bool} (h : b.ClosesTo fitted p r c)
    (hq : c.state = .queued) : b.ClosesTo fitted p r (startedBoard c) := by
  obtain ⟨h1, h2, h3⟩ := h
  refine ⟨fun hm => ?_, fun hm hr => ⟨?_, Or.inr rfl⟩, fun hm hr => ?_⟩
  · rw [h1 hm] at hq; cases hq
  · have hc := (h2 hm hr).1
    have : startedBoard c = startedBoard { b.marked fitted p with state := c.state } := congrArg startedBoard hc
    exact this
  · rw [h3 hm hr] at hq; cases hq

/-! ### The loss at one board (R29) -/

theorem losesHead_iff (s : State) (h : Fin 6) (i : Fin 32) : s.losesHead h i = true ↔
    s.lug.boards[i].state = .scanning ∧ s.lug.boards[i].expected.getLsbD h = true := by
  simp only [State.losesHead, Bool.and_eq_true, beq_iff_eq]

theorem scanDone_losing (b : Board) (h : Fin 6) : (b.losing h).scanDone = b.awaitsOnly h := by
  rw [Bool.eq_iff_iff, scanDone_iff, awaitsOnly_iff]
  refine forall_congr' fun k => imp_congr_right fun _ => ?_
  simp only [Board.losing, BitVec.getLsbD_or, headBit_getLsbD, Bool.or_eq_true, decide_eq_true_eq]
  tauto

/-- The head lost from the board in slot `i`, before the close test. -/
def losesAt (h : Fin 6) (e : Ev) (i : Fin 32) : Ev := e.changeBoard i fun b => b.losing h

theorem losesAt_read (h : Fin 6) (e : Ev) (i j : Fin 32) : (losesAt h e i).st.lug.boards[j] =
    if j = i then e.st.lug.boards[i].losing h else e.st.lug.boards[j] := changeBoard_read e i j _

theorem losesAt_self (h : Fin 6) (e : Ev) (i : Fin 32) :
    (losesAt h e i).st.lug.boards[i] = e.st.lug.boards[i].losing h := by rw [losesAt_read, if_pos rfl]

theorem seats_losesAt (h : Fin 6) (e : Ev) (i : Fin 32) : Seats e.st (losesAt h e i).st :=
  seats_changeBoard e i _ (Seated.of_same rfl rfl rfl rfl)

theorem loseAt_none {h : Fin 6} {e : Ev} {i : Fin 32} (hl : ¬ e.st.losesHead h i = true) : Ev.loseAt h e i = e :=
  if_neg hl

theorem loseAt_waits {h : Fin 6} {e : Ev} {i : Fin 32} (hl : e.st.losesHead h i = true)
    (hw : ¬ e.st.lug.boards[i].awaitsOnly h = true) : Ev.loseAt h e i = losesAt h e i := by
  refine (if_pos hl).trans (closeTest_idle (e := losesAt h e i) fun hc => hw ?_)
  rw [← scanDone_losing, ← losesAt_self]
  exact hc.2

theorem loseAt_closes {h : Fin 6} {e : Ev} {i : Fin 32} (hl : e.st.losesHead h i = true)
    (hw : e.st.lug.boards[i].awaitsOnly h = true) : Closes (losesAt h e i) (Ev.loseAt h e i) i := by
  rw [show Ev.loseAt h e i = (losesAt h e i).closeTest i from if_pos hl]
  refine closeTest_closes ?_ ?_
  · rw [losesAt_self]; exact ((losesHead_iff _ _ _).1 hl).1
  · rw [losesAt_self, scanDone_losing]; exact hw

/-! ### The loss at the boards of a list of slots -/

section Lists
variable (h : Fin 6) (s : State) (l : List (Fin 32))

/-- The slots of the list whose boards the loss closes, in the list's order. -/
def closersOf : List (Fin 32) := l.filter fun i => s.losesHead h i && s.lug.boards[i].awaitsOnly h

/-- Of these, the ones that close with material (R11). -/
def materialOf : List (Fin 32) :=
  (closersOf h s l).filter fun i => (s.lug.boards[i].losing h).hasMaterial s.head.fitted (shadowAt s i)

/-- Of these, the ones that find room in the solve queue (R67). -/
def joinersOf : List (Fin 32) := (materialOf h s l).take s.solv.room

/-- R36: head `k`'s bad slices of last board after the closes. -/
def lastBad (k : Fin 6) : Nat :=
  ((((closersOf h s l).filter fun i => s.lug.boards[i].expected.getLsbD k).getLast?).map
    fun i => s.lug.boards[i].bad[k]).getD s.head.ctx[k].badLast

end Lists

/-- The records of `t` once the head is lost from the boards of the list's slots in `s`. -/
structure LostBoards (h : Fin 6) (s t : State) (l : List (Fin 32)) : Prop where
  waits : ∀ i ∈ l, s.losesHead h i = true → s.lug.boards[i].awaitsOnly h = false →
    t.lug.boards[i] = s.lug.boards[i].losing h
  closes : ∀ i ∈ closersOf h s l, (s.lug.boards[i].losing h).ClosesTo s.head.fitted (shadowAt s i)
    (decide (i ∈ joinersOf h s l)) t.lug.boards[i]
  others : ∀ i, (i ∈ l → ¬ s.losesHead h i = true) → t.lug.boards[i] =
    if s.lug.boards[i].state = .queued ∧ s.SolveStarts t i then startedBoard s.lug.boards[i] else s.lug.boards[i]

theorem mem_closersOf {h : Fin 6} {s : State} {l : List (Fin 32)} {i : Fin 32} : i ∈ closersOf h s l ↔
    i ∈ l ∧ s.losesHead h i = true ∧ s.lug.boards[i].awaitsOnly h = true := by
  simp [closersOf]

/-- A slot whose board is SCANNING after the loss held it SCANNING before, not closed, and with the same heads expected. -/
theorem LostBoards.scanning {h : Fin 6} {s t : State} {l : List (Fin 32)} (hb : LostBoards h s t l) {i : Fin 32}
    (hs : t.lug.boards[i].state = .scanning) : s.lug.boards[i].state = .scanning ∧
      t.lug.boards[i].expected = s.lug.boards[i].expected := by
  by_cases hl : i ∈ l ∧ s.losesHead h i = true
  · cases hw : s.lug.boards[i].awaitsOnly h
    · exact ⟨((losesHead_iff _ _ _).1 hl.2).1, by rw [hb.waits i hl.1 hl.2 hw]; rfl⟩
    · exact absurd hs (ClosesTo.not_scanning (hb.closes i (mem_closersOf.2 ⟨hl.1, hl.2, hw⟩)))
  · have hi := hb.others i fun hm hc => hl ⟨hm, hc⟩
    split at hi
    · rw [hi] at hs; cases hs
    · rw [hi] at hs ⊢; exact ⟨hs, rfl⟩

/-- Conversely a SCANNING board that the loss does not close is SCANNING still. -/
theorem LostBoards.still_scanning {h : Fin 6} {s t : State} {l : List (Fin 32)} (hb : LostBoards h s t l) {i : Fin 32}
    (hs : s.lug.boards[i].state = .scanning) (hc : i ∉ closersOf h s l) : t.lug.boards[i].state = .scanning ∧
      t.lug.boards[i].expected = s.lug.boards[i].expected := by
  by_cases hl : i ∈ l ∧ s.losesHead h i = true
  · have hw : s.lug.boards[i].awaitsOnly h = false := by
      by_contra hw
      exact hc (mem_closersOf.2 ⟨hl.1, hl.2, by simpa using hw⟩)
    rw [hb.waits i hl.1 hl.2 hw]
    exact ⟨hs, rfl⟩
  · have hi := hb.others i fun hm hc => hl ⟨hm, hc⟩
    rw [if_neg fun hx => by rw [hs] at hx; cases hx.1] at hi
    rw [hi]
    exact ⟨hs, rfl⟩

theorem LostBoards.expects {h : Fin 6} {s t : State} {l : List (Fin 32)} (hb : LostBoards h s t l) {k : Fin 6}
    (he : t.Expects k) : s.Expects k := by
  obtain ⟨i, h1, h2⟩ := he
  obtain ⟨hs, hx⟩ := hb.scanning h1
  exact ⟨i, hs, by rw [← hx]; exact h2⟩

theorem LostBoards.expects_iff {h : Fin 6} {s t : State} {l : List (Fin 32)} (hb : LostBoards h s t l)
    (hc : closersOf h s l = []) (k : Fin 6) : t.Expects k ↔ s.Expects k := by
  refine ⟨hb.expects, fun ⟨i, h1, h2⟩ => ?_⟩
  obtain ⟨hs, hx⟩ := hb.still_scanning h1 (by rw [hc]; simp)
  exact ⟨i, hs, by rw [hx]; exact h2⟩

/-- The event once the head is lost from the boards of a list of slots, taken in the list's order (R29). -/
structure Lost (h : Fin 6) (e u : Ev) (l : List (Fin 32)) : Prop where
  boards : LostBoards h e.st u.st l
  keeps : Keeps [.lug, .head, .solv, .note] e.st u.st
  seats : Seats e.st u.st
  lug : u.st.lug = { e.st.lug with boards := u.st.lug.boards }
  head : u.st.head = { e.st.head with ctx := u.st.head.ctx }
  joined : e.st.solv.JoinedBy u.st.solv ((joinersOf h e.st l).map fun i => e.st.lug.boards[i].lug)
  note : u.st.note = { e.st.note with word := e.st.note.word |||
    (if (joinersOf h e.st l).length < (materialOf h e.st l).length then Notice.solveQueueFull.mask else 0) }
  full : (joinersOf h e.st l).length < (materialOf h e.st l).length → .notice ∈ u.asked
  ctx : ∀ k : Fin 6, u.st.head.ctx[k] = { e.st.head.ctx[k] with
    state := if closersOf h e.st l = [] then e.st.head.ctx[k].state else e.st.head.ctx[k].state.parkedIn u.st k
    badLast := lastBad h e.st l k }
  asks : ∀ k : Fin 6, u.st.head.ctx[k] ≠ e.st.head.ctx[k] → .headStatus k ∈ u.asked
  grows : Grows e u

theorem lost_nil (h : Fin 6) (e : Ev) : Lost h e e [] := by
  have hno : ∀ j, ¬ e.st.SolveStarts e.st j := not_solveStarts_self rfl
  have hm : materialOf h e.st [] = [] := rfl
  have hj : joinersOf h e.st [] = [] := by rw [joinersOf, hm, List.take_nil]
  refine ⟨⟨fun i hi => absurd hi List.not_mem_nil, fun i hi => absurd hi List.not_mem_nil, fun i _ =>
      (if_neg fun hc : e.st.lug.boards[i].state = .queued ∧ _ => hno i hc.2).symm⟩,
    Keeps.refl _ _, Seats.refl _, rfl, rfl, ?_, ?_, ?_, fun k => rfl, fun k hk => absurd rfl hk, Grows.refl e⟩
  · rw [hj]; exact ⟨fun _ => rfl, fun hc => absurd rfl hc⟩
  · rw [hj, hm]; simp
  · rw [hj, hm]; simp

/-! One board more, at the head of the list: it does not lose the head, or loses it and waits, or closes. -/

section Cons
variable {h : Fin 6} {e e1 u : Ev} {i : Fin 32} {l : List (Fin 32)}

theorem closersOf_cons_not {s : State} (hn : ¬ (s.losesHead h i = true ∧ s.lug.boards[i].awaitsOnly h = true)) :
    closersOf h s (i :: l) = closersOf h s l := by
  unfold closersOf
  rw [List.filter_cons_of_neg (by simpa using hn)]

theorem closersOf_cons {s : State} (h1 : s.losesHead h i = true) (h2 : s.lug.boards[i].awaitsOnly h = true) :
    closersOf h s (i :: l) = i :: closersOf h s l := by
  unfold closersOf
  rw [List.filter_cons_of_pos (by rw [h1, h2]; rfl)]

theorem lost_cons_none (hl : ¬ e.st.losesHead h i = true) (ih : Lost h e u l) : Lost h e u (i :: l) := by
  have hc : closersOf h e.st (i :: l) = closersOf h e.st l := closersOf_cons_not fun hx => hl hx.1
  have hm : materialOf h e.st (i :: l) = materialOf h e.st l := by rw [materialOf, hc]; rfl
  have hj : joinersOf h e.st (i :: l) = joinersOf h e.st l := by rw [joinersOf, hm]; rfl
  have hbad : ∀ k, lastBad h e.st (i :: l) k = lastBad h e.st l k := fun k => by rw [lastBad, hc]; rfl
  obtain ⟨hb, h1, h2, h3, h4, h5, h6, h7, h8, h9, h10⟩ := ih
  refine ⟨⟨fun j hj' hlj hw => ?_, fun j hj' => ?_, fun j hj' => hb.others j fun hm => hj' (List.mem_cons_of_mem _ hm)⟩,
    h1, h2, h3, h4, by rw [hj]; exact h5, by rw [hj, hm]; exact h6, by rw [hj, hm]; exact h7, fun k => ?_, h9, h10⟩
  · rcases List.mem_cons.1 hj' with rfl | hm
    · exact absurd hlj hl
    · exact hb.waits j hm hlj hw
  · rw [hj]; exact hb.closes j (hc ▸ hj')
  · rw [hc, hbad]; exact h8 k

/-- What one board's loss leaves of the others: each that loses the head is as it was. -/
structure OthersLose (h : Fin 6) (s t : State) (i : Fin 32) : Prop where
  same : ∀ j, j ≠ i → s.losesHead h j = true → t.lug.boards[j] = s.lug.boards[j]
  loses : ∀ j, j ≠ i → (t.losesHead h j = true ↔ s.losesHead h j = true)
  fitted : t.head.fitted = s.head.fitted
  plan : t.plan = s.plan

theorem OthersLose.closersOf {s t : State} (ho : OthersLose h s t i) (hi : i ∉ l) :
    closersOf h t l = closersOf h s l := by
  refine List.filter_congr fun j hj => ?_
  have hji : j ≠ i := fun hc => hi (hc ▸ hj)
  rw [Bool.eq_iff_iff]
  simp only [Bool.and_eq_true]
  refine ⟨fun ⟨h1, h2⟩ => ?_, fun ⟨h1, h2⟩ => ?_⟩
  · have hl := (ho.loses j hji).1 h1
    rw [ho.same j hji hl] at h2
    exact ⟨hl, h2⟩
  · rw [ho.same j hji h1]
    exact ⟨(ho.loses j hji).2 h1, h2⟩

/-- The boards the loss closes are read alike before and after. -/
theorem OthersLose.at_closers {s t : State} (ho : OthersLose h s t i) (hi : i ∉ l) {j : Fin 32}
    (hj : j ∈ Proofs.closersOf h s l) : t.lug.boards[j] = s.lug.boards[j] ∧ shadowAt t j = shadowAt s j := by
  obtain ⟨hm, hl, _⟩ := mem_closersOf.1 hj
  have hb := ho.same j (fun hc => hi (hc ▸ hm)) hl
  refine ⟨hb, ?_⟩
  unfold shadowAt State.shadowOf
  rw [hb, ho.plan]

theorem OthersLose.materialOf {s t : State} (ho : OthersLose h s t i) (hi : i ∉ l) :
    materialOf h t l = materialOf h s l := by
  unfold Proofs.materialOf
  rw [ho.closersOf hi]
  refine List.filter_congr fun j hj => ?_
  obtain ⟨h1, h2⟩ := ho.at_closers hi hj
  rw [h1, h2, ho.fitted]

/-- The last of the boards that expect head `k` leaves its bad slices there; without one the head's are kept. -/
theorem OthersLose.lastBad {s t : State} (ho : OthersLose h s t i) (hi : i ∉ l) (k : Fin 6) :
    lastBad h t l k = ((((Proofs.closersOf h s l).filter fun i => s.lug.boards[i].expected.getLsbD k).getLast?).map
      fun i => s.lug.boards[i].bad[k]).getD t.head.ctx[k].badLast := by
  unfold Proofs.lastBad
  rw [ho.closersOf hi]
  have hf : ((Proofs.closersOf h s l).filter fun i => t.lug.boards[i].expected.getLsbD k) =
      (Proofs.closersOf h s l).filter fun i => s.lug.boards[i].expected.getLsbD k :=
    List.filter_congr fun j hj => by rw [(ho.at_closers hi hj).1]
  rw [hf]
  congr 1
  refine Option.map_congr fun j hj => ?_
  have hmem : j ∈ Proofs.closersOf h s l := (List.mem_filter.1 (List.mem_of_getLast? hj)).1
  rw [(ho.at_closers hi hmem).1]

theorem othersLose_losesAt (h : Fin 6) (e : Ev) (i : Fin 32) : OthersLose h e.st (losesAt h e i).st i := by
  have hr : ∀ j, j ≠ i → (losesAt h e i).st.lug.boards[j] = e.st.lug.boards[j] := fun j hj => by
    rw [losesAt_read, if_neg hj]
  exact ⟨fun j hj _ => hr j hj, fun j hj => by rw [losesHead_iff, losesHead_iff, hr j hj], rfl, rfl⟩

theorem lost_cons_waits (hl : e.st.losesHead h i = true) (hw : ¬ e.st.lug.boards[i].awaitsOnly h = true) (hi : i ∉ l)
    (ih : Lost h (losesAt h e i) u l) : Lost h e u (i :: l) := by
  have ho := othersLose_losesAt h e i
  have hc : closersOf h e.st (i :: l) = closersOf h (losesAt h e i).st l :=
    (closersOf_cons_not fun hx => hw hx.2).trans (ho.closersOf hi).symm
  have hc0 : closersOf h e.st (i :: l) = closersOf h e.st l := closersOf_cons_not fun hx => hw hx.2
  have hm : materialOf h e.st (i :: l) = materialOf h (losesAt h e i).st l := by
    rw [ho.materialOf hi]; unfold materialOf; rw [hc0]
  have hj : joinersOf h e.st (i :: l) = joinersOf h (losesAt h e i).st l := by unfold joinersOf; rw [hm]; rfl
  have hbad : ∀ k, lastBad h e.st (i :: l) k = lastBad h (losesAt h e i).st l k := fun k => by
    rw [ho.lastBad hi]; unfold lastBad; rw [hc0]; rfl
  have hstart : ∀ j, (losesAt h e i).st.SolveStarts u.st j ↔ e.st.SolveStarts u.st j := fun j => by
    unfold State.SolveStarts
    rw [show (losesAt h e i).st.lookup = e.st.lookup from funext (seats_losesAt h e i).lookup]
    rfl
  have hscan := ((losesHead_iff _ _ _).1 hl).1
  obtain ⟨hb, h1, h2, h3, h4, h5, h6, h7, h8, h9, h10⟩ := ih
  have hself : u.st.lug.boards[i] = e.st.lug.boards[i].losing h := by
    have hx := hb.others i fun hm => absurd hm hi
    rw [losesAt_self] at hx
    rw [hx, if_neg]
    exact fun hq => absurd (hscan.symm.trans hq.1) nofun
  refine ⟨⟨fun j hj' hlj hwj => ?_, fun j hj' => ?_, fun j hj' => ?_⟩, ?_, (seats_losesAt h e i).trans h2, ?_, h4, ?_,
    by rw [hj, hm]; exact h6, by rw [hj, hm]; exact h7, fun k => ?_, h9, (grows_changeBoard e i _).trans h10⟩
  · rcases List.mem_cons.1 hj' with rfl | hmem
    · exact hself
    · have hji : j ≠ i := fun hc => hi (hc ▸ hmem)
      have hsame := ho.same j hji hlj
      rw [← hsame] at hwj ⊢
      exact hb.waits j hmem ((ho.loses j hji).2 hlj) hwj
  · have hmem : j ∈ closersOf h e.st l := hc0 ▸ hj'
    have hx := hb.closes j (hc ▸ hj')
    obtain ⟨ha, hsh⟩ := ho.at_closers hi hmem
    rw [ha, hsh] at hx
    rw [hj]
    exact hx
  · have hji : j ≠ i := fun hc => hj' (by simp [hc]) (hc ▸ hl)
    have hx := hb.others j fun hm hc => hj' (List.mem_cons_of_mem _ hm) ((ho.loses j hji).1 hc)
    rw [losesAt_read, if_neg hji] at hx
    simpa only [hstart] using hx
  · exact ((keeps_changeBoard e i _).mono (by decide)).trans h1
  · rw [h3]; rfl
  · rw [hj]
    have hmap : ((joinersOf h (losesAt h e i).st l).map fun j => (losesAt h e i).st.lug.boards[j].lug) =
        (joinersOf h (losesAt h e i).st l).map fun j => e.st.lug.boards[j].lug := by
      refine List.map_congr_left fun j hj' => ?_
      have hmem : j ∈ closersOf h e.st l := by
        have := (List.mem_filter.1 (List.mem_of_mem_take hj')).1
        rwa [ho.closersOf hi] at this
      rw [(ho.at_closers hi hmem).1]
    rw [← hmap]
    exact h5
  · rw [hc, hbad]; exact h8 k

/-- A start of the solver within two stretches of an event is a start in one of them. -/
theorem solveStarts_two {s t u : State} {a b : List Word16} (hl : t.lookup = s.lookup) (h : s.solv.JoinedBy t.solv a)
    (h' : t.solv.JoinedBy u.solv b) (j : Fin 32) :
    (s.SolveStarts t j → s.SolveStarts u j) ∧ (¬ s.SolveStarts t j → (t.SolveStarts u j ↔ s.SolveStarts u j)) := by
  refine ⟨fun ⟨h1, h2⟩ => ⟨h1, ?_⟩, fun hn => ⟨fun ⟨h1, h2⟩ => ⟨?_, by rw [← hl]; exact h2⟩, fun ⟨h1, h2⟩ => ⟨?_, by
    rw [hl]; exact h2⟩⟩⟩
  · obtain ⟨n, hs, _⟩ := Option.bind_eq_some_iff.1 h2
    rw [hs] at h2
    rw [JoinedBy.busy h' hs]
    exact h2
  · cases hs : s.solv.solving with
    | none => rfl
    | some n => rw [JoinedBy.busy h hs] at h1; cases h1
  · cases ht : t.solv.solving with
    | none => rfl
    | some n =>
      rw [JoinedBy.busy h' ht] at h2
      exact absurd ⟨h1, by rw [ht]; exact h2⟩ hn

theorem parkedIn_again {s t : State} {k : Fin 6} (h : t.Expects k → s.Expects k) (c : HeadState) :
    (c.parkedIn s k).parkedIn t k = c.parkedIn t k := by
  by_cases hp : c = .leaving ∧ ¬ s.Expects k
  · have hs : c.parkedIn s k = .parked := if_pos hp
    have ht : c.parkedIn t k = .parked := if_pos ⟨hp.1, fun hx => hp.2 (h hx)⟩
    rw [hs, ht]
    exact parkedIn_of_ne nofun
  · rw [show c.parkedIn s k = c from if_neg hp]

theorem othersLose_closes (hc : Closes (losesAt h e i) e1 i) : OthersLose h e.st e1.st i := by
  have hread : ∀ j, j ≠ i → e1.st.lug.boards[j] = e.st.lug.boards[j] ∨
      (e.st.lug.boards[j].state = .queued ∧ e1.st.lug.boards[j].state = .solving) := fun j hj => by
    have hx := hc.board.others j hj
    rw [losesAt_read, if_neg hj] at hx
    split at hx
    · rename_i hq; exact Or.inr ⟨hq.1, by rw [hx]; rfl⟩
    · exact Or.inl hx
  refine ⟨fun j hj hl => (hread j hj).resolve_right fun hx => ?_, fun j hj => ?_, by rw [hc.head]; rfl, hc.keeps.plan⟩
  · exact absurd (((losesHead_iff _ _ _).1 hl).1.symm.trans hx.1) nofun
  · rcases hread j hj with hx | ⟨hx, hy⟩
    · rw [losesHead_iff, losesHead_iff, hx]
    · rw [losesHead_iff, losesHead_iff, hx, hy]
      exact ⟨fun hz => absurd hz.1 nofun, fun hz => absurd hz.1 nofun⟩

/-- The board in slot `i` closes with material once it has lost the head. -/
abbrev materialAt (h : Fin 6) (s : State) (i : Fin 32) : Prop :=
  (s.lug.boards[i].losing h).hasMaterial s.head.fitted (shadowAt s i) = true

theorem hasMaterialAt_losesAt (h : Fin 6) (e : Ev) (i : Fin 32) :
    hasMaterialAt (losesAt h e i).st i ↔ materialAt h e.st i := by
  unfold hasMaterialAt shadowAt
  rw [losesAt_self]
  rfl

/-- The lists with a closing board at the head. -/
theorem lists_of_closes (hc : Closes (losesAt h e i) e1 i) (hl : e.st.losesHead h i = true)
    (hw : e.st.lug.boards[i].awaitsOnly h = true) (hi : i ∉ l) :
    materialOf h e.st (i :: l) = (if materialAt h e.st i then [i] else []) ++ materialOf h e1.st l ∧
    joinersOf h e.st (i :: l) =
      (if materialAt h e.st i ∧ e.st.solv.queue.length < 4 then [i] else []) ++ joinersOf h e1.st l ∧
    ((joinersOf h e.st (i :: l)).length < (materialOf h e.st (i :: l)).length ↔
      (materialAt h e.st i ∧ 4 ≤ e.st.solv.queue.length) ∨ (joinersOf h e1.st l).length < (materialOf h e1.st l).length) := by
  have ho := othersLose_closes hc
  have hmat : materialOf h e.st (i :: l) = (if materialAt h e.st i then [i] else []) ++ materialOf h e1.st l := by
    rw [ho.materialOf hi]
    unfold materialOf
    rw [closersOf_cons hl hw, List.filter_cons]
    by_cases hm : materialAt h e.st i
    · rw [if_pos (show _ = true from hm), if_pos hm]; rfl
    · rw [if_neg (show ¬ _ = true from hm), if_neg hm]; rfl
  have hjoin : e.st.solv.JoinedBy e1.st.solv (if hasMaterialAt (losesAt h e i).st i ∧ e.st.solv.queue.length < 4 then
    [(losesAt h e i).st.lug.boards[i].lug] else []) := hc.board.joined
  have hiff := hasMaterialAt_losesAt h e i
  unfold joinersOf
  rw [hmat]
  refine ⟨rfl, ?_⟩
  by_cases hm : materialAt h e.st i
  · by_cases hq : e.st.solv.queue.length < 4
    · rw [if_pos ⟨hiff.2 hm, hq⟩] at hjoin
      rw [if_pos hm, if_pos ⟨hm, hq⟩, JoinedBy.room hjoin hq]
      refine ⟨rfl, ?_⟩
      simp only [List.singleton_append, List.take_succ_cons, List.length_cons]
      omega
    · rw [if_neg fun hx => hq hx.2] at hjoin
      have hroom : e.st.solv.room = 0 := by
        by_contra hne
        exact hq ((room_pos _).1 (Nat.pos_of_ne_zero hne))
      rw [if_pos hm, if_neg fun hx => hq hx.2, hjoin.1 rfl, hroom]
      simp only [List.take_zero, List.nil_append, List.length_nil, List.singleton_append, List.length_cons]
      exact ⟨trivial, fun _ => Or.inl ⟨hm, not_lt.1 hq⟩, fun _ => Nat.succ_pos _⟩
  · rw [if_neg fun hx => hm (hiff.1 hx.1)] at hjoin
    rw [if_neg hm, if_neg fun hx => hm hx.1, hjoin.1 rfl]
    simp [hm]

theorem mem_of_joinersOf {s : State} {j : Fin 32} (hj : j ∈ joinersOf h s l) : j ∈ closersOf h s l :=
  (List.mem_filter.1 (List.mem_of_mem_take hj)).1

theorem losesAt_starts (u : State) (j : Fin 32) : (losesAt h e i).st.SolveStarts u j ↔ e.st.SolveStarts u j := by
  unfold State.SolveStarts
  rw [show (losesAt h e i).st.lookup = e.st.lookup from funext (seats_losesAt h e i).lookup]
  rfl

theorem read_of_closes (hc : Closes (losesAt h e i) e1 i) {j : Fin 32} (hj : j ≠ i) : e1.st.lug.boards[j] =
    if e.st.lug.boards[j].state = .queued ∧ e.st.SolveStarts e1.st j then startedBoard e.st.lug.boards[j]
    else e.st.lug.boards[j] := by
  have hx := hc.board.others j hj
  rw [losesAt_read, if_neg hj] at hx
  simpa only [losesAt_starts] using hx

theorem closed_of_closes (hc : Closes (losesAt h e i) e1 i) : (e.st.lug.boards[i].losing h).ClosesTo e.st.head.fitted
    (shadowAt e.st i) (decide (e.st.solv.queue.length < 4)) e1.st.lug.boards[i] := by
  have hx := hc.board.closed
  unfold shadowAt at hx
  rw [losesAt_self] at hx
  exact hx

/-- What the boards are once one closes and the rest of the list is done. -/
theorem lostBoards_cons_closes (hc : Closes (losesAt h e i) e1 i) (hl : e.st.losesHead h i = true)
    (hw : e.st.lug.boards[i].awaitsOnly h = true) (hi : i ∉ l) (hseat : Seats e.st e1.st) (ih : Lost h e1 u l) :
    LostBoards h e.st u.st (i :: l) := by
  have ho := othersLose_closes hc
  have hlook : e1.st.lookup = e.st.lookup := funext hseat.lookup
  obtain ⟨-, hj, -⟩ := lists_of_closes hc hl hw hi
  have hnot : i ∉ joinersOf h e1.st l := fun hx => hi (mem_closersOf.1 (mem_of_joinersOf hx)).1
  have hb := ih.boards
  refine ⟨fun j hmem hlj hwj => ?_, fun j hmem => ?_, fun j hmem => ?_⟩
  · have hji : j ≠ i := fun hx => by rw [hx, hw] at hwj; cases hwj
    have hsame := ho.same j hji hlj
    rw [← hsame] at hwj ⊢
    exact hb.waits j ((List.mem_cons.1 hmem).resolve_left hji) ((ho.loses j hji).2 hlj) hwj
  · rw [closersOf_cons hl hw] at hmem
    rcases List.mem_cons.1 hmem with rfl | hmem
    · have hself := closed_of_closes hc
      have hlater : (e.st.lug.boards[j].losing h).ClosesTo e.st.head.fitted (shadowAt e.st j)
          (decide (e.st.solv.queue.length < 4)) u.st.lug.boards[j] := by
        rw [hb.others j fun hx => absurd hx hi]
        split
        · rename_i hq; exact ClosesTo.started hself hq.1
        · exact hself
      by_cases hm : materialAt h e.st j
      · have hiff : j ∈ joinersOf h e.st (j :: l) ↔ e.st.solv.queue.length < 4 := by
          rw [hj]
          by_cases hq : e.st.solv.queue.length < 4
          · rw [if_pos ⟨hm, hq⟩]; simp [hq]
          · rw [if_neg fun hx => hq hx.2]; simp [hq, hnot]
        rwa [decide_eq_decide.2 hiff]
      · exact ClosesTo.any_room hlater hm
    · have hji : j ≠ i := fun hx => hi (hx ▸ (mem_closersOf.1 hmem).1)
      have hx := hb.closes j ((ho.closersOf hi).symm ▸ hmem)
      obtain ⟨h1, h2⟩ := ho.at_closers hi hmem
      have hiff : j ∈ joinersOf h e.st (i :: l) ↔ j ∈ joinersOf h e1.st l := by
        rw [hj, List.mem_append]
        refine or_iff_right fun hx => hji ?_
        split at hx
        · exact List.mem_singleton.1 hx
        · exact absurd hx List.not_mem_nil
      rw [h1, h2, ho.fitted] at hx
      rwa [decide_eq_decide.2 hiff]
  · have hji : j ≠ i := fun hx => hmem (by simp [hx]) (hx ▸ hl)
    have hread := read_of_closes hc hji
    have hx := hb.others j fun hm hy => hmem (List.mem_cons_of_mem _ hm) ((ho.loses j hji).1 hy)
    have hjoin : ∃ a, e.st.solv.JoinedBy e1.st.solv a := ⟨_, hc.board.joined⟩
    obtain ⟨a, hjoin⟩ := hjoin
    obtain ⟨hfirst, hlater⟩ := solveStarts_two hlook hjoin ih.joined j
    by_cases hq : e.st.lug.boards[j].state = .queued
    · by_cases hs : e.st.SolveStarts e1.st j
      · rw [if_pos ⟨hq, hs⟩] at hread
        rw [hread, if_neg fun hy => absurd hy.1 nofun] at hx
        rw [hx, if_pos ⟨hq, hfirst hs⟩]
      · rw [if_neg fun hy => hs hy.2] at hread
        rw [hread] at hx
        rw [hx]
        simp only [hlater hs]
    · rw [if_neg fun hy => hq hy.1] at hread
      rw [hread] at hx
      rw [hx, if_neg fun hy => hq hy.1, if_neg fun hy => hq hy.1]

/-- The heads' contexts once one board closes and the rest of the list is done (R35, R36). -/
theorem lostCtx_cons_closes (hc : Closes (losesAt h e i) e1 i) (hl : e.st.losesHead h i = true)
    (hw : e.st.lug.boards[i].awaitsOnly h = true) (hi : i ∉ l) (ih : Lost h e1 u l) (k : Fin 6) :
    u.st.head.ctx[k] = { e.st.head.ctx[k] with
      state := if closersOf h e.st (i :: l) = [] then e.st.head.ctx[k].state else e.st.head.ctx[k].state.parkedIn u.st k
      badLast := lastBad h e.st (i :: l) k } := by
  have ho := othersLose_closes hc
  have hk := ih.ctx k
  have h1 : e1.st.head.ctx[k] = { e.st.head.ctx[k] with
      state := e.st.head.ctx[k].state.parkedIn e1.st k
      badLast := if e.st.lug.boards[i].expected.getLsbD k = true then e.st.lug.boards[i].bad[k]
        else e.st.head.ctx[k].badLast } := by
    have hx := hc.ctx k
    rw [losesAt_self] at hx
    exact hx
  have hstate : (if closersOf h e1.st l = [] then e1.st.head.ctx[k].state
      else e1.st.head.ctx[k].state.parkedIn u.st k) = e.st.head.ctx[k].state.parkedIn u.st k := by
    rw [h1]
    split
    · rename_i hnil; exact (parkedIn_congr (ih.boards.expects_iff hnil k) _).symm
    · exact parkedIn_again ih.boards.expects _
  have hbad : lastBad h e1.st l k = lastBad h e.st (i :: l) k := by
    rw [ho.lastBad hi, h1]
    unfold lastBad
    rw [closersOf_cons hl hw, List.filter_cons]
    split
    · rw [List.getLast?_cons]
      cases ((closersOf h e.st l).filter fun i => e.st.lug.boards[i].expected.getLsbD k).getLast? <;> rfl
    · rfl
  have hne : closersOf h e.st (i :: l) ≠ [] := by rw [closersOf_cons hl hw]; nofun
  rw [hk, hstate, hbad, if_neg hne, h1]

theorem lost_cons_closes (hc : Closes (losesAt h e i) e1 i) (hl : e.st.losesHead h i = true)
    (hw : e.st.lug.boards[i].awaitsOnly h = true) (hi : i ∉ l) (hseat : Seats e.st e1.st) (ih : Lost h e1 u l) :
    Lost h e u (i :: l) := by
  have ho := othersLose_closes hc
  have hiff := hasMaterialAt_losesAt h e i
  obtain ⟨hm, hj, hfull⟩ := lists_of_closes hc hl hw hi
  refine ⟨lostBoards_cons_closes hc hl hw hi hseat ih,
    (((keeps_changeBoard e i _).mono (by decide)).trans hc.keeps).trans ih.keeps, hseat.trans ih.seats, ?_, ?_, ?_, ?_,
    fun hx => ?_, lostCtx_cons_closes hc hl hw hi ih, fun k hk => ?_,
    ((grows_changeBoard e i _).trans hc.grows).trans ih.grows⟩
  · rw [ih.lug, hc.board.lug]; rfl
  · rw [ih.head, hc.head]; rfl
  · have hmap : ((joinersOf h e1.st l).map fun j => e1.st.lug.boards[j].lug) =
        (joinersOf h e1.st l).map fun j => e.st.lug.boards[j].lug := by
      refine List.map_congr_left fun j hj' => ?_
      have hmem := mem_of_joinersOf hj'
      rw [ho.closersOf hi] at hmem
      rw [(ho.at_closers hi hmem).1]
    have hjoin : e.st.solv.JoinedBy e1.st.solv
        ((if materialAt h e.st i ∧ e.st.solv.queue.length < 4 then [i] else []).map fun j => e.st.lug.boards[j].lug) := by
      have hx : e.st.solv.JoinedBy e1.st.solv (if hasMaterialAt (losesAt h e i).st i ∧ e.st.solv.queue.length < 4 then
        [(losesAt h e i).st.lug.boards[i].lug] else []) := hc.board.joined
      by_cases hc' : materialAt h e.st i ∧ e.st.solv.queue.length < 4
      · rw [if_pos ⟨hiff.2 hc'.1, hc'.2⟩, losesAt_self] at hx
        rw [if_pos hc']
        exact hx
      · rw [if_neg fun hy => hc' ⟨hiff.1 hy.1, hy.2⟩] at hx
        rw [if_neg hc']
        exact hx
    rw [hj, List.map_append, ← hmap]
    exact JoinedBy.trans hjoin ih.joined
  · have hn : e1.st.note = if hasMaterialAt (losesAt h e i).st i ∧ 4 ≤ e.st.solv.queue.length then
        e.st.note.raised .solveQueueFull else e.st.note := hc.board.note
    simp only [hiff] at hn
    rw [ih.note, hn]
    simp only [hfull]
    by_cases h1 : materialAt h e.st i ∧ 4 ≤ e.st.solv.queue.length
    · rw [if_pos h1, if_pos (Or.inl h1)]
      split
      · simp only [NoticeUnit.raised, BitVec.or_assoc, BitVec.or_self]
      · simp [NoticeUnit.raised]
    · rw [if_neg h1]
      simp only [h1, false_or]
  · rcases hfull.1 hx with h1 | h1
    · exact ih.grows.asked _ (hc.board.full (hiff.2 h1.1) h1.2)
    · exact ih.full h1
  · by_cases h1 : e1.st.head.ctx[k] = e.st.head.ctx[k]
    · exact ih.asks k fun hx => hk (hx.trans h1)
    · exact ih.grows.asked _ (hc.asks k h1)

end Cons

/-- The loss at one board and then at the rest of a list that does not hold it. -/
theorem lost_cons {h : Fin 6} {e u : Ev} {i : Fin 32} {l : List (Fin 32)} (hi : i ∉ l)
    (ih : Lost h (Ev.loseAt h e i) u l) : Lost h e u (i :: l) := by
  by_cases hl : e.st.losesHead h i = true
  · by_cases hw : e.st.lug.boards[i].awaitsOnly h = true
    · exact lost_cons_closes (loseAt_closes hl hw) hl hw hi (seats_loseAt h e i) ih
    · rw [loseAt_waits hl hw] at ih
      exact lost_cons_waits hl hw hi ih
  · rw [loseAt_none hl] at ih
    exact lost_cons_none hl ih

/-- R29: the loss at all the boards of a list of slots. -/
theorem lost_foldl (h : Fin 6) (l : List (Fin 32)) (hn : l.Nodup) : ∀ e : Ev, Lost h e (l.foldl (Ev.loseAt h) e) l := by
  induction l with
  | nil => exact fun e => lost_nil h e
  | cons i l ih =>
    obtain ⟨hi, hn⟩ := List.nodup_cons.1 hn
    exact fun e => lost_cons hi (ih hn _)


end Sys2Proof.Proofs
end

section
/-! HEAD_PRESENT_FALL (R28, R29): the order in which the boards close, the event in its parts, and the claim. -/

namespace Sys2Proof.Proofs

open Sys2Proof Sys2Proof.Machine Sys2Proof.Laws

/-! ### The slots, oldest first -/

theorem slotsOldestFirst_nodup (cur : Word16) : (slotsOldestFirst cur).Nodup := by
  refine List.Nodup.map_on (fun a ha b hb hab => ?_) List.nodup_range
  rw [List.mem_range] at ha hb
  have hv := congrArg Fin.val hab
  simp only [slotOf, BitVec.toNat_add, BitVec.toNat_ofNat] at hv
  omega

theorem mem_slotsOldestFirst (cur : Word16) (i : Fin 32) : i ∈ slotsOldestFirst cur := by
  refine List.mem_map.2 ⟨(i.val + 32 - (cur.toNat + 1) % 32) % 32, List.mem_range.2 (Nat.mod_lt _ (by decide)), ?_⟩
  refine Fin.ext ?_
  have hi := i.2
  simp only [slotOf, BitVec.toNat_add, BitVec.toNat_ofNat, show BitVec.toNat (1 : Word16) = 1 from rfl]
  omega

/-- The slot that comes `k` places after the oldest is that of the lug at position `31 - k`. -/
theorem slotsOldestFirst_eq (cur : Word16) :
    slotsOldestFirst cur = (List.range 32).reverse.map fun p => slotOf (cur - BitVec.ofNat 16 p) := by
  rw [show (List.range 32).reverse = (List.range 32).map (31 - ·) from rfl, List.map_map]
  refine List.map_congr_left fun k hk => Fin.ext ?_
  rw [List.mem_range] at hk
  simp only [slotOf, Function.comp, BitVec.toNat_add, BitVec.toNat_sub, BitVec.toNat_ofNat,
    show BitVec.toNat (1 : Word16) = 1 from rfl]
  omega

/-- A partial list of which only what fails the test is missing. -/
theorem filter_filterMap_of_covers {α β : Type} {f : α → Option β} {g : α → β} {p : β → Bool} {l : List α}
    (h : ∀ a ∈ l, f a = some (g a) ∨ (f a = none ∧ p (g a) = false)) : (l.filterMap f).filter p = (l.map g).filter p := by
  induction l with
  | nil => rfl
  | cons a l ih =>
    have ih := ih fun b hb => h b (List.mem_cons_of_mem _ hb)
    rcases h a List.mem_cons_self with hf | ⟨hf, hp⟩
    · rw [List.filterMap_cons_some hf, List.map_cons, List.filter_cons, List.filter_cons, ih]
    · rw [List.filterMap_cons_none hf, List.map_cons, List.filter_cons_of_neg (by rw [hp]; decide), ih]

/-- A live board on the line is found at its position. -/
theorem boardAt_of_slot {s : State} (hs : LineInv s) (hr : s.running = true) {p : Nat} (hp : p < 32)
    (hlive : s.lug.boards[slotOf (s.lug.current - BitVec.ofNat 16 p)].state ≠ .free) :
    s.boardAt p = some (slotOf (s.lug.current - BitVec.ofNat 16 p)) := by
  obtain ⟨hgeo, hplace, -⟩ := hs
  obtain ⟨hslot, hpos⟩ := hplace _ hlive
  have hg := hgeo hr
  simp only [LugTable.geometry, Bool.and_eq_true, decide_eq_true_eq] at hg
  have hv := congrArg Fin.val hslot
  simp only [LugTable.position] at hpos
  refine if_pos ⟨hlive, ?_⟩
  generalize s.lug.boards[slotOf (s.lug.current - BitVec.ofNat 16 p)].lug = n at hv hpos ⊢
  simp only [slotOf, BitVec.toNat_sub, BitVec.toNat_ofNat] at hv hpos
  refine BitVec.eq_of_toNat_eq ?_
  simp only [BitVec.toNat_sub, BitVec.toNat_ofNat]
  have := n.isLt
  omega

/-- R29: on a line in order the boards close the greatest lug position first. -/
theorem closersOf_eq {s : State} (hs : LineInv s) (hr : s.running = true) (h : Fin 6) :
    closersOf h s (slotsOldestFirst s.lug.current) = s.closedByLoss h := by
  unfold closersOf State.closedByLoss
  rw [slotsOldestFirst_eq]
  refine (filter_filterMap_of_covers fun p hp => ?_).symm
  rw [List.mem_reverse, List.mem_range] at hp
  by_cases hlive : s.lug.boards[slotOf (s.lug.current - BitVec.ofNat 16 p)].state = .free
  · refine Or.inr ⟨if_neg fun hc => hc.1 hlive, ?_⟩
    simp only [State.losesHead, hlive]
    rfl
  · exact Or.inl (boardAt_of_slot hs hr hp hlive)

/-! ### The loss of the head (R29) -/

/-- The mask of HEAD_LOST where a board lost the head. -/
def lossMask (h : Fin 6) (s : State) : NoticeSet :=
  if ∃ i : Fin 32, s.losesHead h i = true then Notice.headLost.mask else 0

/-- The event after the loss: all that the boards' losses leave, and HEAD_LOST raised once. -/
structure HeadLost (h : Fin 6) (e u e1 : Ev) : Prop where
  lost : Lost h e u (slotsOldestFirst e.st.lug.current)
  st : e1.st = { u.st with note := e1.st.note }
  note : e1.st.note = { e.st.note with word := e.st.note.word ||| lossMask h e.st |||
    (if (joinersOf h e.st (slotsOldestFirst e.st.lug.current)).length <
      (materialOf h e.st (slotsOldestFirst e.st.lug.current)).length then Notice.solveQueueFull.mask else 0) }
  asked : (∃ i, e.st.losesHead h i = true) → .notice ∈ e1.asked
  idle : (∀ i, ¬ e.st.losesHead h i = true) → e1 = e
  grows : Grows u e1

theorem foldl_loseAt_none {h : Fin 6} {e : Ev} (hn : ∀ i, ¬ e.st.losesHead h i = true) (l : List (Fin 32)) :
    l.foldl (Ev.loseAt h) e = e := by
  induction l with
  | nil => rfl
  | cons i l ih => rw [List.foldl_cons, loseAt_none (hn i), ih]

theorem loseHead_headLost (h : Fin 6) (e : Ev) : ∃ u, HeadLost h e u (e.loseHead h) := by
  have hlost := lost_foldl h _ (slotsOldestFirst_nodup e.st.lug.current) e
  unfold Ev.loseHead
  dsimp only
  by_cases hany : ∃ i, e.st.losesHead h i = true
  · have hmask : lossMask h e.st = Notice.headLost.mask := if_pos hany
    obtain ⟨i, hi⟩ := hany
    rw [if_pos (List.any_eq_true.2 ⟨i, mem_slotsOldestFirst _ i, hi⟩)]
    generalize (slotsOldestFirst e.st.lug.current).foldl (Ev.loseAt h) e = u at hlost ⊢
    refine ⟨u, hlost, rfl, ?_, fun _ => raise_asks _ _, fun hn => absurd hi (hn i), grows_raise _ _⟩
    show NoticeUnit.raised u.st.note _ = _
    rw [hlost.note, hmask]
    simp only [NoticeUnit.raised, BitVec.or_assoc]
    rw [BitVec.or_comm Notice.headLost.mask]
  · have hmask : lossMask h e.st = 0 := if_neg hany
    have hn : ∀ i, ¬ e.st.losesHead h i = true := fun i hi => hany ⟨i, hi⟩
    rw [if_neg fun hc => by obtain ⟨i, _, hi⟩ := List.any_eq_true.1 hc; exact hn i hi]
    rw [foldl_loseAt_none hn] at hlost ⊢
    refine ⟨e, hlost, rfl, ?_, fun hc => absurd hc hany, fun _ => rfl, Grows.refl e⟩
    rw [hmask]
    simpa using hlost.note

/-! ### The event -/

/-- The head ABSENT, with no admission pending (R28). -/
def absentHead (c : HeadCtx) : HeadCtx := { c with present := false, state := .absent, admitPending := false }

theorem changeHead_st (e : Ev) (h : Fin 6) (f : HeadCtx → HeadCtx) : (e.changeHead h f).st = { e.st with
    head := { e.st.head with ctx := e.st.head.ctx.set h (f e.st.head.ctx[h]) } } := by
  unfold Ev.changeHead; dsimp only; split <;> rfl

theorem changeHead_asks (e : Ev) (h : Fin 6) (f : HeadCtx → HeadCtx)
    (hf : (f e.st.head.ctx[h]).shown ≠ e.st.head.ctx[h].shown) : .headStatus h ∈ (e.changeHead h f).asked := by
  unfold Ev.changeHead
  dsimp only
  rw [if_neg hf]
  simp

/-- The event with the level of HEAD_PRESENT[`h`] down (log 11). -/
def pinned (h : Fin 6) (s : State) : Ev := (Ev.start s).presentPin h false

theorem exec_headPresentFall_idle {h : Fin 6} {s : State} (hn : s.running = false ∨ s.head.fitted.getLsbD h = false) :
    exec (.headPresentFall h) s = .next (pinned h s).finish := by
  show execHeadPresentFall h s = _
  unfold execHeadPresentFall
  refine if_neg fun hc => ?_
  obtain ⟨h1, h2⟩ := Bool.and_eq_true_iff.1 hc
  rcases hn with hn | hn
  · rw [h1] at hn; cases hn
  · rw [show s.head.fitted.getLsbD h = true from h2] at hn; cases hn

/-- The head is ACTIVE or LEAVING: it is lost from the boards. -/
abbrev Serving (h : Fin 6) (s : State) : Prop := s.head.ctx[h].state = .active ∨ s.head.ctx[h].state = .leaving

theorem exec_headPresentFall {h : Fin 6} {s : State} (hr : s.running = true) (hf : s.head.fitted.getLsbD h = true) :
    exec (.headPresentFall h) s =
      .next ((if Serving h s then (pinned h s).loseHead h else pinned h s).changeHead h absentHead).finish := by
  show execHeadPresentFall h s = _
  unfold execHeadPresentFall Serving
  dsimp only
  rw [if_pos (show s.takesEdges h = true from Bool.and_eq_true_iff.2 ⟨hr, hf⟩)]
  cases s.head.ctx[h].state <;> rfl

/-- What the event leaves before the head is made ABSENT: the blocks it cannot reach, and head `h` but for its state and bad
slices. -/
structure BeforeAbsent (h : Fin 6) (s : State) (e : Ev) : Prop where
  keeps : Keeps [.pins, .lug, .head, .solv, .note] s e.st
  pins : e.st.pins = { s.pins with present := s.pins.present &&& ~~~ headBit h }
  lug : e.st.lug = { s.lug with boards := e.st.lug.boards }
  head : e.st.head = { s.head with ctx := e.st.head.ctx }
  self : e.st.head.ctx[h] = { s.head.ctx[h] with state := e.st.head.ctx[h].state, badLast := e.st.head.ctx[h].badLast }
  present : s.head.ctx[h].state ≠ .absent → e.st.head.ctx[h].state ≠ .absent
  returned : e.returned = []

theorem pinned_before (h : Fin 6) (s : State) : BeforeAbsent h s (pinned h s) :=
  ⟨(keeps_presentPin (Ev.start s) h false).mono (by decide), rfl, rfl, rfl, rfl, fun hc => hc, rfl⟩

theorem parkedIn_ne_absent {c : HeadState} {t : State} {k : Fin 6} (hc : c ≠ .absent) : c.parkedIn t k ≠ .absent := by
  unfold HeadState.parkedIn
  split
  · nofun
  · exact hc

theorem headLost_before {h : Fin 6} {s : State} {u e : Ev} (hl : HeadLost h (pinned h s) u e) : BeforeAbsent h s e := by
  obtain ⟨hlost, hst, hnote, -, -, hgrow⟩ := hl
  have hself := hlost.ctx h
  refine ⟨?_, ?_, ?_, ?_, ?_, ?_, ?_⟩
  · have h1 : Keeps [.pins, .lug, .head, .solv, .note] s u.st :=
      ((keeps_presentPin (Ev.start s) h false).mono (by decide)).trans (hlost.keeps.mono (by decide))
    have h2 : Keeps [.note] u.st e.st := by
      rw [hst]; intro b hb; cases b <;> first | rfl | exact absurd (by decide) hb
    exact h1.trans (h2.mono (by decide))
  · rw [hst]
    exact hlost.keeps.pins.trans rfl
  · rw [hst]; exact hlost.lug
  · rw [hst]; exact hlost.head
  · rw [hst]
    show u.st.head.ctx[h] = _
    rw [hself]
    rfl
  · intro hc
    rw [hst]
    show u.st.head.ctx[h].state ≠ _
    rw [hself]
    dsimp only
    split
    · exact hc
    · exact parkedIn_ne_absent hc
  · rw [hgrow.returned, hlost.grows.returned]; rfl

theorem beforeAbsent_frame {h : Fin 6} {s : State} {e : Ev} (hb : BeforeAbsent h s e) :
    let c := s.head.ctx[h]
    let t := (e.changeHead h absentHead).finish
    t = { s with head := t.head, note := t.note, path := t.path, pins := t.pins, lug := t.lug, solv := t.solv } ∧
      s.path.Grew t.path ∧ t.pins = { s.pins with present := s.pins.present &&& ~~~ headBit h } ∧
      t.head = { s.head with ctx := t.head.ctx } ∧ t.lug = { s.lug with boards := t.lug.boards } ∧
      (c.state ≠ .absent → t.path.asks (.headStatus h) = true) ∧
      t.head.ctx[h] = { c with
        present := false, state := .absent, admitPending := false, badLast := t.head.ctx[h].badLast } := by
  obtain ⟨hk, hpins, hlug, hhead, hself, hpres, hret⟩ := hb
  have hst := changeHead_st e h absentHead
  have hkeep : Keeps [.pins, .lug, .head, .solv, .note] s (e.changeHead h absentHead).st :=
    hk.trans ((keeps_changeHead e h absentHead).mono (by decide))
  refine ⟨eq_mixed (bs := [.head, .note, .path, .pins, .lug, .solv])
      ((hkeep.mono (by decide)).trans ((keeps_finish _).mono (by decide))),
    Ev.finish_grew hkeep.path ((grows_changeHead e h absentHead).returned.trans hret), ?_, ?_, ?_, fun hc => ?_, ?_⟩
  · rw [Ev.finish_pins, hst]; exact hpins
  · rw [Ev.finish_head, hst, hhead]
  · rw [Ev.finish_lug, hst]; exact hlug
  · refine Ev.finish_asks (changeHead_asks e h absentHead fun hs => hpres hc ?_) nofun nofun
    exact (congrArg Prod.fst hs).symm
  · rw [Ev.finish_head, hst]
    show (e.st.head.ctx.set h (absentHead e.st.head.ctx[h]))[h] = { s.head.ctx[h] with
      present := false, state := .absent, admitPending := false,
      badLast := (e.st.head.ctx.set h (absentHead e.st.head.ctx[h]))[h].badLast }
    rw [ctx_set, if_pos rfl, hself]
    rfl

/-- The loss once the event has ended, with the slots still in the order the model takes them. -/
structure Fallen (h : Fin 6) (s t : State) : Prop where
  boards : LostBoards h s t (slotsOldestFirst s.lug.current)
  joined : s.solv.JoinedBy t.solv ((joinersOf h s (slotsOldestFirst s.lug.current)).map fun i => s.lug.boards[i].lug)
  note : t.note = { s.note with word := s.note.word ||| lossMask h s |||
    (if (joinersOf h s (slotsOldestFirst s.lug.current)).length < (materialOf h s (slotsOldestFirst s.lug.current)).length
      then Notice.solveQueueFull.mask else 0) }
  told : (∃ i, s.losesHead h i = true) → t.path.asks .notice = true
  idle : (∀ i, ¬ s.losesHead h i = true) → t.note = s.note ∧ t.lug = s.lug ∧ t.solv = s.solv
  bad : ∀ k : Fin 6, t.head.ctx[k].badLast = lastBad h s (slotsOldestFirst s.lug.current) k
  others : ∀ k : Fin 6, k ≠ h → t.head.ctx[k] = { s.head.ctx[k] with
    state := if closersOf h s (slotsOldestFirst s.lug.current) = [] then s.head.ctx[k].state
      else s.head.ctx[k].state.parkedIn t k
    badLast := t.head.ctx[k].badLast }
  asks : ∀ k : Fin 6, k ≠ h → t.head.ctx[k] ≠ s.head.ctx[k] → t.path.asks (.headStatus k) = true

theorem headLost_fallen {h : Fin 6} {s : State} {u e : Ev} (hl : HeadLost h (pinned h s) u e) :
    Fallen h s (e.changeHead h absentHead).finish := by
  obtain ⟨hlost, hst, hnote, hasked, hidle, hgrow⟩ := hl
  have hst' := changeHead_st e h absentHead
  have hlug : (e.changeHead h absentHead).finish.lug = u.st.lug := by rw [Ev.finish_lug, hst', hst]
  have hsolv : (e.changeHead h absentHead).finish.solv = u.st.solv := by rw [Ev.finish_solv, hst', hst]
  have hhead : e.st.head = u.st.head := by rw [hst]
  have hctx : ∀ k : Fin 6, (e.changeHead h absentHead).finish.head.ctx[k] =
      if k = h then absentHead u.st.head.ctx[h] else u.st.head.ctx[k] := fun k => by
    rw [Ev.finish_head, hst', ← hhead]
    exact ctx_set _ h k _
  have hasks := (grows_changeHead e h absentHead).asked
  have hbad : ∀ k : Fin 6, (e.changeHead h absentHead).finish.head.ctx[k].badLast = u.st.head.ctx[k].badLast := fun k => by
    rw [hctx k]
    split
    · rename_i hk; rw [hk]; rfl
    · rfl
  have hstart : ∀ j, s.SolveStarts (e.changeHead h absentHead).finish j ↔ (pinned h s).st.SolveStarts u.st j := fun j =>
    (solveStarts_congr hsolv j).trans Iff.rfl
  refine ⟨⟨?_, ?_, ?_⟩, ?_, ?_, fun hx => ?_, fun hx => ?_, fun k => ?_, fun k hk => ?_, fun k hk hne => ?_⟩
  · simp only [hlug]; exact hlost.boards.waits
  · simp only [hlug]; exact hlost.boards.closes
  · simp only [hlug, hstart]; exact hlost.boards.others
  · rw [hsolv]; exact hlost.joined
  · rw [Ev.finish_note, hst']; exact hnote
  · exact Ev.finish_asks (hasks _ (hasked hx)) nofun nofun
  · have he : e = pinned h s := hidle hx
    rw [he, Ev.finish_note, Ev.finish_lug, Ev.finish_solv, changeHead_st]
    exact ⟨rfl, rfl, rfl⟩
  · rw [hbad k, hlost.ctx k]; rfl
  · rw [hbad k, hctx k, if_neg hk, parkedIn_congr (expects_of_boards (congrArg LugTable.boards hlug) k)]
    have hk' := hlost.ctx k
    rw [hk']
    rfl
  · rw [hctx k, if_neg hk] at hne
    exact Ev.finish_asks (hasks _ (hgrow.asked _ (hlost.asks k hne))) nofun nofun

theorem lossMask_has {h : Fin 6} {s : State} (hx : ∃ i, s.losesHead h i = true) (w v : NoticeSet) (m : NoticeSet) :
    NoticeUnit.has { word := w ||| lossMask h s ||| v, enable := m } .headLost = true := by
  rw [show lossMask h s = Notice.headLost.mask from if_pos hx]
  simp only [NoticeUnit.has, BitVec.getLsbD_or, Bool.or_eq_true]
  exact Or.inl (Or.inr (by decide))

/-- The loss read from the state at the event, once the event has ended. -/
theorem headLost_serving {h : Fin 6} {s : State} {u e : Ev} (hl : HeadLost h (pinned h s) u e) (hr : s.running = true) :
    let loses := fun i : Fin 32 => s.lug.boards[i].state = .scanning ∧ s.lug.boards[i].expected.getLsbD h = true
    let closes := fun i : Fin 32 => loses i ∧ s.lug.boards[i].awaitsOnly h = true
    let after := fun i : Fin 32 => s.lug.boards[i].losing h
    let shadow := fun i : Fin 32 => s.shadowOf s.lug.boards[i].bank
    let t := (e.changeHead h absentHead).finish
    (∀ i, loses i → ¬ closes i → t.lug.boards[i] = after i) ∧
    (∀ i, closes i → ∃ room, (after i).ClosesTo s.head.fitted (shadow i) room t.lug.boards[i]) ∧
    (∀ i, ¬ loses i → t.lug.boards[i] =
      if s.lug.boards[i].state = .queued ∧ s.SolveStarts t i then { s.lug.boards[i] with state := .solving }
      else s.lug.boards[i]) ∧
    ((∃ i, loses i) → t.note.has .headLost = true ∧ t.path.asks .notice = true) ∧
    ((∀ i, ¬ loses i) → t.note = s.note ∧ t.lug = s.lug ∧ t.solv = s.solv) ∧
    (∀ k : Fin 6, k ≠ h → t.head.ctx[k] = { s.head.ctx[k] with
        state := if ∃ i, closes i then s.head.ctx[k].state.parkedIn t k else s.head.ctx[k].state
        badLast := t.head.ctx[k].badLast } ∧
      (t.head.ctx[k] ≠ s.head.ctx[k] → t.path.asks (.headStatus k) = true)) ∧
    (∀ k : Fin 6, (∀ i, closes i → s.lug.boards[i].expected.getLsbD k = false) →
      t.head.ctx[k].badLast = s.head.ctx[k].badLast) ∧
    (LineInv s →
      let order := s.closedByLoss h
      let material := order.filter fun i => (after i).hasMaterial s.head.fitted (shadow i)
      let joined := material.take s.solv.room
      (∀ i, i ∈ order ↔ closes i) ∧
      (∀ i ∈ order, (after i).ClosesTo s.head.fitted (shadow i) (decide (i ∈ joined)) t.lug.boards[i]) ∧
      s.solv.JoinedBy t.solv (joined.map fun i => s.lug.boards[i].lug) ∧
      t.note = { s.note with word := s.note.word ||| (if ∃ i, loses i then Notice.headLost.mask else 0) |||
        (if joined.length < material.length then Notice.solveQueueFull.mask else 0) } ∧
      ∀ (k : Fin 6) (i : Fin 32), (order.filter fun i => s.lug.boards[i].expected.getLsbD k).getLast? = some i →
        t.head.ctx[k].badLast = s.lug.boards[i].bad[k]) := by
  intro loses closes after shadow t
  obtain ⟨hb, hjoin, hnote, htold, hidle, hbad, hothers, hasks⟩ : Fallen h s t := headLost_fallen hl
  generalize t = t at *
  have hloses : ∀ i, loses i ↔ s.losesHead h i = true := fun i => (losesHead_iff s h i).symm
  have hcl : ∀ i, i ∈ closersOf h s (slotsOldestFirst s.lug.current) ↔ closes i := fun i => by
    rw [mem_closersOf, ← hloses]
    exact and_iff_right (mem_slotsOldestFirst _ i)
  have hsome : (∃ i, loses i) ↔ ∃ i, s.losesHead h i = true := exists_congr hloses
  have hempty : closersOf h s (slotsOldestFirst s.lug.current) = [] ↔ ¬ ∃ i, closes i := by
    rw [List.eq_nil_iff_forall_not_mem, not_exists]
    exact forall_congr' fun i => not_congr (hcl i)
  refine ⟨fun i h1 h2 => ?_, fun i hi => ⟨_, hb.closes i ((hcl i).2 hi)⟩, fun i hi => ?_, fun hx => ⟨?_, htold (hsome.1 hx)⟩,
    fun hn => hidle fun i hi => hn i ((hloses i).2 hi), fun k hk => ⟨?_, hasks k hk⟩, fun k hk => ?_, fun hs => ?_⟩
  · exact hb.waits i (mem_slotsOldestFirst _ i) ((hloses i).1 h1) (by simpa using fun hw => h2 ⟨h1, hw⟩)
  · exact hb.others i fun _ hc => hi ((hloses i).2 hc)
  · rw [hnote]; exact lossMask_has (hsome.1 hx) _ _ _
  · rw [hothers k hk]
    by_cases hx : ∃ i, closes i
    · rw [if_neg fun hc => hempty.1 hc hx, if_pos hx]
    · rw [if_pos (hempty.2 hx), if_neg hx]
  · rw [hbad k, lastBad, List.filter_eq_nil_iff.2 fun i hi => by rw [hk i ((hcl i).1 hi)]; decide]
    rfl
  · have hord := closersOf_eq hs hr h
    have hmat : materialOf h s (slotsOldestFirst s.lug.current) =
        (s.closedByLoss h).filter fun i => (after i).hasMaterial s.head.fitted (shadow i) := by
      unfold materialOf; rw [hord]
    have hjo : joinersOf h s (slotsOldestFirst s.lug.current) =
        ((s.closedByLoss h).filter fun i => (after i).hasMaterial s.head.fitted (shadow i)).take s.solv.room := by
      unfold joinersOf; rw [hmat]
    rw [hjo] at hjoin
    rw [hjo, hmat] at hnote
    refine ⟨fun i => by rw [← hord]; exact hcl i, fun i hi => ?_, hjoin, ?_, fun k i hi => ?_⟩
    · have hx := hb.closes i (by rw [hord]; exact hi)
      rwa [hjo] at hx
    · rw [hnote]
      by_cases hx : ∃ i, loses i
      · rw [if_pos hx, show lossMask h s = Notice.headLost.mask from if_pos (hsome.1 hx)]
      · rw [if_neg hx, show lossMask h s = 0 from if_neg fun hc => hx (hsome.2 hc)]
    · rw [hbad k, lastBad, hord, hi]
      rfl

/-- Settles O31: the loss at the slots one after another (R29), then the head made ABSENT (R28). -/
theorem headPresentFalls : Obligations.HeadPresentFalls := by
  unfold Obligations.HeadPresentFalls
  refine ⟨fun h s hn => ?_, fun h s hr hf => ?_⟩
  · rw [exec_headPresentFall_idle hn, Ev.finish_of_quiet rfl]
    rfl
  · dsimp only
    refine ⟨_, exec_headPresentFall hr hf, ?_⟩
    by_cases hs : Serving h s
    · obtain ⟨u, hl⟩ := loseHead_headLost h (pinned h s)
      rw [if_pos hs]
      generalize (pinned h s).loseHead h = e at hl ⊢
      obtain ⟨h1, h2, h3, h4, h5, h6, h7⟩ := beforeAbsent_frame (headLost_before hl)
      exact ⟨h1, h2, h3, h4, h5, h6, h7, fun hn => absurd hs hn, fun _ => headLost_serving hl hr⟩
    · rw [if_neg hs]
      obtain ⟨h1, h2, h3, h4, h5, h6, h7⟩ := beforeAbsent_frame (pinned_before h s)
      have hst := changeHead_st (pinned h s) h absentHead
      refine ⟨h1, h2, h3, h4, h5, h6, h7, fun _ => ⟨?_, ?_, ?_, ?_, fun k hk => ?_⟩, fun hc => absurd hc hs⟩
      · rw [Ev.finish_lug, hst]; rfl
      · rw [Ev.finish_solv, hst]; rfl
      · rw [Ev.finish_note, hst]; rfl
      · rw [Ev.finish_head, hst]
        exact (congrArg HeadCtx.badLast ((ctx_set _ h h _).trans (if_pos rfl))).trans rfl
      · rw [Ev.finish_head, hst]
        exact (ctx_set _ h k _).trans (if_neg hk)

end Sys2Proof.Proofs
end

section
/-! The LUG event up to its commit: the positions of the chain are different slots, and what the late fire, the drop and the
arming leave of each record (R6, R16 to R18). -/

namespace Sys2Proof.Proofs

open Sys2Proof Sys2Proof.Machine Sys2Proof.Laws

/-! ### The positions of the chain -/

theorem takesLug_iff {s : State} : s.takesLug = true ↔ s.running = true ∧ s.lug.geometry = true := by
  simp only [State.takesLug, Bool.and_eq_true]

theorem geometry_iff {l : LugTable} : l.geometry = true ↔ 0 < l.closeLugs ∧ l.closeLugs < l.commitPos ∧
    l.commitPos < l.trimPos ∧ l.trimPos < l.dropPos ∧ l.dropPos ≤ 31 := by
  simp only [LugTable.geometry, Bool.and_eq_true, decide_eq_true_eq, and_assoc]

theorem brings_iff {s : State} {p : Nat} {i : Fin 32} : s.brings p i = true ↔
    slotOf (s.lug.arriving p) = i ∧ s.lug.boards[i].state ≠ .free ∧ s.lug.boards[i].lug = s.lug.arriving p := by
  unfold State.brings
  rw [beq_iff_eq]
  exact lookup_eq_some

theorem brings_lookup {s : State} {p : Nat} {i : Fin 32} : s.brings p i = true ↔ s.lookup (s.lug.arriving p) = some i := by
  unfold State.brings
  rw [beq_iff_eq]

theorem arriving_slot_ne {l : LugTable} {p q : Nat} (hp : p ≤ 31) (hq : q ≤ 31) (hpq : p ≠ q) :
    slotOf (l.arriving p) ≠ slotOf (l.arriving q) := by
  intro hc
  have hv := congrArg Fin.val hc
  simp only [slotOf, LugTable.arriving, BitVec.toNat_sub, BitVec.toNat_add, BitVec.toNat_ofNat] at hv
  omega

/-- A record that arrives at one position arrives at no other, and is not in the slot the event opens. -/
theorem brings_ne {s : State} {p q : Nat} {i j : Fin 32} (hp : p ≤ 31) (hq : q ≤ 31) (hpq : p ≠ q)
    (hi : s.brings p i = true) (hj : s.brings q j = true) : i ≠ j := by
  rw [← (brings_iff.1 hi).1, ← (brings_iff.1 hj).1]
  exact arriving_slot_ne hp hq hpq

theorem brings_ne_new {s : State} {p : Nat} {i : Fin 32} (hp : p ≤ 31) (h0 : 0 < p) (hi : s.brings p i = true) :
    i ≠ slotOf (s.lug.current + 1) := by
  rw [← (brings_iff.1 hi).1, show s.lug.current + 1 = s.lug.arriving 0 from (BitVec.sub_zero _).symm]
  exact arriving_slot_ne hp (by omega) (by omega)

theorem brings_unique {s : State} {p : Nat} {i j : Fin 32} (hi : s.brings p i = true) (hj : s.brings p j = true) : i = j :=
  Option.some.inj ((brings_lookup.1 hi).symm.trans (brings_lookup.1 hj))

/-! ### The record at a position, through the event -/

theorem boardAt_seats {s t : State} (h : Seats s t) (p : Nat) : t.boardAt p = s.boardAt p := by
  unfold State.boardAt
  rw [h.lookup, h.current]

theorem lookup_of_seated {s t : State} {n : Word16}
    (hb : Seated s.lug.boards[slotOf n] t.lug.boards[slotOf n]) : t.lookup n = s.lookup n := by
  unfold State.lookup
  rw [hb.lug]
  simp only [ne_eq, hb.live]

theorem advanced_lookup (s : State) : (advanced s).st.lookup = s.lookup := by
  funext n
  unfold State.lookup
  simp only [advanced_lug]

theorem advanced_boardAt (s : State) (p : Nat) : (advanced s).st.boardAt p = s.lookup (s.lug.arriving p) := by
  unfold State.boardAt
  rw [advanced_lookup, advanced_lug]
  rfl

/-- The event once a late fire is made and the board at drop_pos has left. -/
@[irreducible] def beforeArm (s : State) : Ev := (advanced s).lateFire.dropBoard

theorem beforeCommit_eq (s : State) : beforeCommit s = (beforeArm s).armBoard := by
  unfold beforeCommit beforeArm
  rfl

/-! ### The late fire (R128) -/

theorem lateFire_armed {e : Ev} {a : ArmedFire} (h : e.st.trim.armed = some a) :
    e.lateFire = (e.fire a).raise .encoderSlip := by
  unfold Ev.lateFire
  rw [h]

theorem lateFire_idle {e : Ev} (h : e.st.trim.armed = none) : e.lateFire = e := by
  unfold Ev.lateFire
  rw [h]

/-- The record in slot `j` after the late fire: TRIMMED if it was COMMITTED and of the armed lug. -/
def lateBoard (s : State) (j : Fin 32) : Board :=
  match s.trim.armed with
  | some a =>
    if s.lookup a.lug = some j ∧ s.lug.boards[j].state = .committed then trimmedBoard s.lug.boards[j] else s.lug.boards[j]
  | none => s.lug.boards[j]

theorem lateBoard_of_not_committed {s : State} {j : Fin 32} (h : s.lug.boards[j].state ≠ .committed) :
    lateBoard s j = s.lug.boards[j] := by
  unfold lateBoard
  split
  · rw [if_neg fun hc => h hc.2]
  · rfl

theorem lateBoard_of_not_armed {s : State} {j : Fin 32} (h : ∀ a, s.trim.armed = some a → s.lookup a.lug ≠ some j) :
    lateBoard s j = s.lug.boards[j] := by
  unfold lateBoard
  split
  · rename_i a ha; rw [if_neg fun hc => h a ha hc.1]
  · rfl

theorem lateBoard_fired {s : State} {j : Fin 32} {a : ArmedFire} (ha : s.trim.armed = some a)
    (hl : s.lookup a.lug = some j) (hc : s.lug.boards[j].state = .committed) :
    lateBoard s j = trimmedBoard s.lug.boards[j] := by
  unfold lateBoard
  rw [ha]
  exact if_pos ⟨hl, hc⟩

/-- The late fire puts no record in COMMITTED. -/
theorem lateBoard_committed {s : State} {j : Fin 32} (h : (lateBoard s j).state = .committed) :
    lateBoard s j = s.lug.boards[j] := by
  unfold lateBoard at h ⊢
  split
  · split
    · rename_i ha hc; rw [ha] at h; simp only [if_pos hc] at h; cases h
    · rfl
  · rfl

theorem lateBoard_seated (s : State) (j : Fin 32) : Seated s.lug.boards[j] (lateBoard s j) := by
  unfold lateBoard
  split
  · split
    · rename_i hc
      exact ⟨rfl, rfl, ⟨nofun, fun hf => by rw [hc.2] at hf; cases hf⟩, fun _ => ⟨rfl, rfl⟩⟩
    · exact Seated.refl _
  · exact Seated.refl _

theorem lateFire_read (s : State) (j : Fin 32) : (advanced s).lateFire.st.lug.boards[j] = lateBoard s j := by
  have hb : ∀ k : Fin 32, (advanced s).st.lug.boards[k] = s.lug.boards[k] := fun k => by simp only [advanced_lug]
  have htrim : (advanced s).st.trim = s.trim := (keeps_advanced s).trim
  unfold lateBoard
  cases ha : s.trim.armed with
  | none => rw [lateFire_idle (by rw [htrim]; exact ha)]; exact hb j
  | some a => rw [lateFire_armed (htrim ▸ ha), Ev.raise_lug, fire_boards, advanced_lookup, hb]

/-- The trim output unit after the late fire. -/
def lateTrim (s : State) : TrimUnit :=
  match s.trim.armed with
  | some a => s.trim.drive a.saws
  | none => s.trim

theorem lateFire_trim (s : State) : (advanced s).lateFire.st.trim = lateTrim s := by
  have htrim : (advanced s).st.trim = s.trim := (keeps_advanced s).trim
  unfold lateTrim
  cases ha : s.trim.armed with
  | none => rw [lateFire_idle (by rw [htrim]; exact ha)]; exact htrim
  | some a => rw [lateFire_armed (htrim ▸ ha), Ev.raise_trim, fire_st, htrim]

/-! ### The drop (R18) -/

theorem beforeArm_read (s : State) (j : Fin 32) : (beforeArm s).st.lug.boards[j] =
    if s.brings s.lug.dropPos j = true then freed (lateBoard s j) else lateBoard s j := by
  have hs := seats_lateFire (advanced s)
  have hat : (advanced s).lateFire.st.boardAt (advanced s).lateFire.st.lug.dropPos =
      s.lookup (s.lug.arriving s.lug.dropPos) := by
    rw [boardAt_seats hs, advanced_boardAt, hs.dropPos, advanced_lug]
  unfold beforeArm
  rw [(dropBoard_lug _).2 j, hat, lateFire_read]
  simp only [brings_lookup]

theorem beforeArm_trim (s : State) : (beforeArm s).st.trim = lateTrim s := by
  unfold beforeArm
  rw [(keeps_dropBoard _).trim, lateFire_trim]

theorem beforeArm_table (s : State) : (beforeArm s).st.lug =
    { s.lug with current := s.lug.current + 1, encCount := 0, slipRef := true, boards := (beforeArm s).st.lug.boards } := by
  have h : (advanced s).lateFire.st.lug =
      { s.lug with current := s.lug.current + 1, encCount := 0, slipRef := true,
                   boards := (advanced s).lateFire.st.lug.boards } := by
    have hl := advanced_lug s
    cases ha : (advanced s).st.trim.armed with
    | none => rw [lateFire_idle ha, hl]
    | some a =>
      rw [lateFire_armed ha, Ev.raise_lug]
      have hf := congrArg State.lug (fire_st (advanced s) a)
      rw [hl] at hf
      exact hf
  unfold beforeArm
  rw [(dropBoard_lug _).1, h]

/-- A record that does not arrive at drop_pos keeps its seat. -/
theorem beforeArm_seated {s : State} {j : Fin 32} (h : s.brings s.lug.dropPos j ≠ true) :
    Seated s.lug.boards[j] (beforeArm s).st.lug.boards[j] := by
  rw [beforeArm_read, if_neg h]
  exact lateBoard_seated s j

/-- Between the drop and the opening the record at a position before drop_pos is the one the event brought there. -/
theorem boardAt_of_beforeArm {s t : State} {p : Nat} (hg : s.lug.geometry = true) (hp : p < s.lug.dropPos)
    (h : Seats (beforeArm s).st t) : t.boardAt p = s.lookup (s.lug.arriving p) := by
  obtain ⟨_, _, _, _, hd⟩ := geometry_iff.1 hg
  rw [boardAt_seats h]
  unfold State.boardAt
  rw [beforeArm_table]
  refine lookup_of_seated (beforeArm_seated fun hc => ?_)
  exact arriving_slot_ne (p := p) (by omega) hd (by omega) (brings_iff.1 hc).1.symm

theorem beforeArm_seats_commit (s : State) : Seats (beforeArm s).st (beforeCommit s).st := by
  rw [beforeCommit_eq]; exact seats_armBoard _

/-! ### The arming (R16, R126) -/

theorem armBoard_takes {e : Ev} {i : Fin 32} {f : FinalDecision} (hat : e.st.boardAt e.st.lug.trimPos = some i)
    (hc : e.st.lug.boards[i].state = .committed) (hf : e.st.lug.boards[i].final = some f) : e.armBoard =
      if e.st.trim.fireDelay = 0 then e.fire { lug := e.st.lug.boards[i].lug, saws := f.decision.saws }
      else e.modify fun s =>
        { s with trim := { s.trim with armed := some { lug := e.st.lug.boards[i].lug, saws := f.decision.saws } } } := by
  unfold Ev.armBoard
  rw [hat]
  dsimp only
  rw [hc, hf]

theorem armBoard_idle {e : Ev} (h : ∀ i, e.st.boardAt e.st.lug.trimPos = some i → e.st.lug.boards[i].state = .committed →
    e.st.lug.boards[i].final = none) : e.armBoard = e := by
  unfold Ev.armBoard
  split
  · rfl
  · rename_i i hi
    dsimp only
    split
    · rename_i f hc hf
      rw [h i hi hc] at hf
      cases hf
    · rfl

/-- The record that arrives at trim_pos is COMMITTED after the late fire, with its final decision. -/
def ComesToTrim (s : State) (i : Fin 32) : Prop :=
  s.brings s.lug.trimPos i = true ∧ (lateBoard s i).state = .committed ∧ s.lug.boards[i].final ≠ none

section Arm
variable {s : State} (hg : s.lug.geometry = true)

include hg

theorem brings_trim_not_drop {i : Fin 32} (h : s.brings s.lug.trimPos i = true) : s.brings s.lug.dropPos i ≠ true := by
  obtain ⟨_, _, _, _, hd⟩ := geometry_iff.1 hg
  exact fun hc => brings_ne (by omega) hd (by omega) h hc rfl

theorem beforeArm_atTrim : (beforeArm s).st.boardAt (beforeArm s).st.lug.trimPos =
    s.lookup (s.lug.arriving s.lug.trimPos) := by
  obtain ⟨_, _, _, hd, _⟩ := geometry_iff.1 hg
  rw [boardAt_of_beforeArm hg (p := (beforeArm s).st.lug.trimPos) (by rw [beforeArm_table]; exact hd) (Seats.refl _),
    beforeArm_table]

theorem beforeCommit_takes {i : Fin 32} {f : FinalDecision} (h : ComesToTrim s i) (hf : s.lug.boards[i].final = some f) :
    beforeCommit s =
      if s.trim.fireDelay = 0 then (beforeArm s).fire { lug := s.lug.boards[i].lug, saws := f.decision.saws }
      else (beforeArm s).modify fun u =>
        { u with trim := { u.trim with armed := some { lug := s.lug.boards[i].lug, saws := f.decision.saws } } } := by
  obtain ⟨hb, hc, _⟩ := h
  have hread : (beforeArm s).st.lug.boards[i] = s.lug.boards[i] := by
    rw [beforeArm_read, if_neg (brings_trim_not_drop hg hb)]
    exact lateBoard_committed hc
  have hdelay : (beforeArm s).st.trim.fireDelay = s.trim.fireDelay := by
    rw [beforeArm_trim]
    unfold lateTrim
    split <;> rfl
  have hat := (beforeArm_atTrim hg).trans (brings_lookup.1 hb)
  rw [lateBoard_committed hc] at hc
  rw [beforeCommit_eq, armBoard_takes hat (by rw [hread]; exact hc) (by rw [hread]; exact hf), hread, hdelay]

theorem beforeCommit_idle (h : ∀ i, ¬ ComesToTrim s i) : beforeCommit s = beforeArm s := by
  rw [beforeCommit_eq]
  refine armBoard_idle fun i hi hc => ?_
  rw [beforeArm_atTrim hg] at hi
  have hb := brings_lookup.2 hi
  rw [beforeArm_read, if_neg (brings_trim_not_drop hg hb)] at hc ⊢
  rw [lateBoard_committed hc]
  by_contra hf
  exact h i ⟨hb, hc, hf⟩

/-- The record in slot `j` when the commit is taken: that of the drop is free, and only the one at trim_pos may have been
trimmed by an undelayed fire. -/
theorem beforeCommit_read (j : Fin 32) : (∃ f, ComesToTrim s j ∧ s.lug.boards[j].final = some f ∧ s.trim.fireDelay = 0 ∧
      (beforeCommit s).st.lug.boards[j] = trimmedBoard s.lug.boards[j]) ∨
    (¬ (ComesToTrim s j ∧ s.trim.fireDelay = 0) ∧ (beforeCommit s).st.lug.boards[j] = (beforeArm s).st.lug.boards[j]) := by
  by_cases hx : ∃ i, ComesToTrim s i
  · obtain ⟨i, hi⟩ := hx
    obtain ⟨f, hf⟩ := Option.ne_none_iff_exists'.1 hi.2.2
    have hread : (beforeArm s).st.lug.boards[i] = s.lug.boards[i] := by
      rw [beforeArm_read, if_neg (brings_trim_not_drop hg hi.1)]
      exact lateBoard_committed hi.2.1
    rw [beforeCommit_takes hg hi hf]
    by_cases hd : s.trim.fireDelay = 0
    · rw [if_pos hd, fire_boards]
      have hslot := brings_lookup.1 hi.1
      have hlook : (beforeArm s).st.lookup s.lug.boards[i].lug = some i := by
        rw [(brings_iff.1 hi.1).2.2]
        have hs := lookup_of_seated (n := s.lug.arriving s.lug.trimPos) (s := s) (t := (beforeArm s).st)
          (beforeArm_seated fun hx => brings_trim_not_drop hg hi.1 ((brings_iff.1 hi.1).1 ▸ hx))
        rw [hs, hslot]
      have hci : s.lug.boards[i].state = .committed := by
        have := hi.2.1
        rwa [lateBoard_committed hi.2.1] at this
      by_cases hj : j = i
      · subst hj
        exact Or.inl ⟨f, hi, hf, hd, by rw [if_pos ⟨hlook, by rw [hread]; exact hci⟩, hread]⟩
      · refine Or.inr ⟨fun hc => hj (brings_unique hc.1.1 hi.1), ?_⟩
        rw [hlook, if_neg fun hc : some i = some j ∧ _ => hj (Option.some.inj hc.1).symm]
    · rw [if_neg hd]
      exact Or.inr ⟨fun hc => hd hc.2, rfl⟩
  · have hn : ∀ i, ¬ ComesToTrim s i := fun i hi => hx ⟨i, hi⟩
    rw [beforeCommit_idle hg hn]
    exact Or.inr ⟨fun hc => hn j hc.1, rfl⟩

/-- A record that is neither COMMITTED nor at drop_pos comes unchanged to the commit. -/
theorem beforeCommit_open {j : Fin 32} (hd : s.brings s.lug.dropPos j ≠ true) (hc : s.lug.boards[j].state ≠ .committed) :
    (beforeCommit s).st.lug.boards[j] = s.lug.boards[j] := by
  have hl := lateBoard_of_not_committed hc
  rcases beforeCommit_read hg j with ⟨f, ht, _⟩ | ⟨_, h⟩
  · have := ht.2.1
    rw [hl] at this
    exact absurd this hc
  · rw [h, beforeArm_read, if_neg hd, hl]

/-- A record that comes to neither of the last two positions and is not of the armed lug comes unchanged to the commit. -/
theorem beforeCommit_elsewhere {j : Fin 32} (hd : s.brings s.lug.dropPos j ≠ true) (ht : s.brings s.lug.trimPos j ≠ true)
    (ha : ∀ a, s.trim.armed = some a → s.lookup a.lug ≠ some j) :
    (beforeCommit s).st.lug.boards[j] = s.lug.boards[j] := by
  rcases beforeCommit_read hg j with ⟨f, hc, _⟩ | ⟨_, h⟩
  · exact absurd hc.1 ht
  · rw [h, beforeArm_read, if_neg hd, lateBoard_of_not_armed ha]

end Arm

/-! ### What the first phases keep -/

theorem unbind_shadowOf (s : State) (k : Option Bank) (c : Option Bank) :
    State.shadowOf { s with plan := s.plan.unbind k } c = s.shadowOf c := by
  cases c with
  | none => rfl
  | some c => exact PlanStore.unbind_shadow s.plan k c

theorem shadowOf_congr {s t : State} (h : t.plan = s.plan) (k : Option Bank) : t.shadowOf k = s.shadowOf k := by
  unfold State.shadowOf
  rw [h]

/-- The drop frees a record's bank; no bank's shadow changes. -/
theorem beforeCommit_shadow (s : State) (k : Option Bank) : (beforeCommit s).st.shadowOf k = s.shadowOf k := by
  have hlate : (advanced s).lateFire.st.plan = s.plan := (keeps_lateFire _).plan.trans (keeps_advanced s).plan
  have harm : (beforeArm s).st.shadowOf k = s.shadowOf k := by
    unfold beforeArm
    cases hb : (advanced s).lateFire.st.boardAt (advanced s).lateFire.st.lug.dropPos with
    | none => rw [dropBoard_idle hb]; exact shadowOf_congr hlate k
    | some i =>
      obtain ⟨e1, hk, he⟩ := dropBoard_frees hb
      rw [he, freeBoard_st]
      have h1 := unbind_shadowOf (e1.st.setBoard i (freed e1.st.lug.boards[i])) e1.st.lug.boards[i].bank k
      exact h1.trans (shadowOf_congr (hk.plan.trans hlate) k)
  rw [beforeCommit_eq]
  exact (shadowOf_congr (keeps_armBoard _).plan k).trans harm

end Sys2Proof.Proofs
end

section
/-! The commit and the close timeout of a LUG event (R9 to R12, R14, R15, R71, R137), each said once for any point of the
event, and then both together in either order (log 6). -/

namespace Sys2Proof.Proofs

open Sys2Proof Sys2Proof.Machine Sys2Proof.Laws

/-! ### A record that only the solver may touch (R68) -/

/-- The record in slot `j` is as it was, but that a QUEUED one may have its solve started. -/
def StartsOnly (s t : State) (j : Fin 32) : Prop :=
  t.lug.boards[j] = s.lug.boards[j] ∨ (s.lug.boards[j].state = .queued ∧ slotOf s.lug.boards[j].lug = j ∧
    t.solv.solving = some s.lug.boards[j].lug ∧ t.lug.boards[j] = startedBoard s.lug.boards[j])

theorem startsOnly_of_starts {s t : State} {j : Fin 32} (h : t.lug.boards[j] =
    if s.lug.boards[j].state = .queued ∧ s.SolveStarts t j then startedBoard s.lug.boards[j] else s.lug.boards[j]) :
    StartsOnly s t j := by
  split at h
  · rename_i hc
    obtain ⟨hq, _, hs⟩ := hc
    obtain ⟨n, hn, hl⟩ := Option.bind_eq_some_iff.1 hs
    obtain ⟨h1, _, h2⟩ := lookup_eq_some.1 hl
    exact Or.inr ⟨hq, by rw [h2]; exact h1, by rw [h2]; exact hn, h⟩
  · exact Or.inl h

theorem StartsOnly.of_ne {s t : State} {j : Fin 32} (h : StartsOnly s t j) (hq : s.lug.boards[j].state ≠ .queued) :
    t.lug.boards[j] = s.lug.boards[j] := h.resolve_right fun hc => hq hc.1

/-- Two stretches of an event, of which the second keeps the solve that the first may have started. -/
theorem StartsOnly.trans {s t u : State} {j : Fin 32} (h : StartsOnly s t j) (h' : StartsOnly t u j)
    (hk : ∀ n, t.solv.solving = some n → slotOf n = j → u.solv.solving = some n) : StartsOnly s u j := by
  rcases h with h | ⟨hq, hl, hs, hb⟩
  · rcases h' with h' | ⟨hq, hl, hs, hb⟩
    · exact Or.inl (h'.trans h)
    · rw [h] at hq hl hs hb
      exact Or.inr ⟨hq, hl, hs, hb⟩
  · have := h'.of_ne (by rw [hb]; nofun)
    exact Or.inr ⟨hq, hl, hk _ hs hl, this.trans hb⟩

/-! ### The solver left by the board that commits (R71) -/

section Leave
variable (e : Ev) (n : Word16)

/-- The solver without lug `n`, before an idle solver starts its next board. -/
def without : State :=
  { e.st with solv :=
      { queue := e.st.solv.queue.filter fun m => decide (m ≠ n)
        solving := if e.st.solv.solving = some n then none else e.st.solv.solving } }

theorem leaveSolver_st : (e.leaveSolver n).st = (without e n).startSolve := rfl

theorem leaveSolver_startsOnly (j : Fin 32) : StartsOnly e.st (e.leaveSolver n).st j :=
  startsOnly_of_starts (s := without e n) (startSolve_boards (without e n) j)

/-- Lug `n` is neither in solve nor in the queue. -/
def NotInSolver (u : Solver) (n : Word16) : Prop := n ∉ u.solving.toList ++ u.queue

theorem leaveSolver_notIn : NotInSolver (e.leaveSolver n).st.solv n := by
  unfold NotInSolver
  rw [leaveSolver_st, (startSolve_solv _).1]
  simp only [without, List.mem_append, Option.mem_toList, List.mem_filter, not_or]
  refine ⟨fun hc => ?_, fun hc => by simpa using hc.2⟩
  split at hc
  · cases hc
  · rename_i hne; exact hne hc

variable {e n}

/-- A solve of another lug goes on. -/
theorem leaveSolver_busy {m : Word16} (h : e.st.solv.solving = some m) (hm : m ≠ n) :
    (e.leaveSolver n).st.solv.solving = some m := by
  have hw : (without e n).solv.solving = some m := by
    simp only [without, h]
    rw [if_neg fun hc => hm (Option.some.inj hc)]
  rw [leaveSolver_st, startSolve_busy hw]
  exact hw

theorem notIn_iff {u : Solver} : NotInSolver u n ↔ u.solving ≠ some n ∧ n ∉ u.queue := by
  unfold NotInSolver
  rw [List.mem_append, Option.mem_toList, not_or]

theorem notIn_joined {u v : Solver} {l : List Word16} (h : u.JoinedBy v l) (hn : NotInSolver u n) (hl : n ∉ l) :
    NotInSolver v n := by
  by_cases hnil : l = []
  · rw [h.1 hnil]; exact hn
  · unfold NotInSolver
    rw [(h.2 hnil).2, List.mem_append, not_or]
    exact ⟨hn, hl⟩

end Leave

/-! ### The record handed to the decision writer (R137) -/

/-- The decision writer `d` has been handed `r`: it waits or is being written, unless the list was full. -/
def Handed (d d' : DecisionWriter) (n : NoticeUnit) (r : DecRecord) : Prop :=
  (d.list.length < 8 → r ∈ d'.list ∨ d'.writing.map (·.record) = some r) ∧
  (8 ≤ d.list.length → d' = d ∧ n.has .decisionOverrun = true)

theorem placeRecord_keeps_record {e : Ev} {r : DecRecord} (h : r ∈ e.st.dec.list) :
    r ∈ e.placeRecord.st.dec.list ∨ e.placeRecord.st.dec.writing.map (·.record) = some r := by
  unfold Ev.placeRecord
  split
  · exact Or.inl h
  · rename_i q rest hl
    split
    · rw [hl] at h
      rcases List.mem_cons.1 h with rfl | h
      · exact Or.inr rfl
      · exact Or.inl h
    · exact Or.inl h

theorem handRecord_handed (e : Ev) (r : DecRecord) : Handed e.st.dec (e.handRecord r).st.dec (e.handRecord r).st.note r := by
  unfold Ev.handRecord
  split
  · rename_i hl
    refine ⟨fun _ => placeRecord_keeps_record ?_, fun hc => absurd hl (by omega)⟩
    show r ∈ e.st.dec.list ++ [r]
    simp
  · rename_i hl
    exact ⟨fun hc => absurd hc hl, fun _ => ⟨rfl, raise_has _ _⟩⟩

theorem handDecision_handed {e : Ev} {i : Fin 32} {f : FinalDecision} {k : Bank} (hf : e.st.lug.boards[i].final = some f)
    (hk : e.st.lug.boards[i].bank = some k) : Handed e.st.dec (e.handDecision i).st.dec (e.handDecision i).st.note
      (recordOf e.st e.st.lug.boards[i] f k) := by
  unfold Ev.handDecision
  dsimp only
  rw [hf, hk]
  exact handRecord_handed _ _

/-! ### The commit (R14, R15) -/

section Commit
variable {e : Ev} {i : Fin 32}

/-- The board at commit_pos is one that a commit takes. -/
abbrev Commits (b : Board) : Prop := b.state = .solved ∨ b.state = .queued ∨ b.state = .solving

theorem commitBoard_idle (h : ∀ i, e.st.boardAt e.st.lug.commitPos = some i → ¬ Commits e.st.lug.boards[i]) :
    e.commitBoard = e := by
  unfold Ev.commitBoard
  split
  · rfl
  · rename_i i hi
    have hn := h i hi
    dsimp only
    split
    · rename_i hs; exact absurd (Or.inl hs) hn
    · rename_i hs; exact absurd (Or.inr (Or.inl hs)) hn
    · rename_i hs; exact absurd (Or.inr (Or.inr hs)) hn
    all_goals rfl

/-- The SOLVED board with its decision frozen. -/
def decided (e : Ev) (i : Fin 32) : Ev :=
  e.changeBoard i fun b => b.commitSolved (shadowAt e.st i)

/-- The QUEUED or SOLVING board committed unsolved; it has left the solver. -/
def reman (e : Ev) (i : Fin 32) : Ev :=
  ((e.changeBoard i fun b => b.commitUnsolved (shadowAt e.st i)).leaveSolver e.st.lug.boards[i].lug).raise .unsolvedAtCommit

theorem commitBoard_solved (hat : e.st.boardAt e.st.lug.commitPos = some i) (hs : e.st.lug.boards[i].state = .solved) :
    e.commitBoard = (decided e i).handDecision i := by
  unfold Ev.commitBoard
  rw [hat]
  dsimp only
  rw [hs]
  rfl

theorem commitBoard_unsolved (hat : e.st.boardAt e.st.lug.commitPos = some i)
    (hs : e.st.lug.boards[i].state = .queued ∨ e.st.lug.boards[i].state = .solving) :
    e.commitBoard = (reman e i).handDecision i := by
  unfold Ev.commitBoard
  rw [hat]
  dsimp only
  rcases hs with hs | hs <;> rw [hs] <;> rfl

theorem decided_read (e : Ev) (i j : Fin 32) : (decided e i).st.lug.boards[j] =
    if j = i then e.st.lug.boards[i].commitSolved (shadowAt e.st i) else e.st.lug.boards[j] := changeBoard_read e i j _

theorem reman_startsOnly (e : Ev) {i j : Fin 32} (hj : j ≠ i) : StartsOnly e.st (reman e i).st j := by
  have h := leaveSolver_startsOnly (e.changeBoard i fun b => b.commitUnsolved (shadowAt e.st i)) e.st.lug.boards[i].lug j
  have hr : (e.changeBoard i fun b => b.commitUnsolved (shadowAt e.st i)).st.lug.boards[j] = e.st.lug.boards[j] := by
    rw [changeBoard_read, if_neg hj]
  unfold StartsOnly at h ⊢
  rw [hr] at h
  exact h

theorem reman_self (e : Ev) (i : Fin 32) :
    (reman e i).st.lug.boards[i] = e.st.lug.boards[i].commitUnsolved (shadowAt e.st i) := by
  have h := leaveSolver_startsOnly (e.changeBoard i fun b => b.commitUnsolved (shadowAt e.st i)) e.st.lug.boards[i].lug i
  have hr : (e.changeBoard i fun b => b.commitUnsolved (shadowAt e.st i)).st.lug.boards[i] =
      e.st.lug.boards[i].commitUnsolved (shadowAt e.st i) := by rw [changeBoard_read, if_pos rfl]
  have h1 := h.of_ne (by rw [hr]; nofun)
  exact h1.trans hr

theorem reman_notIn (e : Ev) (i : Fin 32) : NotInSolver (reman e i).st.solv e.st.lug.boards[i].lug := leaveSolver_notIn _ _

theorem reman_busy {m : Word16} (h : e.st.solv.solving = some m) (hm : m ≠ e.st.lug.boards[i].lug) :
    (reman e i).st.solv.solving = some m :=
  leaveSolver_busy (e := e.changeBoard i fun b => b.commitUnsolved (shadowAt e.st i)) h hm

/-- Only the solver reaches a record that is not at commit_pos. -/
theorem commitBoard_others {j : Fin 32} (hj : e.st.boardAt e.st.lug.commitPos ≠ some j) :
    StartsOnly e.st e.commitBoard.st j := by
  by_cases hx : ∃ i, e.st.boardAt e.st.lug.commitPos = some i ∧ Commits e.st.lug.boards[i]
  · obtain ⟨i, hat, hc⟩ := hx
    have hji : j ≠ i := fun hc => hj (hc ▸ hat)
    have hand : ∀ u : Ev, (u.handDecision i).st.lug = u.st.lug ∧ (u.handDecision i).st.solv = u.st.solv := fun u =>
      ⟨(keeps_handDecision u i).lug, (keeps_handDecision u i).solv⟩
    rcases hc with hs | hs
    · rw [commitBoard_solved hat hs]
      unfold StartsOnly
      rw [(hand _).1, decided_read, if_neg hji]
      exact Or.inl rfl
    · rw [commitBoard_unsolved hat hs]
      have h := reman_startsOnly e hji
      unfold StartsOnly at h ⊢
      rw [(hand _).1, (hand _).2]
      exact h
  · rw [commitBoard_idle fun i hi hc => hx ⟨i, hi, hc⟩]
    exact Or.inl rfl

/-- A solve of another lug than that at commit_pos goes on. -/
theorem commitBoard_busy {m : Word16} (h : e.st.solv.solving = some m)
    (hm : ∀ i, e.st.boardAt e.st.lug.commitPos = some i → m ≠ e.st.lug.boards[i].lug) :
    e.commitBoard.st.solv.solving = some m := by
  by_cases hx : ∃ i, e.st.boardAt e.st.lug.commitPos = some i ∧ Commits e.st.lug.boards[i]
  · obtain ⟨i, hat, hs | hs⟩ := hx
    · rw [commitBoard_solved hat hs, (keeps_handDecision _ i).solv]
      exact h
    · rw [commitBoard_unsolved hat hs, (keeps_handDecision _ i).solv]
      exact reman_busy h (hm i hat)
  · rw [commitBoard_idle fun i hi hc => hx ⟨i, hi, hc⟩]
    exact h

/-- Without a QUEUED or SOLVING board at commit_pos the commit leaves the solver alone. -/
theorem commitBoard_solv (h : ∀ i, e.st.boardAt e.st.lug.commitPos = some i →
    e.st.lug.boards[i].state ≠ .queued ∧ e.st.lug.boards[i].state ≠ .solving) : e.commitBoard.st.solv = e.st.solv := by
  by_cases hx : ∃ i, e.st.boardAt e.st.lug.commitPos = some i ∧ Commits e.st.lug.boards[i]
  · obtain ⟨i, hat, hs | hs | hs⟩ := hx
    · rw [commitBoard_solved hat hs, (keeps_handDecision _ i).solv]
      rfl
    · exact absurd hs (h i hat).1
    · exact absurd hs (h i hat).2
  · rw [commitBoard_idle fun i hi hc => hx ⟨i, hi, hc⟩]

/-- No commit makes a board SCANNING, or changes one that is. -/
theorem commitBoard_scanning (e : Ev) (j : Fin 32) : (e.commitBoard.st.lug.boards[j].state = .scanning ↔
      e.st.lug.boards[j].state = .scanning) ∧
    (e.st.lug.boards[j].state = .scanning → e.commitBoard.st.lug.boards[j] = e.st.lug.boards[j]) := by
  by_cases hj : e.st.boardAt e.st.lug.commitPos = some j
  · by_cases hc : Commits e.st.lug.boards[j]
    · have hne : e.st.lug.boards[j].state ≠ .scanning := by rcases hc with hs | hs | hs <;> rw [hs] <;> nofun
      have hcom : e.commitBoard.st.lug.boards[j].state = .committed := by
        rcases hc with hs | hs
        · rw [commitBoard_solved hj hs, (keeps_handDecision _ j).lug, decided_read, if_pos rfl]
          rfl
        · rw [commitBoard_unsolved hj hs, (keeps_handDecision _ j).lug, reman_self]
          rfl
      rw [hcom]
      exact ⟨⟨nofun, fun hx => absurd hx hne⟩, fun hx => absurd hx hne⟩
    · rw [commitBoard_idle fun i hi => by rw [hj] at hi; cases hi; exact hc]
      exact ⟨Iff.rfl, fun _ => rfl⟩
  · rcases commitBoard_others hj with h | ⟨hq, _, _, h⟩
    · rw [h]; exact ⟨Iff.rfl, fun _ => rfl⟩
    · rw [h, hq]; exact ⟨⟨nofun, nofun⟩, nofun⟩

theorem commitBoard_expects (e : Ev) (k : Fin 6) : e.commitBoard.st.Expects k ↔ e.st.Expects k := by
  constructor
  · rintro ⟨j, h1, h2⟩
    have hs := (commitBoard_scanning e j).1.1 h1
    rw [(commitBoard_scanning e j).2 hs] at h2
    exact ⟨j, hs, h2⟩
  · rintro ⟨j, h1, h2⟩
    refine ⟨j, (commitBoard_scanning e j).1.2 h1, ?_⟩
    rw [(commitBoard_scanning e j).2 h1]
    exact h2

end Commit

/-! ### The close timeout (R9) -/

section Timeout
variable {e : Ev} {i : Fin 32}

/-- The board with SCAN_TIMEOUT set. -/
def timedOutBoard (b : Board) : Board := { b with flags := { b.flags with scanTimeout := true } }

/-- The board flagged and the notice raised, before its close. -/
def flagged (e : Ev) (i : Fin 32) : Ev := (e.changeBoard i timedOutBoard).raise .scanTimeout

theorem flagged_read (e : Ev) (i j : Fin 32) : (flagged e i).st.lug.boards[j] =
    if j = i then timedOutBoard e.st.lug.boards[i] else e.st.lug.boards[j] := changeBoard_read e i j _

theorem closeTimeout_idle (h : ∀ i, e.st.boardAt e.st.lug.closeLugs = some i → e.st.lug.boards[i].state ≠ .scanning) :
    e.closeTimeout = e := by
  unfold Ev.closeTimeout
  split
  · rfl
  · rename_i i hi
    exact if_neg (h i hi)

/-- The heads awaited are those timed out. -/
theorem timedOut_awaited (b : Board) : TimedOut (timedOutBoard b) (b.expected &&& ~~~ (b.ended ||| b.lost)) := by
  intro k he hl
  have hk : (k : Nat) < 6 := k.2
  have he' : b.expected.getLsbD k = true := he
  have hl' : b.lost.getLsbD k = false := hl
  show (b.expected &&& ~~~ (b.ended ||| b.lost)).getLsbD k = !b.ended.getLsbD k
  simp only [BitVec.getLsbD_and, BitVec.getLsbD_not, BitVec.getLsbD_or, hk, he', hl', decide_true, Bool.true_and,
    Bool.or_false]

theorem closeTimeout_closes (hat : e.st.boardAt e.st.lug.closeLugs = some i) (hs : e.st.lug.boards[i].state = .scanning) :
    Closes (flagged e i) e.closeTimeout i := by
  have h : e.closeTimeout = (flagged e i).closeBoard i
      (e.st.lug.boards[i].expected &&& ~~~ (e.st.lug.boards[i].ended ||| e.st.lug.boards[i].lost)) := by
    unfold Ev.closeTimeout
    rw [hat]
    exact if_pos hs
  have hread := flagged_read e i i
  rw [if_pos rfl] at hread
  rw [h]
  refine closeBoard_closes ?_ ?_
  · rw [hread]; exact hs
  · rw [hread]; exact timedOut_awaited _

theorem closeTimeout_others {j : Fin 32} (hj : e.st.boardAt e.st.lug.closeLugs ≠ some j) :
    StartsOnly e.st e.closeTimeout.st j := by
  by_cases hx : ∃ i, e.st.boardAt e.st.lug.closeLugs = some i ∧ e.st.lug.boards[i].state = .scanning
  · obtain ⟨i, hat, hs⟩ := hx
    have hji : j ≠ i := fun hc => hj (hc ▸ hat)
    have h := startsOnly_of_starts ((closeTimeout_closes hat hs).board.others j hji)
    unfold StartsOnly at h ⊢
    rw [flagged_read, if_neg hji] at h
    exact h
  · rw [closeTimeout_idle fun i hi hs => hx ⟨i, hi, hs⟩]
    exact Or.inl rfl

/-- Only the board that closes may join the solver (R67). -/
theorem closeTimeout_joins (e : Ev) : ∃ l, e.st.solv.JoinedBy e.closeTimeout.st.solv l ∧
    ∀ n ∈ l, ∃ i, e.st.boardAt e.st.lug.closeLugs = some i ∧ e.st.lug.boards[i].lug = n := by
  by_cases hx : ∃ i, e.st.boardAt e.st.lug.closeLugs = some i ∧ e.st.lug.boards[i].state = .scanning
  · obtain ⟨i, hat, hs⟩ := hx
    refine ⟨_, (closeTimeout_closes hat hs).board.joined, fun n hn => ⟨i, hat, ?_⟩⟩
    have hread := flagged_read e i i
    rw [if_pos rfl] at hread
    split at hn
    · exact (congrArg Board.lug hread).symm.trans (List.mem_singleton.1 hn).symm
    · exact absurd hn List.not_mem_nil
  · rw [closeTimeout_idle fun i hi hs => hx ⟨i, hi, hs⟩]
    exact ⟨[], ⟨fun _ => rfl, fun hc => absurd rfl hc⟩, fun n hn => absurd hn List.not_mem_nil⟩

theorem closeTimeout_busy {m : Word16} (h : e.st.solv.solving = some m) : e.closeTimeout.st.solv.solving = some m := by
  obtain ⟨l, hl, _⟩ := closeTimeout_joins e
  exact JoinedBy.busy hl h

end Timeout

end Sys2Proof.Proofs
end

section
/-! The commit and the close timeout of one LUG event taken together, in either order (R6; log 6): what they leave of the
board that commits, of the one that times out, of every other record, and of the heads. -/

namespace Sys2Proof.Proofs

open Sys2Proof Sys2Proof.Machine Sys2Proof.Laws

/-! ### The heads at a close (R35, R36) -/

/-- Of each head only the state and the bad slices of last board may have changed, the state only by the parking of a LEAVING
head that no SCANNING board expects. -/
structure HeadsPark (e e' : Ev) : Prop where
  head : e'.st.head = { e.st.head with ctx := e'.st.head.ctx }
  frame : ∀ k : Fin 6, e'.st.head.ctx[k] = { e.st.head.ctx[k] with
    state := e'.st.head.ctx[k].state, badLast := e'.st.head.ctx[k].badLast }
  state : ∀ k : Fin 6, e'.st.head.ctx[k].state = e.st.head.ctx[k].state ∨
    (e.st.head.ctx[k].state = .leaving ∧ e'.st.head.ctx[k].state = .parked ∧ ¬ e'.st.Expects k)
  asks : ∀ k : Fin 6, e'.st.head.ctx[k] ≠ e.st.head.ctx[k] → .headStatus k ∈ e'.asked

theorem HeadsPark.of_same {e e' : Ev} (h : e'.st.head = e.st.head) : HeadsPark e e' :=
  ⟨by rw [h], fun k => by rw [h], fun k => Or.inl (by rw [h]), fun k hk => absurd (by rw [h]) hk⟩

/-- The heads parked, and the heads and the SCANNING boards then kept. -/
theorem HeadsPark.keep {e u v : Ev} (h : HeadsPark e u) (hh : v.st.head = u.st.head)
    (hx : ∀ k : Fin 6, v.st.Expects k → u.st.Expects k) (ha : ∀ k ∈ u.asked, k ∈ v.asked) : HeadsPark e v := by
  obtain ⟨h1, h2, h3, h4⟩ := h
  refine ⟨?_, ?_, fun k => ?_, fun k => ?_⟩
  · rw [hh]; exact h1
  · simp only [hh]; exact h2
  · simp only [hh]
    exact (h3 k).imp id fun ⟨a, b, c⟩ => ⟨a, b, fun hc => c (hx k hc)⟩
  · simp only [hh]; exact fun hk => ha _ (h4 k hk)

/-- The heads kept, and then parked. -/
theorem HeadsPark.after {e u v : Ev} (h : HeadsPark u v) (hh : u.st.head = e.st.head) : HeadsPark e v := by
  obtain ⟨h1, h2, h3, h4⟩ := h
  exact ⟨by rw [← hh]; exact h1, by simp only [← hh]; exact h2, by simp only [← hh]; exact h3,
    by simp only [← hh]; exact h4⟩

theorem parkedIn_cases (c : HeadState) (t : State) (k : Fin 6) :
    c.parkedIn t k = c ∨ (c = .leaving ∧ c.parkedIn t k = .parked ∧ ¬ t.Expects k) := by
  by_cases h : c = .leaving ∧ ¬ t.Expects k
  · exact Or.inr ⟨h.1, if_pos h, h.2⟩
  · exact Or.inl (if_neg h)

theorem headsPark_closes {e e' : Ev} {i : Fin 32} (h : Closes e e' i) : HeadsPark e e' := by
  refine ⟨h.head, fun k => ?_, fun k => ?_, h.asks⟩
  · rw [h.ctx k]
  · have hk := congrArg HeadCtx.state (h.ctx k)
    rw [hk]
    exact parkedIn_cases _ _ _

theorem headsPark_closeTimeout (e : Ev) : HeadsPark e e.closeTimeout := by
  by_cases hx : ∃ i, e.st.boardAt e.st.lug.closeLugs = some i ∧ e.st.lug.boards[i].state = .scanning
  · obtain ⟨i, hat, hs⟩ := hx
    exact (headsPark_closes (closeTimeout_closes hat hs)).after rfl
  · rw [closeTimeout_idle fun i hi hs => hx ⟨i, hi, hs⟩]
    exact .of_same rfl

/-- R36: a head that the closing board does not expect keeps its bad slices of last board. -/
theorem closeTimeout_badLast {e : Ev} {k : Fin 6} (h : ∀ i, e.st.boardAt e.st.lug.closeLugs = some i →
    ¬ (e.st.lug.boards[i].state = .scanning ∧ e.st.lug.boards[i].expected.getLsbD k = true)) :
    e.closeTimeout.st.head.ctx[k].badLast = e.st.head.ctx[k].badLast := by
  by_cases hx : ∃ i, e.st.boardAt e.st.lug.closeLugs = some i ∧ e.st.lug.boards[i].state = .scanning
  · obtain ⟨i, hat, hs⟩ := hx
    have hk := congrArg HeadCtx.badLast ((closeTimeout_closes hat hs).ctx k)
    have hread := flagged_read e i i
    rw [if_pos rfl] at hread
    rw [hread] at hk
    exact hk.trans (if_neg fun hc => h i hat ⟨hs, hc⟩)
  · rw [closeTimeout_idle fun i hi hs => hx ⟨i, hi, hs⟩]

/-! ### Both, in either order -/

/-- The commit and the close timeout taken one after the other; the timeout first only where both reach the solver. -/
def InOrder (e e' : Ev) : Prop :=
  e' = e.commitBoard.closeTimeout ∨ (e.st.solverContended = true ∧ e' = e.closeTimeout.commitBoard)

section Both
variable {e e' : Ev} (h : InOrder e e')

include h

theorem inOrder_seats : Seats e.st e'.st := by
  rcases h with rfl | ⟨_, rfl⟩
  · exact (seats_commitBoard _).trans (seats_closeTimeout _)
  · exact (seats_closeTimeout _).trans (seats_commitBoard _)

theorem inOrder_grows : Grows e e' := by
  rcases h with rfl | ⟨_, rfl⟩
  · exact (grows_commitBoard _).trans (grows_closeTimeout _)
  · exact (grows_closeTimeout _).trans (grows_commitBoard _)

/-- Only the solver reaches a record at neither position. -/
theorem inOrder_others {j : Fin 32} (hcom : e.st.boardAt e.st.lug.commitPos ≠ some j)
    (hclo : e.st.boardAt e.st.lug.closeLugs ≠ some j) : StartsOnly e.st e'.st j := by
  rcases h with rfl | ⟨_, rfl⟩
  · have hs := seats_commitBoard e
    have h2 := closeTimeout_others (e := e.commitBoard) (j := j) (by rw [boardAt_seats hs, hs.closeLugs]; exact hclo)
    exact (commitBoard_others hcom).trans h2 fun n hn _ => closeTimeout_busy hn
  · have hs := seats_closeTimeout e
    have hat : e.closeTimeout.st.boardAt e.closeTimeout.st.lug.commitPos = e.st.boardAt e.st.lug.commitPos := by
      rw [boardAt_seats hs, hs.commitPos]
    have h2 := commitBoard_others (e := e.closeTimeout) (j := j) (by rw [hat]; exact hcom)
    refine (closeTimeout_others hclo).trans h2 fun n hn hj => commitBoard_busy hn fun i hi hc => ?_
    obtain ⟨hslot, _, hlug⟩ := boardAt_eq_some.1 hi
    rw [hlug] at hc
    rw [hc, hslot] at hj
    exact hcom (hat ▸ hj ▸ hi)

theorem inOrder_heads : HeadsPark e e' := by
  rcases h with rfl | ⟨_, rfl⟩
  · exact (headsPark_closeTimeout _).after (keeps_commitBoard e).head
  · exact (headsPark_closeTimeout e).keep (keeps_commitBoard _).head (fun k => (commitBoard_expects _ k).1)
      (grows_commitBoard _).asked

theorem inOrder_badLast {k : Fin 6} (hk : ∀ i, e.st.boardAt e.st.lug.closeLugs = some i →
    ¬ (e.st.lug.boards[i].state = .scanning ∧ e.st.lug.boards[i].expected.getLsbD k = true)) :
    e'.st.head.ctx[k].badLast = e.st.head.ctx[k].badLast := by
  rcases h with rfl | ⟨_, rfl⟩
  · have hs := seats_commitBoard e
    have hhead := (keeps_commitBoard e).head
    rw [closeTimeout_badLast fun i hi hc => ?_]
    · simp only [hhead]
    · rw [boardAt_seats hs, hs.closeLugs] at hi
      have hscan := (commitBoard_scanning e i).1.1 hc.1
      rw [(commitBoard_scanning e i).2 hscan] at hc
      exact hk i hi hc
  · have hhead := (keeps_commitBoard e.closeTimeout).head
    simp only [hhead]
    exact closeTimeout_badLast hk

/-- The SOLVED board at commit_pos. -/
theorem inOrder_solved {i : Fin 32} (hat : e.st.boardAt e.st.lug.commitPos = some i)
    (hne : e.st.boardAt e.st.lug.closeLugs ≠ some i) (hs : e.st.lug.boards[i].state = .solved) :
    e'.st.lug.boards[i] = e.st.lug.boards[i].commitSolved (shadowAt e.st i) ∧
      ∀ f k, (e.st.lug.boards[i].commitSolved (shadowAt e.st i)).final = some f → e.st.lug.boards[i].bank = some k →
        Handed e.st.dec e'.st.dec e'.st.note
          (recordOf e.st (e.st.lug.boards[i].commitSolved (shadowAt e.st i)) f k) := by
  rcases h with rfl | ⟨hcon, _⟩
  · have hseat := seats_commitBoard e
    have hcom : e.commitBoard.st.lug.boards[i] = e.st.lug.boards[i].commitSolved (shadowAt e.st i) := by
      rw [commitBoard_solved hat hs, (keeps_handDecision _ i).lug, decided_read, if_pos rfl]
    have hclo := closeTimeout_others (e := e.commitBoard) (j := i) (by rw [boardAt_seats hseat, hseat.closeLugs]; exact hne)
    refine ⟨(hclo.of_ne (by rw [hcom]; nofun)).trans hcom, fun f k hf hk => ?_⟩
    have hself : (decided e i).st.lug.boards[i] = e.st.lug.boards[i].commitSolved (shadowAt e.st i) := by
      rw [decided_read, if_pos rfl]
    have hand := handDecision_handed (e := decided e i) (i := i) (f := f) (k := k) (by rw [hself]; exact hf)
      (by rw [hself]; exact hk)
    rw [hself] at hand
    rw [(keeps_closeTimeout _).dec, commitBoard_solved hat hs]
    exact ⟨hand.1, fun hl => ⟨(hand.2 hl).1, (grows_closeTimeout _).has (hand.2 hl).2⟩⟩
  · rw [State.solverContended, State.stateAt, hat] at hcon
    simp only [hs] at hcon
    cases hcon

omit h in
/-- The close timeout may start the solve of the QUEUED board that then commits: the commit makes no difference of it. -/
theorem commitUnsolved_of_startsOnly {s t : State} {i : Fin 32} (hx : StartsOnly s t i) (p : Shadow) :
    t.lug.boards[i].commitUnsolved p = s.lug.boards[i].commitUnsolved p := by
  rcases hx with hx | ⟨_, _, _, hx⟩ <;> rw [hx]
  rfl

/-- What the commit of a QUEUED or SOLVING board leaves, whatever the close timeout does. -/
structure Reman (e e' : Ev) (i : Fin 32) : Prop where
  board : e'.st.lug.boards[i] = e.st.lug.boards[i].commitUnsolved (shadowAt e.st i)
  raised : e'.st.note.has .unsolvedAtCommit = true
  told : .notice ∈ e'.asked
  left : NotInSolver e'.st.solv e.st.lug.boards[i].lug
  handed : ∀ f k, (e.st.lug.boards[i].commitUnsolved (shadowAt e.st i)).final = some f → e.st.lug.boards[i].bank = some k →
    Handed e.st.dec e'.st.dec e'.st.note (recordOf e.st (e.st.lug.boards[i].commitUnsolved (shadowAt e.st i)) f k)

omit h in
theorem commitBoard_reman {i : Fin 32} (hat : e.st.boardAt e.st.lug.commitPos = some i)
    (hs : e.st.lug.boards[i].state = .queued ∨ e.st.lug.boards[i].state = .solving) : Reman e e.commitBoard i := by
  have hg := grows_handDecision (reman e i) i
  have hk := keeps_handDecision (reman e i) i
  have hself := reman_self e i
  rw [commitBoard_unsolved hat hs]
  refine ⟨by rw [hk.lug]; exact hself, hg.has (raise_has _ _), hg.asked _ (raise_asks _ _), by rw [hk.solv]; exact reman_notIn e i,
    fun f k hf hb => ?_⟩
  have hand := handDecision_handed (e := reman e i) (i := i) (f := f) (k := k) (by rw [hself]; exact hf)
    (by rw [hself]; exact hb)
  have hkr : Keeps [.lug, .solv, .note] e.st (reman e i).st :=
    (((keeps_changeBoard e i _).mono (by decide)).trans ((keeps_leaveSolver _ _).mono (by decide))).trans
      ((keeps_raise _ _).mono (by decide))
  have hrec : recordOf (reman e i).st (reman e i).st.lug.boards[i] f k =
      recordOf e.st (e.st.lug.boards[i].commitUnsolved (shadowAt e.st i)) f k := by
    rw [hself]
    unfold recordOf
    rw [hkr.plan]
  rw [hrec, hkr.dec] at hand
  exact hand

theorem inOrder_unsolved {i : Fin 32} (hat : e.st.boardAt e.st.lug.commitPos = some i)
    (hne : ∀ j, e.st.boardAt e.st.lug.closeLugs = some j → e.st.lug.boards[j].lug ≠ e.st.lug.boards[i].lug)
    (hs : e.st.lug.boards[i].state = .queued ∨ e.st.lug.boards[i].state = .solving) : Reman e e' i := by
  have hnot : e.st.boardAt e.st.lug.closeLugs ≠ some i := fun hc => hne i hc rfl
  rcases h with rfl | ⟨_, rfl⟩
  · have hseat := seats_commitBoard e
    have hg := grows_closeTimeout e.commitBoard
    obtain ⟨hb, hr, ht, hl, hh⟩ := commitBoard_reman hat hs
    have hclo := closeTimeout_others (e := e.commitBoard) (j := i) (by rw [boardAt_seats hseat, hseat.closeLugs]; exact hnot)
    refine ⟨(hclo.of_ne (by rw [hb]; nofun)).trans hb, hg.has hr, hg.asked _ ht, ?_, fun f k hf hk => ?_⟩
    · obtain ⟨l, hjoin, hmem⟩ := closeTimeout_joins e.commitBoard
      refine notIn_joined hjoin hl fun hc => ?_
      obtain ⟨j, hj, hlug⟩ := hmem _ hc
      rw [boardAt_seats hseat, hseat.closeLugs] at hj
      rw [(hseat.boards j).lug] at hlug
      exact hne j hj hlug
    · rw [(keeps_closeTimeout _).dec]
      exact ⟨(hh f k hf hk).1, fun h8 => ⟨((hh f k hf hk).2 h8).1, hg.has ((hh f k hf hk).2 h8).2⟩⟩
  · have hseat := seats_closeTimeout e
    have hkeep := keeps_closeTimeout e
    have hclo := closeTimeout_others (e := e) hnot
    have hs' : e.closeTimeout.st.lug.boards[i].state = .queued ∨ e.closeTimeout.st.lug.boards[i].state = .solving := by
      rcases hclo with hx | ⟨_, _, _, hx⟩
      · rw [hx]; exact hs
      · rw [hx]; exact Or.inr rfl
    have hshadow : shadowAt e.closeTimeout.st i = shadowAt e.st i := by
      unfold shadowAt
      rw [shadowOf_congr hkeep.plan, (hseat.boards i).bank]
    obtain ⟨hb, hr, ht, hl, hh⟩ := commitBoard_reman (e := e.closeTimeout)
      (by rw [boardAt_seats hseat, hseat.commitPos]; exact hat) hs'
    rw [hshadow, commitUnsolved_of_startsOnly hclo] at hb hh
    rw [(hseat.boards i).lug] at hl
    rw [(hseat.boards i).bank, hkeep.dec] at hh
    refine ⟨hb, hr, ht, hl, fun f k hf hk => ?_⟩
    have := hh f k hf hk
    rwa [show recordOf e.closeTimeout.st (e.st.lug.boards[i].commitUnsolved (shadowAt e.st i)) f k =
      recordOf e.st (e.st.lug.boards[i].commitUnsolved (shadowAt e.st i)) f k by unfold recordOf; rw [hkeep.plan]] at this

/-- The close timeout of the board in slot `i`, whatever the commit does: it is closed with SCAN_TIMEOUT, and where no other
board reaches the solver it finds the room that the event began with. -/
structure TimesOut (e e' : Ev) (i : Fin 32) : Prop where
  raised : e'.st.note.has .scanTimeout = true
  told : .notice ∈ e'.asked
  closes : ∃ room, (timedOutBoard e.st.lug.boards[i]).ClosesTo e.st.head.fitted (shadowAt e.st i) room e'.st.lug.boards[i] ∧
    ((timedOutBoard e.st.lug.boards[i]).hasMaterial e.st.head.fitted (shadowAt e.st i) = true → room = false →
      e'.st.note.has .solveQueueFull = true) ∧
    ((∀ k, e.st.boardAt e.st.lug.commitPos = some k →
        e.st.lug.boards[k].state ≠ .queued ∧ e.st.lug.boards[k].state ≠ .solving) →
      room = decide (e.st.solv.queue.length < 4) ∧ e.st.solv.JoinedBy e'.st.solv
        (if (timedOutBoard e.st.lug.boards[i]).hasMaterial e.st.head.fitted (shadowAt e.st i) = true ∧
          e.st.solv.queue.length < 4 then [e.st.lug.boards[i].lug] else []))
  ctx : ∀ k : Fin 6, e'.st.head.ctx[k] = { e.st.head.ctx[k] with
    state := e.st.head.ctx[k].state.parkedIn e'.st k
    badLast := if e.st.lug.boards[i].expected.getLsbD k = true then e.st.lug.boards[i].bad[k]
      else e.st.head.ctx[k].badLast }

omit h in
theorem closeTimeout_timesOut {i : Fin 32} (hat : e.st.boardAt e.st.lug.closeLugs = some i)
    (hs : e.st.lug.boards[i].state = .scanning) : TimesOut e e.closeTimeout i := by
  have hc := closeTimeout_closes hat hs
  have hg := hc.grows
  have hread := flagged_read e i i
  rw [if_pos rfl] at hread
  have hshadow : shadowAt (flagged e i).st i = shadowAt e.st i := by
    unfold shadowAt
    rw [hread]
    rfl
  obtain ⟨hb, _, _, hctx, _, _⟩ := hc
  have hclosed := hb.closed
  have hjoin := hb.joined
  have hnote := hb.note
  simp only [hasMaterialAt, hshadow, hread] at hclosed hjoin hnote
  refine ⟨hg.has (raise_has _ _), hg.asked _ (raise_asks _ _), ⟨_, hclosed, fun hm hr => ?_, fun _ => ⟨rfl, hjoin⟩⟩, fun k => ?_⟩
  · have hfull : 4 ≤ (flagged e i).st.solv.queue.length := by simpa using hr
    have hn := hnote.trans (if_pos ⟨hm, hfull⟩)
    rw [hn]
    simp only [NoticeUnit.has, NoticeUnit.raised, BitVec.getLsbD_or, Bool.or_eq_true]
    exact Or.inr (by decide)
  · have hk := hctx k
    rw [hread] at hk
    exact hk

theorem inOrder_timesOut {i : Fin 32} (hat : e.st.boardAt e.st.lug.closeLugs = some i)
    (hs : e.st.lug.boards[i].state = .scanning) (hne : e.st.boardAt e.st.lug.commitPos ≠ some i) : TimesOut e e' i := by
  rcases h with rfl | ⟨hcon, rfl⟩
  · have hseat := seats_commitBoard e
    have hkeep := keeps_commitBoard e
    have hself := (commitBoard_scanning e i).2 hs
    have hshadow : shadowAt e.commitBoard.st i = shadowAt e.st i := by
      unfold shadowAt
      rw [shadowOf_congr hkeep.plan, hself]
    obtain ⟨h1, h2, h3, h4⟩ := closeTimeout_timesOut (e := e.commitBoard) (i := i)
      (by rw [boardAt_seats hseat, hseat.closeLugs]; exact hat) ((commitBoard_scanning e i).1.2 hs)
    rw [hself, hshadow, hkeep.head] at h3
    obtain ⟨room, hc, hf, halone⟩ := h3
    refine ⟨h1, h2, ⟨room, hc, hf, fun ha => ?_⟩, fun k => ?_⟩
    · rw [commitBoard_solv ha] at halone
      refine halone fun j hj => ?_
      rw [boardAt_seats hseat, hseat.commitPos] at hj
      have hn : ¬ (e.st.lug.boards[j].state = .queued ∨ e.st.lug.boards[j].state = .solving) := fun hc =>
        hc.elim (ha j hj).1 (ha j hj).2
      by_cases hcom : Commits e.st.lug.boards[j]
      · rw [commitBoard_solved hj (hcom.resolve_right hn), (keeps_handDecision _ j).lug, decided_read, if_pos rfl]
        exact ⟨nofun, nofun⟩
      · rw [commitBoard_idle fun m hm hx => by rw [hj] at hm; cases hm; exact hcom hx]
        exact ha j hj
    · have hk := h4 k
      rw [hself] at hk
      simp only [hkeep.head] at hk
      exact hk
  · have hkeep := keeps_commitBoard e.closeTimeout
    have hseat := seats_closeTimeout e
    have hg := grows_commitBoard e.closeTimeout
    obtain ⟨h1, h2, ⟨room, hc, hf, _⟩, h4⟩ := closeTimeout_timesOut hat hs
    have hother := commitBoard_others (e := e.closeTimeout) (j := i)
      (by rw [boardAt_seats hseat, hseat.commitPos]; exact hne)
    refine ⟨hg.has h1, hg.asked _ h2, ⟨room, ?_, fun hm hr => hg.has (hf hm hr), fun ha => ?_⟩, fun k => ?_⟩
    · rcases hother with hx | ⟨hq, _, _, hx⟩
      · rw [hx]; exact hc
      · rw [hx]; exact ClosesTo.started hc hq
    · exfalso
      rw [State.solverContended, State.stateAt] at hcon
      cases hx : e.st.boardAt e.st.lug.commitPos with
      | none => rw [hx] at hcon; simp at hcon
      | some j =>
        rw [hx] at hcon
        simp only [Bool.and_eq_true, Bool.or_eq_true, beq_iff_eq] at hcon
        exact hcon.1.elim (ha j hx).1 (ha j hx).2
    · simp only [hkeep.head]
      rw [parkedIn_congr (commitBoard_expects _ k)]
      exact h4 k

end Both

end Sys2Proof.Proofs
end

section
/-! The opening of a LUG event (R7, R34, R98), said once. -/

namespace Sys2Proof.Proofs

open Sys2Proof Sys2Proof.Machine Sys2Proof.Laws

/-! ### The commit and the close timeout within the event -/

theorem commitAndTimeout_inOrder (e : Ev) : ∃ e1 : Ev, e1.st = { e.st with freeCount := e1.st.freeCount } ∧
    e1.asked = e.asked ∧ e1.returned = e.returned ∧ InOrder e1 e.commitAndTimeout := by
  unfold Ev.commitAndTimeout
  split
  · rename_i hc
    dsimp only
    refine ⟨e.modify fun s => { s with freeCount := s.freeCount + 1 }, rfl, rfl, rfl, ?_⟩
    split
    · exact Or.inl rfl
    · exact Or.inr ⟨hc, rfl⟩
  · exact ⟨e, rfl, rfl, rfl, Or.inl rfl⟩

/-! ### The heads a new board expects (R7) -/

theorem activeHeads_getLsbD (s : State) (h : Fin 6) :
    s.activeHeads.getLsbD h = true ↔ s.head.ctx[h].state = .active := by
  have key : ∀ (l : List (Fin 6)) (acc : HeadSet),
      (l.foldl (fun acc h => if s.head.ctx[h].state = .active then acc ||| headBit h else acc) acc).getLsbD h = true ↔
        acc.getLsbD h = true ∨ (h ∈ l ∧ s.head.ctx[h].state = .active) := by
    intro l
    induction l with
    | nil => intro acc; simp
    | cons k l ih =>
      intro acc
      rw [List.foldl_cons, ih]
      by_cases hk : s.head.ctx[k].state = .active
      · rw [if_pos hk, BitVec.getLsbD_or, headBit_getLsbD, Bool.or_eq_true, decide_eq_true_eq, List.mem_cons]
        constructor
        · rintro ((h1 | rfl) | ⟨h1, h2⟩)
          · exact Or.inl h1
          · exact Or.inr ⟨Or.inl rfl, hk⟩
          · exact Or.inr ⟨Or.inr h1, h2⟩
        · rintro (h1 | ⟨rfl | h1, h2⟩)
          · exact Or.inl (Or.inl h1)
          · exact Or.inl (Or.inr rfl)
          · exact Or.inr ⟨h1, h2⟩
      · rw [if_neg hk, List.mem_cons]
        refine or_congr_right ⟨fun hx => ⟨Or.inr hx.1, hx.2⟩, fun hx => ⟨hx.1.resolve_left fun hc => ?_, hx.2⟩⟩
        exact hk (hc ▸ hx.2)
  unfold State.activeHeads
  rw [key]
  simp [allHeads]

/-! ### The slot of the new lug (R7) -/

section Init
variable {e : Ev}

theorem scanDone_opened {n : Word16} {k : Bank} {x : HeadSet} : (openedBoard n k x).scanDone = true ↔ x = 0 := by
  rw [scanDone_iff, headSet_eq_zero]
  refine forall_congr' fun h => ?_
  show (x.getLsbD h = true → (0 : HeadSet).getLsbD h = true ∨ (0 : HeadSet).getLsbD h = true) ↔ _
  simp

/-- A board that expects no head has no scanned segment, so no material. -/
theorem opened_no_material (n : Word16) (k : Bank) (fitted : HeadSet) (p : Shadow) :
    (openedBoard n k 0).hasMaterial fitted p = false := by
  unfold Board.hasMaterial
  rw [List.any_eq_false]
  intro j _
  have h : (openedBoard n k 0).scannedBy fitted p (headOfSegment j) = false := by
    unfold Board.scannedBy
    rw [show (openedBoard n k 0).expected.getLsbD (headOfSegment j) = false from BitVec.getLsbD_zero]
    simp
  rw [h, Bool.false_and]
  exact Bool.false_ne_true

/-- The slot of the new lug, the heads and the solver after the slot has been set. -/
structure SlotSet (e e' : Ev) : Prop where
  lug : e'.st.lug = { e.st.lug with boards := e'.st.lug.boards }
  others : ∀ j, j ≠ slotOf e.st.lug.current → e'.st.lug.boards[j] = e.st.lug.boards[j]
  solv : e'.st.solv = e.st.solv
  unbound : e.st.plan.active = none → e'.st.lug.boards[slotOf e.st.lug.current] = Board.blank e.st.lug.current .void
  bound : ∀ k, e.st.plan.active = some k →
    (e.st.activeHeads ≠ 0 → e'.st.lug.boards[slotOf e.st.lug.current] = openedBoard e.st.lug.current k e.st.activeHeads) ∧
    (e.st.activeHeads = 0 → e'.st.lug.boards[slotOf e.st.lug.current] = { Board.blank e.st.lug.current .void with
      bank := some k, classes := e'.st.lug.boards[slotOf e.st.lug.current].classes })
  active : e'.st.plan.active = e.st.plan.active
  pending : e'.st.plan.pendingBank = e.st.plan.pendingBank
  heads : HeadsPark e e'
  badLast : ∀ k : Fin 6, e'.st.head.ctx[k].badLast = e.st.head.ctx[k].badLast

theorem initSlot_slotSet (e : Ev) : SlotSet e e.initSlot := by
  cases ha : e.st.plan.active with
  | none =>
    rw [initSlot_none ha]
    refine ⟨rfl, fun j hj => ?_, rfl, fun _ => ?_, fun k hk => ?_, rfl, rfl, .of_same rfl, fun _ => rfl⟩
    · rw [changeBoard_read, if_neg hj]
    · rw [changeBoard_read, if_pos rfl]
    · rw [ha] at hk; cases hk
  | some k =>
    rw [initSlot_some ha]
    generalize hu : ((e.changeBoard (slotOf e.st.lug.current) fun _ =>
      openedBoard e.st.lug.current k e.st.activeHeads).modify fun s => { s with plan := s.plan.bind k }) = u
    have hlug : u.st.lug = { e.st.lug with boards := u.st.lug.boards } := by rw [← hu]; rfl
    have hread : ∀ j, u.st.lug.boards[j] = if j = slotOf e.st.lug.current then
        openedBoard e.st.lug.current k e.st.activeHeads else e.st.lug.boards[j] := fun j => by
      rw [← hu]
      exact changeBoard_read e (slotOf e.st.lug.current) j fun _ => openedBoard e.st.lug.current k e.st.activeHeads
    have hsolv : u.st.solv = e.st.solv := by rw [← hu]; rfl
    have hhead : u.st.head = e.st.head := by rw [← hu]; rfl
    have hact : u.st.plan.active = e.st.plan.active ∧ u.st.plan.pendingBank = e.st.plan.pendingBank := by
      rw [← hu]; cases k <;> exact ⟨rfl, rfl⟩
    have hself := hread (slotOf e.st.lug.current)
    rw [if_pos rfl] at hself
    by_cases hx : e.st.activeHeads = 0
    · have hc := closeTest_closes (e := u) (i := slotOf e.st.lug.current) (by rw [hself]; rfl)
        (by rw [hself]; exact scanDone_opened.2 hx)
      rw [hx] at hself
      generalize u.closeTest (slotOf e.st.lug.current) = e' at hc ⊢
      have hmat : ¬ hasMaterialAt u.st (slotOf e.st.lug.current) := by
        unfold hasMaterialAt
        rw [hself, opened_no_material]
        decide
      have hjoin := hc.board.joined
      rw [if_neg fun hy => hmat hy.1] at hjoin
      have hs' : e'.st.solv = u.st.solv := hjoin.1 rfl
      have hclosed := hc.board.closed.1 (by simpa using hmat)
      rw [hself] at hclosed
      refine ⟨by rw [hc.board.lug, hlug], fun j hj => ?_, hs'.trans hsolv, fun hn => ?_, fun m hm => ⟨fun hne => absurd hx hne,
        fun _ => ?_⟩, ?_, ?_, (headsPark_closes hc).after hhead, fun h => ?_⟩
      · rw [hc.board.others j hj, if_neg fun hy => not_solveStarts_self hs' j hy.2, hread, if_neg hj]
      · rw [ha] at hn; cases hn
      · rw [ha] at hm
        cases hm
        rw [hclosed]
        rfl
      · rw [hc.keeps.plan]; exact hact.1
      · rw [hc.keeps.plan]; exact hact.2
      · have hk := congrArg HeadCtx.badLast (hc.ctx h)
        rw [hself, hhead] at hk
        have hz : (openedBoard e.st.lug.current k 0).expected.getLsbD h = false := BitVec.getLsbD_zero
        exact hk.trans (if_neg (hz ▸ Bool.false_ne_true))
    · rw [closeTest_idle fun hy => hx (scanDone_opened.1 (hself ▸ hy.2))]
      refine ⟨hlug, fun j hj => ?_, hsolv, fun hn => ?_, fun m hm => ⟨fun _ => ?_, fun hz => absurd hz hx⟩, hact.1, hact.2,
        .of_same hhead, fun h => by rw [hhead]⟩
      · rw [hread, if_neg hj]
      · rw [ha] at hn; cases hn
      · rw [ha] at hm
        cases hm
        exact hself

end Init

/-! ### The whole opening (R7, R34, R98) -/

/-- What the opening leaves: the bank switched, the heads admitted, and the slot of the new lug set. -/
structure Opens (e e' : Ev) : Prop where
  lug : e'.st.lug = { e.st.lug with boards := e'.st.lug.boards }
  others : ∀ j, j ≠ slotOf e.st.lug.current → e'.st.lug.boards[j] = e.st.lug.boards[j]
  solv : e'.st.solv = e.st.solv
  active : e'.st.plan.active = e.st.plan.pendingBank.or e.st.plan.active
  pending : e'.st.plan.pendingBank = none
  switched : e.st.plan.pendingBank ≠ none → e'.st.note.has .planSwitched = true ∧ .notice ∈ e'.asked
  unbound : e.st.plan.pendingBank.or e.st.plan.active = none →
    e'.st.lug.boards[slotOf e.st.lug.current] = Board.blank e.st.lug.current .void
  bound : ∀ k, e.st.plan.pendingBank.or e.st.plan.active = some k →
    (∀ h : Fin 6, e'.st.lug.boards[slotOf e.st.lug.current].expected.getLsbD h = true ↔ e'.st.head.ctx[h].state = .active) ∧
    (e'.st.lug.boards[slotOf e.st.lug.current].expected ≠ 0 → e'.st.lug.boards[slotOf e.st.lug.current] =
      openedBoard e.st.lug.current k e'.st.lug.boards[slotOf e.st.lug.current].expected) ∧
    (e'.st.lug.boards[slotOf e.st.lug.current].expected = 0 → e'.st.lug.boards[slotOf e.st.lug.current] =
      { Board.blank e.st.lug.current .void with
        bank := some k, classes := e'.st.lug.boards[slotOf e.st.lug.current].classes })
  head : e'.st.head = { e.st.head with ctx := e'.st.head.ctx }
  ctx : ∀ k : Fin 6, e'.st.head.ctx[k] = { admittedHead e.st.head.ctx[k] with state := e'.st.head.ctx[k].state }
  state : ∀ k : Fin 6, e'.st.head.ctx[k].state = (admittedHead e.st.head.ctx[k]).state ∨
    ((admittedHead e.st.head.ctx[k]).state = .leaving ∧ e'.st.head.ctx[k].state = .parked ∧ ¬ e'.st.Expects k)
  asks : ∀ k : Fin 6, e'.st.head.ctx[k] ≠ e.st.head.ctx[k] → .headStatus k ∈ e'.asked

theorem switchPlan_raised {e : Ev} (h : e.st.plan.pendingBank ≠ none) :
    e.switchPlan.st.note.has .planSwitched = true ∧ .notice ∈ e.switchPlan.asked := by
  unfold Ev.switchPlan
  split
  · rename_i hn; exact absurd hn h
  · exact ⟨raise_has _ _, raise_asks _ _⟩

/-- The heads once admitted, seen through the parking that a close at once may make. -/
theorem parked_active {e e' : Ev} (h : HeadsPark e e') (k : Fin 6) :
    e'.st.head.ctx[k].state = .active ↔ e.st.head.ctx[k].state = .active := by
  rcases h.state k with hs | ⟨h1, h2, _⟩
  · rw [hs]
  · rw [h1, h2]; exact ⟨nofun, nofun⟩

theorem openBoard_opens (e : Ev) : Opens e e.openBoard := by
  have hadm := admitHeads_becomes e.switchPlan
  have hset := initSlot_slotSet e.switchPlan.admitHeads
  have hgrow := grows_initSlot e.switchPlan.admitHeads
  have hplan := switchPlan_plan e
  have hhead : e.switchPlan.st.head = e.st.head := (keeps_switchPlan e).head
  unfold Ev.openBoard
  generalize e.switchPlan.admitHeads = u at hadm hset hgrow ⊢
  have hlug : u.st.lug = e.st.lug := by rw [hadm.st]; exact switchPlan_lug e
  have hsolv : u.st.solv = e.st.solv := by rw [hadm.st]; exact (keeps_switchPlan e).solv
  have hact : u.st.plan.active = e.st.plan.pendingBank.or e.st.plan.active := by rw [hadm.st, hplan]
  have hpend : u.st.plan.pendingBank = none := by rw [hadm.st, hplan]
  have hctx : ∀ k : Fin 6, u.st.head.ctx[k] = admittedHead e.st.head.ctx[k] := fun k => by rw [hadm.ctx k, hhead]
  generalize u.initSlot = e' at hset hgrow ⊢
  obtain ⟨h1, h2, h3, h4, h5, h6, h7, h8, h9⟩ := hset
  simp only [hlug, hact] at h1 h2 h4 h5
  refine ⟨h1, h2, h3.trans hsolv, h6.trans hact, h7.trans hpend, fun hn => ?_, h4, fun k hk => ⟨fun h => ?_, fun hx => ?_,
    fun hx => ?_⟩, ?_, fun k => ?_, fun k => ?_, fun k hk => ?_⟩
  · obtain ⟨ha, hb⟩ := switchPlan_raised hn
    exact ⟨(hadm.grows.trans hgrow).has ha, (hadm.grows.trans hgrow).asked _ hb⟩
  · rw [parked_active h8, ← activeHeads_getLsbD]
    by_cases hz : u.st.activeHeads = 0
    · rw [(h5 k hk).2 hz, hz]
      exact Iff.rfl
    · rw [(h5 k hk).1 hz]
      exact Iff.rfl
  · by_cases hz : u.st.activeHeads = 0
    · exact absurd (congrArg Board.expected ((h5 k hk).2 hz)) hx
    · have hb := (h5 k hk).1 hz
      rw [hb]
      rfl
  · by_cases hz : u.st.activeHeads = 0
    · exact (h5 k hk).2 hz
    · exact absurd ((congrArg Board.expected ((h5 k hk).1 hz)).symm.trans hx) hz
  · have hu : u.st.head = { e.st.head with ctx := u.st.head.ctx } := by
      have := congrArg State.head hadm.st
      rw [hhead] at this
      exact this
    rw [h8.head, hu]
  · have hf := h8.frame k
    rw [h9 k, hctx k] at hf
    exact hf
  · have hs := h8.state k
    rw [hctx k] at hs
    exact hs
  · by_cases hu : u.st.head.ctx[k] = e.st.head.ctx[k]
    · exact h8.asks k fun hc => hk (hc.trans hu)
    · refine hgrow.asked _ (hadm.asks k ?_)
      rw [hhead]
      exact fun hc => hu ((hctx k).trans hc)

section Opened
variable {e e' : Ev} (h : Opens e e')

include h

/-- The new board expects no head that is not ACTIVE. -/
theorem opens_expects {k : Fin 6} (hk : e'.st.head.ctx[k].state ≠ .active) (hx : e'.st.Expects k) : e.st.Expects k := by
  obtain ⟨i, h1, h2⟩ := hx
  by_cases hi : i = slotOf e.st.lug.current
  · subst hi
    cases ha : e.st.plan.pendingBank.or e.st.plan.active with
    | none =>
      rw [h.unbound ha] at h1
      cases h1
    | some m => exact absurd (((h.bound m ha).1 k).1 h2) hk
  · rw [h.others i hi] at h1 h2
    exact ⟨i, h1, h2⟩

theorem opens_still_expects {k : Fin 6} (hs : e.st.lug.boards[slotOf e.st.lug.current].state ≠ .scanning)
    (hx : e.st.Expects k) : e'.st.Expects k := by
  obtain ⟨i, h1, h2⟩ := hx
  have hi : i ≠ slotOf e.st.lug.current := fun hc => hs (hc ▸ h1)
  exact ⟨i, by rw [h.others i hi]; exact h1, by rw [h.others i hi]; exact h2⟩

end Opened

end Sys2Proof.Proofs
end

section
/-! The LUG event as a whole, and its claims: the advance, the opening, the close timeout and the two commits. -/

namespace Sys2Proof.Proofs

open Sys2Proof Sys2Proof.Machine Sys2Proof.Laws

/-! ### The lug table but for its records -/

/-- The lug table is as it was but for its records. -/
def SameTable (s t : State) : Prop := t.lug = { s.lug with boards := t.lug.boards }

theorem SameTable.of_lug {s t : State} (h : t.lug = s.lug) : SameTable s t := by
  unfold SameTable; rw [h]

theorem SameTable.trans {s t u : State} (h : SameTable s t) (h' : SameTable t u) : SameTable s u := by
  unfold SameTable at *
  rw [h', h]

theorem sameTable_armBoard (e : Ev) : SameTable e.st e.armBoard.st := by
  by_cases hx : ∃ i f, e.st.boardAt e.st.lug.trimPos = some i ∧ e.st.lug.boards[i].state = .committed ∧
      e.st.lug.boards[i].final = some f
  · obtain ⟨i, f, hat, hc, hf⟩ := hx
    rw [armBoard_takes hat hc hf]
    split
    · exact congrArg State.lug (fire_st _ _)
    · exact .of_lug rfl
  · rw [armBoard_idle fun i hi hc => by_contra fun hf => ?_]
    · exact .of_lug rfl
    · obtain ⟨f, hf⟩ := Option.ne_none_iff_exists'.1 hf
      exact hx ⟨i, f, hi, hc, hf⟩

theorem sameTable_commitBoard (e : Ev) : SameTable e.st e.commitBoard.st := by
  by_cases hx : ∃ i, e.st.boardAt e.st.lug.commitPos = some i ∧ Commits e.st.lug.boards[i]
  · obtain ⟨i, hat, hs | hs⟩ := hx
    · rw [commitBoard_solved hat hs]
      exact SameTable.trans (t := (decided e i).st) rfl (.of_lug (keeps_handDecision _ i).lug)
    · rw [commitBoard_unsolved hat hs]
      refine SameTable.trans (t := (reman e i).st) ?_ (.of_lug (keeps_handDecision _ i).lug)
      exact startSolve_lug (without (e.changeBoard i fun b => b.commitUnsolved (shadowAt e.st i)) e.st.lug.boards[i].lug)
  · rw [commitBoard_idle fun i hi hc => hx ⟨i, hi, hc⟩]
    exact .of_lug rfl

theorem sameTable_closeTimeout (e : Ev) : SameTable e.st e.closeTimeout.st := by
  by_cases hx : ∃ i, e.st.boardAt e.st.lug.closeLugs = some i ∧ e.st.lug.boards[i].state = .scanning
  · obtain ⟨i, hat, hs⟩ := hx
    exact SameTable.trans (t := (flagged e i).st) rfl (closeTimeout_closes hat hs).board.lug
  · rw [closeTimeout_idle fun i hi hs => hx ⟨i, hi, hs⟩]
    exact .of_lug rfl

/-! ### The course of a LUG event -/

/-- `e1` is the point of the LUG event at which the commit and the close timeout are taken. -/
structure Course (s : State) (e1 : Ev) : Prop where
  lug : e1.st.lug = (beforeCommit s).st.lug
  head : e1.st.head = s.head
  solv : e1.st.solv = s.solv
  dec : e1.st.dec = s.dec
  plan : e1.st.plan = (beforeCommit s).st.plan
  grows : Grows (Ev.start s) e1
  later : Grows (beforeCommit s) e1
  inOrder : InOrder e1 (beforeOpen s)

theorem grows_advanced (s : State) : Grows (Ev.start s) (advanced s) := by
  unfold advanced
  exact (grows_checkSlip _).trans (grows_modify _ _ rfl)

theorem grows_beforeCommit (s : State) : Grows (advanced s) (beforeCommit s) := by
  unfold beforeCommit
  exact ((grows_lateFire _).trans (grows_dropBoard _)).trans (grows_armBoard _)

theorem exists_course (s : State) : ∃ e1, Course s e1 := by
  obtain ⟨e1, hst, hasked, hret, hin⟩ := commitAndTimeout_inOrder (beforeCommit s)
  have hk := keeps_beforeCommit s
  have hlater : Grows (beforeCommit s) e1 :=
    ⟨fun k hk => by rw [hasked]; exact hk, fun i hi => by rw [hst]; exact hi, hret⟩
  refine ⟨e1, by rw [hst], by rw [hst]; exact hk.head, by rw [hst]; exact hk.solv, by rw [hst]; exact hk.dec, by rw [hst],
    ((grows_advanced s).trans (grows_beforeCommit s)).trans hlater, hlater, ?_⟩
  unfold beforeOpen
  exact hin

/-- The LUG event after its opening. -/
@[irreducible] def opened (s : State) : Ev := (beforeOpen s).openBoard

theorem opened_opens (s : State) : Opens (beforeOpen s) (opened s) := by
  unfold opened
  exact openBoard_opens _

theorem afterLug_eq (s : State) : afterLug s = ((opened s).ask .lineStatus).finish := by
  unfold afterLug opened
  rfl

section Course
variable {s : State} {e1 : Ev} (h : Course s e1)

include h

theorem course_seats : Seats (beforeArm s).st e1.st := (beforeArm_seats_commit s).trans (Seats.of_lug h.lug)

theorem course_boardAt (hg : s.lug.geometry = true) {p : Nat} (hp : p < s.lug.dropPos) :
    e1.st.boardAt p = s.lookup (s.lug.arriving p) := boardAt_of_beforeArm hg hp (course_seats h)

theorem course_shadow (k : Option Bank) : e1.st.shadowOf k = s.shadowOf k :=
  (shadowOf_congr h.plan k).trans (beforeCommit_shadow s k)

theorem course_table : e1.st.lug =
    { s.lug with current := s.lug.current + 1, encCount := 0, slipRef := true, boards := e1.st.lug.boards } := by
  have h1 : SameTable (beforeArm s).st (beforeCommit s).st := by rw [beforeCommit_eq]; exact sameTable_armBoard _
  have h2 := h1.trans (.of_lug h.lug)
  unfold SameTable at h2
  rw [beforeArm_table] at h2
  exact h2

theorem course_grows : Grows e1 (opened s) := by
  unfold opened
  exact (inOrder_grows h.inOrder).trans (grows_openBoard _)

end Course

theorem beforeOpen_table (s : State) : (beforeOpen s).st.lug =
    { s.lug with current := s.lug.current + 1, encCount := 0, slipRef := true, boards := (beforeOpen s).st.lug.boards } := by
  obtain ⟨e1, hc⟩ := exists_course s
  have h1 := course_table hc
  have h2 : SameTable e1.st (beforeOpen s).st := by
    rcases hc.inOrder with h | ⟨_, h⟩
    · rw [h]; exact (sameTable_commitBoard _).trans (sameTable_closeTimeout _)
    · rw [h]; exact (sameTable_closeTimeout _).trans (sameTable_commitBoard _)
  unfold SameTable at h2
  rw [h1] at h2
  exact h2

theorem beforeOpen_current (s : State) : (beforeOpen s).st.lug.current = s.lug.current + 1 := by rw [beforeOpen_table]

/-! ### The state a LUG event leaves -/

theorem after_lug (s : State) : (afterLug s).lug = (opened s).st.lug := by rw [afterLug_eq, Ev.finish_lug, Ev.ask_st]

theorem after_head (s : State) : (afterLug s).head = (opened s).st.head := by rw [afterLug_eq, Ev.finish_head, Ev.ask_st]

theorem after_plan (s : State) : (afterLug s).plan = (opened s).st.plan := by rw [afterLug_eq, Ev.finish_plan, Ev.ask_st]

theorem after_note (s : State) : (afterLug s).note = (opened s).st.note := by rw [afterLug_eq, Ev.finish_note, Ev.ask_st]

theorem after_solv (s : State) : (afterLug s).solv = (beforeOpen s).st.solv := by
  rw [afterLug_eq, Ev.finish_solv, Ev.ask_st, (opened_opens s).solv]

theorem after_dec (s : State) : (afterLug s).dec = (beforeOpen s).st.dec := by
  rw [afterLug_eq, Ev.finish_dec, Ev.ask_st]
  unfold opened
  exact (keeps_openBoard _).dec

theorem after_asks {s : State} {k : OwnTxn} (h : k ∈ (opened s).asked) (h1 : ∀ v, k ≠ .ovrConsumer v)
    (h2 : ∀ w, k ≠ .tallyCompletion w) : (afterLug s).path.asks k = true := by
  rw [afterLug_eq]
  exact Ev.finish_asks ((grows_ask _ _).asked _ h) h1 h2

theorem after_expects (s : State) (k : Fin 6) : (afterLug s).Expects k ↔ (opened s).st.Expects k :=
  expects_of_boards (congrArg LugTable.boards (after_lug s)) k

/-- A record not in the slot of the new lug is as it was before the opening. -/
theorem after_board {s : State} {j : Fin 32} (hj : j ≠ slotOf (s.lug.current + 1)) :
    (afterLug s).lug.boards[j] = (beforeOpen s).st.lug.boards[j] := by
  simp only [after_lug]
  exact (opened_opens s).others j (by rw [beforeOpen_current]; exact hj)

theorem after_table (s : State) : (afterLug s).lug =
    { s.lug with current := s.lug.current + 1, encCount := 0, slipRef := true, boards := (afterLug s).lug.boards } := by
  rw [after_lug, (opened_opens s).lug, beforeOpen_table]

theorem grows_opened (s : State) : Grows (advanced s) (opened s) := by
  obtain ⟨e1, hc⟩ := exists_course s
  exact ((grows_beforeCommit s).trans hc.later).trans (course_grows hc)

theorem after_path (s : State) : s.path.Grew (afterLug s).path := by
  rw [afterLug_eq]
  refine Ev.finish_grew ?_ ?_
  · rw [Ev.ask_st]
    unfold opened
    exact (keeps_openBoard _).path.trans (keeps_beforeOpen s).path
  · rw [Ev.ask_returned, ((grows_advanced s).trans (grows_opened s)).returned]
    rfl

end Sys2Proof.Proofs
end

section
/-! The LUG event's claims on the advance (R1, R2, R6), the opening (R7, R34, R98), the close timeout (R9 to R12) and the
commits (R14, R15). -/

namespace Sys2Proof.Proofs

open Sys2Proof Sys2Proof.Machine Sys2Proof.Laws

/-! ### The advance (R1, R2) -/

/-- R2: the slip comparison. -/
theorem advanced_slip {s : State} (h1 : s.lug.slipRef = true) (h2 : s.lug.encCount ≠ s.lug.countsPerLug) :
    (advanced s).st.note.has .encoderSlip = true := by
  unfold advanced Ev.checkSlip
  dsimp only
  rw [if_pos (by simp [h1, h2])]
  exact raise_has (Ev.start s) _

/-- The heads before the opening, seen from the event's start (R35, R36). -/
theorem beforeOpen_heads (s : State) : (beforeOpen s).st.head = { s.head with ctx := (beforeOpen s).st.head.ctx } ∧
    ∀ k : Fin 6, (beforeOpen s).st.head.ctx[k] = { s.head.ctx[k] with
        state := (beforeOpen s).st.head.ctx[k].state, badLast := (beforeOpen s).st.head.ctx[k].badLast } ∧
      ((beforeOpen s).st.head.ctx[k].state = s.head.ctx[k].state ∨ (s.head.ctx[k].state = .leaving ∧
        (beforeOpen s).st.head.ctx[k].state = .parked ∧ ¬ (beforeOpen s).st.Expects k)) ∧
      ((beforeOpen s).st.head.ctx[k] ≠ s.head.ctx[k] → .headStatus k ∈ (beforeOpen s).asked) := by
  obtain ⟨e1, hc⟩ := exists_course s
  obtain ⟨h1, h2, h3, h4⟩ := inOrder_heads hc.inOrder
  simp only [hc.head] at h1 h2 h3 h4
  exact ⟨h1, fun k => ⟨h2 k, h3 k, h4 k⟩⟩

/-- What a LUG event makes of a head (R34 to R36). -/
theorem after_head_ctx (s : State) (k : Fin 6) :
    let c := s.head.ctx[k]
    let d := (afterLug s).head.ctx[k]
    d = { c with state := d.state, admitPending := false, badLast := d.badLast } ∧
      (c.admitPending = true → d.state = .active) ∧
      (c.admitPending = false → d.state = c.state ∨ (c.state = .leaving ∧ d.state = .parked ∧ ¬ (afterLug s).Expects k)) ∧
      d.badLast = (beforeOpen s).st.head.ctx[k].badLast ∧ (d ≠ c → (afterLug s).path.asks (.headStatus k) = true) := by
  obtain ⟨-, hk⟩ := beforeOpen_heads s
  obtain ⟨hframe, hstate, hask⟩ := hk k
  have ho := opened_opens s
  have hctx := ho.ctx k
  have hst := ho.state k
  have hpend : (beforeOpen s).st.head.ctx[k].admitPending = s.head.ctx[k].admitPending :=
    (congrArg HeadCtx.admitPending hframe).trans rfl
  have hgrow : Grows (beforeOpen s) (opened s) := by unfold opened; exact grows_openBoard _
  dsimp only
  rw [after_expects]
  simp only [after_head]
  refine ⟨?_, fun hp => ?_, fun hp => ?_, ?_, fun hne => ?_⟩
  · rw [hframe] at hctx
    rw [hctx]
    rfl
  · have ha : (admittedHead (beforeOpen s).st.head.ctx[k]).state = .active := if_pos (hpend.trans hp)
    rw [ha] at hst
    exact hst.resolve_right fun hc => absurd hc.1 nofun
  · have ha : (admittedHead (beforeOpen s).st.head.ctx[k]).state = (beforeOpen s).st.head.ctx[k].state :=
      if_neg (by rw [hpend, hp]; decide)
    rw [ha] at hst
    rcases hstate with hs | ⟨h1, h2, h3⟩
    · rw [hs] at hst; exact hst
    · rw [h2] at hst
      have hparked := hst.resolve_right fun hc => absurd hc.1 nofun
      exact Or.inr ⟨h1, hparked, fun hc => h3 (opens_expects ho (by rw [hparked]; nofun) hc)⟩
  · exact (congrArg HeadCtx.badLast hctx).trans rfl
  · by_cases hb : (beforeOpen s).st.head.ctx[k] = s.head.ctx[k]
    · exact after_asks (ho.asks k fun hc => hne (hc.trans hb)) nofun nofun
    · exact after_asks (hgrow.asked _ (hask hb)) nofun nofun

/-- A record that the positional events do not reach (R6). -/
theorem after_elsewhere {s : State} (hg : s.lug.geometry = true) {j : Fin 32} (hj : j ≠ slotOf (s.lug.current + 1))
    (hp : ∀ p ∈ [s.lug.closeLugs, s.lug.commitPos, s.lug.trimPos, s.lug.dropPos], s.brings p j = false)
    (ha : ∀ a, s.trim.armed = some a → s.lookup a.lug ≠ some j) :
    (afterLug s).lug.boards[j] = s.lug.boards[j] ∨ (s.lug.boards[j].state = .queued ∧
      (afterLug s).solv.solving = some s.lug.boards[j].lug ∧
      (afterLug s).lug.boards[j] = { s.lug.boards[j] with state := .solving }) := by
  obtain ⟨_, h2, h3, h4, _⟩ := geometry_iff.1 hg
  obtain ⟨e1, hc⟩ := exists_course s
  have hno : ∀ p ∈ [s.lug.closeLugs, s.lug.commitPos, s.lug.trimPos, s.lug.dropPos], s.brings p j ≠ true :=
    fun p hm => by rw [hp p hm]; decide
  have hbefore : e1.st.lug.boards[j] = s.lug.boards[j] := by
    simp only [hc.lug]
    exact beforeCommit_elsewhere hg (hno _ (by simp)) (hno _ (by simp)) ha
  have hat : ∀ p, p < s.lug.dropPos → s.brings p j ≠ true → e1.st.boardAt p ≠ some j := fun p hlt hn hx => by
    rw [course_boardAt hc hg hlt] at hx
    exact hn (brings_lookup.2 hx)
  have hpos : e1.st.lug.commitPos = s.lug.commitPos ∧ e1.st.lug.closeLugs = s.lug.closeLugs := by
    rw [course_table hc]; exact ⟨rfl, rfl⟩
  have hstart := inOrder_others hc.inOrder (j := j)
    (by rw [hpos.1]; exact hat _ (by omega) (hno _ (by simp))) (by rw [hpos.2]; exact hat _ (by omega) (hno _ (by simp)))
  rw [after_board hj, after_solv]
  unfold StartsOnly at hstart
  rw [hbefore] at hstart
  exact hstart.imp id fun ⟨h1, _, h3, h4⟩ => ⟨h1, h3, h4⟩

/-- R36: a head not expected by the board that comes to close_lugs SCANNING keeps its bad slices. -/
theorem beforeOpen_badLast {s : State} (hg : s.lug.geometry = true) {k : Fin 6}
    (hk : ∀ i, s.brings s.lug.closeLugs i = true →
      ¬ (s.lug.boards[i].state = .scanning ∧ s.lug.boards[i].expected.getLsbD k = true)) :
    (beforeOpen s).st.head.ctx[k].badLast = s.head.ctx[k].badLast := by
  obtain ⟨h1, h2, h3, h4, h5⟩ := geometry_iff.1 hg
  obtain ⟨e1, hc⟩ := exists_course s
  have hpos : e1.st.lug.closeLugs = s.lug.closeLugs := by rw [course_table hc]
  rw [inOrder_badLast hc.inOrder fun i hi hx => ?_]
  · simp only [hc.head]
  · rw [hpos, course_boardAt hc hg (by omega)] at hi
    have hb := brings_lookup.2 hi
    have hnd : s.brings s.lug.dropPos i ≠ true := fun hd => brings_ne (by omega) h5 (by omega) hb hd rfl
    have hnc : s.lug.boards[i].state ≠ .committed := fun hcom => by
      have hs : Seated s.lug.boards[i] e1.st.lug.boards[i] :=
        (beforeArm_seated hnd).trans ((course_seats hc).boards i)
      have hf := (hs.frozen (by rw [Board.isFrozen, hcom]; rfl)).1
      rw [Board.isFrozen, hx.1] at hf
      exact absurd hf (by decide)
    simp only [hc.lug] at hx
    rw [beforeCommit_open hg hnd hnc] at hx
    exact hk i hb hx

/-- Settles O20: the phases of the event, each with what it can reach. -/
theorem lugEventAdvances : Obligations.LugEventAdvances := by
  unfold Obligations.LugEventAdvances
  refine ⟨fun s hr => exec_lugEvent_idle hr, fun s hr => ?_⟩
  have htable := after_table s
  refine ⟨_, exec_lugEvent hr, by rw [htable], by rw [htable], by rw [htable], fun h1 h2 => ?_, after_path s, ?_, ?_,
    eq_mixed (bs := [.path, .head, .lug, .solv, .plan, .trim, .dec, .tally, .note, .freeCount])
      ((keeps_afterLug s).mono (by decide)),
    fun ht j hj hp ha => after_elsewhere (takesLug_iff.1 ht).2 hj hp ha, ?_, fun k => ?_⟩
  · rw [after_note]
    exact (grows_opened s).has (advanced_slip h1 h2)
  · rw [afterLug_eq]
    exact Ev.finish_asks (by simp) nofun nofun
  · rw [htable]
  · rw [after_head, (opened_opens s).head, (beforeOpen_heads s).1]
  · obtain ⟨h1, h2, h3, h4, h5⟩ := after_head_ctx s k
    exact ⟨h1, h2, h3, fun ht hb => h4.trans (beforeOpen_badLast (takesLug_iff.1 ht).2 hb), h5⟩

/-! ### The opening (R7, R34, R98) -/

/-- Until its opening the event changes of the plan store the counts alone (R99). -/
theorem beforeOpen_plan (s : State) : CountsOnly s.plan (beforeOpen s).st.plan := by
  have hlate : (advanced s).lateFire.st.plan = s.plan := (keeps_lateFire _).plan.trans (keeps_advanced s).plan
  have hlater : (beforeOpen s).st.plan = (advanced s).lateFire.dropBoard.st.plan := by
    unfold beforeOpen beforeCommit
    exact (keeps_commitAndTimeout _).plan.trans (keeps_armBoard _).plan
  rw [hlater]
  cases hb : (advanced s).lateFire.st.boardAt (advanced s).lateFire.st.lug.dropPos with
  | none => rw [dropBoard_idle hb, hlate]; rfl
  | some i =>
    obtain ⟨e1, hk, he⟩ := dropBoard_frees hb
    rw [he, freeBoard_st, ← hlate, ← hk.plan]
    exact countsOnly_unbind _ _

theorem CountsOnly.active {p q : PlanStore} (h : CountsOnly p q) : q.active = p.active ∧ q.pendingBank = p.pendingBank := by
  unfold CountsOnly at h
  rw [h]
  exact ⟨rfl, rfl⟩

/-- Settles O21: the opening, after phases that change neither the active bank nor the admissions pending. -/
theorem lugEventOpens : Obligations.LugEventOpens := by
  unfold Obligations.LugEventOpens
  intro s hr
  dsimp only
  have ho := opened_opens s
  obtain ⟨hact, hpend⟩ := CountsOnly.active (beforeOpen_plan s)
  have hcur := beforeOpen_current s
  have hnew := ho.unbound
  have hbound := ho.bound
  have hactive := ho.active
  have hswitch := ho.switched
  rw [hact, hpend] at hnew hbound hactive
  rw [hpend] at hswitch
  simp only [hcur] at hnew hbound
  refine ⟨_, exec_lugEvent hr, by rw [after_plan, hactive], by rw [after_plan, ho.pending],
    fun hn => ⟨by rw [after_note]; exact (hswitch hn).1, after_asks (hswitch hn).2 nofun nofun⟩, fun h hp => ?_,
    fun hn => by simp only [after_lug]; exact hnew hn, fun k hk => ?_⟩
  · obtain ⟨h1, h2, _, _, h5⟩ := after_head_ctx s h
    have hfalse : (afterLug s).head.ctx[h].admitPending = false := congrArg HeadCtx.admitPending h1
    exact ⟨h2 hp, hfalse, h5 fun hc => by rw [hc, hp] at hfalse; cases hfalse⟩
  · simp only [after_lug, after_head]
    exact hbound k hk

end Sys2Proof.Proofs
end

section
/-! The LUG event's claims on the close timeout (R9 to R12) and on the two commits (R14, R15). -/

namespace Sys2Proof.Proofs

open Sys2Proof Sys2Proof.Machine Sys2Proof.Laws

/-! ### The board that a position of the chain reaches -/

section Reached
variable {s : State} {e1 : Ev} (h : Course s e1) (hg : s.lug.geometry = true)

include h hg

/-- A board that comes to close_lugs or commit_pos and is not COMMITTED is as it was when the event began. -/
theorem course_open {p : Nat} {i : Fin 32} (hp : p < s.lug.dropPos) (hb : s.brings p i = true)
    (hc : s.lug.boards[i].state ≠ .committed) : e1.st.lug.boards[i] = s.lug.boards[i] := by
  obtain ⟨_, _, _, _, h5⟩ := geometry_iff.1 hg
  simp only [h.lug]
  exact beforeCommit_open hg (fun hd => brings_ne (by omega) h5 (by omega) hb hd rfl) hc

theorem course_atCommit : e1.st.boardAt e1.st.lug.commitPos = s.lookup (s.lug.arriving s.lug.commitPos) := by
  obtain ⟨_, _, _, _, _⟩ := geometry_iff.1 hg
  have hpos : e1.st.lug.commitPos = s.lug.commitPos := by rw [course_table h]
  rw [hpos, course_boardAt h hg (by omega)]

theorem course_atClose : e1.st.boardAt e1.st.lug.closeLugs = s.lookup (s.lug.arriving s.lug.closeLugs) := by
  obtain ⟨_, _, _, _, _⟩ := geometry_iff.1 hg
  have hpos : e1.st.lug.closeLugs = s.lug.closeLugs := by rw [course_table h]
  rw [hpos, course_boardAt h hg (by omega)]

/-- The board that comes to one of the two positions does not come to the other. -/
theorem course_close_ne {i : Fin 32} (hb : s.brings s.lug.commitPos i = true) :
    e1.st.boardAt e1.st.lug.closeLugs ≠ some i := by
  obtain ⟨_, _, _, _, _⟩ := geometry_iff.1 hg
  rw [course_atClose h hg]
  exact fun hc => brings_ne (by omega) (by omega) (by omega) hb (brings_lookup.2 hc) rfl

theorem course_commit_ne {i : Fin 32} (hb : s.brings s.lug.closeLugs i = true) :
    e1.st.boardAt e1.st.lug.commitPos ≠ some i := by
  obtain ⟨_, _, _, _, _⟩ := geometry_iff.1 hg
  rw [course_atCommit h hg]
  exact fun hc => brings_ne (by omega) (by omega) (by omega) hb (brings_lookup.2 hc) rfl

/-- Where no board at commit_pos is QUEUED or SOLVING at the event's start, none is when the commit is taken. -/
theorem course_alone (ha : ∀ k, s.brings s.lug.commitPos k = true →
      s.lug.boards[k].state ≠ .queued ∧ s.lug.boards[k].state ≠ .solving) {k : Fin 32}
    (hk : e1.st.boardAt e1.st.lug.commitPos = some k) :
    e1.st.lug.boards[k].state ≠ .queued ∧ e1.st.lug.boards[k].state ≠ .solving := by
  obtain ⟨_, _, _, _, h5⟩ := geometry_iff.1 hg
  rw [course_atCommit h hg] at hk
  have hb := brings_lookup.2 hk
  by_cases hcom : s.lug.boards[k].state = .committed
  · have hs : Seated s.lug.boards[k] e1.st.lug.boards[k] :=
      (beforeArm_seated fun hd => brings_ne (by omega) h5 (by omega) hb hd rfl).trans ((course_seats h).boards k)
    have hf := (hs.frozen (by rw [Board.isFrozen, hcom]; rfl)).1
    constructor <;> intro hx <;> rw [Board.isFrozen, hx] at hf <;> exact absurd hf (by decide)
  · rw [course_open h hg (by omega) hb hcom]
    exact ha k hb

end Reached

theorem grows_beforeOpen_opened (s : State) : Grows (beforeOpen s) (opened s) := by
  unfold opened; exact grows_openBoard _

theorem after_has {s : State} {n : Notice} (h : (beforeOpen s).st.note.has n = true) : (afterLug s).note.has n = true := by
  rw [after_note]; exact (grows_beforeOpen_opened s).has h

theorem after_asks_before {s : State} {k : OwnTxn} (h : k ∈ (beforeOpen s).asked) (h1 : ∀ v, k ≠ .ovrConsumer v)
    (h2 : ∀ w, k ≠ .tallyCompletion w) : (afterLug s).path.asks k = true :=
  after_asks ((grows_beforeOpen_opened s).asked _ h) h1 h2

/-! ### The close timeout (R9 to R12) -/

/-- On a line in order the slot of the new lug holds no SCANNING board before it is opened. -/
theorem newSlot_not_scanning {s : State} (hs : LineInv s) (hr : s.running = true) :
    (beforeOpen s).st.lug.boards[slotOf (beforeOpen s).st.lug.current].state ≠ .scanning := by
  obtain ⟨e1, hc⟩ := exists_course s
  have hfree := openingSlot_free hs hr
  have hseat : Seated s.lug.boards[slotOf (s.lug.current + 1)] (beforeOpen s).st.lug.boards[slotOf (s.lug.current + 1)] :=
    (beforeArm_seated fun hd => (brings_iff.1 hd).2.1 hfree).trans
      (((course_seats hc).trans (inOrder_seats hc.inOrder)).boards _)
  have hfree' := hseat.live.2 hfree
  simp only [beforeOpen_current]
  intro hx
  have := hfree'.symm.trans hx
  cases this

/-- R35: on a line in order, a head at a LUG event whose board times out is parked as the boards that it leaves say. -/
theorem after_parked {s : State} (hs : LineInv s) (hr : s.running = true) {k : Fin 6}
    (hb : (beforeOpen s).st.head.ctx[k].state = s.head.ctx[k].state.parkedIn (beforeOpen s).st k)
    (hp : s.head.ctx[k].admitPending = false) :
    (afterLug s).head.ctx[k].state = s.head.ctx[k].state.parkedIn (afterLug s) k := by
  have ho := opened_opens s
  obtain ⟨-, -, h3, -⟩ := after_head_ctx s k
  rcases h3 hp with hd | ⟨h1, h2, hx⟩
  · by_cases hl : s.head.ctx[k].state = .leaving ∧ ¬ (afterLug s).Expects k
    · exfalso
      have hbefore : ¬ (beforeOpen s).st.Expects k := fun hc =>
        hl.2 ((after_expects s k).2 (opens_still_expects ho (newSlot_not_scanning hs hr) hc))
      rw [show s.head.ctx[k].state.parkedIn (beforeOpen s).st k = .parked from if_pos ⟨hl.1, hbefore⟩] at hb
      have hpend : (beforeOpen s).st.head.ctx[k].admitPending = s.head.ctx[k].admitPending :=
        (congrArg HeadCtx.admitPending ((beforeOpen_heads s).2 k).1).trans rfl
      have hadm : (admittedHead (beforeOpen s).st.head.ctx[k]).state = .parked :=
        (if_neg (by rw [hpend, hp]; decide)).trans hb
      have hst := ho.state k
      rw [hadm] at hst
      have hpark := hst.resolve_right fun hc => absurd hc.1 nofun
      rw [after_head, hpark, hl.1] at hd
      cases hd
    · rw [show s.head.ctx[k].state.parkedIn (afterLug s) k = s.head.ctx[k].state from if_neg hl]
      exact hd
  · rw [h2]
    exact (if_pos ⟨h1, hx⟩).symm

/-- Settles O22: the close timeout within the event, and the heads through the opening that follows it. -/
theorem lugEventTimesOut : Obligations.LugEventTimesOut := by
  unfold Obligations.LugEventTimesOut
  intro s i ht hb hscan
  obtain ⟨hr, hg⟩ := takesLug_iff.1 ht
  obtain ⟨h1, h2, h3, h4, h5⟩ := geometry_iff.1 hg
  obtain ⟨e1, hc⟩ := exists_course s
  have hself := course_open hc hg (by omega) hb (by rw [hscan]; nofun)
  have hshadow : shadowAt e1.st i = s.shadowOf s.lug.boards[i].bank := by
    unfold shadowAt
    rw [course_shadow hc, hself]
  obtain ⟨hraised, htold, hcloses, hctx⟩ := inOrder_timesOut hc.inOrder ((course_atClose hc hg).trans (brings_lookup.1 hb))
    (by rw [hself]; exact hscan) (course_commit_ne hc hg hb)
  rw [hself, hshadow, hc.head, hc.solv] at hcloses
  simp only [hself, hc.head] at hctx
  obtain ⟨room, hclose, hfull, halone⟩ := hcloses
  dsimp only
  refine ⟨afterLug s, room, exec_lugEvent hr, after_has hraised, after_asks_before htold nofun nofun, ?_,
    fun hm hn => after_has (hfull hm hn), fun ha => ?_, fun hs k => ?_⟩
  · rw [after_board (brings_ne_new (by omega) h1 hb)]
    exact hclose
  · rw [after_solv]
    exact halone fun k hk => course_alone hc hg ha hk
  · obtain ⟨hd, hact, -, hbad, -⟩ := after_head_ctx s k
    have hstate : (afterLug s).head.ctx[k].state =
        if s.head.ctx[k].admitPending = true then .active else s.head.ctx[k].state.parkedIn (afterLug s) k := by
      by_cases hp : s.head.ctx[k].admitPending = true
      · rw [if_pos hp]; exact hact hp
      · rw [if_neg hp]
        exact after_parked hs hr ((congrArg HeadCtx.state (hctx k)).trans rfl) (by simpa using hp)
    have hlast : (beforeOpen s).st.head.ctx[k].badLast = if s.lug.boards[i].expected.getLsbD k = true then
        s.lug.boards[i].bad[k] else s.head.ctx[k].badLast := (congrArg HeadCtx.badLast (hctx k)).trans rfl
    rw [hd, hstate, hbad, hlast]

/-! ### The commits (R14, R15) -/

theorem after_handed {s : State} {r : DecRecord} (h : Handed s.dec (beforeOpen s).st.dec (beforeOpen s).st.note r) :
    (s.dec.list.length < 8 → r ∈ (afterLug s).dec.list ∨ (afterLug s).dec.writing.map (·.record) = some r) ∧
      (8 ≤ s.dec.list.length → (afterLug s).dec = s.dec ∧ (afterLug s).note.has .decisionOverrun = true) := by
  rw [after_dec]
  exact ⟨h.1, fun h8 => ⟨(h.2 h8).1, after_has (h.2 h8).2⟩⟩

/-- The record of a decision, with the product code of the bank at the event's start. -/
theorem course_record {s : State} {e1 : Ev} (h : Course s e1) (b : Board) (f : FinalDecision) (k : Bank) :
    recordOf e1.st b f k = recordOf s b f k := by
  have hs := course_shadow h (some k)
  unfold recordOf
  rw [show (e1.st.plan.bank k).shadow = (s.plan.bank k).shadow from hs]

/-- R14: the frozen decision of a board with a solution. -/
theorem commitSolved_eq {b : Board} {sol : Solution} (p : Shadow) (h : b.solution = some sol) : b.commitSolved p = { b with
    state := .committed
    final := some { decision := standingDecision p b.classes sol b.overrides, classes := b.classes, station := b.station } } := by
  cases b
  cases h
  rfl

/-- Settles O23: the commit of the SOLVED board, at a slot the rest of the event does not reach. -/
theorem lugEventCommitsSolved : Obligations.LugEventCommitsSolved := by
  unfold Obligations.LugEventCommitsSolved
  intro s i k sol ht hb hsolved hbank hsol
  obtain ⟨hr, hg⟩ := takesLug_iff.1 ht
  obtain ⟨h1, h2, h3, h4, h5⟩ := geometry_iff.1 hg
  obtain ⟨e1, hc⟩ := exists_course s
  have hself := course_open hc hg (by omega) hb (by rw [hsolved]; nofun)
  have hshadow : shadowAt e1.st i = (s.plan.bank k).shadow := by
    unfold shadowAt
    rw [course_shadow hc, hself, hbank]
    rfl
  obtain ⟨hboard, hhand⟩ := inOrder_solved hc.inOrder ((course_atCommit hc hg).trans (brings_lookup.1 hb))
    (course_close_ne hc hg hb) (by rw [hself]; exact hsolved)
  rw [hself, hshadow, commitSolved_eq _ hsol] at hboard hhand
  rw [hc.dec] at hhand
  have hrec := hhand _ k rfl hbank
  rw [course_record hc] at hrec
  dsimp only
  refine ⟨_, exec_lugEvent hr, ?_, after_handed hrec⟩
  rw [after_board (brings_ne_new (by omega) (by omega) hb)]
  exact hboard

/-- Settles O24: the commit of a board not yet solved, which leaves the solver whatever the close timeout does. -/
theorem lugEventCommitsUnsolved : Obligations.LugEventCommitsUnsolved := by
  unfold Obligations.LugEventCommitsUnsolved
  intro s i k ht hb hopen hbank
  obtain ⟨hr, hg⟩ := takesLug_iff.1 ht
  obtain ⟨h1, h2, h3, h4, h5⟩ := geometry_iff.1 hg
  obtain ⟨e1, hc⟩ := exists_course s
  have hself := course_open hc hg (by omega) hb (by rcases hopen with hx | hx <;> rw [hx] <;> nofun)
  have hshadow : shadowAt e1.st i = (s.plan.bank k).shadow := by
    unfold shadowAt
    rw [course_shadow hc, hself, hbank]
    rfl
  have hat := (course_atCommit hc hg).trans (brings_lookup.1 hb)
  have hne : ∀ j, e1.st.boardAt e1.st.lug.closeLugs = some j → e1.st.lug.boards[j].lug ≠ e1.st.lug.boards[i].lug := by
    intro j hj hl
    obtain ⟨hsj, _, hlj⟩ := boardAt_eq_some.1 hj
    obtain ⟨hsi, _, hli⟩ := boardAt_eq_some.1 hat
    refine course_close_ne hc hg hb ?_
    rw [hj, ← hsj, ← hlj, hl, hli, hsi]
  obtain ⟨hboard, hraised, htold, hleft, hhand⟩ := inOrder_unsolved hc.inOrder hat hne (by rw [hself]; exact hopen)
  rw [hself, hshadow] at hboard hhand
  rw [hself] at hleft
  rw [hc.dec] at hhand
  have hrec := hhand _ k rfl hbank
  rw [course_record hc] at hrec
  obtain ⟨hn1, hn2⟩ := notIn_iff.1 hleft
  dsimp only
  refine ⟨_, exec_lugEvent hr, ?_, after_has hraised, after_asks_before htold nofun nofun, by rw [after_solv]; exact hn2,
    by rw [after_solv]; exact hn1, after_handed hrec⟩
  rw [after_board (brings_ne_new (by omega) (by omega) hb)]
  exact hboard

end Sys2Proof.Proofs
end

section
/-! The LUG event's claims on the trim position (R16, R126, R128, R129) and on the drop (R18, R147 to R150, R158). -/

namespace Sys2Proof.Proofs

open Sys2Proof Sys2Proof.Machine Sys2Proof.Laws

/-! ### Records past the commit -/

/-- The record is one that neither the commit, the close timeout nor the solver touches. -/
def Inert (b : Board) : Prop := ¬ Commits b ∧ b.state ≠ .scanning

theorem inert_of_state {b : Board} (h : b.state = .free ∨ b.state = .committed ∨ b.state = .trimmed ∨ b.state = .void) :
    Inert b := by
  constructor
  · rintro (hc | hc | hc) <;> rw [hc] at h <;> simp at h
  · intro hc; rw [hc] at h; simp at h

theorem Inert.not_queued {b : Board} (h : Inert b) : b.state ≠ .queued := fun hc => h.1 (Or.inr (Or.inl hc))

theorem commitBoard_inert {e : Ev} {j : Fin 32} (h : Inert e.st.lug.boards[j]) :
    e.commitBoard.st.lug.boards[j] = e.st.lug.boards[j] := by
  by_cases hj : e.st.boardAt e.st.lug.commitPos = some j
  · rw [commitBoard_idle fun i hi => by rw [hj] at hi; cases hi; exact h.1]
  · exact (commitBoard_others hj).of_ne (Inert.not_queued h)

theorem closeTimeout_inert {e : Ev} {j : Fin 32} (h : Inert e.st.lug.boards[j]) :
    e.closeTimeout.st.lug.boards[j] = e.st.lug.boards[j] := by
  by_cases hj : e.st.boardAt e.st.lug.closeLugs = some j
  · rw [closeTimeout_idle fun i hi => by rw [hj] at hi; cases hi; exact h.2]
  · exact (closeTimeout_others hj).of_ne (Inert.not_queued h)

theorem inOrder_inert {e e' : Ev} (h : InOrder e e') {j : Fin 32} (hj : Inert e.st.lug.boards[j]) :
    e'.st.lug.boards[j] = e.st.lug.boards[j] := by
  rcases h with rfl | ⟨_, rfl⟩
  · have hc := commitBoard_inert hj
    rw [closeTimeout_inert (by rw [hc]; exact hj), hc]
  · have hc := closeTimeout_inert hj
    rw [commitBoard_inert (by rw [hc]; exact hj), hc]

/-- A record that comes inert to the commit, in a slot that is not opened, is what the event leaves. -/
theorem after_inert {s : State} {j : Fin 32} (hj : j ≠ slotOf (s.lug.current + 1))
    (hi : Inert (beforeCommit s).st.lug.boards[j]) : (afterLug s).lug.boards[j] = (beforeCommit s).st.lug.boards[j] := by
  obtain ⟨e1, hc⟩ := exists_course s
  have hlug : e1.st.lug.boards[j] = (beforeCommit s).st.lug.boards[j] := by simp only [hc.lug]
  rw [after_board hj, inOrder_inert hc.inOrder (by rw [hlug]; exact hi), hlug]

/-! ### The trim output unit (R126, R128, R129) -/

theorem after_trim (s : State) : (afterLug s).trim = (beforeCommit s).st.trim := by
  rw [afterLug_eq, Ev.finish_trim, Ev.ask_st]
  unfold opened beforeOpen
  exact (keeps_openBoard _).trim.trans (keeps_commitAndTimeout _).trim

theorem lateTrim_table (s : State) : lateTrim s = { s.trim with armed := (lateTrim s).armed, channels := (lateTrim s).channels } := by
  unfold lateTrim
  split <;> rfl

theorem lateTrim_none {s : State} (h : s.trim.armed = none) : lateTrim s = s.trim := by
  unfold lateTrim
  rw [h]

theorem lateTrim_some {s : State} {a : ArmedFire} (h : s.trim.armed = some a) : lateTrim s = s.trim.drive a.saws := by
  unfold lateTrim
  rw [h]

theorem lateTrim_channels (s : State) (k : Fin 11) : (lateTrim s).channels[k] =
    if ∃ a, s.trim.armed = some a ∧ a.saws.getLsbD k = true then some s.trim.sawHold else s.trim.channels[k] := by
  cases ha : s.trim.armed with
  | none => simp only [lateTrim_none ha, reduceCtorEq, false_and, exists_false, if_false]
  | some a =>
    simp only [lateTrim_some ha, Option.some.injEq, exists_eq_left']
    exact drive_channels _ _ _

/-! ### The late fire (R128) -/

/-- What a LUG event makes of a fire still armed. -/
theorem after_late {s : State} (ht : s.takesLug = true) {a : ArmedFire} (ha : s.trim.armed = some a) :
    (afterLug s).note.has .encoderSlip = true ∧ (afterLug s).path.asks .notice = true ∧
    ∀ j, s.lookup a.lug = some j → s.lug.boards[j].state = .committed → j ≠ slotOf (s.lug.current + 1) →
      (s.brings s.lug.dropPos j = false → (afterLug s).lug.boards[j] = { s.lug.boards[j] with state := .trimmed }) ∧
      (s.brings s.lug.dropPos j = true → (afterLug s).lug.boards[j].state = .free) := by
  obtain ⟨hr, hg⟩ := takesLug_iff.1 ht
  have hfire : (advanced s).lateFire = ((advanced s).fire a).raise .encoderSlip :=
    lateFire_armed (by rw [(keeps_advanced s).trim]; exact ha)
  obtain ⟨e1, hc⟩ := exists_course s
  have hgrow : Grows (advanced s).lateFire (opened s) := by
    refine Grows.trans ?_ (hc.later.trans (course_grows hc))
    unfold beforeCommit
    exact (grows_dropBoard _).trans (grows_armBoard _)
  refine ⟨?_, ?_, fun j hl hcom hj => ?_⟩
  · rw [after_note]
    refine hgrow.has ?_
    rw [hfire]; exact raise_has _ _
  · refine after_asks (hgrow.asked _ ?_) nofun nofun
    rw [hfire]; exact raise_asks _ _
  · have hlate := lateBoard_fired ha hl hcom
    have hread : (beforeCommit s).st.lug.boards[j] = (beforeArm s).st.lug.boards[j] := by
      rcases beforeCommit_read hg j with ⟨f, hx, _⟩ | ⟨_, h⟩
      · have := hx.2.1
        rw [hlate] at this
        cases this
      · exact h
    rw [beforeArm_read, hlate] at hread
    constructor
    · intro hd
      rw [if_neg (by rw [hd]; decide)] at hread
      rw [after_inert hj (by rw [hread]; exact inert_of_state (Or.inr (Or.inr (Or.inl rfl)))), hread]
      rfl
    · intro hd
      rw [if_pos hd] at hread
      rw [after_inert hj (by rw [hread]; exact inert_of_state (Or.inl rfl)), hread]
      rfl

/-! ### The board at trim_pos (R16, R126) -/

/-- A COMMITTED board of which the armed fire is not comes to trim_pos. -/
theorem comesToTrim_of {s : State} {i : Fin 32} {f : FinalDecision} (hb : s.brings s.lug.trimPos i = true)
    (hc : s.lug.boards[i].state = .committed) (hf : s.lug.boards[i].final = some f)
    (ha : ∀ a, s.trim.armed = some a → a.lug ≠ s.lug.boards[i].lug) :
    ComesToTrim s i ∧ lateBoard s i = s.lug.boards[i] := by
  have hl : lateBoard s i = s.lug.boards[i] := lateBoard_of_not_armed fun a hx hy => by
    refine ha a hx ?_
    exact (lookup_eq_some.1 hy).2.2.symm
  exact ⟨⟨hb, by rw [hl]; exact hc, by rw [hf]; nofun⟩, hl⟩

theorem not_comesToTrim {s : State}
    (h : ∀ i, s.brings s.lug.trimPos i = true → s.lug.boards[i].state = .committed → s.lug.boards[i].final ≠ none →
      ∃ a, s.trim.armed = some a ∧ a.lug = s.lug.boards[i].lug) (i : Fin 32) : ¬ ComesToTrim s i := by
  rintro ⟨hb, hc, hf⟩
  have hl := lateBoard_committed hc
  have hcom : s.lug.boards[i].state = .committed := by rw [← hl]; exact hc
  obtain ⟨a, ha, hlug⟩ := h i hb hcom hf
  have hlook : s.lookup a.lug = some i := by
    rw [hlug, (brings_iff.1 hb).2.2]
    exact brings_lookup.1 hb
  rw [lateBoard_fired ha hlook hcom] at hc
  cases hc

/-- The board that comes to trim_pos, armed or fired at once, with the trim output unit after it. -/
theorem after_trimmed {s : State} (ht : s.takesLug = true) {i : Fin 32} {f : FinalDecision} (hx : ComesToTrim s i)
    (hl : lateBoard s i = s.lug.boards[i]) (hf : s.lug.boards[i].final = some f) :
    (0 < s.trim.fireDelay → (afterLug s).lug.boards[i] = s.lug.boards[i] ∧
      (afterLug s).trim = { lateTrim s with armed := some { lug := s.lug.boards[i].lug, saws := f.decision.saws } }) ∧
    (s.trim.fireDelay = 0 → (afterLug s).lug.boards[i] = { s.lug.boards[i] with state := .trimmed } ∧
      (afterLug s).trim = (lateTrim s).drive f.decision.saws) := by
  obtain ⟨hr, hg⟩ := takesLug_iff.1 ht
  obtain ⟨_, _, _, _, h5⟩ := geometry_iff.1 hg
  have hnew := brings_ne_new (by omega) (by omega) hx.1
  have htake := beforeCommit_takes hg hx hf
  have hcom := hx.2.1
  rw [hl] at hcom
  have hread := beforeCommit_read hg i
  rw [beforeArm_read, if_neg (brings_trim_not_drop hg hx.1), hl] at hread
  rw [after_trim]
  refine ⟨fun hd => ⟨?_, ?_⟩, fun hd => ⟨?_, ?_⟩⟩
  · have hsame := (hread.resolve_left fun ⟨_, _, _, h0, _⟩ => by omega).2
    rw [after_inert hnew (by rw [hsame]; exact inert_of_state (Or.inr (Or.inl hcom))), hsame]
  · rw [htake, if_neg (by omega), ← beforeArm_trim]
    rfl
  · obtain ⟨_, _, _, _, htrim⟩ := hread.resolve_right fun hc => hc.1 ⟨hx, hd⟩
    rw [after_inert hnew (by rw [htrim]; exact inert_of_state (Or.inr (Or.inr (Or.inl rfl)))), htrim]
    rfl
  · rw [htake, if_pos hd, fire_st, beforeArm_trim]

/-- Settles O25: the late fire, and then the board at trim_pos, armed or fired at once; with none there the unit rests. -/
theorem lugEventArmsAndFires : Obligations.LugEventArmsAndFires := by
  unfold Obligations.LugEventArmsAndFires
  refine ⟨fun s i f ht hb hc hf ha => ?_, fun s ht hno => ?_⟩
  · obtain ⟨hr, hg⟩ := takesLug_iff.1 ht
    obtain ⟨hx, hl⟩ := comesToTrim_of hb hc hf ha
    obtain ⟨hdelay, hnow⟩ := after_trimmed ht hx hl hf
    have hch := lateTrim_channels s
    have htab := lateTrim_table s
    have hhold : (lateTrim s).sawHold = s.trim.sawHold := by rw [htab]
    rcases Nat.eq_zero_or_pos s.trim.fireDelay with h0 | h0
    · obtain ⟨hboard, htrim⟩ := hnow h0
      refine ⟨_, exec_lugEvent hr, ?_, fun hp => absurd h0 (by omega), fun _ => ⟨hboard, ?_⟩, fun a hs => after_late ht hs,
        fun k => ?_⟩
      · rw [htrim, htab]; rfl
      · rw [htrim]; rfl
      · have hk := drive_channels (lateTrim s) f.decision.saws k
        rw [hch k, hhold] at hk
        simp only [htrim]
        rw [hk]
        by_cases h1 : f.decision.saws.getLsbD k = true
        · rw [if_pos h1, if_pos (Or.inl ⟨h0, h1⟩)]
        · rw [if_neg h1]
          simp only [h1, and_false, false_or, Bool.false_eq_true]
    · obtain ⟨hboard, htrim⟩ := hdelay h0
      refine ⟨_, exec_lugEvent hr, ?_, fun _ => ⟨hboard, ?_⟩, fun hz => absurd h0 (by omega), fun a hs => after_late ht hs,
        fun k => ?_⟩
      · rw [htrim, htab]
      · rw [htrim]
      · simp only [htrim]
        rw [hch k]
        simp only [h0.ne', false_and, false_or]
  · obtain ⟨hr, hg⟩ := takesLug_iff.1 ht
    have htrim : (afterLug s).trim = lateTrim s := by
      rw [after_trim, beforeCommit_idle hg (not_comesToTrim hno), beforeArm_trim]
    refine ⟨_, exec_lugEvent hr, fun hn => by rw [htrim, lateTrim_none hn], fun a ha => ⟨after_late ht ha, ?_, fun k => ?_⟩⟩
    · rw [htrim, lateTrim_some ha]; rfl
    · simp only [htrim, lateTrim_some ha]
      exact drive_channels _ _ _

end Sys2Proof.Proofs
end

section
/-! The LUG event's claim on the drop: the offer to the tally (R147 to R150, R158) and what an addition changes (R145, R148,
R215). -/

namespace Sys2Proof.Proofs

open Sys2Proof Sys2Proof.Machine Sys2Proof.Laws

/-! ### An offer (R147 to R150, R158) -/

section Offer
variable (e : Ev) (o : TallyOffer)

/-- The board has been stranded, with the tally otherwise `v` (R150). -/
def Stranded (e : Ev) (v : Tally) : Prop := e.st.tally = v.withStranded ∧ e.st.note.has .tallyStranded = true

/-- The board waits for the snapshot to end, or is stranded where the list is full (R158). -/
def Held (e : Ev) (v : Tally) (o : TallyOffer) : Prop :=
  (v.holding.length < 4 → e.st.tally = { v with holding := v.holding ++ [o] }) ∧ (4 ≤ v.holding.length → Stranded e v)

theorem strand_stranded : Stranded e.strand e.st.tally := by
  refine ⟨?_, raise_has _ _⟩
  unfold Ev.strand
  rw [Ev.raise_tally, changeTally_tally]
  rfl

theorem holdBoard_held : Held (e.holdBoard o) e.st.tally o := by
  unfold Ev.holdBoard
  split
  · rename_i h
    exact ⟨fun _ => changeTally_tally _ _, fun hc => absurd h (by omega)⟩
  · rename_i h
    exact ⟨fun hc => absurd hc h, fun _ => strand_stranded e⟩

theorem addTo_tally (k : Bank) : (e.addTo k o).st.tally = e.st.tally.setBank k ((e.st.tally.bank k).add o) :=
  changeTally_tally _ _

theorem withState_other (u : Tally) (k : Bank) (st : TallyState) : (u.withState k st).bank k.other = u.bank k.other := by
  cases k <;> rfl

theorem withState_underSnapshot (u : Tally) (k : Bank) (st : TallyState) :
    (u.withState k st).underSnapshot = u.underSnapshot := by
  cases k <;> rfl

theorem withState_holding (u : Tally) (k : Bank) (st : TallyState) : (u.withState k st).holding = u.holding := by
  cases k <;> rfl

/-- The tally once bank `k` is FULL, and once the other bank is opened besides (R149). -/
def filled (k : Bank) : Ev := (e.changeTally fun t => t.withState k .full).raise .tallyFull

def turned (k : Bank) : Ev := (filled e k).changeTally fun t => t.withState k.other .opened

theorem filled_tally (k : Bank) : (filled e k).st.tally = e.st.tally.withState k .full := by
  unfold filled
  rw [Ev.raise_tally, changeTally_tally]

theorem turned_tally (k : Bank) :
    (turned e k).st.tally = (e.st.tally.withState k .full).withState k.other .opened := by
  unfold turned
  rw [changeTally_tally, filled_tally]

theorem overflow_eq (k : Bank) : e.overflow k o = if (e.st.tally.bank k.other).state = .empty then
    (if e.st.tally.underSnapshot = some k.other then (turned e k).holdBoard o else (turned e k).addTo k.other o)
    else (filled e k).strand := by
  have h1 : ((filled e k).st.tally.bank k.other).state = (e.st.tally.bank k.other).state := by
    rw [filled_tally, withState_other]
  have h2 : (turned e k).st.tally.underSnapshot = e.st.tally.underSnapshot := by
    rw [turned_tally, withState_underSnapshot, withState_underSnapshot]
  rw [← h1, ← h2]
  rfl

variable {e o}

theorem offer_none (h : e.st.tally.openBank = none) : e.offer o = e.strand := by
  unfold Ev.offer
  rw [h]

theorem offer_held {k : Bank} (h : e.st.tally.openBank = some k) (hs : e.st.tally.underSnapshot = some k) :
    e.offer o = e.holdBoard o := by
  unfold Ev.offer
  rw [h]
  exact if_pos hs

theorem offer_fits {k : Bank} (h : e.st.tally.openBank = some k) (hs : e.st.tally.underSnapshot ≠ some k)
    (hf : (e.st.tally.bank k).fits o = true) : e.offer o = e.addTo k o := by
  unfold Ev.offer
  rw [h]
  exact (if_neg hs).trans (if_pos hf)

theorem offer_overflows {k : Bank} (h : e.st.tally.openBank = some k) (hs : e.st.tally.underSnapshot ≠ some k)
    (hf : (e.st.tally.bank k).fits o = false) : e.offer o = e.overflow k o := by
  unfold Ev.offer
  rw [h]
  exact (if_neg hs).trans (if_neg (by rw [hf]; decide))

theorem grows_turned (e : Ev) (k : Bank) : Grows (filled e k) (turned e k) := grows_changeTally _ _

/-- All that an offer can do (R147 to R150, R158). -/
theorem offer_outcome (e : Ev) (o : TallyOffer) :
    let u := e.st.tally
    let e' := e.offer o
    (u.openBank = none → Stranded e' u) ∧
    ∀ k, u.openBank = some k →
      (u.underSnapshot = some k → Held e' u o) ∧
      (u.underSnapshot ≠ some k → (u.bank k).fits o = true → e'.st.tally = u.setBank k ((u.bank k).add o)) ∧
      (u.underSnapshot ≠ some k → (u.bank k).fits o = false → e'.st.note.has .tallyFull = true ∧
        ((u.bank k.other).state ≠ .empty → Stranded e' (u.withState k .full)) ∧
        ((u.bank k.other).state = .empty → u.underSnapshot = some k.other →
          Held e' ((u.withState k .full).withState k.other .opened) o) ∧
        ((u.bank k.other).state = .empty → u.underSnapshot = none →
          e'.st.tally = ((u.withState k .full).withState k.other .opened).setBank k.other
            ((((u.withState k .full).withState k.other .opened).bank k.other).add o))) := by
  dsimp only
  refine ⟨fun h => by rw [offer_none h]; exact strand_stranded e, fun k h => ⟨fun hs => ?_, fun hs hf => ?_, fun hs hf => ?_⟩⟩
  · rw [offer_held h hs]; exact holdBoard_held e o
  · rw [offer_fits h hs hf]; exact addTo_tally e o k
  · rw [offer_overflows h hs hf, overflow_eq]
    have hfull : (filled e k).st.note.has .tallyFull = true := raise_has _ _
    by_cases hother : (e.st.tally.bank k.other).state = .empty
    · rw [if_pos hother]
      refine ⟨?_, fun hc => absurd hother hc, fun _ hx => ?_, fun _ hx => ?_⟩
      · split
        · exact ((grows_turned e k).trans (grows_holdBoard _ _)).has hfull
        · exact ((grows_turned e k).trans (grows_changeTally _ _)).has hfull
      · rw [if_pos hx, ← turned_tally]
        exact holdBoard_held _ _
      · rw [if_neg (by rw [hx]; nofun), ← turned_tally]
        exact addTo_tally _ _ _
    · rw [if_neg hother]
      refine ⟨?_, fun _ => ?_, fun hc => absurd hc hother, fun hc => absurd hc hother⟩
      · exact ((grows_changeTally _ _).trans (grows_raise _ _)).has hfull
      · rw [← filled_tally]
        exact strand_stranded _

end Offer

/-! ### An addition (R145, R148, R215) -/

/-- The class code of the tally's cells (R215). -/
theorem cell_val {o : TallyOffer} (h : o.lengthIdx < 12) : o.cell.val = 12 * (o.cls.code - 1) + o.lengthIdx := by
  have hc : o.cls.code ≤ 8 := by
    cases o.cls with
    | grade g => cases g <;> decide
    | reman => decide
    | trash => decide
  show (12 * (o.cls.code - 1) + o.lengthIdx) % 96 = _
  omega

theorem toNat_eq_ite (b : Bool) : b.toNat = if b = true then 1 else 0 := by cases b <;> rfl

theorem add_cells (b : TallyBank) (o : TallyOffer) (n : Fin 96) : (b.add o).cells[n] =
    if n = o.cell then { pieces := b.cells[o.cell].pieces + 1, bf10 := b.cells[o.cell].bf10 + o.bf10 } else b.cells[n] := by
  unfold TallyBank.add
  dsimp only
  by_cases hn : n = o.cell
  · subst hn
    rw [if_pos rfl]
    exact Vector.getElem_set_self o.cell.2
  · rw [if_neg hn]
    exact Vector.getElem_set_ne o.cell.2 n.2 fun hc => hn (Fin.ext hc.symm)

theorem fits_iff (b : TallyBank) (o : TallyOffer) : b.fits o = true ↔
    b.cells[o.cell].pieces + 1 < 2 ^ 24 ∧ b.cells[o.cell].bf10 + o.bf10 < 2 ^ 32 ∧ b.dropped + 1 < 2 ^ 32 ∧
      b.overridden + o.overridden.toNat < 2 ^ 32 ∧ b.degraded + o.degraded.toNat < 2 ^ 32 ∧
      b.unsolved + o.unsolved.toNat < 2 ^ 32 := by
  unfold TallyBank.fits maxPieces maxWord
  simp only [Bool.and_eq_true, decide_eq_true_eq, and_assoc]
  generalize b.cells[o.cell] = c
  omega

/-! ### The drop (R18) -/

theorem after_tally (s : State) : (afterLug s).tally = (beforeArm s).st.tally := by
  rw [afterLug_eq, Ev.finish_tally, Ev.ask_st]
  unfold opened beforeOpen
  rw [beforeCommit_eq]
  exact ((keeps_openBoard _).tally.trans (keeps_commitAndTimeout _).tally).trans (keeps_armBoard _).tally

theorem grows_beforeArm_opened (s : State) : Grows (beforeArm s) (opened s) := by
  obtain ⟨e1, hc⟩ := exists_course s
  refine Grows.trans ?_ (hc.later.trans (course_grows hc))
  rw [beforeCommit_eq]
  exact grows_armBoard _

section Drop
variable {s : State} {i : Fin 32} (hb : s.brings s.lug.dropPos i = true)

include hb

theorem drop_at : (advanced s).lateFire.st.boardAt (advanced s).lateFire.st.lug.dropPos = some i := by
  have hs := seats_lateFire (advanced s)
  rw [boardAt_seats hs, advanced_boardAt, hs.dropPos, advanced_lug]
  exact brings_lookup.1 hb

theorem after_dropped (hg : s.lug.geometry = true) : (afterLug s).lug.boards[i].state = .free := by
  obtain ⟨_, _, _, _, h5⟩ := geometry_iff.1 hg
  have hread : (beforeCommit s).st.lug.boards[i] = freed (lateBoard s i) := by
    rcases beforeCommit_read hg i with ⟨f, hx, _⟩ | ⟨_, h⟩
    · exact absurd hb (brings_trim_not_drop hg hx.1)
    · rw [h, beforeArm_read, if_pos hb]
  rw [after_inert (brings_ne_new h5 (by omega) hb) (by rw [hread]; exact inert_of_state (Or.inl rfl)), hread]
  rfl

/-- A VOID record offers nothing. -/
theorem after_void (hv : s.lug.boards[i].state = .void) : (afterLug s).tally = s.tally := by
  have hl : (advanced s).lateFire.st.lug.boards[i] = s.lug.boards[i] := by
    rw [lateFire_read, lateBoard_of_not_committed (by rw [hv]; nofun)]
  have hdrop : (advanced s).lateFire.dropBoard = (advanced s).lateFire.freeBoard i := by
    unfold Ev.dropBoard
    rw [drop_at hb]
    dsimp only
    rw [hl, hv]
  rw [after_tally]
  unfold beforeArm
  rw [hdrop, freeBoard_st]
  exact (keeps_lateFire _).tally.trans (keeps_advanced s).tally

/-- A board TRIMMED, or trimmed by the late fire, is offered. -/
theorem drop_offers {f : FinalDecision} (hoff : s.lug.boards[i].state = .trimmed ∨
      (s.lug.boards[i].state = .committed ∧ ∃ a, s.trim.armed = some a ∧ s.lookup a.lug = some i))
    (hf : s.lug.boards[i].final = some f) :
    beforeArm s = ((advanced s).lateFire.offer (offerOf f s.lug.boards[i].flags)).freeBoard i := by
  have hl : lateBoard s i = trimmedBoard s.lug.boards[i] := by
    rcases hoff with h | ⟨h, a, ha, hl⟩
    · rw [lateBoard_of_not_committed (by rw [h]; nofun)]
      unfold trimmedBoard
      rw [← h]
    · exact lateBoard_fired ha hl h
  have hread : (advanced s).lateFire.st.lug.boards[i] = trimmedBoard s.lug.boards[i] := by rw [lateFire_read, hl]
  unfold beforeArm Ev.dropBoard
  rw [drop_at hb]
  dsimp only
  rw [hread, show (trimmedBoard s.lug.boards[i]).final = some f from hf]
  rfl

end Drop

/-- Settles O26: the drop and its offer, which the rest of the event does not touch; and the arithmetic of an addition. -/
theorem lugEventDrops : Obligations.LugEventDrops := by
  unfold Obligations.LugEventDrops
  refine ⟨fun s i ht hb => ?_, fun b o => ?_⟩
  · obtain ⟨hr, hg⟩ := takesLug_iff.1 ht
    dsimp only
    refine ⟨_, exec_lugEvent hr, fun _ => after_dropped hb hg, fun hv => after_void hb hv, fun f hoff hf => ?_⟩
    have hdrop := drop_offers hb hoff hf
    have hu : (advanced s).lateFire.st.tally = s.tally := (keeps_lateFire _).tally.trans (keeps_advanced s).tally
    have hout := offer_outcome (advanced s).lateFire (offerOf f s.lug.boards[i].flags)
    have hgrow := grows_beforeArm_opened s
    have htally := after_tally s
    rw [hdrop] at hgrow htally
    rw [freeBoard_st] at htally
    generalize (advanced s).lateFire.offer (offerOf f s.lug.boards[i].flags) = e' at hout hgrow htally
    have htally : (afterLug s).tally = e'.st.tally := htally
    have hnote : ∀ n, e'.st.note.has n = true → (afterLug s).note.has n = true := fun n hn => by
      rw [after_note]; exact ((grows_freeBoard e' i).trans hgrow).has hn
    have hstrand : ∀ v, Stranded e' v → (afterLug s).tally = v.withStranded ∧
        (afterLug s).note.has .tallyStranded = true := fun v hv => ⟨htally.trans hv.1, hnote _ hv.2⟩
    have hheld : ∀ v, v.holding = s.tally.holding → Held e' v (offerOf f s.lug.boards[i].flags) →
        (s.tally.holding.length < 4 → (afterLug s).tally =
          { v with holding := s.tally.holding ++ [offerOf f s.lug.boards[i].flags] }) ∧
        (4 ≤ s.tally.holding.length → (afterLug s).tally = v.withStranded ∧
          (afterLug s).note.has .tallyStranded = true) := fun v hv hh => by
      unfold Held at hh
      rw [hv] at hh
      exact ⟨fun h => htally.trans (hh.1 h), fun h => hstrand v (hh.2 h)⟩
    dsimp only at hout
    rw [hu] at hout
    obtain ⟨hnone, hsome⟩ := hout
    refine ⟨fun h => hstrand _ (hnone h), fun k hk => ?_⟩
    obtain ⟨h1, h2, h3⟩ := hsome k hk
    refine ⟨fun hs => hheld _ rfl (h1 hs), fun hs hfit => htally.trans (h2 hs hfit), fun hs hfit => ?_⟩
    obtain ⟨h4, h5, h6, h7⟩ := h3 hs hfit
    exact ⟨hnote _ h4, fun ho => hstrand _ (h5 ho),
      fun ho hx => hheld _ (by rw [withState_holding, withState_holding]) (h6 ho hx), fun ho hx => htally.trans (h7 ho hx)⟩
  · dsimp only
    simp only [← toNat_eq_ite]
    refine ⟨fun h => ?_, ?_, fun n hn => ?_, rfl, fits_iff b o⟩
    · rw [cell_val h]
      cases o.cls with
      | grade g => cases g <;> rfl
      | reman => rfl
      | trash => rfl
    · rw [add_cells, if_pos rfl]
    · rw [add_cells, if_neg hn]

end Sys2Proof.Proofs
end

section
/-! One head's context through an event (R22, R35, R197): the moves a line edge and a command are made of, said once; then the
edges of the head lines (R24 to R27), and the timers (R30, R130). -/

namespace Sys2Proof.Proofs

open Sys2Proof Sys2Proof.Machine Sys2Proof.Laws

/-! ### The moves of one head -/

/-- The notice unit with a notice raised, if there is one. -/
def noted (u : NoticeUnit) : Option Notice → NoticeUnit
  | some n => u.raised n
  | none => u

/-- From `e` to `e'` the context of head `h` has become `c` and notice `n`, if any, has been raised; nothing else of the state
has changed. HEAD_STATUS is asked for where a field that it shows differs (R22), and NOTICE where a notice was raised (R197). -/
structure HeadMoves (h : Fin 6) (e e' : Ev) (c : HeadCtx) (n : Option Notice) : Prop where
  st : e'.st = { e.st with head := { e.st.head with ctx := e.st.head.ctx.set h c }, note := noted e.st.note n }
  grows : Grows e e'
  shown : c.shown ≠ e.st.head.ctx[h].shown → .headStatus h ∈ e'.asked
  notice : n ≠ none → .notice ∈ e'.asked

section Moves
variable {h : Fin 6} {e e' : Ev} {c : HeadCtx} {n : Option Notice}

theorem HeadMoves.refl (h : Fin 6) (e : Ev) : HeadMoves h e e e.st.head.ctx[h] none := by
  refine ⟨?_, Grows.refl e, fun hc => absurd rfl hc, fun hc => absurd rfl hc⟩
  rw [show e.st.head.ctx.set h e.st.head.ctx[h] = e.st.head.ctx from Vector.set_getElem_self h.2]
  rfl

theorem HeadMoves.start (hc : e.st.head.ctx[h] = c) : HeadMoves h e e c none := hc ▸ HeadMoves.refl h e

theorem HeadMoves.ctx (hm : HeadMoves h e e' c n) (k : Fin 6) :
    e'.st.head.ctx[k] = if k = h then c else e.st.head.ctx[k] := by
  rw [hm.st]; exact ctx_set _ _ _ _

theorem HeadMoves.self (hm : HeadMoves h e e' c n) : e'.st.head.ctx[h] = c := by
  rw [hm.ctx, if_pos rfl]

theorem HeadMoves.change (hm : HeadMoves h e e' c n) (f : HeadCtx → HeadCtx) :
    HeadMoves h e (e'.changeHead h f) (f c) n := by
  refine ⟨?_, hm.grows.trans (grows_changeHead _ _ _), fun hc => ?_, fun hn => ?_⟩
  · rw [changeHead_st, hm.self, hm.st]
    simp only [Vector.set_set]
  · by_cases hf : (f c).shown = c.shown
    · exact (grows_changeHead _ _ _).asked _ (hm.shown (hf ▸ hc))
    · exact changeHead_asks _ _ _ (by rw [hm.self]; exact hf)
  · exact (grows_changeHead _ _ _).asked _ (hm.notice hn)

theorem HeadMoves.raise (hm : HeadMoves h e e' c none) (k : Notice) : HeadMoves h e (e'.raise k) c (some k) := by
  refine ⟨?_, hm.grows.trans (grows_raise _ _), fun hc => (grows_raise _ _).asked _ (hm.shown hc),
    fun _ => raise_asks _ _⟩
  unfold Ev.raise
  rw [Ev.ask_st, Ev.modify_st, hm.st]
  rfl

/-- R35: the parking test of the head moved, which looks at the boards as they were. -/
theorem HeadMoves.park (hm : HeadMoves h e e' c n) :
    HeadMoves h e (e'.parkTest h) { c with state := c.state.parkedIn e.st h } n := by
  have hx : e'.st.Expects h ↔ e.st.Expects h := expects_of_boards (by rw [hm.st]) h
  have hiff : (e'.st.head.ctx[h].state = .leaving && !e'.st.expectsHead h) = true ↔
      c.state = .leaving ∧ ¬ e.st.Expects h := by
    rw [hm.self, ← hx, ← expectsHead_iff]; simp
  unfold Ev.parkTest HeadState.parkedIn
  by_cases hp : c.state = .leaving ∧ ¬ e.st.Expects h
  · rw [if_pos hp, if_pos (hiff.2 hp)]
    exact hm.change _
  · rw [if_neg hp, if_neg fun hc => hp (hiff.1 hc)]
    exact hm

/-- R31: the answer of a command, for which HEAD_STATUS is asked even where it repeats. -/
theorem HeadMoves.answer (hm : HeadMoves h e e' c n) (r : CommandResult) :
    HeadMoves h e (e'.answerCommand h r) { c with last := r } n := by
  obtain ⟨hst, hg, hs, hn⟩ := hm.change fun c => { c with last := r }
  exact ⟨hst, hg.trans (grows_ask _ _), fun _ => by simp [Ev.answerCommand],
    fun hc => (grows_ask _ _).asked _ (hn hc)⟩

/-- What an event that has moved one head, after a change of the pins, leaves at its end. -/
theorem HeadMoves.finish {s : State} {p : Pins} (hm : HeadMoves h e e' c n) (hp : e.st = { s with pins := p })
    (hr : e.returned = []) :
    let t := e'.finish
    t = { s with head := t.head, note := t.note, path := t.path, pins := t.pins } ∧ s.path.Grew t.path ∧ t.pins = p ∧
      t.head = { s.head with ctx := s.head.ctx.set h c } ∧ t.note = noted s.note n ∧
      (c.shown ≠ s.head.ctx[h].shown → t.path.asks (.headStatus h) = true) ∧
      (n ≠ none → t.path.asks .notice = true) := by
  have hst := hm.st
  rw [hp] at hst
  refine ⟨?_, Ev.finish_grew (by rw [hst]) (hm.grows.returned.trans hr), ?_, ?_, ?_, fun hc => ?_, fun hn => ?_⟩
  · unfold Ev.finish; rw [hst]
  · rw [Ev.finish_pins, hst]
  · rw [Ev.finish_head, hst]
  · rw [Ev.finish_note, hst]
  · exact Ev.finish_asks (hm.shown (by rw [hp]; exact hc)) nofun nofun
  · exact Ev.finish_asks (hm.notice hn) nofun nofun

end Moves

/-! ### The edges of the head lines (R24 to R27) -/

theorem takesEdges_iff {s : State} {h : Fin 6} :
    s.takesEdges h = true ↔ s.running = true ∧ s.head.fitted.getLsbD h = true := Bool.and_eq_true_iff

theorem not_takesEdges {s : State} {h : Fin 6} (hn : s.running = false ∨ s.head.fitted.getLsbD h = false) :
    ¬ s.takesEdges h = true := fun ht => by
  obtain ⟨hr, hf⟩ := takesEdges_iff.1 ht
  rw [hr, hf] at hn
  exact hn.elim nofun nofun

/-- A head context after a rise of HEAD_PRESENT (R25). -/
def presentRisen (c : HeadCtx) : HeadCtx :=
  { c with present := true, state := if c.state = .absent then (if c.ready then .waiting else .joining) else c.state }

/-- A head context after a rise of HEAD_READY (R26). -/
def readyRisen (c : HeadCtx) : HeadCtx :=
  { c with ready := true, state := if c.state = .joining then .waiting else c.state }

/-- HEAD_PRESENT_RISE at a fitted head (R25). -/
theorem exec_headPresentRise {h : Fin 6} {s : State} (ht : s.takesEdges h = true) :
    ∃ e', exec (.headPresentRise h) s = .next e'.finish ∧
      HeadMoves h ((Ev.start s).presentPin h true) e' (presentRisen s.head.ctx[h])
        (if s.head.ctx[h].state = .absent ∧ s.head.ctx[h].ready = true then some .headWaiting else none) := by
  show ∃ e', execHeadPresentRise h s = _ ∧ _
  unfold execHeadPresentRise
  dsimp only
  rw [if_pos ht]
  generalize hc : s.head.ctx[h] = c
  have hm := (HeadMoves.start (e := (Ev.start s).presentPin h true) hc).change fun c => { c with present := true }
  rcases c with ⟨st, p, r, a, l, b⟩
  cases st with
  | absent =>
    cases r with
    | true => exact ⟨_, rfl, (hm.change fun c => { c with state := .waiting }).raise .headWaiting⟩
    | false => exact ⟨_, rfl, hm.change fun c => { c with state := .joining }⟩
  | joining | waiting | active | leaving | parked => exact ⟨_, rfl, hm⟩

/-- HEAD_READY_RISE at a fitted head (R26). -/
theorem exec_headReadyRise {h : Fin 6} {s : State} (ht : s.takesEdges h = true) :
    ∃ e', exec (.headReadyRise h) s = .next e'.finish ∧
      HeadMoves h ((Ev.start s).readyPin h true) e' (readyRisen s.head.ctx[h])
        (if s.head.ctx[h].state = .joining then some .headWaiting else none) := by
  show ∃ e', execHeadReadyRise h s = _ ∧ _
  unfold execHeadReadyRise
  dsimp only
  rw [if_pos ht]
  generalize hc : s.head.ctx[h] = c
  have hm := (HeadMoves.start (e := (Ev.start s).readyPin h true) hc).change fun c => { c with ready := true }
  rcases c with ⟨st, p, r, a, l, b⟩
  cases st with
  | joining => exact ⟨_, rfl, (hm.change fun c => { c with state := .waiting }).raise .headWaiting⟩
  | absent | waiting | active | leaving | parked => exact ⟨_, rfl, hm⟩

/-- Settles O29: each rise moves one head, and asks for its status where its state changes. -/
theorem headLinesRise : Obligations.HeadLinesRise := by
  unfold Obligations.HeadLinesRise
  refine ⟨fun h s hn => ⟨if_neg (not_takesEdges hn), if_neg (not_takesEdges hn)⟩, fun h s hr hf => ⟨?_, ?_⟩⟩
  · obtain ⟨e', hx, hm⟩ := exec_headPresentRise (takesEdges_iff.2 ⟨hr, hf⟩)
    obtain ⟨h1, h2, h3, h4, h5, h6, h7⟩ := hm.finish rfl rfl
    refine ⟨_, hx, h1, h2, h3, h4, ?_, fun hc => h6 fun hs => ?_, fun hc hd => h7 ?_⟩
    · rw [h5]; split <;> rfl
    · have hstate : (presentRisen s.head.ctx[h]).state = s.head.ctx[h].state := congrArg Prod.fst hs
      rw [hc] at hstate
      unfold presentRisen at hstate
      rw [if_pos hc] at hstate
      split at hstate <;> cases hstate
    · rw [if_pos ⟨hc, hd⟩]; nofun
  · obtain ⟨e', hx, hm⟩ := exec_headReadyRise (takesEdges_iff.2 ⟨hr, hf⟩)
    obtain ⟨h1, h2, h3, h4, h5, h6, h7⟩ := hm.finish rfl rfl
    refine ⟨_, hx, h1, h2, h3, h4, ?_, fun hc => ⟨h6 fun hs => ?_, h7 ?_⟩⟩
    · rw [h5]; split <;> rfl
    · have hstate : (readyRisen s.head.ctx[h]).state = s.head.ctx[h].state := congrArg Prod.fst hs
      rw [hc] at hstate
      unfold readyRisen at hstate
      rw [if_pos hc] at hstate
      cases hstate
    · rw [if_pos hc]; nofun

/-! HEAD_READY_FALL, by the state that the edge finds. -/

section ReadyFall
variable {h : Fin 6} {s : State} (ht : s.takesEdges h = true)
include ht

theorem exec_headReadyFall_waiting (hc : s.head.ctx[h].state = .waiting) :
    ∃ e', exec (.headReadyFall h) s = .next e'.finish ∧ HeadMoves h ((Ev.start s).readyPin h false) e'
      { s.head.ctx[h] with ready := false, state := .joining, admitPending := false } none := by
  refine ⟨_, ?_, ((HeadMoves.refl h _).change fun c => { c with ready := false }).change
    fun c => { c with state := .joining, admitPending := false }⟩
  show execHeadReadyFall h s = _
  unfold execHeadReadyFall
  dsimp only
  rw [if_pos ht, hc]
  rfl

theorem exec_headReadyFall_active (hc : s.head.ctx[h].state = .active) :
    ∃ e', exec (.headReadyFall h) s = .next e'.finish ∧ HeadMoves h ((Ev.start s).readyPin h false) e'
      { s.head.ctx[h] with ready := false, state := HeadState.leaving.parkedIn s h } (some .headLeaving) := by
  refine ⟨_, ?_, ((((HeadMoves.refl h _).change fun c => { c with ready := false }).change
    fun c => { c with state := .leaving }).raise .headLeaving).park⟩
  show execHeadReadyFall h s = _
  unfold execHeadReadyFall
  dsimp only
  rw [if_pos ht, hc]
  rfl

theorem exec_headReadyFall_other (h1 : s.head.ctx[h].state ≠ .waiting) (h2 : s.head.ctx[h].state ≠ .active) :
    ∃ e', exec (.headReadyFall h) s = .next e'.finish ∧ HeadMoves h ((Ev.start s).readyPin h false) e'
      { s.head.ctx[h] with ready := false } none := by
  refine ⟨_, ?_, (HeadMoves.refl h _).change fun c => { c with ready := false }⟩
  show execHeadReadyFall h s = _
  unfold execHeadReadyFall
  dsimp only
  rw [if_pos ht]
  cases hc : s.head.ctx[h].state with
  | waiting => exact absurd hc h1
  | active => exact absurd hc h2
  | absent | joining | leaving | parked => rfl

end ReadyFall

theorem parkedIn_expected {t : State} {k : Fin 6} {c : HeadState} (h : t.Expects k) : c.parkedIn t k = c :=
  if_neg fun hc => hc.2 h

theorem parkedIn_unexpected {t : State} {k : Fin 6} (h : ¬ t.Expects k) : HeadState.leaving.parkedIn t k = .parked :=
  if_pos ⟨rfl, h⟩

theorem parkedIn_leaving_ne_active (t : State) (k : Fin 6) : HeadState.leaving.parkedIn t k ≠ .active := by
  unfold HeadState.parkedIn; split <;> nofun

/-- Settles O30: the fall moves one head, by the state that it finds. -/
theorem headReadyFalls : Obligations.HeadReadyFalls := by
  unfold Obligations.HeadReadyFalls
  refine ⟨fun h s hn => if_neg (not_takesEdges hn), fun h s hr hf => ?_⟩
  have ht := takesEdges_iff.2 ⟨hr, hf⟩
  by_cases hw : s.head.ctx[h].state = .waiting
  · obtain ⟨e', hx, hm⟩ := exec_headReadyFall_waiting ht hw
    obtain ⟨h1, h2, h3, h4, h5, h6, -⟩ := hm.finish rfl rfl
    refine ⟨_, hx, h1, h2, h3, fun _ => ⟨h5, h6 fun hs => ?_, h4⟩, fun hc => ?_, fun hc => absurd hw hc⟩
    · have hstate : .joining = s.head.ctx[h].state := congrArg Prod.fst hs
      rw [hw] at hstate; cases hstate
    · rw [hw] at hc; cases hc
  by_cases ha : s.head.ctx[h].state = .active
  · obtain ⟨e', hx, hm⟩ := exec_headReadyFall_active ht ha
    obtain ⟨h1, h2, h3, h4, h5, h6, h7⟩ := hm.finish rfl rfl
    refine ⟨_, hx, h1, h2, h3, fun hc => absurd hc hw, fun _ => ⟨h5, h7 nofun, h6 fun hs => ?_, fun he => ?_, fun he => ?_⟩,
      fun _ hc => absurd ha hc⟩
    · have hstate : HeadState.leaving.parkedIn s h = s.head.ctx[h].state := congrArg Prod.fst hs
      exact parkedIn_leaving_ne_active s h (hstate.trans ha)
    · rw [h4, parkedIn_expected he]; rfl
    · rw [h4, parkedIn_unexpected he]; rfl
  · obtain ⟨e', hx, hm⟩ := exec_headReadyFall_other ht hw ha
    obtain ⟨h1, h2, h3, h4, h5, -, -⟩ := hm.finish rfl rfl
    exact ⟨_, hx, h1, h2, h3, fun hc => absurd hc hw, fun hc => absurd hc ha, fun _ _ => ⟨h5, h4⟩⟩

/-! ### The timers (R30, R130) -/

/-- The lamp of head `h` is lit in one half of the common cycle alone (R30). -/
def LampFlashes (s : State) (h : Fin 6) : Prop := s.running = true ∧ s.head.fitted.getLsbD h = true ∧
  (s.head.ctx[h].state = .waiting ∨ s.head.ctx[h].state = .leaving)

theorem lampLit_flashing {s : State} {h : Fin 6} (hl : LampFlashes s h) : s.lampLit h = s.head.flashLit := by
  obtain ⟨hr, hf, hs⟩ := hl
  have hr : (s.boot.condition == .running) = true := hr
  unfold State.lampLit
  rw [hr, hf]
  rcases hs with hs | hs <;> rw [hs] <;> rfl

/-- The half of the cycle shows in no other lamp. -/
theorem lampLit_steady {s : State} {h : Fin 6} (hl : ¬ LampFlashes s h) (lit : Bool) (p : Path) :
    { s with head := { s.head with flashLit := lit }, path := p }.lampLit h = s.lampLit h := by
  unfold State.lampLit
  dsimp only
  by_cases hrf : s.running = true ∧ s.head.fitted.getLsbD h = true
  · obtain ⟨hr, hf⟩ := hrf
    have hs : ¬ (s.head.ctx[h].state = .waiting ∨ s.head.ctx[h].state = .leaving) := fun hs => hl ⟨hr, hf, hs⟩
    cases hc : s.head.ctx[h].state with
    | waiting => exact absurd (Or.inl hc) hs
    | leaving => exact absurd (Or.inr hc) hs
    | absent | joining | active | parked => rfl
  · have hdark : (s.boot.condition == .running && s.head.fitted.getLsbD h) = false :=
      Bool.eq_false_iff.2 fun hc => hrf (Bool.and_eq_true_iff.1 hc)
    rw [hdark, Bool.false_and, Bool.false_and]

/-- Settles O28: each timer's event is one change of its block, and asks for nothing. -/
theorem timersTaken : Obligations.TimersTaken := by
  unfold Obligations.TimersTaken
  refine ⟨fun k s hk => ?_, fun s => ⟨_, rfl, rfl, fun h => ?_⟩⟩
  · refine ⟨_, if_pos (Option.isSome_iff_ne_none.2 hk), rfl, ?_, fun j hj => ?_⟩
    · show (s.trim.channels.set k none)[k].isSome = false
      simp
    · exact Vector.getElem_set_ne k.2 j.2 fun hc => hj (Fin.ext hc.symm)
  · by_cases hl : LampFlashes s h
    · refine (lampLit_flashing ?_).trans (if_pos hl).symm
      exact hl
    · exact (lampLit_steady hl _ _).trans (if_neg hl).symm

end Sys2Proof.Proofs
end

section
/-! The words of the control block that the head monitor takes (R31 to R33), by the tables of the answers, within a write of
any words. -/

namespace Sys2Proof.Proofs

open Sys2Proof Sys2Proof.Machine Sys2Proof.Laws

/-! ### The answers of Tables 2-3 and 2-4 -/

/-- What a command leaves of the head named, but for its last result; whether it is accepted; and the notice it raises. -/
structure Answer where
  ctx    : HeadCtx
  ok     : Bool
  notice : Option Notice

/-- R32, Table 2-3: the answer to ADMIT. -/
def admitAnswer (c : HeadCtx) : Answer :=
  match c.state with
  | .waiting => ⟨{ c with admitPending := true }, true, none⟩
  | .parked =>
    if c.ready then ⟨{ c with state := .waiting, admitPending := true }, true, some .headWaiting⟩ else ⟨c, false, none⟩
  | .active => ⟨c, true, none⟩
  | .absent | .joining | .leaving => ⟨c, false, none⟩

/-- R33, Table 2-4: the answer to RELEASE. An ACTIVE head is released to `left`, LEAVING or at once PARKED (R35). -/
def releaseAnswer (left : HeadState) (c : HeadCtx) : Answer :=
  match c.state with
  | .active => ⟨{ c with state := left }, true, some .headLeaving⟩
  | .waiting => if c.admitPending then ⟨{ c with admitPending := false }, true, none⟩ else ⟨c, false, none⟩
  | .leaving | .parked => ⟨c, true, none⟩
  | .absent | .joining => ⟨c, false, none⟩

/-- R31: the answer to a HEAD_COMMAND value other than 0. -/
def commandAnswer (left : HeadState) (w : Word32) (c : HeadCtx) : Answer :=
  if w = 1 then admitAnswer c else if w = 2 then releaseAnswer left c else ⟨c, false, none⟩

section Tables
variable {c : HeadCtx} {left : HeadState} {w : Word32}

theorem admitAnswer_waiting (hc : c.state = .waiting) : admitAnswer c = ⟨{ c with admitPending := true }, true, none⟩ := by
  unfold admitAnswer; rw [hc]

theorem admitAnswer_parked (hc : c.state = .parked) (hr : c.ready = true) :
    admitAnswer c = ⟨{ c with state := .waiting, admitPending := true }, true, some .headWaiting⟩ := by
  unfold admitAnswer; rw [hc]; exact if_pos hr

theorem admitAnswer_active (hc : c.state = .active) : admitAnswer c = ⟨c, true, none⟩ := by
  unfold admitAnswer; rw [hc]

theorem admitAnswer_unready (hc : c.state = .parked) (hr : c.ready = false) : admitAnswer c = ⟨c, false, none⟩ := by
  unfold admitAnswer; rw [hc]; exact if_neg (by rw [hr]; nofun)

theorem admitAnswer_refused (hc : c.state = .absent ∨ c.state = .joining ∨ c.state = .leaving) :
    admitAnswer c = ⟨c, false, none⟩ := by
  unfold admitAnswer; rcases hc with hc | hc | hc <;> rw [hc]

theorem releaseAnswer_active (hc : c.state = .active) :
    releaseAnswer left c = ⟨{ c with state := left }, true, some .headLeaving⟩ := by
  unfold releaseAnswer; rw [hc]

theorem releaseAnswer_pending (hc : c.state = .waiting) (ha : c.admitPending = true) :
    releaseAnswer left c = ⟨{ c with admitPending := false }, true, none⟩ := by
  unfold releaseAnswer; rw [hc]; exact if_pos ha

theorem releaseAnswer_released (hc : c.state = .leaving ∨ c.state = .parked) : releaseAnswer left c = ⟨c, true, none⟩ := by
  unfold releaseAnswer; rcases hc with hc | hc <;> rw [hc]

theorem releaseAnswer_unasked (hc : c.state = .waiting) (ha : c.admitPending = false) :
    releaseAnswer left c = ⟨c, false, none⟩ := by
  unfold releaseAnswer; rw [hc]; exact if_neg (by rw [ha]; nofun)

theorem releaseAnswer_refused (hc : c.state = .absent ∨ c.state = .joining) : releaseAnswer left c = ⟨c, false, none⟩ := by
  unfold releaseAnswer; rcases hc with hc | hc <;> rw [hc]

theorem commandAnswer_admit : commandAnswer left 1 c = admitAnswer c := if_pos rfl

theorem commandAnswer_release : commandAnswer left 2 c = releaseAnswer left c := if_neg (by decide)

theorem commandAnswer_unknown (h1 : w ≠ 1) (h2 : w ≠ 2) : commandAnswer left w c = ⟨c, false, none⟩ := by
  unfold commandAnswer; rw [if_neg h1, if_neg h2]

end Tables

/-- The head context with a command's result (R31). -/
def withResult (c : HeadCtx) (ok : Bool) : HeadCtx := { c with last := if ok then .accepted else .refused }

/-- From `e` to `e'` head `h` has been given answer `a`, and HEAD_STATUS is asked for even where it repeats (R31). -/
structure Answers (h : Fin 6) (e e' : Ev) (a : Answer) : Prop where
  moves : HeadMoves h e e' (withResult a.ctx a.ok) a.notice
  status : .headStatus h ∈ e'.asked

section Takes
variable {h : Fin 6} {e e' : Ev} {c : HeadCtx} {n : Option Notice}

theorem HeadMoves.answered (hm : HeadMoves h e e' c n) (ok : Bool) :
    Answers h e (e'.answerCommand h (if ok then .accepted else .refused)) ⟨c, ok, n⟩ :=
  ⟨hm.answer _, by simp [Ev.answerCommand]⟩

theorem Answers.raise {ok : Bool} (ha : Answers h e e' ⟨c, ok, none⟩) (k : Notice) :
    Answers h e (e'.raise k) ⟨c, ok, some k⟩ :=
  ⟨ha.moves.raise k, (grows_raise _ _).asked _ ha.status⟩

theorem Answers.park {ok : Bool} (ha : Answers h e e' ⟨c, ok, n⟩) :
    Answers h e (e'.parkTest h) ⟨{ c with state := c.state.parkedIn e.st h }, ok, n⟩ :=
  ⟨ha.moves.park, (grows_parkTest _ _).asked _ ha.status⟩

theorem takeAdmit_answers (h : Fin 6) (e : Ev) : Answers h e (e.takeAdmit h) (admitAnswer e.st.head.ctx[h]) := by
  unfold Ev.takeAdmit
  dsimp only
  generalize hc : e.st.head.ctx[h] = c
  have hm := HeadMoves.start hc
  rcases c with ⟨st, p, r, a, l, b⟩
  cases st with
  | waiting => exact (hm.change fun c => { c with admitPending := true }).answered true
  | parked =>
    cases r with
    | true => exact ((hm.change fun c => { c with state := .waiting, admitPending := true }).answered true).raise .headWaiting
    | false => exact hm.answered false
  | active => exact hm.answered true
  | absent | joining | leaving => exact hm.answered false

theorem takeRelease_answers (h : Fin 6) (e : Ev) :
    Answers h e (e.takeRelease h) (releaseAnswer (HeadState.leaving.parkedIn e.st h) e.st.head.ctx[h]) := by
  unfold Ev.takeRelease
  dsimp only
  generalize hc : e.st.head.ctx[h] = c
  have hm := HeadMoves.start hc
  rcases c with ⟨st, p, r, a, l, b⟩
  cases st with
  | active => exact (((hm.change fun c => { c with state := .leaving }).answered true).raise .headLeaving).park
  | waiting =>
    cases a with
    | true => exact (hm.change fun c => { c with admitPending := false }).answered true
    | false => exact hm.answered false
  | leaving | parked => exact hm.answered true
  | absent | joining => exact hm.answered false

theorem takeHeadCommand_answers (h : Fin 6) (e : Ev) {w : Word32} (hw : w ≠ 0) : Answers h e (e.takeHeadCommand h w)
    (commandAnswer (HeadState.leaving.parkedIn e.st h) w e.st.head.ctx[h]) := by
  unfold Ev.takeHeadCommand commandAnswer
  rw [if_neg hw]
  split
  · exact takeAdmit_answers h e
  split
  · exact takeRelease_answers h e
  · exact (HeadMoves.refl h e).answered false

end Takes

/-! ### The other words of the same write -/

/-- A word other than HEAD_COMMAND[`h`] leaves head `h`. -/
theorem takeWord_ctx {k : CtrlWord} {h : Fin 6} (hk : k ≠ .headCommand h) (e : Ev) (w : Word32) :
    (e.takeWord k w).st.head.ctx[h] = e.st.head.ctx[h] := by
  have hkeep := keeps_takeWord_touches e k w
  cases k with
  | headCommand j =>
    have hj : h ≠ j := fun hc => hk (hc ▸ rfl)
    show (e.takeHeadCommand j w).st.head.ctx[h] = _
    by_cases hw : w = 0
    · subst hw; rfl
    · rw [(takeHeadCommand_answers j e hw).moves.ctx, if_neg hj]
  | notice | noticeEnable | planSelect | lineStatus | tallyRequest | tallyStatus | lineRestart | ovrProducer | ovrConsumer
    | decProducer | decConsumer | trapClear | headStatus | sourceStatus | unlisted => rw [hkeep.head]

theorem takeWords_ctx {ws : List (CtrlWord × Word32)} {h : Fin 6} (hn : ∀ p ∈ ws, p.1 ≠ .headCommand h) (e : Ev) :
    (e.takeWords ws).st.head.ctx[h] = e.st.head.ctx[h] := by
  induction ws generalizing e with
  | nil => rfl
  | cons p ws ih =>
    exact (ih (fun q hq => hn q (List.mem_cons_of_mem _ hq)) _).trans (takeWord_ctx (hn p List.mem_cons_self) e p.2)

theorem grows_takeWords {ws : List (CtrlWord × Word32)} (hn : ∀ p ∈ ws, p.1 ≠ .notice) (e : Ev) :
    Grows e (e.takeWords ws) := by
  induction ws generalizing e with
  | nil => exact Grows.refl e
  | cons p ws ih =>
    exact (grows_takeWord e p.1 p.2 (hn p List.mem_cons_self)).trans (ih (fun q hq => hn q (List.mem_cons_of_mem _ hq)) _)

/-- The words of a write come in address order (R169). -/
theorem wordsOf_rises (off : Nat) (ls : List Lane) :
    (∀ p ∈ wordsOf off ls, off ≤ p.1) ∧ (wordsOf off ls).Pairwise fun p q => p.1 < q.1 := by
  induction off, ls using wordsOf.induct with
  | case1 off a b c d rest h ih =>
    rw [wordsOf, if_pos h]
    refine ⟨fun p hp => ?_, List.pairwise_cons.2 ⟨fun p hp => ?_, ih.2⟩⟩
    · rcases List.mem_cons.1 hp with rfl | hp
      · exact le_rfl
      · have := ih.1 p hp; omega
    · have := ih.1 p hp; show off < p.1; omega
  | case2 off a b c d rest h ih =>
    rw [wordsOf, if_neg h]
    exact ⟨fun p hp => by have := ih.1 p hp; omega, ih.2⟩
  | case3 off ls h => rw [wordsOf]; exacts [⟨nofun, List.Pairwise.nil⟩, h]

/-- NOTICE is the first word of the control block, so a write takes it before any other. -/
theorem ctrlWords_notice_first {off : Nat} {x : Txn} {l r : List (CtrlWord × Word32)} {p : CtrlWord × Word32}
    (hs : ctrlWords off x = l ++ p :: r) : ∀ q ∈ r, q.1 ≠ .notice := by
  have hp : (ctrlWords off x).Pairwise fun _ q => q.1 ≠ .notice := by
    refine List.pairwise_map.2 ((wordsOf_rises off x.lanes).2.imp fun {a b} hab hb => ?_)
    have := ctrlWordAt_notice hb
    omega
  rw [hs] at hp
  exact fun q hq => List.rel_of_pairwise_cons (List.pairwise_append.1 hp).2.1 hq

/-! ### The words substituted (R171) -/

/-- LINE_RESTART or a HEAD_COMMAND written alone reaches memory as 0. -/
theorem wordsOf_zeroed {off : Nat} {x : Txn} {k : CtrlWord} {w : Word32} (ha : writesAlone off x k w = true)
    (hk : k = .lineRestart ∨ ∃ h, k = .headCommand h) (n : NoticeSet) :
    wordsOf off (substituteLanes n off x.lanes) = (wordsOf off x.lanes).map fun p => (p.1, 0) := by
  obtain ⟨o, ho, hko⟩ := wordsOf_of_writesAlone ha
  have hz : substituteWord n o w = 0 := by
    unfold substituteWord
    rw [hko]
    rcases hk with rfl | ⟨h, rfl⟩ <;> rfl
  rw [wordsOf_substituteLanes, ho, List.map_singleton, List.map_singleton, hz]

/-! ### A HEAD_COMMAND of a forwarded write -/

/-- The event of a write into CTRL that is granted, before its words are taken. -/
def accepted (s : State) (x : Txn) : Ev := (Ev.start s).acceptWrite x.source

theorem accepted_st (s : State) (x : Txn) : (accepted s x).st = { s with src := s.src.counted x.source } :=
  (acceptWrite_src s x.source).1

theorem accepted_returned (s : State) (x : Txn) : (accepted s x).returned = [] :=
  (grows_acceptWrite (Ev.start s) x.source).returned

/-- A HEAD_COMMAND written alone is taken, and the write is issued with the word substituted (R171). -/
theorem forwardCtrl_headCommand {off : Nat} {x : Txn} {h : Fin 6} {w : Word32}
    (ho : writesAlone off x (.headCommand h) w = true) (e : Ev) : e.forwardCtrl x off =
      (e.takeHeadCommand h w).issue x (substituteLanes e.st.note.word off x.lanes) false false false :=
  forwardCtrl_of_writesAlone ho e

section Command
variable {s : State} {x : Txn} {off : Nat} {h : Fin 6} {w : Word32} {a : Answer}
  (hw : w ≠ 0) (ha : commandAnswer (HeadState.leaving.parkedIn s h) w s.head.ctx[h] = a)
include hw ha

theorem takes_answer {e : Ev} (hl : e.st.lug = s.lug) (hc : e.st.head.ctx[h] = s.head.ctx[h]) :
    Answers h e (e.takeHeadCommand h w) a := by
  have hans := takeHeadCommand_answers h e hw
  rwa [hc, parkedIn_congr (expects_of_boards (congrArg LugTable.boards hl) h), ha] at hans

/-- What the write leaves of head `h`, and what it asks for, whatever words it writes besides. -/
theorem headCommand_within (ho : writesOnce off x (.headCommand h) w = true) :
    let t := ((accepted s x).forwardCtrl x off).finishPath
    t.head.ctx[h] = withResult a.ctx a.ok ∧ t.path.asks (.headStatus h) = true ∧
      ∀ k, a.notice = some k → t.note.has k = true ∧ t.path.asks .notice = true := by
  obtain ⟨l, r, hs, hl, hr⟩ := ctrlWords_split ho
  have hsplit : (accepted s x).takeWords (ctrlWords off x) =
      (((accepted s x).takeWords l).takeHeadCommand h w).takeWords r := by
    rw [hs, takeWords_append]; rfl
  have hans := takes_answer hw ha (e := (accepted s x).takeWords l)
    ((keeps_takeWords l _).lug.trans (by rw [accepted_st])) ((takeWords_ctx hl _).trans (by rw [accepted_st]))
  generalize ((accepted s x).takeWords l).takeHeadCommand h w = e at hsplit hans
  have hgrow := grows_takeWords (ctrlWords_notice_first hs) e
  unfold Ev.forwardCtrl
  dsimp only
  rw [hsplit]
  refine ⟨?_, Ev.finishPath_asks (hgrow.asked _ hans.status) nofun nofun, fun k hk => ⟨?_, ?_⟩⟩
  · rw [Ev.finishPath_head, Ev.issue_head, takeWords_ctx hr, hans.moves.self]
  · rw [Ev.finishPath_note, Ev.issue_note]
    refine hgrow.has ?_
    rw [hans.moves.st, hk]
    exact raise_has _ k
  · exact Ev.finishPath_asks (hgrow.asked _ (hans.moves.notice (by rw [hk]; nofun))) nofun nofun

/-- The write that writes the word alone. -/
theorem headCommand_alone (ho : writesAlone off x (.headCommand h) w = true) :
    let t := ((accepted s x).forwardCtrl x off).finishPath
    t.head = { s.head with ctx := s.head.ctx.set h t.head.ctx[h] } ∧ t.note = noted s.note a.notice ∧
      (∃ lanes, s.path.Issued t.path (downAs x lanes false false) false ∧
        wordsOf off lanes = (wordsOf off x.lanes).map (fun p => (p.1, 0)) ∧
        lanes.map (·.strobe) = x.lanes.map (·.strobe)) ∧
      t = { s with path := t.path, src := s.src.counted x.source, head := t.head, note := t.note } := by
  obtain ⟨⟨hst, hgrow, -, -⟩, -⟩ := takes_answer hw ha (e := accepted s x) (by rw [accepted_st]) (by rw [accepted_st])
  have hret := hgrow.returned.trans (accepted_returned s x)
  rw [accepted_st] at hst
  rw [forwardCtrl_headCommand ho]
  generalize (accepted s x).takeHeadCommand h w = e at hst hret
  generalize (accepted s x).st.note.word = n
  obtain ⟨hissued, hframe⟩ := issue_grant (s := s) (e := e) (x := x) (ls := substituteLanes n off x.lanes) (g := false)
    (b := false) (r := false) (by rw [hst]) hret
  refine ⟨?_, ?_, ⟨_, hissued, wordsOf_zeroed ho (Or.inr ⟨h, rfl⟩) n, substituteLanes_strobe _ _ _⟩, ?_⟩
  · rw [Ev.finishPath_head, Ev.issue_head, hst]
    simp only [Fin.getElem_fin, Vector.getElem_set_self]
  · rw [Ev.finishPath_note, Ev.issue_note, hst]
  · rw [hframe, hst]

/-- The command named by a forwarded write of its word, as the claim states it. -/
theorem headCommand_taken {cmd : Instr} (ho : writesOnce off x (.headCommand h) w = true)
    (hx : exec cmd s = .next ((accepted s x).forwardCtrl x off).finishPath) :
    ∃ t, exec cmd s = .next t ∧
      t.head.ctx[h] = withResult a.ctx a.ok ∧ t.path.asks (.headStatus h) = true ∧
      (∀ k, a.notice = some k → t.note.has k = true ∧ t.path.asks .notice = true) ∧
      (writesAlone off x (.headCommand h) w = true →
        t.head = { s.head with ctx := s.head.ctx.set h t.head.ctx[h] } ∧ t.note = noted s.note a.notice ∧
        (∃ lanes, s.path.Issued t.path (downAs x lanes false false) false ∧
          wordsOf off lanes = (wordsOf off x.lanes).map (fun p => (p.1, 0)) ∧
          lanes.map (·.strobe) = x.lanes.map (·.strobe)) ∧
        t = { s with path := t.path, src := s.src.counted x.source, head := t.head, note := t.note }) := by
  obtain ⟨h1, h2, h3⟩ := headCommand_within hw ha ho
  exact ⟨_, hx, h1, h2, h3, headCommand_alone hw ha⟩

end Command

/-- Settles O45: the answer of the tables, given within the write's other words. -/
theorem headCommandsTaken : Obligations.HeadCommandsTaken := by
  unfold Obligations.HeadCommandsTaken
  intro s x off h w hf ho
  dsimp only
  refine ⟨?_, ?_, fun h0 h1 h2 => ?_⟩
  · rintro rfl
    have key : ∀ a, admitAnswer s.head.ctx[h] = a → _ := fun a ha =>
      headCommand_taken (by decide) (commandAnswer_admit.trans ha) ho (cmd := .admitHead h) (grantIf_ctrl hf ho rfl)
    exact ⟨fun hc => key _ (admitAnswer_waiting hc), fun hc hr => key _ (admitAnswer_parked hc hr),
      fun hc => key _ (admitAnswer_active hc), fun hc hr => key _ (admitAnswer_unready hc hr),
      fun hc => key _ (admitAnswer_refused hc)⟩
  · rintro rfl
    have key : ∀ a, releaseAnswer (HeadState.leaving.parkedIn s h) s.head.ctx[h] = a → _ := fun a ha =>
      headCommand_taken (by decide) (commandAnswer_release.trans ha) ho (cmd := .release h) (grantIf_ctrl hf ho rfl)
    refine ⟨fun hc he => ?_, fun hc he => ?_, fun hc ha => key _ (releaseAnswer_pending hc ha),
      fun hc => key _ (releaseAnswer_released hc), fun hc ha => key _ (releaseAnswer_unasked hc ha),
      fun hc => key _ (releaseAnswer_refused hc)⟩
    · rw [parkedIn_expected he] at key; exact key _ (releaseAnswer_active hc)
    · rw [parkedIn_unexpected he] at key; exact key _ (releaseAnswer_active hc)
  · exact headCommand_taken h0 (commandAnswer_unknown h1 h2) ho
      (grantIf_ctrl hf ho (by unfold unknownCommand; rw [decide_eq_true h0, decide_eq_true h1, decide_eq_true h2]; rfl))

end Sys2Proof.Proofs
end

section
/-! The writes that no block acts on (R169, R171, R191): the permission test of an untrapped source, and what the grant of such
a write leaves. -/

namespace Sys2Proof.Proofs

open Sys2Proof Sys2Proof.Machine Sys2Proof.Laws

/-! ### The permission test (R184) -/

/-- R184: an untrapped source that writes no owned word, lies in the mask, and writes no reserved word, passes; into SCAN it
is the ring's own source. -/
theorem permission_pass {s : State} {x : Txn} {ap : Aperture} {off : Nat} {words : List (CtrlWord × Word32)}
    (hws : (if ap = .ctrl then ctrlWords off x else []) = words) (ht : s.src.ctx[x.source].trapped = false)
    (hd : ap ≠ .dec ∧ ap ≠ .tally) (ho : writesOwned (decide (x.source = s.src.control)) words = false)
    (hb : s.src.barred ap x.source = false)
    (hs : ap = .scan → x.source = s.src.headSource[ringOf s.path.scanSlots off]) (hr : writesReserved words = false) :
    permission s x ap off = .pass := by
  unfold permission
  dsimp only
  rw [hws, ht, ho, hb, hr]
  have hscan : ¬ (ap = .scan && decide (x.source ≠ s.src.headSource[ringOf s.path.scanSlots off])) = true := fun hc => by
    simp only [Bool.and_eq_true, decide_eq_true_eq] at hc
    exact hc.2 (hs hc.1)
  rw [if_neg (by simp), if_neg (by simp [hd]), if_neg (by simp), if_neg hscan, if_neg (by simp)]

/-! ### Words that no block acts on -/

/-- No block acts on the word: no block watches it, or it is LINE_RESTART with a value other than 1 (R207), or a HEAD_COMMAND
with 0 (R31). -/
def Unacted (p : CtrlWord × Word32) : Prop :=
  p.1 = .unlisted ∨ (p.1 = .lineRestart ∧ p.2 ≠ 1) ∨ (∃ h, p.1 = .headCommand h) ∧ p.2 = 0

theorem takeWord_unacted {p : CtrlWord × Word32} (hp : Unacted p) (e : Ev) : e.takeWord p.1 p.2 = e := by
  obtain ⟨k, w⟩ := p
  rcases hp with rfl | ⟨rfl, hw⟩ | ⟨⟨h, rfl⟩, rfl⟩
  · rfl
  · exact if_neg hw
  · rfl

theorem takeWords_unacted {ws : List (CtrlWord × Word32)} (hu : ∀ p ∈ ws, Unacted p) (e : Ev) : e.takeWords ws = e := by
  induction ws generalizing e with
  | nil => rfl
  | cons p ws ih =>
    show (e.takeWord p.1 p.2).takeWords ws = e
    rw [takeWord_unacted (hu p List.mem_cons_self), ih fun q hq => hu q (List.mem_cons_of_mem _ hq)]

theorem valueOf_eq_none {k : CtrlWord} {ws : List (CtrlWord × Word32)} (hn : ∀ p ∈ ws, p.1 ≠ k) : valueOf k ws = none := by
  induction ws with
  | nil => rfl
  | cons p ws ih =>
    show (if p.1 = k then some p.2 else valueOf k ws) = none
    rw [if_neg (hn p List.mem_cons_self), ih fun q hq => hn q (List.mem_cons_of_mem _ hq)]

/-- A word that no block acts on is neither of the two that begin a batch or a tally request. -/
theorem Unacted.ne {p : CtrlWord × Word32} (hp : Unacted p) : p.1 ≠ .ovrProducer ∧ p.1 ≠ .tallyRequest := by
  rcases hp with hp | ⟨hp, -⟩ | ⟨⟨h, hp⟩, -⟩ <;> rw [hp] <;> exact ⟨nofun, nofun⟩

/-! ### The grant -/

/-- R191: what the grant of a write that is issued as it is leaves, where no block takes anything of it. -/
theorem accepted_issued (s : State) (x : Txn) (ls : List Lane) :
    let t := ((accepted s x).issue x ls false false false).finishPath
    s.path.Issued t.path (downAs x ls false false) false ∧
      t = { s with path := t.path, src := s.src.counted x.source } ∧ t.path.asks (.sourceStatus x.source) = true := by
  obtain ⟨hi, hf⟩ := issue_grant (s := s) (e := accepted s x) (x := x) (ls := ls) (g := false) (b := false) (r := false)
    (by rw [accepted_st]) (accepted_returned s x)
  refine ⟨hi, hf.trans (by rw [accepted_st]), Ev.finishPath_asks (acceptWrite_src s x.source).2 nofun nofun⟩

/-- The row of a write into OVR (R169). -/
theorem apertureWrite_ovr {s : State} {x : Txn} {off : Nat} (hg : s.grantsInto x .ovr off = true)
    (hd : decideWrite s x .ovr off = .forward .ovr off) :
    exec .apertureWrite s = .next ((accepted s x).issue x x.lanes false false false).finishPath := by
  obtain ⟨hrun, hturn, -, -⟩ := (grantsInto_iff _ _ _ _).1 hg
  have hi := writeInto_of_grantsInto hg
  have hrow : isApertureWrite s x = true := by
    unfold isApertureWrite hasOwnRow isPlanBankWrite isSliceWrite isOvrProducer forwardedWords
    rw [hi, if_pos (by simp [State.running, hrun])]
    rfl
  refine (grantIf_taken hturn hrow).trans ?_
  unfold grant
  rw [courseOf_write hg, hd]
  rfl

/-- The row of a forwarded write into CTRL that no block acts on (R169, R171). -/
theorem apertureWrite_ctrl {s : State} {x : Txn} {off : Nat} (hf : s.forwardsCtrl x off = true)
    (hu : ∀ p ∈ ctrlWords off x, Unacted p) :
    exec .apertureWrite s = .next ((accepted s x).issue x (substituteLanes s.note.word off x.lanes) false false
      false).finishPath := by
  obtain ⟨hrun, hturn, -, -⟩ := (grantsInto_iff _ _ _ _).1 ((forwardsCtrl_iff _ _ _).1 hf).1
  have hi := writeInto_of_grantsInto ((forwardsCtrl_iff _ _ _).1 hf).1
  have hbatch := valueOf_eq_none fun p hp => (hu p hp).ne.1
  have htally := valueOf_eq_none fun p hp => (hu p hp).ne.2
  have hrow : isApertureWrite s x = true := by
    unfold isApertureWrite hasOwnRow isPlanBankWrite isSliceWrite isOvrProducer
    rw [forwardedWords_of_forwardsCtrl hf, hi, if_pos (by simp [State.running, hrun])]
    dsimp only
    rw [hbatch]
    simp only [Option.isSome_some, Option.isSome_none, Bool.false_and, Bool.false_or, Bool.true_and, Bool.not_eq_true',
      List.any_eq_false]
    intro p hp
    obtain ⟨k, w⟩ := p
    rcases hu _ hp with rfl | ⟨rfl, hw⟩ | ⟨⟨h, rfl⟩, rfl⟩
    · simp
    · simpa using hw
    · simp
  refine (grantIf_taken hturn hrow).trans ?_
  rw [grant_forwardsCtrl hf]
  unfold Ev.forwardCtrl
  dsimp only
  have hn : ((Ev.start s).acceptWrite x.source).st.note = s.note := by rw [(acceptWrite_src s x.source).1]
  rw [takeWords_unacted hu, hbatch, htally, hn]
  rfl

/-- Settles O41: the write passes every test and no block acts on its words. -/
theorem apertureWriteForwards : Obligations.ApertureWriteForwards := by
  unfold Obligations.ApertureWriteForwards
  refine ⟨fun s x off hwh ht hap => ?_, fun s x off k w hf ha hk => ?_⟩
  · rcases hap with ⟨hg, hm⟩ | ⟨hg, hm, hun⟩
    · have hp : permission s x .ovr off = .pass := permission_pass (words := []) rfl ht (by decide) rfl
        (by simp [SourceTable.barred, SourceTable.mask, hm]) nofun rfl
      have hd : decideWrite s x .ovr off = .forward .ovr off := by
        unfold decideWrite
        rw [hwh, hp]
        rfl
      exact ⟨_, apertureWrite_ovr hg hd, accepted_issued s x x.lanes⟩
    · have hu : ∀ p ∈ ctrlWords off x, Unacted p := fun p hp => Or.inl (hun p hp)
      have hp : permission s x .ctrl off = .pass := permission_pass (words := ctrlWords off x) rfl ht (by decide)
        (List.any_eq_false.2 fun p hp => by rw [hun p hp]; simp [CtrlWord.owned])
        (by simp [SourceTable.barred, SourceTable.mask, hm]) nofun
        (List.any_eq_false.2 fun p hp => by rw [hun p hp]; decide)
      have hd : decideWrite s x .ctrl off = .forward .ctrl off := by
        unfold decideWrite busyWord
        rw [hwh, hp, valueOf_eq_none fun p hp => (hu p hp).ne.1, valueOf_eq_none fun p hp => (hu p hp).ne.2]
        rfl
      have hl : substituteLanes s.note.word off x.lanes = x.lanes :=
        substituteLanes_of_passes _ _ _ fun p hp => by rw [hun p hp]; rfl
      refine ⟨_, apertureWrite_ctrl ((forwardsCtrl_iff _ _ _).2 ⟨hg, hd⟩) hu, ?_⟩
      rw [hl]
      exact accepted_issued s x x.lanes
  · have hw : ctrlWords off x = [(k, w)] := by simpa [writesAlone] using ha
    have hu : ∀ p ∈ ctrlWords off x, Unacted p := fun p hp => by
      rw [hw, List.mem_singleton] at hp
      rw [hp]
      exact Or.inr hk
    obtain ⟨h1, h2, h3⟩ := accepted_issued s x (substituteLanes s.note.word off x.lanes)
    exact ⟨_, _, apertureWrite_ctrl hf hu, h1, wordsOf_zeroed ha (hk.imp And.left And.left) _,
      substituteLanes_strobe _ _ _, h2, h3⟩

end Sys2Proof.Proofs
end

section
/-! The writes into SCAN by the ring's own untrapped source (R37, R41, R45, R46, R49): the course of each, and what it leaves. -/

namespace Sys2Proof.Proofs

open Sys2Proof Sys2Proof.Machine Sys2Proof.Laws

/-! ### Sources whose counts change (R189, R194) -/

theorem changeSource_asks (e : Ev) (i j : Fin 16) (f : SourceCtx → SourceCtx)
    (hc : (e.changeSource i f).st.src.ctx[j] ≠ e.st.src.ctx[j]) : .sourceStatus j ∈ (e.changeSource i f).asked := by
  rw [Ev.changeSource_ctx] at hc
  by_cases hj : j = i
  · subst hj
    rw [if_pos rfl] at hc
    unfold Ev.changeSource
    dsimp only
    rw [if_neg hc]
    simp
  · rw [if_neg hj] at hc; exact absurd rfl hc

theorem countAll_asks (rs : List Returned) (e : Ev) (i : Fin 16)
    (hc : (e.countAll rs).st.src.ctx[i] ≠ e.st.src.ctx[i]) : .sourceStatus i ∈ (e.countAll rs).asked := by
  induction rs generalizing e with
  | nil => exact absurd rfl hc
  | cons r rs ih =>
    rw [Ev.countAll] at hc ⊢
    by_cases h1 : (e.changeSource r.source fun c => c.countResponse r.settled).st.src.ctx[i] = e.st.src.ctx[i]
    · exact ih _ (by rw [h1]; exact hc)
    · obtain ⟨-, -, -, hasked, -⟩ := Ev.countAll_st rs (e.changeSource r.source fun c => c.countResponse r.settled)
      exact hasked _ (changeSource_asks e _ i _ h1)

/-- R194: a settled grant asks for the status of each source whose count the responses returned have changed. -/
theorem settle_asks (e : Ev) (r : Settled) (i : Fin 16)
    (hc : (e.settle r).finishPath.src.ctx[i] ≠ e.st.src.ctx[i]) :
    (e.settle r).finishPath.path.asks (.sourceStatus i) = true :=
  Ev.finishPath_asks (countAll_asks _ _ i hc) nofun nofun

/-! ### Bad slices of a board (R49, R52) -/

theorem countBadSlice_st (e : Ev) (h : Fin 6) (bs : List Byte) : (e.countBadSlice h bs).st = { e.st with
    lug := { e.st.lug with boards := (e.countBadSlice h bs).st.lug.boards } } := by
  unfold Ev.countBadSlice
  split <;> rfl

/-- The board with one more bad slice of head `h`, at most 255. -/
def worseBoard (b : Board) (h : Fin 6) : Board := { b with bad := b.bad.set h (min 255 (b.bad[h] + 1)) }

/-- The SCANNING board of the slice's lug counts a bad slice, and no other record changes. -/
theorem countBadSlice_boards (e : Ev) (h : Fin 6) (bs : List Byte) (j : Fin 32) :
    (e.countBadSlice h bs).st.lug.boards[j] =
      if e.st.lookup (sliceLug bs) = some j ∧ e.st.lug.boards[j].state = .scanning then worseBoard e.st.lug.boards[j] h
      else e.st.lug.boards[j] := by
  unfold Ev.countBadSlice
  cases hl : e.st.lookup (sliceLug bs) with
  | none => rw [if_neg fun hc => nomatch hc.1]
  | some i =>
    dsimp only
    rw [changeBoard_read]
    by_cases hj : j = i
    · subst hj
      rw [if_pos rfl]
      unfold Board.countBad
      by_cases hs : e.st.lug.boards[j].state = .scanning
      · rw [if_pos hs, if_pos ⟨rfl, hs⟩]; rfl
      · rw [if_neg hs, if_neg fun hc => hs hc.2]
    · rw [if_neg hj, if_neg fun hc => hj (Option.some.inj hc.1).symm]

/-! ### The course of a write into SCAN (Table 3-1) -/

theorem wholeSlice_iff (off : Nat) (x : Txn) : wholeSlice off x = true ↔
    off % 64 = 0 ∧ x.beats = 8 ∧ x.lanes.length = 64 ∧ ∀ l ∈ x.lanes, l.strobe = true := by
  simp [wholeSlice, and_assoc]

theorem exhausted_iff (t : SourceTable) (i : Fin 16) :
    t.exhausted i = true ↔ 0 < t.maxRetry ∧ t.maxRetry ≤ t.ctx[i].retries := by
  simp [SourceTable.exhausted]

theorem hasCredit_iff (a : Assembler) (h : Fin 6) : a.hasCredit h = true ↔ a.held[h].length < a.granted[h] := by
  simp [Assembler.hasCredit]

theorem arrivalMark_iff (s : State) (bs : List Byte) : s.arrivalMark bs = true ↔
    ∃ i, s.lookup (sliceLug bs) = some i ∧ s.lug.boards[i].state = .scanning := by
  unfold State.arrivalMark
  cases s.lookup (sliceLug bs) with
  | none => simp
  | some i => simp

section Course
variable {s : State} {x : Txn} {off : Nat}

theorem sliceCourse_partial (hw : ¬ wholeSlice off x = true) : sliceCourse s x off = .partialSlice := by
  unfold sliceCourse
  exact if_pos (by simpa using hw)

/-- A whole slice from a head that does not serve. -/
theorem sliceCourse_passBy (hw : wholeSlice off x = true) (hs : ¬ Serving (ringOf s.path.scanSlots off) s) :
    sliceCourse s x off = .passBy := by
  unfold sliceCourse
  dsimp only
  rw [hw, if_neg (by decide)]
  cases hc : s.head.ctx[ringOf s.path.scanSlots off].state with
  | active => exact absurd (Or.inl hc) hs
  | leaving => exact absurd (Or.inr hc) hs
  | absent | joining | waiting | parked => rfl

/-- A whole slice from a head that serves is given up, taken into intake, or held off. -/
theorem sliceCourse_serves (hw : wholeSlice off x = true) (hs : Serving (ringOf s.path.scanSlots off) s) :
    sliceCourse s x off =
      if s.src.exhausted x.source then .giveUp (ringOf s.path.scanSlots off)
      else if s.asm.hasCredit (ringOf s.path.scanSlots off) then .intake (ringOf s.path.scanSlots off) else .retry := by
  unfold sliceCourse
  dsimp only
  rw [hw, if_neg (by decide)]
  rcases hs with hs | hs <;> rw [hs]

/-- R40, R169: the row of a write into SCAN by the ring's own untrapped source is the grant of the slice's course. -/
theorem exec_sliceWrite (hg : s.grantsInto x .scan off = true)
    (hs : x.source = s.src.headSource[ringOf s.path.scanSlots off]) (ht : s.src.ctx[x.source].trapped = false) :
    exec .sliceWrite s = .next ((Ev.start s).takeCourse x (sliceCourse s x off)).finishPath := by
  obtain ⟨-, hturn, -, -⟩ := (grantsInto_iff _ _ _ _).1 hg
  have hp : permission s x .scan off = .pass := permission_pass (words := []) rfl ht (by decide) rfl rfl (fun _ => hs) rfl
  have hd : decideWrite s x .scan off = sliceCourse s x off := by
    unfold decideWrite
    rw [hp]
    rfl
  have hrow : isSliceWrite s x = true := by
    unfold isSliceWrite
    rw [writeInto_of_grantsInto hg]
  refine (grantIf_taken hturn hrow).trans ?_
  unfold grant
  rw [courseOf_write hg, hd]

end Course

/-! ### What each course leaves -/

section Left
variable (s : State) (x : Txn)

/-- R41: a write that is no whole slice is forwarded with SLICE_CHECK. -/
theorem partialSlice_left :
    let t := ((Ev.start s).takeCourse x .partialSlice).finishPath
    s.path.Issued t.path (downAs x x.lanes false false) false ∧
      t = { s with path := t.path, src := s.src.counted x.source, note := s.note.raised .sliceCheck } := by
  have hst : ((accepted s x).raise .sliceCheck).st =
      { s with src := s.src.counted x.source, note := s.note.raised .sliceCheck } := by
    unfold Ev.raise; rw [Ev.ask_st, Ev.modify_st, accepted_st]; rfl
  obtain ⟨hi, hf⟩ := issue_grant (s := s) (e := (accepted s x).raise .sliceCheck) (x := x) (ls := x.lanes) (g := false)
    (b := false) (r := false) (by rw [hst]) (accepted_returned s x)
  exact ⟨hi, hf.trans (by rw [hst]; rfl)⟩

/-- R37: a slice from a head that does not serve is forwarded. -/
theorem passBy_left :
    let t := ((Ev.start s).takeCourse x .passBy).finishPath
    s.path.Issued t.path (downAs x x.lanes false false) false ∧
      t = { s with path := t.path, src := s.src.counted x.source } :=
  have ⟨hi, hf, _⟩ := accepted_issued s x x.lanes
  ⟨hi, hf⟩

/-- R45: the slice joins the tail of its head's list, marked where its board is SCANNING. -/
def joined (h : Fin 6) : Assembler :=
  { s.asm with held := s.asm.held.set h (s.asm.held[h] ++ [⟨laneBytes x.lanes, s.arrivalMark (laneBytes x.lanes)⟩]) }

/-- R45: a slice with free credit is taken into intake and forwarded. -/
theorem intake_left (h : Fin 6) :
    let t := ((Ev.start s).takeCourse x (.intake h)).finishPath
    s.path.Issued t.path (downAs x x.lanes false false) false ∧
      t = { s with path := t.path, src := s.src.counted x.source, asm := joined s x h } := by
  have hst : ((accepted s x).intake h (laneBytes x.lanes)).st =
      { s with src := s.src.counted x.source, asm := joined s x h } := by
    unfold Ev.intake; rw [Ev.modify_st, accepted_st]; rfl
  obtain ⟨hi, hf⟩ := issue_grant (s := s) (e := (accepted s x).intake h (laneBytes x.lanes)) (x := x) (ls := x.lanes)
    (g := false) (b := false) (r := false) (by rw [hst]) (accepted_returned s x)
  exact ⟨hi, hf.trans (by rw [hst]; rfl)⟩

/-- R46, R189: a slice without credit is answered RETRY, and counted. -/
theorem retry_left (ht : s.oldestReady = some x) :
    let r : Settled := { response := .retry, counted := true, givenUp := false }
    let t := ((Ev.start s).takeCourse x .retry).finishPath
    s.path.SettledBy t.path x r ∧ s.src.CountedBy t.src (s.path.settledFlight r) ∧
      (∀ i : Fin 16, t.src.ctx[i] ≠ s.src.ctx[i] → t.path.asks (.sourceStatus i) = true) ∧
      t = { s with path := t.path, src := t.src } := by
  obtain ⟨h1, h2, h3⟩ := settle_grant (s := s) (e := Ev.start s) (r := { response := .retry, counted := true, givenUp := false })
    ht rfl rfl
  exact ⟨h1, h2, fun i hc => settle_asks _ _ i hc, h3⟩

/-- R49: the write is counted, its slice is counted bad, and its source has done with it. -/
def discarded (h : Fin 6) : Ev :=
  (((accepted s x).countBadSlice h (laneBytes x.lanes)).raise .sliceDiscarded).exhaust x.source

theorem discarded_returned (h : Fin 6) : (discarded s x h).returned = [] :=
  (grows_exhaust _ _).returned.trans ((grows_countBadSlice _ _ _).returned.trans (accepted_returned s x))

theorem discarded_st (h : Fin 6) : (discarded s x h).st = { s with
    src := { s.src with ctx := s.src.ctx.set x.source { s.src.ctx[x.source] with
      accepted := s.src.ctx[x.source].accepted + 1, retries := 0, mark := true } }
    note := s.note.raised .sliceDiscarded
    lug := { s.lug with boards := ((accepted s x).countBadSlice h (laneBytes x.lanes)).st.lug.boards } } := by
  have hst : (((accepted s x).countBadSlice h (laneBytes x.lanes)).raise .sliceDiscarded).st = { s with
      src := s.src.counted x.source
      note := s.note.raised .sliceDiscarded
      lug := { s.lug with boards := ((accepted s x).countBadSlice h (laneBytes x.lanes)).st.lug.boards } } := by
    unfold Ev.raise
    rw [Ev.ask_st, Ev.modify_st, countBadSlice_st, accepted_st]
    rfl
  unfold discarded Ev.exhaust
  rw [Ev.ask_st, Ev.changeSource_src, hst]
  simp [SourceTable.counted]

/-- R49, R190: a slice of an exhausted source is forwarded, discarded and counted bad. -/
theorem giveUp_left (h : Fin 6) :
    let t := ((Ev.start s).takeCourse x (.giveUp h)).finishPath
    s.path.Issued t.path (downAs x x.lanes false false) true ∧ t.note = s.note.raised .sliceDiscarded ∧
      t.src = { s.src with ctx := s.src.ctx.set x.source { s.src.ctx[x.source] with
        accepted := s.src.ctx[x.source].accepted + 1, retries := 0, mark := true } } ∧
      t = { s with path := t.path, src := t.src, note := t.note, lug := t.lug } ∧
      t.lug = { s.lug with boards := t.lug.boards } ∧
      ∀ j : Fin 32, t.lug.boards[j] =
        if s.lookup (sliceLug (laneBytes x.lanes)) = some j ∧ s.lug.boards[j].state = .scanning then
          worseBoard s.lug.boards[j] h
        else s.lug.boards[j] := by
  intro t
  obtain ⟨hi, hf⟩ := issue_grant (s := s) (e := discarded s x h) (x := x) (ls := x.lanes)
    (g := true) (b := false) (r := false) (by rw [discarded_st]) (discarded_returned s x h)
  change s.path.Issued t.path _ _ at hi
  change t = { (discarded s x h).st with path := t.path } at hf
  clear_value t
  rw [discarded_st] at hf
  have hsrc := congrArg State.src hf
  have hnote := congrArg State.note hf
  have hlug := congrArg State.lug hf
  dsimp only at hsrc hnote hlug
  refine ⟨hi, hnote, hsrc, ?_, ?_, fun j => ?_⟩
  · rw [hsrc, hnote, hlug]; exact hf
  · rw [hlug]
  · have hread := countBadSlice_boards (accepted s x) h (laneBytes x.lanes) j
    rw [accepted_st] at hread
    rw [hlug]
    exact hread

end Left

/-- Settles O44, by the courses of Table 3-1: each is the row's grant, and leaves what its own lemma says. -/
theorem sliceWritten : Obligations.SliceWritten := by
  unfold Obligations.SliceWritten
  intro s x off hg h hsrc htrap whole serves exhausted credit bytes sound
  have hready := forwardedTurn_oldestReady ((grantsInto_iff _ _ _ _).1 hg).2.1
  refine ⟨_, exec_sliceWrite hg hsrc htrap, fun hw => ?_, fun hw hs => ?_, fun hw hs he hc => ?_, fun hw hs he hc => ?_,
    fun hw hs he => ?_⟩
  · rw [sliceCourse_partial (mt (wholeSlice_iff off x).1 hw)]
    exact partialSlice_left s x
  · rw [sliceCourse_passBy ((wholeSlice_iff off x).2 hw) hs]
    exact passBy_left s x
  · rw [sliceCourse_serves ((wholeSlice_iff off x).2 hw) hs, if_neg (mt (exhausted_iff _ _).1 he),
      if_pos ((hasCredit_iff _ _).2 hc)]
    obtain ⟨hi, hf⟩ := intake_left s x h
    have hasm := congrArg State.asm hf
    dsimp only at hasm
    have hheld : (joined s x h).held[h] = s.asm.held[h] ++ [⟨bytes, s.arrivalMark bytes⟩] := by
      unfold joined; exact Vector.getElem_set_self _
    rw [← hasm] at hf hheld
    refine ⟨hi, hf, ?_, s.arrivalMark bytes, hheld, arrivalMark_iff s bytes⟩
    rw [hheld]
    exact hasm
  · rw [sliceCourse_serves ((wholeSlice_iff off x).2 hw) hs, if_neg (mt (exhausted_iff _ _).1 he),
      if_neg (mt (hasCredit_iff _ _).1 hc)]
    exact retry_left s x hready
  · rw [sliceCourse_serves ((wholeSlice_iff off x).2 hw) hs, if_pos ((exhausted_iff _ _).2 he)]
    exact giveUp_left s x h


end Sys2Proof.Proofs
end

section
/-! The end of a successful boot (R38, R199, R202 to R205): the values of the image, handed to their blocks. -/

namespace Sys2Proof.Proofs

open Sys2Proof Sys2Proof.Machine Sys2Proof.Laws

/-! ### The values of the image -/

theorem bootFitted_eq (bs : List Byte) : bootFitted bs = BitVec.ofNat 6 (byteAt bs 3) :=
  BitVec.eq_of_toNat_eq (by simp [bootFitted, byteAt])

/-- R38: the context of head `h` follows its fitted bit and the levels at its pins. -/
theorem sampledHeads_read (bs : List Byte) (pins : Pins) (h : Fin 6) : (sampledHeads bs pins)[h] =
    if (bootFitted bs).getLsbD h then
      { HeadCtx.reset with
        present := pins.present.getLsbD h, ready := pins.ready.getLsbD h
        state := if pins.present.getLsbD h then (if pins.ready.getLsbD h then .waiting else .joining) else .absent }
    else HeadCtx.reset := by
  unfold sampledHeads
  rw [Fin.getElem_fin, Vector.getElem_ofFn]
  unfold sampledHead sampledState
  cases pins.present.getLsbD h <;> rfl

theorem anyWaiting_iff (heads : Vector HeadCtx 6) :
    (heads.any fun c => c.state == .waiting) = true ↔ ∃ h : Fin 6, heads[h].state = .waiting := by
  simp [Vector.any_eq_true, Fin.exists_iff]

theorem sourceBit_getLsbD : ∀ c i : Fin 16, (1#16 <<< c.val).getLsbD i = decide (i = c) := by decide

/-- R205: the words requested leave the rest of the path as the values of the image make it. -/
theorem bootSucceed_path (s : State) (bs : List Byte) :
    (bootSucceed s bs).path.scanSlots = bootScanSlots bs ∧ (bootSucceed s bs).path.bases = bootBases bs ∧
      (bootSucceed s bs).path.down = s.path.down ∧ (bootSucceed s bs).path.flight = s.path.flight := by
  obtain ⟨_, _, hp, -⟩ := Path.requestAll_grows (ownedControlWords (bootEnable bs)) (handOver s bs).path
  unfold bootSucceed
  dsimp only
  rw [hp]
  exact ⟨rfl, rfl, rfl, rfl⟩

theorem exec_bootAttemptEnd_good {a : Attempt} {s : State} (hc : s.boot.condition = .booting)
    (hf : Sys2Proof.Machine.Attempt.fails a = false) (hg : imageGood a.bytes = true) :
    exec (.bootAttemptEnd a) s = .next (bootSucceed { s with
      boot := { s.boot with attemptsEnded := s.boot.attemptsEnded + 1, image := a.bytes } } a.bytes) := by
  change execBootAttemptEnd a s = _
  unfold execBootAttemptEnd
  rw [if_pos hc]
  dsimp only
  rw [hf, if_neg (by decide), if_pos hg]

/-- Settles O6: each block holds what the image gives it, and the path besides has only new requests. -/
theorem bootSucceeds : Obligations.BootSucceeds := by
  unfold Obligations.BootSucceeds
  intro a s hc _ hsda hw hwa hr hg
  have hf : Sys2Proof.Machine.Attempt.fails a = false := by simp [Attempt.fails, hsda, hw, hwa, hr]
  refine ⟨_, exec_bootAttemptEnd_good hc hf hg, ?_⟩
  obtain ⟨hslots, hbases, hdown, hflight⟩ := bootSucceed_path { s with
    boot := { s.boot with attemptsEnded := s.boot.attemptsEnded + 1, image := a.bytes } } a.bytes
  refine ⟨rfl, rfl, rfl, bootFitted_eq _, rfl, sampledHeads_read _ _, rfl, ?_,
    ⟨rfl, rfl, fun h => ?_, rfl, fun i => ?_, rfl, rfl, rfl⟩, ⟨rfl, rfl, hslots, hbases⟩, rfl, hdown, hflight, rfl⟩
  · exact if_congr (anyWaiting_iff _) rfl rfl
  · change ((Vector.ofFn fun (h : Fin 6) => bootSource a.bytes (5 + h.val))[h]).val = _
    rw [Fin.getElem_fin, Vector.getElem_ofFn]
    rfl
  · change (bootMask a.bytes 66 ||| (1#16 <<< (bootSource a.bytes 4).val)).getLsbD i = _
    rw [BitVec.getLsbD_or, sourceBit_getLsbD]
    rfl

end Sys2Proof.Proofs
end

section
/-! The capacities of Table 0-6 through each operation (R44, R67, R137, R138, R158, R165, R172): what an event does to the
blocks that have one. Every other operation leaves those blocks as they are, by its footprint. -/

namespace Sys2Proof.Proofs

open Sys2Proof Sys2Proof.Machine Sys2Proof.Laws

/-! ### The capacities, block by block -/

/-- At most 8 transactions are in flight (R165), and the own writes wait as R172 says. -/
def PathWithin (p : Path) : Prop := p.flight.length ≤ 8 ∧ p.roomy

/-- At most 8 records wait to be placed (R137), and the ring holds no more than its size (R138). -/
def ListWithin (d : DecisionWriter) : Prop :=
  d.list.length ≤ 8 ∧ (d.producer - d.consumerShadow).toNat ≤ d.ringSize

/-- No head holds more slices than its granted credit (R44). -/
def CreditWithin (a : Assembler) : Prop := ∀ h : Fin 6, a.held[h].length ≤ a.granted[h]

/-- Intake, the pending output list and the ring are empty. -/
def Emptied (s : State) : Prop :=
  (∀ h : Fin 6, s.asm.held[h] = []) ∧ s.dec.list = [] ∧ s.dec.producer = s.dec.consumerShadow

/-- The invariant by its blocks. -/
theorem capacityInv_iff (s : State) : CapacityInv s ↔ PathWithin s.path ∧ s.solv.queue.length ≤ 4 ∧ ListWithin s.dec ∧
    s.tally.holding.length ≤ 4 ∧ CreditWithin s.asm ∧ (s.running = false → Emptied s) := by
  unfold CapacityInv PathWithin Path.roomy ListWithin CreditWithin Emptied
  tauto

/-- Each block of `t` keeps its capacity if that block of `s` does. -/
structure StaysWithin (s t : State) : Prop where
  path : PathWithin s.path → PathWithin t.path
  solv : s.solv.queue.length ≤ 4 → t.solv.queue.length ≤ 4
  dec : ListWithin s.dec → ListWithin t.dec
  tally : s.tally.holding.length ≤ 4 → t.tally.holding.length ≤ 4
  asm : CreditWithin s.asm → CreditWithin t.asm

theorem StaysWithin.refl (s : State) : StaysWithin s s := ⟨id, id, id, id, id⟩

theorem StaysWithin.trans {s t u : State} (h : StaysWithin s t) (h' : StaysWithin t u) : StaysWithin s u :=
  ⟨h'.path ∘ h.path, h'.solv ∘ h.solv, h'.dec ∘ h.dec, h'.tally ∘ h.tally, h'.asm ∘ h.asm⟩

/-- An operation keeps the capacities where each block that has one lies outside its footprint, or keeps its own. -/
theorem StaysWithin.of_keeps {bs : List Block} {s t : State} (h : Keeps bs s t)
    (path : Block.path ∉ bs ∨ (PathWithin s.path → PathWithin t.path) := by exact .inl (by decide))
    (solv : Block.solv ∉ bs ∨ (s.solv.queue.length ≤ 4 → t.solv.queue.length ≤ 4) := by exact .inl (by decide))
    (dec : Block.dec ∉ bs ∨ (ListWithin s.dec → ListWithin t.dec) := by exact .inl (by decide))
    (tally : Block.tally ∉ bs ∨ (s.tally.holding.length ≤ 4 → t.tally.holding.length ≤ 4) := by exact .inl (by decide))
    (asm : Block.asm ∉ bs ∨ (CreditWithin s.asm → CreditWithin t.asm) := by exact .inl (by decide)) :
    StaysWithin s t where
  path := path.elim (fun hb => by rw [h.path hb]; exact id) id
  solv := solv.elim (fun hb => by rw [h.solv hb]; exact id) id
  dec := dec.elim (fun hb => by rw [h.dec hb]; exact id) id
  tally := tally.elim (fun hb => by rw [h.tally hb]; exact id) id
  asm := asm.elim (fun hb => by rw [h.asm hb]; exact id) id

theorem within_foldl {α : Type} (f : Ev → α → Ev) (hf : ∀ e a, StaysWithin e.st (f e a).st) (l : List α) (e : Ev) :
    StaysWithin e.st (l.foldl f e).st := by
  induction l generalizing e with
  | nil => exact StaysWithin.refl _
  | cons a l ih => exact (hf e a).trans (ih _)

theorem changeBoard_within (e : Ev) (i : Fin 32) (f : Board → Board) : StaysWithin e.st (e.changeBoard i f).st :=
  StaysWithin.of_keeps (keeps_changeBoard e i f)

theorem raise_within (e : Ev) (n : Notice) : StaysWithin e.st (e.raise n).st := StaysWithin.of_keeps (keeps_raise e n)

/-! ### The decision writer (R137, R138, R140) -/

theorem changeDec_within {e : Ev} {f : DecisionWriter → DecisionWriter} (h : ListWithin e.st.dec → ListWithin (f e.st.dec)) :
    StaysWithin e.st (e.changeDec f).st := StaysWithin.of_keeps (keeps_changeDec e f) (dec := .inr h)

theorem placeRecord_empty {e : Ev} (h : e.st.dec.list = []) : e.placeRecord = e := by
  unfold Ev.placeRecord
  rw [h]

/-- R138: a record is placed where the ring has room, so the producer index moves past the consumer's by one more. -/
theorem placeRecord_within (e : Ev) : StaysWithin e.st e.placeRecord.st := by
  refine StaysWithin.of_keeps (keeps_placeRecord e) (dec := .inr ?_)
  unfold Ev.placeRecord
  split
  · exact id
  · rename_i r rest hlist
    split
    · rename_i hplace
      simp only [DecisionWriter.mayPlace, Bool.and_eq_true, decide_eq_true_eq] at hplace
      rintro ⟨hlen, -⟩
      rw [hlist, List.length_cons] at hlen
      refine ⟨Nat.le_of_succ_le hlen, ?_⟩
      show (e.st.dec.producer + 1 - e.st.dec.consumerShadow).toNat ≤ e.st.dec.ringSize
      have hroom := hplace.1.2
      bv_omega
    · exact id

/-- R137: a record joins the list where it holds fewer than 8. -/
theorem handRecord_within (e : Ev) (r : DecRecord) : StaysWithin e.st (e.handRecord r).st := by
  unfold Ev.handRecord
  split
  · rename_i hlen
    refine StaysWithin.trans (changeDec_within fun hd => ⟨?_, hd.2⟩) (placeRecord_within _)
    rw [List.length_append]
    exact hlen
  · exact raise_within _ _

theorem handDecision_within (e : Ev) (i : Fin 32) : StaysWithin e.st (e.handDecision i).st := by
  unfold Ev.handDecision
  dsimp only
  split
  · exact handRecord_within _ _
  · exact StaysWithin.refl _

theorem recordAnswered_within (e : Ev) : StaysWithin e.st e.recordAnswered.st :=
  (changeDec_within (e := e.ask (.decProducer e.st.dec.producer true)) id).trans (placeRecord_within _)

theorem producerAnswered_within (e : Ev) (w : Bool) : StaysWithin e.st (e.producerAnswered w).st :=
  (changeDec_within id).trans (placeRecord_within _)

/-- R140: a consumer index is taken where the ring's count from it is within the ring. -/
theorem takeConsumer_within (e : Ev) (w : Word32) : StaysWithin e.st (e.takeConsumer w).st := by
  unfold Ev.takeConsumer
  dsimp only
  split
  · rename_i hring
    exact (changeDec_within fun hd => ⟨hd.1, hring⟩).trans (placeRecord_within _)
  · exact StaysWithin.refl _

/-! ### The tally unit (R158, R159) -/

theorem changeTally_within {e : Ev} {f : Tally → Tally}
    (h : e.st.tally.holding.length ≤ 4 → (f e.st.tally).holding.length ≤ 4) : StaysWithin e.st (e.changeTally f).st :=
  StaysWithin.of_keeps (keeps_changeTally e f) (tally := .inr fun hl => by rw [changeTally_tally]; exact h hl)

theorem strand_within (e : Ev) : StaysWithin e.st e.strand.st :=
  (changeTally_within id).trans (raise_within _ _)

/-- R158: a board is held where the list holds fewer than 4. -/
theorem holdBoard_within (e : Ev) (o : TallyOffer) : StaysWithin e.st (e.holdBoard o).st := by
  unfold Ev.holdBoard
  split
  · rename_i hlen
    refine changeTally_within fun _ => ?_
    rw [List.length_append]
    exact hlen
  · exact strand_within e

theorem addTo_within (e : Ev) (k : Bank) (o : TallyOffer) : StaysWithin e.st (e.addTo k o).st :=
  changeTally_within (by rw [Tally.setBank_holding]; exact id)

theorem filled_within (e : Ev) (k : Bank) : StaysWithin e.st (filled e k).st :=
  (changeTally_within (by rw [withState_holding]; exact id)).trans (raise_within _ _)

theorem turned_within (e : Ev) (k : Bank) : StaysWithin e.st (turned e k).st :=
  (filled_within e k).trans (changeTally_within (by rw [withState_holding]; exact id))

theorem overflow_within (e : Ev) (k : Bank) (o : TallyOffer) : StaysWithin e.st (e.overflow k o).st := by
  rw [overflow_eq]
  split
  · split
    · exact (turned_within e k).trans (holdBoard_within _ _)
    · exact (turned_within e k).trans (addTo_within _ _ _)
  · exact (filled_within e k).trans (strand_within _)

theorem offer_within (e : Ev) (o : TallyOffer) : StaysWithin e.st (e.offer o).st := by
  unfold Ev.offer
  split
  · exact strand_within e
  · split
    · exact holdBoard_within e o
    · split
      · exact addTo_within e _ o
      · exact overflow_within e _ o

theorem offerAll_within (os : List TallyOffer) (e : Ev) : StaysWithin e.st (e.offerAll os).st := by
  induction os generalizing e with
  | nil => exact StaysWithin.refl _
  | cons o os ih => exact (offer_within e o).trans (ih _)

theorem completeRequest_within (e : Ev) : StaysWithin e.st e.completeRequest.st := by
  unfold Ev.completeRequest
  split
  · exact StaysWithin.refl _
  · split
    · exact StaysWithin.refl _
    · split
      · exact StaysWithin.trans (t := (e.changeTally fun t => { t with request := none }).st) (changeTally_within id)
          (raise_within _ _)
      · exact StaysWithin.refl _

theorem closeShift_holding (t : Tally) : t.closeShift.1.holding = t.holding := by
  unfold Tally.closeShift
  split
  · rfl
  · split
    · dsimp only; rw [Tally.setBank_holding, Tally.setBank_holding]
    · rfl

theorem clearBank_holding (t : Tally) (k : Bank) : (t.clearBank k).1.holding = t.holding := by
  unfold Tally.clearBank
  split
  · split <;> exact Tally.setBank_holding _ _ _
  · split <;> exact Tally.setBank_holding _ _ _
  · rfl
  · rfl

theorem takeRequest_within (e : Ev) (w : Word32) : StaysWithin e.st (e.takeRequest w).st := by
  unfold Ev.takeRequest
  split
  · exact changeTally_within (by dsimp only; rw [closeShift_holding]; exact id)
  · exact changeTally_within (by dsimp only; rw [clearBank_holding]; exact id)
  · exact changeTally_within id
  · exact changeTally_within (f := fun t => { t with request := _ }) id

/-- R159: the holding list is emptied before its boards are offered again. -/
theorem endSnapshot_within (e : Ev) (q : TallyRequest) (p : Snapshot) : StaysWithin e.st (e.endSnapshot q p).st :=
  ((changeTally_within fun _ => Nat.zero_le _).trans (offerAll_within _ _)).trans (completeRequest_within _)

theorem imageAnswered_within (e : Ev) (ok : Bool) : StaysWithin e.st (e.imageAnswered ok).st := by
  unfold Ev.imageAnswered
  split
  · exact StaysWithin.refl _
  · split
    · exact StaysWithin.refl _
    · dsimp only
      split
      · exact endSnapshot_within _ _ _
      · exact changeTally_within id

theorem requestWriteAnswered_within (e : Ev) : StaysWithin e.st e.requestWriteAnswered.st :=
  (changeTally_within id).trans (completeRequest_within _)

/-! ### The solver (R67) -/

theorem startSolve_queue_le (s : State) : s.startSolve.solv.queue.length ≤ s.solv.queue.length := by
  rcases startSolve_cases s with ⟨h, -⟩ | ⟨n, rest, hs, hq⟩
  · rw [h]
  · rw [(startSolve_takes hs hq).1, hq]
    exact Nat.le_succ _

/-- R67: a board joins a queue that holds fewer than 4. -/
theorem joinQueue_within {e : Ev} (i : Fin 32) (hlen : e.st.solv.queue.length < 4) :
    StaysWithin e.st (e.joinQueue i).st := by
  refine StaysWithin.of_keeps (keeps_joinQueue e i) (solv := .inr fun _ => ?_)
  rw [joinQueue_eq]
  refine (startSolve_queue_le _).trans ?_
  show (e.st.solv.queue ++ [e.st.lug.boards[i].lug]).length ≤ 4
  rw [List.length_append]
  exact hlen

theorem leaveSolver_within (e : Ev) (n : Word16) : StaysWithin e.st (e.leaveSolver n).st :=
  StaysWithin.of_keeps (keeps_leaveSolver e n)
    (solv := .inr fun h => (startSolve_queue_le _).trans ((List.length_filter_le _ _).trans h))

theorem closeBoard_within (e : Ev) (i : Fin 32) (t : HeadSet) : StaysWithin e.st (e.closeBoard i t).st := by
  have hmark : ∀ f : Board → Board, StaysWithin e.st ((e.changeBoard i f).recordBadCounts e.st.lug.boards[i]).st :=
    fun f => (changeBoard_within e i f).trans (StaysWithin.of_keeps (keeps_recordBadCounts _ _))
  unfold Ev.closeBoard
  dsimp only
  refine StaysWithin.trans ?_ (StaysWithin.of_keeps (keeps_parkTestAll _))
  split
  · exact (hmark _).trans (changeBoard_within _ _ _)
  · split
    · rename_i hlen
      exact (hmark _).trans (joinQueue_within i hlen)
    · exact ((hmark _).trans (changeBoard_within _ _ _)).trans (raise_within _ _)

theorem closeTest_within (e : Ev) (i : Fin 32) : StaysWithin e.st (e.closeTest i).st := by
  unfold Ev.closeTest
  dsimp only
  split
  · exact closeBoard_within _ _ _
  · exact StaysWithin.refl _

/-! ### The lug table and the scan assembler -/

theorem closeTimeout_within (e : Ev) : StaysWithin e.st e.closeTimeout.st := by
  unfold Ev.closeTimeout
  split
  · exact StaysWithin.refl _
  · dsimp only
    split
    · exact ((changeBoard_within _ _ _).trans (raise_within _ _)).trans (closeBoard_within _ _ _)
    · exact StaysWithin.refl _

theorem commitBoard_within (e : Ev) : StaysWithin e.st e.commitBoard.st := by
  by_cases hc : ∀ i, e.st.boardAt e.st.lug.commitPos = some i → ¬ Commits e.st.lug.boards[i]
  · rw [commitBoard_idle hc]
    exact StaysWithin.refl _
  · push Not at hc
    obtain ⟨i, hat, hsolved | hopen⟩ := hc
    · rw [commitBoard_solved hat hsolved]
      exact (changeBoard_within _ _ _).trans (handDecision_within _ _)
    · rw [commitBoard_unsolved hat hopen]
      exact (((changeBoard_within _ _ _).trans (leaveSolver_within _ _)).trans (raise_within _ _)).trans
        (handDecision_within _ _)

theorem commitAndTimeout_within (e : Ev) : StaysWithin e.st e.commitAndTimeout.st := by
  obtain ⟨e1, hst, -, -, hin⟩ := commitAndTimeout_inOrder e
  have h1 : StaysWithin e.st e1.st := by rw [hst]; exact ⟨id, id, id, id, id⟩
  refine h1.trans ?_
  rcases hin with h | ⟨-, h⟩ <;> rw [h]
  · exact (commitBoard_within _).trans (closeTimeout_within _)
  · exact (closeTimeout_within _).trans (commitBoard_within _)

theorem dropBoard_within (e : Ev) : StaysWithin e.st e.dropBoard.st := by
  unfold Ev.dropBoard
  split
  · exact StaysWithin.refl _
  · dsimp only
    split
    · exact (offer_within _ _).trans (StaysWithin.of_keeps (keeps_freeBoard _ _))
    · exact StaysWithin.of_keeps (keeps_freeBoard _ _)

theorem initSlot_within (e : Ev) : StaysWithin e.st e.initSlot.st := by
  unfold Ev.initSlot
  dsimp only
  split
  · exact changeBoard_within _ _ _
  · refine StaysWithin.trans ?_ (closeTest_within _ _)
    exact ⟨id, id, id, id, id⟩

theorem openBoard_within (e : Ev) : StaysWithin e.st e.openBoard.st :=
  (StaysWithin.of_keeps ((keeps_switchPlan e).comp (ds := [.plan, .note, .head]) (keeps_admitHeads _) (by decide)
    (by decide))).trans (initSlot_within _)

theorem loseAt_within (h : Fin 6) (e : Ev) (i : Fin 32) : StaysWithin e.st (Ev.loseAt h e i).st := by
  unfold Ev.loseAt
  split
  · exact (changeBoard_within _ _ _).trans (closeTest_within _ _)
  · exact StaysWithin.refl _

theorem loseHead_within (e : Ev) (h : Fin 6) : StaysWithin e.st (e.loseHead h).st := by
  unfold Ev.loseHead
  dsimp only
  split
  · exact (within_foldl _ (loseAt_within h) _ _).trans (raise_within _ _)
  · exact within_foldl _ (loseAt_within h) _ _

theorem useSlice_within (e : Ev) (h : Fin 6) (i : Fin 32) (bs : List Byte) :
    StaysWithin e.st (e.useSlice h i bs).st := by
  unfold Ev.useSlice
  split
  · exact changeBoard_within _ _ _
  · exact (changeBoard_within _ _ _).trans (closeTest_within _ _)

theorem foldHeld_within (e : Ev) (h : Fin 6) (sl : HeldSlice) : StaysWithin e.st (e.foldHeld h sl).st := by
  unfold Ev.foldHeld
  split
  · exact (raise_within _ _).trans (StaysWithin.of_keeps (keeps_countBadSlice _ _ _))
  · split
    · exact StaysWithin.of_keeps (keeps_discardSlice _ _)
    · split
      · exact useSlice_within _ _ _ _
      · exact StaysWithin.of_keeps (keeps_discardSlice _ _)

/-- A head's list replaced by one within its credit. -/
theorem creditWithin_set {a : Assembler} {h : Fin 6} {l : List HeldSlice} (hl : l.length ≤ a.granted[h])
    (ha : CreditWithin a) : CreditWithin { a with held := a.held.set h l } := by
  intro k
  by_cases hk : (h : Nat) = k
  · obtain rfl : h = k := Fin.ext hk
    show ((a.held.set h l)[h]).length ≤ _
    rw [show (a.held.set h l)[h] = l from Vector.getElem_set_self _]
    exact hl
  · show ((a.held.set h l)[k]).length ≤ _
    rw [show (a.held.set h l)[k] = a.held[k] from Vector.getElem_set_ne h.2 k.2 hk]
    exact ha k

/-- R43, R45: a slice is taken into intake where its head has free credit. -/
theorem intake_within {e : Ev} {h : Fin 6} (hc : e.st.asm.hasCredit h = true) (bs : List Byte) :
    StaysWithin e.st (e.intake h bs).st := by
  refine StaysWithin.of_keeps (keeps_intake e h bs) (asm := .inr (creditWithin_set ?_))
  rw [List.length_append]
  exact (hasCredit_iff _ _).1 hc

/-! ### The memory path (R165, R172) -/

theorem finish_flight (e : Ev) : e.finish.path.flight = e.st.path.flight := by
  obtain ⟨_, _, h, -⟩ := e.finish_path
  rw [h]

theorem finish_within (e : Ev) : StaysWithin e.st e.finish :=
  StaysWithin.of_keeps (keeps_finish e) (path := .inr fun hp => ⟨by rw [finish_flight]; exact hp.1, Ev.finish_roomy hp.2⟩)

theorem finishPath_within (e : Ev) : StaysWithin e.st e.finishPath := by
  refine StaysWithin.of_keeps (keeps_finishPath e) (path := .inr fun hp => ?_)
  obtain ⟨hlen, hroomy⟩ := (finish_within e).path hp
  exact ⟨(presentFrom_length _ _ _).trans_le hlen, hroomy⟩

theorem returnResponses_within (e : Ev) : StaysWithin e.st e.returnResponses.st := by
  refine StaysWithin.of_keeps (keeps_returnResponses e) (path := .inr fun hp => ?_)
  rw [(Ev.returnResponses_st e).1]
  exact ⟨(returnFrom_sublist _ _).length_le.trans hp.1, hp.2⟩

theorem issue_within (e : Ev) (x : Txn) (ls : List Lane) (g b r : Bool) : StaysWithin e.st (e.issue x ls g b r).st :=
  StaysWithin.of_keeps (keeps_issue e x ls g b r) (path := .inr fun hp => ⟨(changeFirst_length _ _ _).trans_le hp.1, hp.2⟩)

/-- A change of one transaction in flight, and the responses that it lets return. -/
theorem changeFirst_within (e : Ev) (p : UpTxn → Bool) (f : UpTxn → UpTxn) : StaysWithin e.st
    ((e.modify fun s => { s with path := { s.path with flight := changeFirst p f s.path.flight } }).returnResponses).st := by
  refine StaysWithin.trans ?_ (returnResponses_within _)
  exact ⟨fun hp => ⟨(changeFirst_length _ _ _).trans_le hp.1, hp.2⟩, id, id, id, id⟩

theorem settle_within (e : Ev) (r : Settled) : StaysWithin e.st (e.settle r).st := changeFirst_within _ _ _

theorem answerForwarded_within (e : Ev) (i : Fin 16) (r : Response) : StaysWithin e.st (e.answerForwarded i r).st :=
  changeFirst_within _ _ _

theorem popDown_within (e : Ev) (rest : List Down) (w : Wire) (ok : Bool) : StaysWithin e.st (e.popDown rest w ok).st :=
  StaysWithin.of_keeps (keeps_popDown e rest w ok) (path := .inr id)

theorem releaseLine_within (e : Ev) (k : OwnTxn) (w : Wire) : StaysWithin e.st (e.releaseLine k w).st := by
  refine StaysWithin.of_keeps (keeps_releaseLine e k w) (path := .inr ?_)
  unfold Ev.releaseLine
  split
  · exact fun hp => ⟨(List.length_map _).trans_le hp.1, hp.2⟩
  · exact id

theorem ownAnswered_within (e : Ev) (k : OwnTxn) (ok : Bool) (d : List Byte) :
    StaysWithin e.st (e.ownAnswered k ok d).st := by
  unfold Ev.ownAnswered
  split
  · exact StaysWithin.of_keeps (keeps_fetchAnswered _ _)
  · exact StaysWithin.of_keeps (keeps_statusAnswered _)
  · exact recordAnswered_within _
  · exact producerAnswered_within _ _
  · exact imageAnswered_within _ _
  all_goals exact StaysWithin.refl _

/-- R172: with the oldest entry gone the oldest waiting request enters, so the queue stays full while one waits. -/
theorem issueOwn_within {s : State} {k : OwnTxn} {rest : List OwnTxn} (hq : s.path.queue = k :: rest) :
    StaysWithin s (s.issueOwn k rest) := by
  refine ⟨fun ⟨hf, hlen, hfull, hpair⟩ => ⟨hf, ?_, fun hw => ?_, hpair.sublist (List.drop_sublist 1 _)⟩, id, id, id, id⟩
  · show (rest ++ s.path.waiting.take 1).length ≤ 16
    rw [hq, List.length_cons] at hlen
    rw [List.length_append, List.length_take]
    omega
  · change s.path.waiting.drop 1 ≠ [] at hw
    show (rest ++ s.path.waiting.take 1).length = 16
    have hwait : s.path.waiting ≠ [] := fun hc => hw (by rw [hc]; rfl)
    have hpos := List.length_pos_of_ne_nil hwait
    have hfull16 := hfull hwait
    rw [hq, List.length_cons] at hfull16
    rw [List.length_append, List.length_take]
    omega

/-! ### The grants of the forwarded side -/

theorem takeWord_within (e : Ev) (k : CtrlWord) (w : Word32) : StaysWithin e.st (e.takeWord k w).st := by
  have hk := keeps_takeWord_touches e k w
  cases k with
  | tallyRequest => exact takeRequest_within e w
  | decConsumer => exact takeConsumer_within e w
  | headCommand h => exact StaysWithin.of_keeps (bs := [.head, .note]) hk
  | notice | noticeEnable | planSelect | lineStatus | tallyStatus | lineRestart | ovrProducer | ovrConsumer | decProducer
    | trapClear | headStatus | sourceStatus | unlisted => exact StaysWithin.of_keeps hk

theorem takeWords_within (ws : List (CtrlWord × Word32)) (e : Ev) : StaysWithin e.st (e.takeWords ws).st := by
  induction ws generalizing e with
  | nil => exact StaysWithin.refl _
  | cons p ws ih => exact (takeWord_within e p.1 p.2).trans (ih _)

theorem forwardWrite_within (e : Ev) (x : Txn) (ap : Aperture) (off : Nat) :
    StaysWithin e.st (e.forwardWrite x ap off).st := by
  cases ap with
  | ctrl => exact (takeWords_within _ e).trans (issue_within _ _ _ _ _ _)
  | planA | planB => exact (StaysWithin.of_keeps (keeps_copyPlan e _ _ _)).trans (issue_within _ _ _ _ _ _)
  | scan | ovr | dec | tally => exact issue_within _ _ _ _ _ _

/-- The course of a grant keeps the capacities, where an intake is one with free credit. -/
theorem takeCourse_within (s : State) (x : Txn) (c : Machine.Course) (hc : ∀ h, c = .intake h → s.asm.hasCredit h = true) :
    StaysWithin s ((Ev.start s).takeCourse x c).st := by
  have haccept : StaysWithin s (accepted s x).st := StaysWithin.of_keeps (keeps_acceptWrite (Ev.start s) _)
  cases c with
  | asIssued => exact issue_within (Ev.start s) _ _ _ _ _
  | bootRetry | refusedTrapped | retry => exact settle_within (Ev.start s) _
  | refused => exact (StaysWithin.of_keeps (keeps_trap (Ev.start s) _ _)).trans (settle_within _ _)
  | refusedExhausted => exact (StaysWithin.of_keeps (keeps_exhaust (Ev.start s) _)).trans (settle_within _ _)
  | forward ap off => exact haccept.trans (forwardWrite_within _ _ _ _)
  | partialSlice => exact (haccept.trans (raise_within _ _)).trans (issue_within _ _ _ _ _ _)
  | passBy => exact haccept.trans (issue_within _ _ _ _ _ _)
  | intake h =>
    refine (haccept.trans (intake_within ?_ _)).trans (issue_within _ _ _ _ _ _)
    rw [accepted_st]
    exact hc h rfl
  | giveUp h =>
    exact (((haccept.trans (StaysWithin.of_keeps (keeps_countBadSlice _ _ _))).trans (raise_within _ _)).trans
      (StaysWithin.of_keeps (keeps_exhaust _ _))).trans (issue_within _ _ _ _ _ _)

end Sys2Proof.Proofs
end

section
/-! The capacities through each command (Table 0-6): most commands keep every block that has one, or run while RUNNING; the
answers of own transactions, the grants, the boot attempt's end and device reset are taken one by one. -/

namespace Sys2Proof.Proofs

open Sys2Proof Sys2Proof.Machine Sys2Proof.Laws

/-! ### What a command must keep -/

/-- What a step must keep: the capacities, whether the part is RUNNING, and, outside RUNNING, that intake, the pending output
list and the ring are empty. -/
structure KeepsCapacity (s t : State) : Prop where
  within : StaysWithin s t
  running : t.running = s.running
  idle : s.running = false → Emptied s → Emptied t

theorem KeepsCapacity.refl (s : State) : KeepsCapacity s s := ⟨StaysWithin.refl s, rfl, fun _ h => h⟩

theorem KeepsCapacity.trans {s t u : State} (h : KeepsCapacity s t) (h' : KeepsCapacity t u) : KeepsCapacity s u :=
  ⟨h.within.trans h'.within, h'.running.trans h.running, fun hr he => h'.idle (h.running.trans hr) (h.idle hr he)⟩

theorem KeepsCapacity.capacityInv {s t : State} (h : KeepsCapacity s t) (hs : CapacityInv s) : CapacityInv t := by
  obtain ⟨hpath, hsolv, hdec, htally, hasm, hidle⟩ := (capacityInv_iff s).1 hs
  refine (capacityInv_iff t).2 ⟨h.within.path hpath, h.within.solv hsolv, h.within.dec hdec, h.within.tally htally,
    h.within.asm hasm, fun ht => ?_⟩
  rw [h.running] at ht
  exact h.idle ht (hidle ht)

/-- A command that leaves intake, the decision writer and the boot loader. -/
theorem KeepsCapacity.of_idle {bs : List Block} {s t : State} (h : Keeps bs s t) (hw : StaysWithin s t)
    (ha : Block.asm ∉ bs := by decide) (hd : Block.dec ∉ bs := by decide) (hb : Block.boot ∉ bs := by decide) :
    KeepsCapacity s t :=
  ⟨hw, by simp only [State.running, h.boot hb], fun _ he => by unfold Emptied; rw [h.asm ha, h.dec hd]; exact he⟩

/-- A command taken while RUNNING. -/
theorem KeepsCapacity.of_running {bs : List Block} {s t : State} (h : Keeps bs s t) (hw : StaysWithin s t)
    (hr : s.running = true) (hb : Block.boot ∉ bs := by decide) : KeepsCapacity s t :=
  ⟨hw, by simp only [State.running, h.boot hb], fun hf => by rw [hr] at hf; cases hf⟩

/-- The end of an event makes its requests, and an event of the memory path presents besides. -/
theorem KeepsCapacity.finish {s : State} {e : Ev} (h : KeepsCapacity s e.st) : KeepsCapacity s e.finish :=
  h.trans (KeepsCapacity.of_idle (keeps_finish e) (finish_within e))

theorem KeepsCapacity.finishPath {s : State} {e : Ev} (h : KeepsCapacity s e.st) : KeepsCapacity s e.finishPath :=
  h.trans (KeepsCapacity.of_idle (keeps_finishPath e) (finishPath_within e))

/-- The blocks that no capacity speaks of. -/
abbrev uncounted : List Block :=
  [.src, .head, .lug, .plan, .ovr, .trim, .note, .restart, .pins, .mem, .freeCount, .pending]

theorem keeps_uncounted {s t : State} (hboot : t.boot = s.boot) (hpath : t.path = s.path) (hasm : t.asm = s.asm)
    (hsolv : t.solv = s.solv) (hdec : t.dec = s.dec) (htally : t.tally = s.tally) : Keeps uncounted s t := by
  intro b hb
  cases b with
  | boot => exact hboot
  | path => exact hpath
  | asm => exact hasm
  | solv => exact hsolv
  | dec => exact hdec
  | tally => exact htally
  | _ => exact absurd (by decide) hb

/-- The event has changed nothing that has a capacity. -/
def Quiet (s : State) (e : Ev) : Prop := Keeps uncounted s e.st

section Quiet
variable {s t : State} {e e' : Ev}

theorem Quiet.start : Quiet s (Ev.start s) := Keeps.refl _ _

theorem Quiet.then {bs : List Block} (h : Quiet s e) (hk : Keeps bs e.st e'.st)
    (hb : ∀ b ∈ bs, b ∈ uncounted := by decide) : Quiet s e' := Keeps.trans h (hk.mono hb)

theorem Quiet.done (h : Quiet s e) (hd : e.done = .next t) : KeepsCapacity s t := by
  rw [done_next hd]
  exact (KeepsCapacity.of_idle h (StaysWithin.of_keeps h)).finish

theorem keepsCapacity_notTaken (h : notTaken s = .next t) : KeepsCapacity s t := by
  rw [notTaken_next h]
  exact KeepsCapacity.refl s

end Quiet

/-! ### The commands that change nothing with a capacity -/

theorem keepsCapacity_encPulse {s t : State} (h : exec .encPulse s = .next t) : KeepsCapacity s t := by
  change execEncPulse s = .next t at h
  unfold execEncPulse at h
  have hcount : Quiet s ((Ev.start s).modify fun s =>
      { s with lug := { s.lug with encCount := min 65535 (s.lug.encCount + 1) } }) :=
    keeps_uncounted rfl rfl rfl rfl rfl rfl
  split at h
  · dsimp only at h
    split at h
    · split at h
      · exact (hcount.then (keeps_fire _ _)).done h
      · exact hcount.done h
    · exact hcount.done h
  · exact keepsCapacity_notTaken h

theorem keepsCapacity_sawHoldExpiry {k : Fin 11} {s t : State} (h : exec (.sawHoldExpiry k) s = .next t) :
    KeepsCapacity s t := by
  change execSawHoldExpiry k s = .next t at h
  unfold execSawHoldExpiry at h
  split at h
  · exact Quiet.done (keeps_uncounted rfl rfl rfl rfl rfl rfl) h
  · exact keepsCapacity_notTaken h

theorem keepsCapacity_lampFlashToggle {s t : State} (h : exec .lampFlashToggle s = .next t) : KeepsCapacity s t := by
  exact Quiet.done (keeps_uncounted rfl rfl rfl rfl rfl rfl) (show Ev.done _ = .next t from h)

theorem keepsCapacity_headPresentRise {k : Fin 6} {s t : State} (h : exec (.headPresentRise k) s = .next t) :
    KeepsCapacity s t := by
  change execHeadPresentRise k s = .next t at h
  unfold execHeadPresentRise at h
  dsimp only at h
  have hpin : Quiet s ((Ev.start s).presentPin k true) := Quiet.start.then (keeps_presentPin _ _ _)
  have hlevel := hpin.then (keeps_changeHead _ k fun c => { c with present := true })
  split at h
  · split at h
    · split at h
      · exact ((hlevel.then (keeps_changeHead _ _ _)).then (keeps_raise _ _)).done h
      · exact (hlevel.then (keeps_changeHead _ _ _)).done h
    all_goals exact hlevel.done h
  · exact hpin.done h

theorem keepsCapacity_headReadyRise {k : Fin 6} {s t : State} (h : exec (.headReadyRise k) s = .next t) :
    KeepsCapacity s t := by
  change execHeadReadyRise k s = .next t at h
  unfold execHeadReadyRise at h
  dsimp only at h
  have hpin : Quiet s ((Ev.start s).readyPin k true) := Quiet.start.then (keeps_readyPin _ _ _)
  have hlevel := hpin.then (keeps_changeHead _ k fun c => { c with ready := true })
  split at h
  · split at h
    · exact ((hlevel.then (keeps_changeHead _ _ _)).then (keeps_raise _ _)).done h
    all_goals exact hlevel.done h
  · exact hpin.done h

theorem keepsCapacity_headReadyFall {k : Fin 6} {s t : State} (h : exec (.headReadyFall k) s = .next t) :
    KeepsCapacity s t := by
  change execHeadReadyFall k s = .next t at h
  unfold execHeadReadyFall at h
  dsimp only at h
  have hpin : Quiet s ((Ev.start s).readyPin k false) := Quiet.start.then (keeps_readyPin _ _ _)
  have hlevel := hpin.then (keeps_changeHead _ k fun c => { c with ready := false })
  split at h
  · split at h
    · exact (hlevel.then (keeps_changeHead _ _ _)).done h
    · exact (((hlevel.then (keeps_changeHead _ _ _)).then (keeps_raise _ _)).then (keeps_parkTest _ _)).done h
    all_goals exact hlevel.done h
  · exact hpin.done h

theorem keepsCapacity_overrideEntryTake {s t : State} (h : exec .overrideEntryTake s = .next t) : KeepsCapacity s t := by
  change execOverrideEntryTake s = .next t at h
  unfold execOverrideEntryTake at h
  split at h
  · split at h
    · exact ((Quiet.start.then (keeps_takeEntry _ _)).then (keeps_entryTaken _ _ _)).done h
    · exact keepsCapacity_notTaken h
  · exact keepsCapacity_notTaken h

theorem keepsCapacity_headMonitorRestart {s t : State} (h : exec .headMonitorRestart s = .next t) :
    KeepsCapacity s t := by
  change execHeadMonitorRestart s = .next t at h
  unfold execHeadMonitorRestart at h
  split at h
  · refine Quiet.done ?_ h
    refine Quiet.then (e := (Ev.start s).modify fun s =>
      { s with restart := { s.restart with head := s.restart.head - 1 } }) (bs := [.head]) ?_ (keeps_foldl _ ?_ _ _)
    · exact keeps_uncounted rfl rfl rfl rfl rfl rfl
    · intro e k
      split
      · exact keeps_changeHead e k _
      · exact Keeps.refl _ _
  · exact keepsCapacity_notTaken h

theorem keepsCapacity_trimRestart {s t : State} (h : exec .trimRestart s = .next t) : KeepsCapacity s t := by
  change execTrimRestart s = .next t at h
  unfold execTrimRestart at h
  split at h
  · exact Quiet.done (keeps_uncounted rfl rfl rfl rfl rfl rfl) h
  · exact keepsCapacity_notTaken h

theorem keepsCapacity_lugTableRestart {s t : State} (h : exec .lugTableRestart s = .next t) : KeepsCapacity s t := by
  by_cases hc : s.running = true ∧ 0 < s.restart.lug
  · have hquiet : Quiet s (released s) := (keeps_released s).mono (by decide)
    rw [exec_lugTableRestart hc.1 hc.2] at h
    split at h
    · exact hquiet.done h
    · exact (hquiet.then (keeps_ask _ .lineStatus)).done h
  · rw [exec_lugTableRestart_idle hc] at h
    exact keepsCapacity_notTaken h

theorem keepsCapacity_bootStart {s t : State} (h : exec .bootStart s = .next t) : KeepsCapacity s t := by
  change execBootStart s = .next t at h
  unfold execBootStart at h
  split at h
  · rename_i hc
    injection h with h
    subst h
    exact ⟨⟨id, id, id, id, id⟩, by simp [State.running, hc], fun _ he => he⟩
  · exact keepsCapacity_notTaken h

/-! ### The commands of the line -/

theorem keepsCapacity_headPresentFall {k : Fin 6} {s t : State} (h : exec (.headPresentFall k) s = .next t) :
    KeepsCapacity s t := by
  have hpin : Keeps [.pins, .lug, .head, .solv, .note] s (pinned k s).st :=
    (keeps_presentPin (Ev.start s) k false).mono (by decide)
  have hpinned : StaysWithin s (pinned k s).st := StaysWithin.of_keeps (keeps_presentPin (Ev.start s) k false)
  by_cases hc : s.running = false ∨ s.head.fitted.getLsbD k = false
  · rw [exec_headPresentFall_idle hc] at h
    injection h with h
    subst h
    exact (KeepsCapacity.of_idle hpin hpinned).finish
  · have habsent : ∀ e : Ev, Keeps [.pins, .lug, .head, .solv, .note] s e.st → StaysWithin s e.st →
        KeepsCapacity s (e.changeHead k absentHead).finish := fun e hk hw =>
      (KeepsCapacity.of_idle (hk.trans ((keeps_changeHead e k _).mono (by decide)))
        (hw.trans (StaysWithin.of_keeps (keeps_changeHead e k _)))).finish
    simp only [not_or, Bool.not_eq_false] at hc
    rw [exec_headPresentFall hc.1 hc.2] at h
    injection h with h
    subst h
    split
    · exact habsent _ (hpin.trans ((keeps_loseHead _ k).mono (by decide))) (hpinned.trans (loseHead_within _ k))
    · exact habsent _ hpin hpinned

theorem keepsCapacity_sliceFold {k : Fin 6} {s t : State} (h : exec (.sliceFold k) s = .next t) : KeepsCapacity s t := by
  cases hr : s.running with
  | false =>
    change execSliceFold k s = .next t at h
    unfold execSliceFold at h
    rw [hr] at h
    exact keepsCapacity_notTaken h
  | true =>
    cases hheld : s.asm.held[k] with
    | nil =>
      change execSliceFold k s = .next t at h
      unfold execSliceFold at h
      rw [if_pos hr, hheld] at h
      exact keepsCapacity_notTaken h
    | cons sl rest =>
      rw [exec_sliceFold hr hheld] at h
      injection h with h
      subst h
      have htake : Keeps [.asm] s (taken s k rest).st := fun b hb => by
        cases b with
        | asm => exact absurd (by decide) hb
        | _ => rfl
      have hfewer : CreditWithin s.asm → rest.length ≤ s.asm.granted[k] := fun ha => by
        have hk := ha k
        rw [hheld, List.length_cons] at hk
        omega
      have hwithin : StaysWithin s (taken s k rest).st :=
        StaysWithin.of_keeps htake (asm := .inr fun ha => creditWithin_set (hfewer ha) ha)
      exact (KeepsCapacity.of_running (htake.comp (ds := [.asm, .lug, .head, .solv, .note]) (keeps_foldHeld _ k sl)
        (by decide) (by decide)) (hwithin.trans (foldHeld_within _ k sl)) hr).finish

theorem keepsCapacity_intakeRestart {s t : State} (h : exec .intakeRestart s = .next t) : KeepsCapacity s t := by
  change execIntakeRestart s = .next t at h
  unfold execIntakeRestart at h
  have hempty : ∀ k : Fin 6, (Vector.replicate 6 ([] : List HeldSlice))[k] = [] := fun k => Vector.getElem_replicate k.2
  split at h
  · rw [done_next h]
    refine KeepsCapacity.finish ⟨⟨id, id, id, id, fun _ k => ?_⟩, rfl, fun _ he => ⟨hempty, he.2⟩⟩
    exact (congrArg List.length (hempty k)).trans_le (Nat.zero_le _)
  · exact keepsCapacity_notTaken h

theorem keepsCapacity_solveEnd {s t : State} (h : exec .solveEnd s = .next t) : KeepsCapacity s t := by
  change execSolveEnd s = .next t at h
  unfold execSolveEnd at h
  have hfinish : ∀ e : Ev, Keeps [.lug, .solv] s e.st → StaysWithin s e.st →
      KeepsCapacity s ((e.modify fun s => { s with solv := { s.solv with solving := none } }).modify
        State.startSolve).finish := fun e hk hw => by
    have hidle : Keeps [.lug, .solv] e.st (e.modify fun s => { s with solv := { s.solv with solving := none } }).st :=
        fun b hb => by
      cases b with
      | lug | solv => exact absurd (by decide) hb
      | _ => rfl
    refine (KeepsCapacity.of_idle ((hk.trans hidle).trans (keeps_startSolve _)) (hw.trans ?_)).finish
    exact StaysWithin.of_keeps (hidle.trans (keeps_startSolve _)) (solv := .inr fun hl => (startSolve_queue_le _).trans hl)
  split at h
  · split at h
    · exact keepsCapacity_notTaken h
    · dsimp only at h
      rw [done_next h]
      split
      · split
        · exact hfinish _ ((keeps_changeBoard (Ev.start s) _ _).mono (by decide)) (changeBoard_within (Ev.start s) _ _)
        · exact hfinish _ (Keeps.refl _ _) (StaysWithin.refl _)
      · exact hfinish _ (Keeps.refl _ _) (StaysWithin.refl _)
  · exact keepsCapacity_notTaken h

theorem keepsCapacity_solverRestart {s t : State} (h : exec .solverRestart s = .next t) : KeepsCapacity s t := by
  change execSolverRestart s = .next t at h
  unfold execSolverRestart at h
  split at h
  · rw [done_next h]
    exact KeepsCapacity.finish ⟨⟨id, fun _ => Nat.zero_le _, id, id, id⟩, rfl, fun _ he => he⟩
  · exact keepsCapacity_notTaken h

/-- A LUG event, phase by phase. -/
theorem keepsCapacity_lugEvent {s t : State} (h : exec .lugEvent s = .next t) : KeepsCapacity s t := by
  cases hr : s.running with
  | false =>
    rw [exec_lugEvent_idle hr] at h
    exact keepsCapacity_notTaken h
  | true =>
    rw [exec_lugEvent hr] at h
    injection h with h
    subst h
    refine KeepsCapacity.of_running (keeps_afterLug s) ?_ hr
    have hadvance : StaysWithin s (advanced s).st := StaysWithin.of_keeps (keeps_advanced s)
    have hcommit : StaysWithin s (beforeCommit s).st := by
      unfold beforeCommit
      exact ((hadvance.trans (StaysWithin.of_keeps (keeps_lateFire _))).trans (dropBoard_within _)).trans
        (StaysWithin.of_keeps (keeps_armBoard _))
    have hopen : StaysWithin s (beforeOpen s).st := by
      unfold beforeOpen
      exact hcommit.trans (commitAndTimeout_within _)
    have hopened : StaysWithin s (opened s).st := by
      unfold opened
      exact hopen.trans (openBoard_within _)
    rw [afterLug_eq]
    exact hopened.trans (finish_within ((opened s).ask .lineStatus))

/-! ### The commands of the memory path -/

/-- The event of a transaction that has arrived upstream. -/
def arrived (s : State) (u : UpTxn) : Ev :=
  (Ev.start s).modify fun s => { s with path := { s.path with flight := s.path.flight ++ [u] } }

/-- R165: a transaction is accepted while fewer than 8 are in flight. -/
theorem keepsCapacity_arrived {s : State} (hlen : s.path.flight.length < 8) (u : UpTxn) :
    KeepsCapacity s (arrived s u).st := by
  refine ⟨⟨fun hp => ⟨?_, hp.2⟩, id, id, id, id⟩, rfl, fun _ he => he⟩
  show (s.path.flight ++ [u]).length ≤ 8
  rw [List.length_append]
  exact hlen

theorem keepsCapacity_upstreamAccept {x : Txn} {s t : State} (h : exec (.upstreamAccept x) s = .next t) :
    KeepsCapacity s t := by
  change execUpstreamAccept x s = .next t at h
  unfold execUpstreamAccept at h
  split at h
  · rename_i hc
    split at h
    · rw [done_next h]
      exact ((keepsCapacity_arrived hc.2 _).trans (KeepsCapacity.of_idle (keeps_returnResponses _)
        (returnResponses_within _))).finish
    · unfold Ev.donePath at h
      injection h with h
      subst h
      exact (keepsCapacity_arrived hc.2 _).finishPath
  · exact keepsCapacity_notTaken h

theorem keepsCapacity_arbiterGrantOwn {s t : State} (h : exec .arbiterGrantOwn s = .next t) : KeepsCapacity s t := by
  change execArbiterGrantOwn s = .next t at h
  unfold execArbiterGrantOwn at h
  split at h
  · rename_i hq
    rw [done_next h]
    exact KeepsCapacity.finish ⟨issueOwn_within hq, rfl, fun _ he => he⟩
  · exact keepsCapacity_notTaken h

theorem keepsCapacity_memoryAnswer {ok : Bool} {s t : State} (h : exec (.memoryAnswer ok) s = .next t) :
    KeepsCapacity s t := by
  change execMemoryAnswer ok s = .next t at h
  unfold execMemoryAnswer at h
  split at h
  · rename_i i startsBatch startsTally w rest hdown
    dsimp only at h
    rw [done_next h]
    generalize hu : ((Ev.start s).popDown rest w ok).answerForwarded i (responseOf s.mem w ok) = u
    have hk : Keeps [.path, .mem, .src] s u.st := by
      rw [← hu]
      exact (keeps_popDown (Ev.start s) rest w ok).comp (keeps_answerForwarded _ _ _) (by decide) (by decide)
    have hw : StaysWithin s u.st := by
      rw [← hu]
      exact (popDown_within (Ev.start s) rest w ok).trans (answerForwarded_within _ _ _)
    have hfetch : Keeps [] u.st (if startsBatch then u.fetchEntry else u).st := by
      split
      · exact keeps_fetchEntry u
      · exact Keeps.refl _ _
    have hk1 := hk.trans (hfetch.mono (cs := [.path, .mem, .src]) (by decide))
    have hw1 := hw.trans (StaysWithin.of_keeps hfetch)
    split
    · exact (KeepsCapacity.of_idle (hk1.comp (ds := [.path, .mem, .src, .tally, .note]) (keeps_requestWriteAnswered _)
        (by decide) (by decide)) (hw1.trans (requestWriteAnswered_within _))).finish
    · exact (KeepsCapacity.of_idle hk1 hw1).finish
  · exact keepsCapacity_notTaken h

/-- With nothing to place, the answer to an own transaction places nothing. -/
theorem ownAnswered_emptied {e : Ev} (he : Emptied e.st) (k : OwnTxn) (ok : Bool) (d : List Byte) :
    Emptied (e.ownAnswered k ok d).st := by
  have hsame : ∀ {bs : List Block} {e' : Ev}, Keeps bs e.st e'.st → Block.asm ∉ bs → Block.dec ∉ bs → Emptied e'.st :=
    fun hk ha hd => by unfold Emptied; rw [hk.asm ha, hk.dec hd]; exact he
  unfold Ev.ownAnswered
  split
  · exact hsame (keeps_fetchAnswered _ _) (by decide) (by decide)
  · exact hsame (keeps_statusAnswered _) (by decide) (by decide)
  · unfold Ev.recordAnswered
    rw [placeRecord_empty (by exact he.2.1)]
    exact he
  · unfold Ev.producerAnswered
    rw [placeRecord_empty (by exact he.2.1)]
    exact he
  · exact hsame (keeps_imageAnswered _ _) (by decide) (by decide)
  all_goals exact he

theorem keepsCapacity_ownTransactionAnswer {ok : Bool} {s t : State} (h : exec (.ownTransactionAnswer ok) s = .next t) :
    KeepsCapacity s t := by
  change execOwnTransactionAnswer ok s = .next t at h
  unfold execOwnTransactionAnswer at h
  split at h
  · rename_i k w rest hdown
    dsimp only at h
    rw [done_next h]
    generalize hu : ((Ev.start s).popDown rest w ok).releaseLine k w = u
    have hk : Keeps [.path, .mem] s u.st := by
      rw [← hu]
      exact (keeps_popDown (Ev.start s) rest w ok).comp (keeps_releaseLine _ _ _) (by decide) (by decide)
    have hw : StaysWithin s u.st := by
      rw [← hu]
      exact (popDown_within (Ev.start s) rest w ok).trans (releaseLine_within _ _ _)
    have hraise : Keeps [.note] u.st (if ok then u else u.raise .memoryError).st := by
      split
      · exact Keeps.refl _ _
      · exact keeps_raise _ _
    have hbefore := KeepsCapacity.of_idle (hk.comp (ds := [.path, .mem, .note]) hraise (by decide) (by decide))
      (hw.trans (StaysWithin.of_keeps hraise))
    exact (hbefore.trans ⟨ownAnswered_within _ _ _ _, by simp only [State.running, (keeps_ownAnswered _ _ _ _).boot],
      fun _ he => ownAnswered_emptied he _ _ _⟩).finish
  · exact keepsCapacity_notTaken h

/-! ### The grants of the forwarded side -/

theorem sliceCourse_intake {s : State} {x : Txn} {off : Nat} {h : Fin 6} (hc : sliceCourse s x off = .intake h) :
    s.asm.hasCredit h = true := by
  unfold sliceCourse at hc
  dsimp only at hc
  split at hc
  · cases hc
  · split at hc
    case h_1 | h_2 =>
      split at hc
      · cases hc
      · split at hc
        · rename_i hcredit
          injection hc with hc
          exact hc ▸ hcredit
        · cases hc
    all_goals cases hc

/-- The one course that takes a slice into intake is that of a write into SCAN whose head has free credit. -/
theorem courseOf_intake {s : State} {x : Txn} {h : Fin 6} (hc : courseOf s x = .intake h) : s.asm.hasCredit h = true := by
  unfold courseOf at hc
  split at hc
  · cases hc
  · split at hc
    · cases hc
    · cases hc
    · cases hc
    · split at hc
      · cases hc
      · rename_i ap off _
        unfold decideWrite at hc
        split at hc
        · cases hc
        · split at hc
          · cases hc
          · cases hc
          · cases ap with
            | scan => exact sliceCourse_intake hc
            | ovr | dec | tally => cases hc
            | planA | planB => dsimp only at hc; split at hc <;> cases hc
            | ctrl =>
              dsimp only at hc
              split at hc
              · split at hc <;> cases hc
              · cases hc

/-- R178, R179: outside RUNNING the part decodes nothing. -/
theorem courseOf_idle {s : State} {x : Txn} (hr : s.running = false) : courseOf s x = .asIssued ∨ courseOf s x = .bootRetry := by
  unfold courseOf
  cases x.kind with
  | read => exact Or.inl rfl
  | write =>
    cases hb : s.boot.condition with
    | deviceReset | booting => exact Or.inr rfl
    | passive => exact Or.inl rfl
    | running => simp [State.running, hb] at hr

theorem keepsCapacity_grant (s : State) (x : Txn) : KeepsCapacity s (grant s x) := by
  have hw : StaysWithin s (grant s x) :=
    (takeCourse_within s x _ fun _ hc => courseOf_intake hc).trans (finishPath_within _)
  cases hr : s.running with
  | true => exact KeepsCapacity.of_running (keeps_grant s x) hw hr
  | false =>
    refine KeepsCapacity.of_idle (bs := [.path, .src]) ?_ hw
    unfold grant
    refine Keeps.trans ?_ ((keeps_finishPath _).mono (by decide))
    rcases courseOf_idle (x := x) hr with hc | hc <;> rw [hc]
    · exact (keeps_issue (Ev.start s) _ _ _ _ _).mono (by decide)
    · exact keeps_settle (Ev.start s) _

theorem keepsCapacity_grantIf {row : State → Txn → Bool} {s t : State} (h : grantIf row s = .next t) :
    KeepsCapacity s t := by
  rcases grantIf_cases row s with ⟨x, -, -, hx⟩ | hx <;> (rw [hx] at h; injection h with h; subst h)
  · exact keepsCapacity_grant s x
  · exact KeepsCapacity.refl s

/-! ### Device reset and the end of a boot attempt -/

theorem capacityInv_deviceReset {s t : State} (h : exec .deviceReset s = .next t) : CapacityInv t := by
  injection h with h
  refine KeepsCapacity.capacityInv (KeepsCapacity.of_idle (bs := uncounted) ?_ ?_) capacityInv_reset
  all_goals subst h
  · exact keeps_uncounted rfl rfl rfl rfl rfl rfl
  · exact ⟨id, id, id, id, id⟩

/-- R44, R205: boot hands out the credits and the ring's size while intake and the ring are empty. -/
theorem capacityInv_bootSucceed {s : State} {bs : List Byte} (hs : CapacityInv s) (hr : s.running = false) :
    CapacityInv (bootSucceed s bs) := by
  obtain ⟨⟨hflight, hroomy⟩, hsolv, hdec, htally, -, hidle⟩ := (capacityInv_iff s).1 hs
  obtain ⟨hheld, hlist, hring⟩ := hidle hr
  refine (capacityInv_iff _).2 ⟨⟨?_, ?_⟩, hsolv, ⟨hdec.1, ?_⟩, htally, fun h => ?_, fun hrun => ?_⟩
  · rw [(bootSucceed_path s bs).2.2.2]
    exact hflight
  · have hrequested := Path.requestAll_roomy (ownedControlWords (bootEnable bs)) (p := (handOver s bs).path) hroomy
    unfold bootSucceed
    dsimp only
    generalize (handOver s bs).path.requestAll (ownedControlWords (bootEnable bs)) = q at hrequested ⊢
    exact hrequested
  · show (s.dec.producer - s.dec.consumerShadow).toNat ≤ _
    rw [hring, BitVec.sub_self]
    exact Nat.zero_le _
  · exact (congrArg List.length (hheld h)).trans_le (Nat.zero_le _)
  · simp [State.running, bootSucceed, handOver] at hrun

theorem capacityInv_bootAttemptEnd {a : Attempt} {s t : State} (hs : CapacityInv s)
    (h : exec (.bootAttemptEnd a) s = .next t) : CapacityInv t := by
  change execBootAttemptEnd a s = .next t at h
  unfold execBootAttemptEnd at h
  dsimp only at h
  split at h
  · rename_i hb
    have hr : s.running = false := by simp [State.running, hb]
    have hfail : ∀ u : State, u.path = { s.path with returned := [] } → u.solv = s.solv → u.dec = s.dec → u.tally = s.tally →
        u.asm = s.asm → CapacityInv u := fun u h1 h2 h3 h4 h5 => by
      obtain ⟨hpath, hsolv, hdec, htally, hasm, hidle⟩ := (capacityInv_iff s).1 hs
      refine (capacityInv_iff u).2 ⟨by rw [h1]; exact hpath, by rw [h2]; exact hsolv, by rw [h3]; exact hdec,
        by rw [h4]; exact htally, by rw [h5]; exact hasm, fun _ => ?_⟩
      unfold Emptied
      rw [h3, h5]
      exact hidle hr
    split at h
    · split at h <;> (injection h with h; subst h; exact hfail _ rfl rfl rfl rfl rfl)
    · split at h
      · injection h with h
        subst h
        exact capacityInv_bootSucceed (s := { s with boot := _ }) hs hr
      · injection h with h
        subst h
        exact hfail _ rfl rfl rfl rfl rfl
  · exact (keepsCapacity_notTaken h).capacityInv hs

/-! ### Every command -/

theorem capacityInv_exec {c : Instr} {s t : State} (hs : CapacityInv s) (h : exec c s = .next t) : CapacityInv t := by
  cases c
  case deviceReset => exact capacityInv_deviceReset h
  case bootAttemptEnd => exact capacityInv_bootAttemptEnd hs h
  case bootStart => exact (keepsCapacity_bootStart h).capacityInv hs
  case lugEvent => exact (keepsCapacity_lugEvent h).capacityInv hs
  case encPulse => exact (keepsCapacity_encPulse h).capacityInv hs
  case sawHoldExpiry => exact (keepsCapacity_sawHoldExpiry h).capacityInv hs
  case lampFlashToggle => exact (keepsCapacity_lampFlashToggle h).capacityInv hs
  case headPresentRise => exact (keepsCapacity_headPresentRise h).capacityInv hs
  case headPresentFall => exact (keepsCapacity_headPresentFall h).capacityInv hs
  case headReadyRise => exact (keepsCapacity_headReadyRise h).capacityInv hs
  case headReadyFall => exact (keepsCapacity_headReadyFall h).capacityInv hs
  case upstreamAccept => exact (keepsCapacity_upstreamAccept h).capacityInv hs
  case sliceFold => exact (keepsCapacity_sliceFold h).capacityInv hs
  case solveEnd => exact (keepsCapacity_solveEnd h).capacityInv hs
  case overrideEntryTake => exact (keepsCapacity_overrideEntryTake h).capacityInv hs
  case lugTableRestart => exact (keepsCapacity_lugTableRestart h).capacityInv hs
  case headMonitorRestart => exact (keepsCapacity_headMonitorRestart h).capacityInv hs
  case intakeRestart => exact (keepsCapacity_intakeRestart h).capacityInv hs
  case solverRestart => exact (keepsCapacity_solverRestart h).capacityInv hs
  case trimRestart => exact (keepsCapacity_trimRestart h).capacityInv hs
  case arbiterGrantOwn => exact (keepsCapacity_arbiterGrantOwn h).capacityInv hs
  case memoryAnswer => exact (keepsCapacity_memoryAnswer h).capacityInv hs
  case ownTransactionAnswer => exact (keepsCapacity_ownTransactionAnswer h).capacityInv hs
  all_goals
    simp only [exec, execApertureWrite, execPlanBankWrite, execSliceWrite, execPlanSelect, execAdmit, execRelease,
      execHeadCommandUnknown, execOvrProducer, execDecConsumer, execTallyCloseShift, execTallySnapshot, execTallyClear,
      execTallyRequestRefused, execNotice, execNoticeEnable, execTrapClear, execLineRestart,
      execForwardedSideGrant] at h
    exact (keepsCapacity_grantIf h).capacityInv hs

/-- Settles O56: every command keeps each block within its capacity, by what its operations do to the blocks that have one; a
step takes one command off the queue, which the invariant does not read. -/
theorem capacityInvKept : Obligations.CapacityInvKept := by
  unfold Obligations.CapacityInvKept
  intro s t hs h
  unfold step at h
  split at h
  · injection h with h; subst h; exact hs
  · rename_i rest _
    exact capacityInv_exec (s := { s with pending := rest }) hs h

end Sys2Proof.Proofs
end

section
/-! The end of a successful boot: the credits granted from the pool (R44), and the twenty-eight owned words requested (R172,
R205). -/

namespace Sys2Proof.Proofs

open Sys2Proof Sys2Proof.Machine Sys2Proof.Laws

/-! ### The credits (R44) -/

theorem grantCredits_length (l : List (Bool × Nat)) (pool : Nat) : (grantCredits pool l).length = l.length := by
  induction l generalizing pool with
  | nil => rfl
  | cons x l ih => rw [grantCredits, List.length_cons, List.length_cons, ih]

/-- Each grant is taken from what the grants before it leave of the pool. -/
theorem grantCredits_getD (l : List (Bool × Nat)) (pool n : Nat) (hn : n < l.length) :
    (grantCredits pool l).getD n 0 =
      if l[n].1 then min (clamp 1 16 l[n].2) (pool - ((grantCredits pool l).take n).sum) else 0 := by
  induction l generalizing pool n with
  | nil => exact absurd hn (Nat.not_lt_zero n)
  | cons x l ih =>
    obtain ⟨fitted, credit⟩ := x
    rw [grantCredits]
    cases n with
    | zero => rfl
    | succ n =>
      have h := ih (pool - if fitted then min (clamp 1 16 credit) pool else 0) n (Nat.lt_of_succ_lt_succ hn)
      rw [Nat.sub_sub] at h
      exact h

/-- R44: each head as it takes part in the grants, its fitted bit and its credit byte. -/
def bootCredits (bs : List Byte) : List (Bool × Nat) :=
  allHeads.map fun (h : Fin 6) => ((bootFitted bs).getLsbD h, byteAt bs (12 + h.val))

theorem bootCredits_getElem (bs : List Byte) (n : Nat) (h : n < (bootCredits bs).length) :
    (bootCredits bs)[n] = ((bootFitted bs).getLsbD n, byteAt bs (12 + n)) :=
  (List.getElem_map _).trans (by simp [allHeads])

theorem bootGrants_read (bs : List Byte) (h : Fin 6) :
    (bootGrants bs)[h] = (grantCredits 48 (bootCredits bs)).getD h.val 0 := by
  unfold bootGrants
  rw [Fin.getElem_fin, Vector.getElem_ofFn]
  rfl

theorem heads_before : ∀ h : Fin 6, (List.finRange 6).filter (· < h) = (List.finRange 6).take h.val := by decide

/-- The six grants in head order. -/
theorem bootGrants_all (bs : List Byte) :
    ((List.finRange 6).map fun h => (bootGrants bs)[h]) = grantCredits 48 (bootCredits bs) := by
  have hlen : (grantCredits 48 (bootCredits bs)).length = 6 := grantCredits_length _ _
  refine List.ext_getElem (by simp [hlen]) fun n h1 h2 => ?_
  rw [List.getElem_map, bootGrants_read, List.getElem_finRange]
  exact List.getD_eq_getElem _ _ h2

theorem bootGrants_eq (bs : List Byte) (h : Fin 6) : (bootGrants bs)[h] =
    if (bootFitted bs).getLsbD h then
      min (clamp 1 16 (byteAt bs (12 + h.val)))
        (48 - (((List.finRange 6).filter (· < h)).map fun j => (bootGrants bs)[j]).sum)
    else 0 := by
  have hlen : h.val < (bootCredits bs).length := h.2
  rw [heads_before, List.map_take, bootGrants_all, bootGrants_read, grantCredits_getD _ _ _ hlen,
    bootCredits_getElem bs h.val hlen]

/-! ### The requests (R172) -/

/-- A request that renews another has its rank. -/
theorem rank_of_renews {k j : OwnTxn} (h : k.renews j = true) : k.rank = j.rank := by
  unfold OwnTxn.renews at h
  split at h
  · rfl
  · rfl
  · simp only [Bool.and_eq_true, decide_eq_true_eq] at h
    rw [h.2]

/-- Requests of ranks that all differ fill an empty queue in order, and those past the sixteenth wait. -/
theorem requestAll_fresh (ks done : List OwnTxn) (p : Path) (hn : ((done ++ ks).map OwnTxn.rank).Nodup)
    (hq : p.queue = done.take 16) (hw : p.waiting = done.drop 16) :
    (p.requestAll ks).queue = (done ++ ks).take 16 ∧ (p.requestAll ks).waiting = (done ++ ks).drop 16 := by
  induction ks generalizing done p with
  | nil => rw [List.append_nil]; exact ⟨hq, hw⟩
  | cons k ks ih =>
    have hnew : ∀ j ∈ done, k.rank ≠ j.rank := fun j hj hc => by
      rw [List.map_append, List.map_cons] at hn
      exact (List.nodup_append.1 hn).2.2 _ (List.mem_map_of_mem hj) _ List.mem_cons_self hc.symm
    have hwait : p.waiting.any k.renews = false := List.any_eq_false.2 fun j hj hr =>
      hnew j (List.mem_of_mem_drop (hw ▸ hj)) (rank_of_renews hr)
    have hqueue : k ∉ p.queue := fun hk => hnew k (List.mem_of_mem_take (hq ▸ hk)) rfl
    have hstep : p.request k =
        if p.queue.length < 16 then { p with queue := p.queue ++ [k] } else { p with waiting := p.waiting ++ [k] } := by
      unfold Path.request
      rw [hwait, if_neg (by decide), decide_eq_false hqueue, Bool.and_false, if_neg (by decide)]
    rw [List.append_cons] at hn ⊢
    rw [Path.requestAll, hstep]
    by_cases hlen : done.length < 16
    · have htake : done.take 16 = done := List.take_of_length_le hlen.le
      have htake' : (done ++ [k]).take 16 = done ++ [k] := List.take_of_length_le (by simpa using hlen)
      have hdrop' : (done ++ [k]).drop 16 = [] := List.drop_of_length_le (by simpa using hlen)
      rw [if_pos (by rw [hq, htake]; exact hlen)]
      exact ih (done ++ [k]) _ hn (by rw [htake', hq, htake]) (by rw [hdrop', hw, List.drop_of_length_le hlen.le])
    · have hle : 16 ≤ done.length := Nat.le_of_not_lt hlen
      rw [if_neg (by rw [hq, List.length_take]; omega)]
      exact ih (done ++ [k]) _ hn (by rw [List.take_append_of_le_length hle, hq])
        (by rw [List.drop_append_of_le_length hle, hw])

/-- The twenty-eight owned words have twenty-eight ranks, whatever the notice enable default. -/
theorem ownedControlWords_ranks (enable : NoticeSet) : ((ownedControlWords enable).map OwnTxn.rank).Nodup := by
  have hranks : (ownedControlWords enable).map OwnTxn.rank = (ownedControlWords 0).map OwnTxn.rank := rfl
  rw [hranks]
  decide

theorem ownedControlWords_take (enable : NoticeSet) : (ownedControlWords enable).take 16 =
    [.notice, .noticeEnable enable, .lineStatus, .tallyStatus, .ovrConsumer 0, .decProducer 0 false] ++
      (List.finRange 6).map .headStatus ++ [.sourceStatus 0, .sourceStatus 1, .sourceStatus 2, .sourceStatus 3] := rfl

theorem ownedControlWords_drop (enable : NoticeSet) :
    (ownedControlWords enable).drop 16 = ((List.finRange 16).drop 4).map .sourceStatus := rfl

/-- What boot requests is what the requests make of the path it finds. -/
theorem bootSucceed_requests (s : State) (bs : List Byte) :
    (bootSucceed s bs).path.queue = ((handOver s bs).path.requestAll (ownedControlWords (bootEnable bs))).queue ∧
      (bootSucceed s bs).path.waiting =
        ((handOver s bs).path.requestAll (ownedControlWords (bootEnable bs))).waiting := by
  unfold bootSucceed
  dsimp only
  generalize (handOver s bs).path.requestAll (ownedControlWords (bootEnable bs)) = q
  exact ⟨rfl, rfl⟩

theorem bootSucceed_fresh (s : State) (bs : List Byte) (hq : s.path.queue = []) (hw : s.path.waiting = []) :
    (bootSucceed s bs).path.queue = (ownedControlWords (bootEnable bs)).take 16 ∧
      (bootSucceed s bs).path.waiting = (ownedControlWords (bootEnable bs)).drop 16 := by
  obtain ⟨hqueue, hwaiting⟩ := bootSucceed_requests s bs
  rw [hqueue, hwaiting]
  exact requestAll_fresh _ [] _ (ownedControlWords_ranks _) hq hw

/-- Settles O7: the grants by the recursion over the heads, and the words by their ranks, which all differ. -/
theorem bootGrantsAndRequests : Obligations.BootGrantsAndRequests := by
  unfold Obligations.BootGrantsAndRequests
  intro a s hc hf hg
  refine ⟨_, exec_bootAttemptEnd_good hc hf hg, bootGrants_eq a.bytes, fun hq hw => ?_⟩
  obtain ⟨hqueue, hwaiting⟩ := bootSucceed_fresh { s with
    boot := { s.boot with attemptsEnded := s.boot.attemptsEnded + 1, image := a.bytes } } a.bytes hq hw
  rw [hqueue, hwaiting]
  exact ⟨ownedControlWords_take _, ownedControlWords_drop _⟩

end Sys2Proof.Proofs
end

section
/-! The two outcomes of a slice at its fold that use none of it: it is bad, or it is discarded (R51 to R53). -/

namespace Sys2Proof.Proofs

open Sys2Proof Sys2Proof.Machine Sys2Proof.Laws

/-! ### Which slices are not used -/

theorem badSlice_iff (h : Fin 6) (bs : List Byte) : badSlice h bs = true ↔
    xorAll bs ≠ 0 ∨ ¬ (sliceKind bs = 1 ∨ sliceKind bs = 2) ∨ sliceHead bs ≠ h.val := by
  simp [badSlice, or_assoc]

theorem waitsFor_eq_false {b : Board} {h : Fin 6} (hb : b.state ≠ .scanning ∨ b.expected.getLsbD h = false ∨
    b.ended.getLsbD h = true ∨ b.lost.getLsbD h = true) : b.waitsFor h = false := by
  unfold Board.waitsFor
  rcases hb with hstate | hexpected | hended | hlost
  · rw [beq_eq_false_iff_ne.2 hstate]; rfl
  · rw [hexpected, Bool.and_false]; rfl
  · rw [hended, Bool.not_true, Bool.and_false]; rfl
  · rw [hlost, Bool.not_true, Bool.and_false]

/-- R52: a bad slice raises SLICE_CHECK and counts against the head. -/
theorem foldHeld_bad {e : Ev} {h : Fin 6} {sl : HeldSlice} (hb : badSlice h sl.bytes = true) :
    e.foldHeld h sl = (e.raise .sliceCheck).countBadSlice h sl.bytes := if_pos hb

/-- R53: a good slice that no board waits for is discarded. -/
theorem foldHeld_discards {e : Ev} {h : Fin 6} {sl : HeldSlice} (hb : ¬ badSlice h sl.bytes = true)
    (hd : sl.mark = false ∨ ∀ i, e.st.lookup (sliceLug sl.bytes) = some i → e.st.lug.boards[i].waitsFor h = false) :
    e.foldHeld h sl = e.discardSlice (e.st.lookup (sliceLug sl.bytes)) := by
  unfold Ev.foldHeld
  rw [if_neg hb]
  cases hl : e.st.lookup (sliceLug sl.bytes) with
  | none => rfl
  | some i =>
    have hunused : (sl.mark && e.st.lug.boards[i].waitsFor h) = false := by
      rcases hd with hm | hw
      · rw [hm, Bool.false_and]
      · rw [hw i hl, Bool.and_false]
    dsimp only
    rw [hunused]
    rfl

/-! ### What a discard does (R53) -/

/-- The board with LATE_SLICES set. -/
def markedLate (b : Board) : Board := { b with flags := { b.flags with lateSlices := true } }

theorem discardSlice_st (e : Ev) (found : Option (Fin 32)) : (e.discardSlice found).st = { e.st with
    lug := { e.st.lug with boards := (e.discardSlice found).st.lug.boards }
    note := e.st.note.raised .sliceDiscarded } := by
  unfold Ev.discardSlice
  cases found <;> rfl

theorem discardSlice_boards (e : Ev) (found : Option (Fin 32)) (j : Fin 32) :
    (e.discardSlice found).st.lug.boards[j] =
      if found = some j then markedLate e.st.lug.boards[j] else e.st.lug.boards[j] := by
  unfold Ev.discardSlice
  cases found with
  | none => rfl
  | some i =>
    dsimp only
    rw [changeBoard_read]
    by_cases hj : j = i
    · subst hj; rw [if_pos rfl, if_pos rfl]; rfl
    · rw [if_neg hj, if_neg fun hc => hj (Option.some.inj hc).symm]; rfl

theorem discardSlice_asked (e : Ev) (found : Option (Fin 32)) : .notice ∈ (e.discardSlice found).asked := by
  have hnotice : OwnTxn.notice ∈ (e.raise .sliceDiscarded).asked := by simp
  unfold Ev.discardSlice
  cases found with
  | none => exact hnotice
  | some i => exact hnotice

/-! ### The slice not used -/

/-- What both outcomes keep: the slot is freed, one notice is raised, and boards alone change besides. -/
structure Rejected (s : State) (e : Ev) (h : Fin 6) (rest : List HeldSlice) (n : Notice) : Prop where
  st : e.st = { s with
    asm := { s.asm with held := s.asm.held.set h rest }
    lug := { s.lug with boards := e.st.lug.boards }
    note := s.note.raised n }
  asked : .notice ∈ e.asked
  returned : e.returned = []

section Rejects
variable {s : State} {h : Fin 6} {sl : HeldSlice} {rest : List HeldSlice}

theorem rejected_bad (hb : badSlice h sl.bytes = true) :
    Rejected s ((taken s h rest).foldHeld h sl) h rest .sliceCheck := by
  refine ⟨?_, ?_, (grows_foldHeld (taken s h rest) h sl).returned⟩
  · rw [foldHeld_bad hb]
    exact (countBadSlice_st _ _ _).trans rfl
  · rw [foldHeld_bad hb]
    exact (grows_countBadSlice _ _ _).asked _ (by simp)

theorem rejected_discarded {found : Option (Fin 32)}
    (hfold : (taken s h rest).foldHeld h sl = (taken s h rest).discardSlice found) :
    Rejected s ((taken s h rest).foldHeld h sl) h rest .sliceDiscarded := by
  refine ⟨?_, ?_, (grows_foldHeld (taken s h rest) h sl).returned⟩
  · rw [hfold]
    exact (discardSlice_st _ _).trans rfl
  · rw [hfold]
    exact discardSlice_asked _ _

/-- The state at the end of the event, but for what the boards became. -/
theorem Rejected.finish {e : Ev} {n : Notice} (hr : Rejected s e h rest n) :
    e.finish = { s with
      asm := { s.asm with held := s.asm.held.set h rest }
      lug := { s.lug with boards := e.st.lug.boards }
      note := s.note.raised n
      path := e.finish.path } ∧
    s.path.Grew e.finish.path ∧ e.finish.path.asks .notice = true :=
  ⟨congrArg (fun u : State => { u with path := e.finish.path }) hr.st, Ev.finish_grew (by rw [hr.st]) hr.returned,
    Ev.finish_asks hr.asked nofun nofun⟩

end Rejects

/-- Settles O19: a bad slice by the board it counts against, a good one that no board waits for by the discard. -/
theorem sliceFoldRejects : Obligations.SliceFoldRejects := by
  unfold Obligations.SliceFoldRejects
  intro h sl rest s hr hh bad found discarded hrejects
  have hbad : badSlice h sl.bytes = true ↔ bad := badSlice_iff h sl.bytes
  refine ⟨_, exec_sliceFold hr hh, ?_⟩
  by_cases hb : badSlice h sl.bytes = true
  · obtain ⟨ht, hgrew, hasks⟩ := (rejected_bad (s := s) (rest := rest) hb).finish
    have hboards : ∀ j : Fin 32, ((taken s h rest).foldHeld h sl).finish.lug.boards[j] =
        if found = some j ∧ s.lug.boards[j].state = .scanning then worseBoard s.lug.boards[j] h
        else s.lug.boards[j] := fun j => by
      rw [Ev.finish_lug, foldHeld_bad hb]
      exact countBadSlice_boards _ _ _ j
    refine ⟨by rw [ht], hgrew, hasks, by rw [ht], fun j hj => ?_, fun _ => ⟨by rw [ht], fun i hi => ?_⟩,
      fun hn => absurd (hbad.1 hb) hn⟩
    · rw [hboards j, if_neg fun hc => hj hc.1]
    · rw [hboards i, hi]
      simp only [true_and]
      rfl
  · have hdiscarded : discarded := hrejects.resolve_left fun hc => hb (hbad.2 hc)
    have hfold : (taken s h rest).foldHeld h sl = (taken s h rest).discardSlice found :=
      foldHeld_discards hb (hdiscarded.imp_right fun hw i hi => waitsFor_eq_false (hw i hi))
    obtain ⟨ht, hgrew, hasks⟩ := (rejected_discarded hfold).finish
    have hboards : ∀ j : Fin 32, ((taken s h rest).foldHeld h sl).finish.lug.boards[j] =
        if found = some j then markedLate s.lug.boards[j] else s.lug.boards[j] := fun j => by
      rw [Ev.finish_lug, hfold]
      exact discardSlice_boards _ _ j
    refine ⟨by rw [ht], hgrew, hasks, by rw [ht], fun j hj => ?_, fun hc => absurd (hbad.2 hc) hb,
      fun _ => ⟨by rw [ht], fun i hi => ?_⟩⟩
    · rw [hboards j, if_neg hj]
    · rw [hboards i, if_pos hi]
      rfl

end Sys2Proof.Proofs
end

section
/-! The fold of a DATA slice's samples into the accumulators (R55 to R60). -/

namespace Sys2Proof.Proofs

open Sys2Proof Sys2Proof.Machine Sys2Proof.Laws

/-! ### One sample (R57 to R59) -/

theorem samplePresent_iff (p : Shadow) (t : Nat) :
    samplePresent p t = true ↔ max 1 (min 1022 (planHalf p 4)) ≤ t ∧ t ≤ 1022 := by
  simp [samplePresent, planPresent, clamp]

theorem sampleDark_iff (p : Shadow) (t g : Nat) : sampleDark p t g = true ↔ samplePresent p t = true ∧
    if (planByte p 9).testBit 0 then planByte p 8 ≤ g else g < planByte p 8 := by
  unfold sampleDark planInvert planKnot
  rw [Bool.and_eq_true]
  split <;> simp

theorem planWane_eq (p : Shadow) : planWane p = min 1023 (planHalf p 6) := Nat.zero_max _

/-- A word that reads as 1023 is out of the range of a present sample, as it stands and as it reads. -/
theorem samplePresent_thickness (p : Shadow) (w : Nat) : samplePresent p (thickness w) = samplePresent p w := by
  rw [Bool.eq_iff_iff, samplePresent_iff, samplePresent_iff]
  unfold thickness
  split <;> omega

theorem getLsbD_bit : ∀ i j : Fin 8, (1#8 <<< i.val).getLsbD j.val = decide (j = i) := by decide

/-- R59: a line's mark is its sample's darkness, and the other lines' marks stand. -/
theorem foldSample_prev (p : Shadow) (a : Acc) (i j : Fin 8) (w g : Nat) :
    (foldSample p a i.val w g).prev.getLsbD j.val =
      if j = i then sampleDark p (thickness w) g else a.prev.getLsbD j.val := by
  have hset : (a.prev ||| 1#8 <<< i.val).getLsbD j.val = (a.prev.getLsbD j.val || decide (j = i)) := by
    rw [BitVec.getLsbD_or, getLsbD_bit]
  have hclear : (a.prev &&& ~~~(1#8 <<< i.val)).getLsbD j.val = (a.prev.getLsbD j.val && !decide (j = i)) := by
    rw [BitVec.getLsbD_and, BitVec.getLsbD_not, getLsbD_bit, decide_eq_true j.2, Bool.true_and]
  have hprev : (foldSample p a i.val w g).prev =
      if sampleDark p (thickness w) g then a.prev ||| 1#8 <<< i.val else a.prev &&& ~~~(1#8 <<< i.val) := rfl
  rw [hprev]
  cases sampleDark p (thickness w) g with
  | true => rw [if_pos rfl, hset]; by_cases hj : j = i <;> simp [hj]
  | false => rw [if_neg (by decide), hclear]; by_cases hj : j = i <;> simp [hj]

section Fields
variable (p : Shadow) (a : Acc) (i w g : Nat)

theorem foldSample_sl : (foldSample p a i w g).sl = a.sl := rfl

theorem foldSample_ps : (foldSample p a i w g).ps =
    if samplePresent p (thickness w) then grow a.ps else a.ps := rfl

theorem foldSample_mt : (foldSample p a i w g).mt =
    if samplePresent p (thickness w) then min a.mt (thickness w) else a.mt := rfl

theorem foldSample_ws : (foldSample p a i w g).ws =
    if samplePresent p (thickness w) && decide (thickness w < planWane p) then grow a.ws else a.ws := rfl

theorem foldSample_dc : (foldSample p a i w g).dc =
    if sampleDark p (thickness w) g && !(planRuns p && a.prev.getLsbD i) then grow a.dc else a.dc := rfl

end Fields

/-! ### A segment's eight samples (R55, R60) -/

/-- Folding a sample of the segment: its thickness word and grey byte are those of the slice. -/
def foldSampleOf (p : Shadow) (bs : List Byte) (half : Nat) (a : Acc) (i : Nat) : Acc :=
  foldSample p a i (sliceThickness bs (8 * half + i)) (sliceGrey bs (8 * half + i))

theorem foldSampleOf_eq (p : Shadow) (bs : List Byte) (half : Nat) (a : Acc) (i : Nat) : foldSampleOf p bs half a i =
    foldSample p a i (halfAt bs (4 + 16 * half + 2 * i)) (byteAt bs (36 + 8 * half + i)) := by
  unfold foldSampleOf sliceThickness sliceGrey
  rw [show 4 + 2 * (8 * half + i) = 4 + 16 * half + 2 * i by omega, Nat.add_assoc 36]

theorem foldSampleOf_list_sl (p : Shadow) (bs : List Byte) (half : Nat) (l : List Nat) (a : Acc) :
    (l.foldl (foldSampleOf p bs half) a).sl = a.sl := by
  induction l generalizing a with
  | nil => rfl
  | cons i l ih => exact ih _

theorem anyPresent_iff (p : Shadow) (bs : List Byte) (half : Nat) :
    ((List.range 8).any fun i => samplePresent p (thickness (sliceThickness bs (8 * half + i)))) = true ↔
      ∃ i, i < 8 ∧ max 1 (min 1022 (planHalf p 4)) ≤ halfAt bs (4 + 16 * half + 2 * i) ∧
        halfAt bs (4 + 16 * half + 2 * i) ≤ 1022 := by
  simp only [List.any_eq_true, List.mem_range, samplePresent_thickness, samplePresent_iff, sliceThickness]
  simp only [show ∀ i, 4 + 2 * (8 * half + i) = 4 + 16 * half + 2 * i by omega]

/-- The eight samples are folded in order, and SL grows where one of them is present. -/
theorem foldSegment_eq (p : Shadow) (bs : List Byte) (half : Nat) (a : Acc) : foldSegment p bs half a =
    if (List.range 8).any fun i => samplePresent p (thickness (sliceThickness bs (8 * half + i))) then
      { (List.range 8).foldl (foldSampleOf p bs half) a with sl := grow a.sl }
    else (List.range 8).foldl (foldSampleOf p bs half) a := by
  have hsl : grow a.sl = grow ((List.range 8).foldl (foldSampleOf p bs half) a).sl :=
    congrArg grow (foldSampleOf_list_sl p bs half _ a).symm
  rw [hsl]
  rfl

/-- Settles O17: a sample by what is present and dark of it, a segment by its samples in order. -/
theorem sampleFold : Obligations.SampleFold := by
  unfold Obligations.SampleFold
  refine ⟨fun p a i w g => ?_, fun p bs a half => ?_⟩
  · intro t present dark c
    have hpresent : samplePresent p (thickness w) = true ↔ present := samplePresent_iff p t
    have hdark : sampleDark p (thickness w) g = true ↔ dark :=
      (sampleDark_iff p t g).trans (and_congr_left' hpresent)
    refine ⟨fun h => ⟨?_, ?_, ?_⟩, fun h => ⟨?_, ?_, ?_, ?_⟩, fun h => ?_, fun h => ?_, ?_, fun j hj => ?_, rfl⟩
    · exact (foldSample_ps p a i w g).trans (if_pos (hpresent.2 h))
    · exact (foldSample_mt p a i w g).trans (if_pos (hpresent.2 h))
    · rw [foldSample_ws, hpresent.2 h, Bool.true_and, planWane_eq]
      simp only [decide_eq_true_eq]
      rfl
    · exact (foldSample_ps p a i w g).trans (if_neg fun hc => h (hpresent.1 hc))
    · exact (foldSample_mt p a i w g).trans (if_neg fun hc => h (hpresent.1 hc))
    · rw [foldSample_ws, if_neg fun hc => h (hpresent.1 (Bool.and_eq_true_iff.1 hc).1)]
    · rw [foldSample_dc, if_neg fun hc => h (hdark.1 (Bool.and_eq_true_iff.1 hc).1).1]
    · rw [foldSample_dc, hdark.2 h, Bool.true_and]
      unfold planRuns
      by_cases hr : (planByte p 9).testBit 1 = true ∧ a.prev.getLsbD i.val = true
      · rw [if_pos hr, hr.1, hr.2]; rfl
      · rw [if_neg hr, if_pos (by rw [Bool.not_eq_true', ← Bool.not_eq_true, Bool.and_eq_true]; exact hr)]; rfl
    · rw [foldSample_dc, if_neg fun hc => h (hdark.1 (Bool.and_eq_true_iff.1 hc).1)]
    · rw [foldSample_prev, if_pos rfl]; exact hdark
    · rw [foldSample_prev, if_neg hj]
  · intro word sample present c d
    have hfold : (List.range 8).foldl (foldSampleOf p bs half.val) a = d := by
      rw [show foldSampleOf p bs half.val = sample from funext fun c => funext fun i => foldSampleOf_eq p bs half.val c i]
      rfl
    have hc : c = _ := foldSegment_eq p bs half.val a
    rw [hfold] at hc
    exact ⟨fun h => hc.trans (if_pos ((anyPresent_iff p bs half.val).2 h)),
      fun h => hc.trans (if_neg fun hany => h ((anyPresent_iff p bs half.val).1 hany))⟩

end Sys2Proof.Proofs
end

section
/-! The write of OVR_PRODUCER (R108, R110, R111, R190): taken while the override unit is IDLE, held off or given up
while it is BUSY. -/

namespace Sys2Proof.Proofs

open Sys2Proof Sys2Proof.Machine Sys2Proof.Laws

/-! ### A producer value taken (R108, R110) -/

section Take
variable {e : Ev} {w : Word32}

theorem takeProducer_fault (h : e.st.ovr.ringSize < (w.setWidth 16 - e.st.ovr.consumer).toNat) :
    e.takeProducer w = e.raise .overrideRingFault := if_pos h

theorem takeProducer_empty (h : w.setWidth 16 = e.st.ovr.consumer) :
    e.takeProducer w = e.endBatch e.st.ovr.consumer := by
  unfold Ev.takeProducer
  dsimp only
  rw [h, if_pos rfl, BitVec.sub_self, if_neg (by simp)]

theorem takeProducer_begins (h : (w.setWidth 16 - e.st.ovr.consumer).toNat ≤ e.st.ovr.ringSize)
    (hv : w.setWidth 16 ≠ e.st.ovr.consumer) : e.takeProducer w =
      e.changeOvr fun u => { u with batch := some { stop := w.setWidth 16, index := u.consumer } } :=
  (if_neg (Nat.not_lt.2 h)).trans (if_neg hv)

/-- A take changes the override unit and the notices alone. -/
theorem takeProducer_st (e : Ev) (w : Word32) : (e.takeProducer w).st =
    { e.st with ovr := (e.takeProducer w).st.ovr, note := (e.takeProducer w).st.note } := by
  unfold Ev.takeProducer
  dsimp only
  split
  · rfl
  · split <;> rfl

end Take

theorem toNat_sub_eq_zero (v c : Word16) : (v - c).toNat = 0 ↔ v = c := by bv_omega

/-- The count of an accepted write asks for its source's status at most. -/
theorem accepted_asked {s : State} {x : Txn} {k : OwnTxn} (hk : k ∈ (accepted s x).asked) :
    k = .sourceStatus x.source := by
  unfold accepted Ev.acceptWrite Ev.changeSource at hk
  dsimp only at hk
  split at hk
  · exact absurd hk (by simp)
  · simpa using hk

/-- What the end of a batch asks for leaves its OVR_CONSUMER write as it is. -/
theorem endBatch_spares {s : State} {x : Txn} {c : Word16} (k : OwnTxn) (hk : k ∈ ((accepted s x).endBatch c).asked) :
    k.spares (.ovrConsumer c) := by
  have hasked : ((accepted s x).endBatch c).asked = (accepted s x).asked ++ [.ovrConsumer c] ++ [.notice] := rfl
  rw [hasked] at hk
  simp only [List.mem_append, List.mem_singleton] at hk
  rcases hk with (hk | rfl) | rfl
  · rw [accepted_asked hk]; exact nofun
  · exact fun _ => rfl
  · exact nofun

theorem settle_asked (e : Ev) (r : Settled) {k : OwnTxn} (hk : k ∈ e.asked) : k ∈ (e.settle r).asked := by
  obtain ⟨-, -, -, hkept, -⟩ := Ev.returnResponses_st (e.modify fun s => { s with path :=
    { s.path with flight := changeFirst UpTxn.isReady (fun u => { u with state := .answered r }) s.path.flight } })
  exact hkept k hk

/-! ### The grant -/

section Grant
variable {s : State} {x : Txn} {off : Nat} {w : Word32}

/-- R111, R169: a write of the word alone by a source that may write it is forwarded, or while BUSY held off or given up. -/
theorem decideWrite_ovrProducer (hwhole : wholeWords x.lanes = true) (ht : s.src.ctx[x.source].trapped = false)
    (hm : s.src.maskCtrl.getLsbD x.source = true) (ho : writesAlone off x .ovrProducer w = true) :
    decideWrite s x .ctrl off =
      if s.ovr.batch.isSome then if s.src.exhausted x.source then .refusedExhausted else .retry
      else .forward .ctrl off := by
  have hwords : ctrlWords off x = [(.ovrProducer, w)] := by simpa [writesAlone] using ho
  have hpass : permission s x .ctrl off = .pass := permission_pass hwords ht (by decide) rfl
    (by simp [SourceTable.barred, SourceTable.mask, hm]) nofun rfl
  have hbusy : busyWord s (ctrlWords off x) = s.ovr.batch.isSome := by simp [busyWord, hwords, valueOf]
  unfold decideWrite
  rw [hwhole, hpass, hbusy]
  rfl

/-- The row takes the write whatever its course of the three. -/
theorem exec_ovrProducer (hg : s.grantsInto x .ctrl off = true) (ho : writesAlone off x .ovrProducer w = true)
    {c : Machine.Course} (hd : decideWrite s x .ctrl off = c)
    (hc : c = .forward .ctrl off ∨ c = .retry ∨ c = .refusedExhausted) :
    exec .ovrProducer s = .next ((Ev.start s).takeCourse x c).finishPath := by
  have hwords : ctrlWords off x = [(.ovrProducer, w)] := by simpa [writesAlone] using ho
  have hrow : isOvrProducer s x = true := by
    unfold isOvrProducer
    rw [writeInto_of_grantsInto hg]
    dsimp only
    rw [hwords, hd]
    rcases hc with rfl | rfl | rfl <;> simp [valueOf]
  refine (grantIf_taken ((grantsInto_iff _ _ _ _).1 hg).2.1 hrow).trans ?_
  unfold grant
  rw [courseOf_write hg, hd]

/-- The write forwarded: the word is taken, and the write is issued as it came (R171). -/
theorem forward_ovrProducer (ho : writesAlone off x .ovrProducer w = true) :
    (Ev.start s).takeCourse x (.forward .ctrl off) =
      ((accepted s x).takeProducer w).issue x x.lanes false ((accepted s x).takeProducer w).st.ovr.batch.isSome
        false := by
  refine (forwardCtrl_of_writesAlone ho (accepted s x)).trans ?_
  rw [substituteLanes_of_writesAlone ho rfl]
  rfl

/-- What the grant of the forwarded write leaves: the blocks as the take left them. -/
theorem producer_left (ho : writesAlone off x .ovrProducer w = true) :
    let e := (accepted s x).takeProducer w
    let t := ((Ev.start s).takeCourse x (.forward .ctrl off)).finishPath
    t.ovr = e.st.ovr ∧ t.note = e.st.note ∧
      s.path.Issued t.path (downAs x x.lanes e.st.ovr.batch.isSome false) false ∧
      t = { s with path := t.path, src := s.src.counted x.source, ovr := t.ovr, note := t.note } := by
  intro e t
  have hst : e.st = { s with src := s.src.counted x.source, ovr := e.st.ovr, note := e.st.note } := by
    have h := takeProducer_st (accepted s x) w
    rw [accepted_st] at h
    exact h
  have hret : e.returned = [] := (grows_takeProducer _ _).returned.trans (accepted_returned s x)
  have ht : t = (e.issue x x.lanes false e.st.ovr.batch.isSome false).finishPath :=
    congrArg Ev.finishPath (forward_ovrProducer ho)
  clear_value e t
  obtain ⟨hissued, hframe⟩ := issue_grant (s := s) (e := e) (x := x) (ls := x.lanes) (g := false)
    (b := e.st.ovr.batch.isSome) (r := false) (by rw [hst]) hret
  rw [← ht] at hissued hframe
  have hovr : t.ovr = e.st.ovr := (congrArg State.ovr hframe).trans rfl
  have hnote : t.note = e.st.note := (congrArg State.note hframe).trans rfl
  refine ⟨hovr, hnote, hissued, ?_⟩
  rw [hovr, hnote, hframe]
  exact congrArg (fun u : State => { u with path := t.path }) hst

/-- R110: an empty batch asks for the consumer index it ends at. -/
theorem emptyBatch_asks (ho : writesAlone off x .ovrProducer w = true) (hv : w.setWidth 16 = s.ovr.consumer) :
    ((Ev.start s).takeCourse x (.forward .ctrl off)).finishPath.path.asks (.ovrConsumer s.ovr.consumer) = true := by
  have hunit : (accepted s x).st.ovr = s.ovr := by rw [accepted_st]
  have htake := takeProducer_empty (e := accepted s x) (hv.trans (congrArg OverrideUnit.consumer hunit.symm))
  rw [forward_ovrProducer ho, htake, hunit]
  generalize ((accepted s x).endBatch s.ovr.consumer).st.ovr.batch.isSome = b
  have hmem : .ovrConsumer s.ovr.consumer ∈ ((accepted s x).endBatch s.ovr.consumer).asked := by
    simp [Ev.endBatch]
  exact Ev.finish_asks_of (e := ((accepted s x).endBatch s.ovr.consumer).issue x x.lanes false b false) hmem
    endBatch_spares

/-- R111, R190: the write of an exhausted source is given up, and its mark set. -/
theorem refusedExhausted_left (hready : s.oldestReady = some x) :
    let r : Settled := { response := .refused, counted := false, givenUp := true }
    let given : SourceTable :=
      { s.src with ctx := s.src.ctx.set x.source { s.src.ctx[x.source] with retries := 0, mark := true } }
    let t := ((Ev.start s).takeCourse x .refusedExhausted).finishPath
    s.path.SettledBy t.path x r ∧ given.CountedBy t.src (s.path.settledFlight r) ∧
      t.path.asks (.sourceStatus x.source) = true ∧ t = { s with path := t.path, src := t.src } := by
  intro r given t
  have hst : ((Ev.start s).exhaust x.source).st = { s with src := given } := Ev.changeSource_src _ _ _
  have hasked : .sourceStatus x.source ∈ ((Ev.start s).exhaust x.source).asked := by simp [Ev.exhaust]
  have hret : ((Ev.start s).exhaust x.source).returned = [] := (grows_exhaust _ _).returned
  obtain ⟨hsettled, hcounted, hframe⟩ := settle_grant (s := s) (e := (Ev.start s).exhaust x.source) (r := r) hready
    (by rw [hst]) hret
  rw [hst] at hcounted
  exact ⟨hsettled, hcounted, Ev.finishPath_asks (settle_asked _ r hasked) nofun nofun,
    hframe.trans (congrArg (fun u : State => { u with path := t.path, src := t.src }) hst)⟩

end Grant

/-- Settles O48: the course by whether the unit is BUSY and the source exhausted, and the take by the count. -/
theorem overrideProducerWritten : Obligations.OverrideProducerWritten := by
  unfold Obligations.OverrideProducerWritten
  intro s x off w hg hwhole ht hm ho v count c exhausted
  have hready := forwardedTurn_oldestReady ((grantsInto_iff _ _ _ _).1 hg).2.1
  have hdecide := decideWrite_ovrProducer hwhole ht hm ho
  have hexhausted : s.src.exhausted x.source = true ↔ exhausted := exhausted_iff s.src x.source
  by_cases hidle : s.ovr.batch = none
  · rw [hidle] at hdecide
    obtain ⟨hovr, hnote, hissued, hframe⟩ := producer_left (s := s) ho
    have hunit : (accepted s x).st.ovr = s.ovr := by rw [accepted_st]
    have hnotes : (accepted s x).st.note = s.note := by rw [accepted_st]
    refine ⟨_, exec_ovrProducer hg ho hdecide (Or.inl rfl), fun _ => ⟨hframe, fun hfault => ?_, fun hle hzero => ?_,
      fun hle hzero => ?_⟩, fun hb => absurd hidle hb, fun hb => absurd hidle hb⟩
    · rw [takeProducer_fault (by rw [hunit]; exact hfault)] at hovr hnote hissued
      rw [Ev.raise_ovr, hunit] at hovr hissued
      rw [hidle] at hissued
      exact ⟨hovr, hnote.trans (congrArg (·.raised .overrideRingFault) hnotes), hissued⟩
    · have hv := (toNat_sub_eq_zero v s.ovr.consumer).1 hzero
      rw [takeProducer_empty (hv.trans (by rw [hunit]))] at hovr hnote hissued
      have hended : { s.ovr with batch := none } = s.ovr := by rw [← hidle]
      have hkept : ((accepted s x).endBatch (accepted s x).st.ovr.consumer).st.ovr = s.ovr := by
        rw [hunit]
        exact (congrArg (fun u : OverrideUnit => { u with consumer := s.ovr.consumer, batch := none }) hunit).trans hended
      rw [hkept, hidle] at hissued
      exact ⟨hovr.trans hkept, hnote.trans (congrArg (·.raised .overridesDone) hnotes), emptyBatch_asks ho hv, hissued⟩
    · have hv := mt (toNat_sub_eq_zero v s.ovr.consumer).2 hzero
      rw [takeProducer_begins (by rw [hunit]; exact hle) (by rw [hunit]; exact hv)] at hovr hnote hissued
      exact ⟨hnote.trans hnotes, hovr.trans (congrArg (fun u : OverrideUnit =>
        { u with batch := some { stop := v, index := u.consumer } }) hunit), hissued⟩
  · have hbusy : s.ovr.batch.isSome = true := Option.isSome_iff_ne_none.2 hidle
    rw [if_pos hbusy] at hdecide
    by_cases he : exhausted
    · rw [if_pos (hexhausted.2 he)] at hdecide
      exact ⟨_, exec_ovrProducer hg ho hdecide (Or.inr (Or.inr rfl)), fun hb => absurd hb hidle,
        fun _ hn => absurd he hn, fun _ _ => refusedExhausted_left hready⟩
    · rw [if_neg (mt hexhausted.1 he)] at hdecide
      exact ⟨_, exec_ovrProducer hg ho hdecide (Or.inr (Or.inl rfl)), fun hb => absurd hb hidle,
        fun _ _ => retry_left s x hready, fun _ h => absurd h he⟩

end Sys2Proof.Proofs
end

section
/-! Grading (chapter 4): the rule a segment is classed by (R74 to R76), the piece the trim search finds (R80 to R83), and the
saw pattern, board measure and board length (R84 to R88). -/

namespace Sys2Proof.Proofs

open Sys2Proof Sys2Proof.Machine Sys2Proof.Laws

/-! ### The class of a segment (R74 to R76) -/

theorem grades_sorted : grades.Pairwise fun g k => g.code < k.code := by decide

theorem mem_grades (g : Grade) : g ∈ grades := by cases g <;> decide

/-- The grades are tried in the order of their codes. -/
theorem find?_grades_iff (f : Grade → Bool) (g : Grade) :
    grades.find? f = some g ↔ f g = true ∧ ∀ k : Grade, k.code < g.code → ¬ f k = true := by
  have firstMet : ∀ {g}, grades.find? f = some g → f g = true ∧ ∀ k : Grade, k.code < g.code → ¬ f k = true := by
    intro g h
    obtain ⟨hg, before, after, hsplit, hbefore⟩ := List.find?_eq_some_iff_append.1 h
    refine ⟨hg, fun k hk => ?_⟩
    have hmem := mem_grades k
    have hsorted := grades_sorted
    rw [hsplit] at hmem hsorted
    have hafter := (List.pairwise_cons.1 (List.pairwise_append.1 hsorted).2.1).1
    rcases List.mem_append.1 hmem with hin | hin
    · simpa using hbefore k hin
    · rcases List.mem_cons.1 hin with rfl | hin
      · exact absurd hk (Nat.lt_irrefl _)
      · exact absurd hk (Nat.lt_asymm (hafter k hin))
  refine ⟨firstMet, fun ⟨hg, hless⟩ => ?_⟩
  cases hf : grades.find? f with
  | none => exact absurd hg (List.find?_eq_none.1 hf g (mem_grades g))
  | some k =>
    obtain ⟨hk, hless'⟩ := firstMet hf
    rcases Nat.lt_trichotomy k.code g.code with hlt | heq | hgt
    · exact absurd hk (hless k hlt)
    · rw [Grade.code_inj heq]
    · exact absurd hg (hless' g hgt)

/-- R75 over the bytes of Table 12-9. -/
theorem meetsRule_iff (p : Shadow) (a : Acc) (g : Grade) : meetsRule a (planRule p g) = true ↔
    planByte p (16 + 8 * (g.code - 1)) ≠ 0 ∧ a.ws * 1000 / a.ps ≤ planHalf p (16 + 8 * (g.code - 1) + 2) ∧
      a.dc ≤ planHalf p (16 + 8 * (g.code - 1) + 4) ∧ min 1022 (planHalf p (16 + 8 * (g.code - 1) + 6)) ≤ a.mt ∧
      planByte p (16 + 8 * (g.code - 1) + 1) ≤ a.sl := by
  simp only [meetsRule, planRule, Acc.wanePerMille, clamp, Nat.zero_max, Bool.and_eq_true, decide_eq_true_eq, bne_iff_ne,
    and_assoc]

theorem classify_empty {a : Acc} (p : Shadow) (h : a.ps = 0) : classify p a = .empty := if_pos h

/-- R76: the first rule met gives its grade. -/
theorem classify_of_pos {a : Acc} (p : Shadow) (h : 0 < a.ps) : classify p a =
    ((grades.find? fun g => meetsRule a (planRule p g)).map SegMark.grade).getD .reject := by
  unfold classify
  rw [if_neg (Nat.ne_of_gt h)]
  cases grades.find? fun g => meetsRule a (planRule p g) <;> rfl

theorem classify_grade_iff {a : Acc} (p : Shadow) (h : 0 < a.ps) (g : Grade) : classify p a = .grade g ↔
    meetsRule a (planRule p g) = true ∧ ∀ k : Grade, k.code < g.code → ¬ meetsRule a (planRule p k) = true := by
  rw [classify_of_pos p h, ← find?_grades_iff fun g => meetsRule a (planRule p g)]
  cases grades.find? fun g => meetsRule a (planRule p g) <;> simp

theorem classify_reject_iff {a : Acc} (p : Shadow) (h : 0 < a.ps) :
    classify p a = .reject ↔ ∀ g, ¬ meetsRule a (planRule p g) = true := by
  have hnone : classify p a = .reject ↔ grades.find? (fun g => meetsRule a (planRule p g)) = none := by
    rw [classify_of_pos p h]
    cases grades.find? fun g => meetsRule a (planRule p g) <;> simp
  rw [hnone, List.find?_eq_none]
  exact ⟨fun hn g => hn g (mem_grades g), fun hn g _ => hn g⟩

/-- A bank of zeros holds 0 in every byte, past its end too. -/
theorem planByte_zeros (i : Nat) : planByte (Vector.replicate 208 0) i = 0 := by
  unfold planByte
  rw [Vector.getElem?_replicate]
  split <;> rfl

/-- Settles O9: the rules are tried in order, each by the bytes of its bank. -/
theorem segmentClassIsFirstRuleMet : Obligations.SegmentClassIsFirstRuleMet := by
  unfold Obligations.SegmentClassIsFirstRuleMet
  refine ⟨fun p a h => classify_empty p h, fun p a h => ?_⟩
  dsimp only
  simp only [← meetsRule_iff]
  refine ⟨classify_grade_iff p h, classify_reject_iff p h, ?_⟩
  rintro rfl
  exact (classify_reject_iff _ h).2 fun g hg => ((meetsRule_iff _ a g).1 hg).1 (planByte_zeros _)

/-! ### The piece of the solution (R80 to R83) -/

section Search
variable {p : Shadow} {classes : Vector (Option SegMark) 12}

theorem candidate_value_pos {g : Grade} {a b : Nat} (h : Candidate p classes g a b) : 0 < runValue p classes (a, b) :=
  runValue_pos_iff.2 ⟨g, h, runValue_candidate h⟩

theorem candidate_mem_allRuns {g : Grade} {a b : Nat} (h : Candidate p classes g a b) : (a, b) ∈ allRuns := by
  obtain ⟨hab, hb, _⟩ := h
  exact mem_allRuns.2 ⟨hab, hb⟩

theorem candidate_runGrade {g : Grade} {a b : Nat} (h : Candidate p classes g a b) : runGrade classes (a, b) = some g := by
  obtain ⟨_, _, _, hworst, _⟩ := h
  exact runGrade_iff.2 hworst

/-- R82: the run found is a candidate, and no candidate goes before it. -/
theorem bestRun_some {a b : Nat} (h : bestRun p classes = some (a, b)) :
    (∃ g, Candidate p classes g a b) ∧ ∀ k c d, Candidate p classes k c d → NoWorse p classes (a, b) (c, d) := by
  have hsearch := foldl_pick p classes allRuns none nofun
  unfold bestRun at h
  rw [h] at hsearch
  obtain ⟨hpos, _, _, hbest⟩ := hsearch
  obtain ⟨g, hg, _⟩ := runValue_pos_iff.1 hpos
  exact ⟨⟨g, hg⟩, fun k c d hk => hbest _ (candidate_mem_allRuns hk) (candidate_value_pos hk)⟩

theorem bestRun_none_iff : bestRun p classes = none ↔ ∀ g a b, ¬ Candidate p classes g a b := by
  constructor
  · intro h g a b hc
    have hsearch := foldl_pick p classes allRuns none nofun
    unfold bestRun at h
    rw [h] at hsearch
    have hzero := hsearch.2 _ (candidate_mem_allRuns hc)
    have hpos := candidate_value_pos hc
    omega
  · intro h
    cases hb : bestRun p classes with
    | none => rfl
    | some r =>
      obtain ⟨⟨g, hg⟩, _⟩ := bestRun_some hb
      exact absurd hg (h g _ _)

theorem solveSolution_some {g : Grade} {a b : Nat} (h : bestRun p classes = some (a, b))
    (hg : Candidate p classes g a b) : solveSolution p classes = pieceSolution p classes g (a, b) := by
  unfold solveSolution
  rw [h]
  dsimp only
  rw [candidate_runGrade hg]

theorem solveSolution_none (h : bestRun p classes = none) : solveSolution p classes = wholeSolution p classes .trash := by
  unfold solveSolution
  rw [h]

end Search

/-- Settles O10: the search over the 78 runs ends with a candidate that no other goes before. -/
theorem trimSearchPicksBest : Obligations.TrimSearchPicksBest := by
  unfold Obligations.TrimSearchPicksBest
  rintro p classes ⟨k, c, d, hk⟩
  cases hb : bestRun p classes with
  | none => exact absurd hk (bestRun_none_iff.1 hb k c d)
  | some r =>
    obtain ⟨a, b⟩ := r
    obtain ⟨⟨g, hg⟩, hbest⟩ := bestRun_some hb
    refine ⟨g, a, b, hg, solveSolution_some hb hg, fun k c d hk => ?_⟩
    have hless := hbest k c d hk
    unfold NoWorse at hless
    rwa [runValue_candidate hg, runValue_candidate hk] at hless

/-- Settles O11: the search finds nothing exactly where no run is a candidate. -/
theorem noCandidateIsTrash : Obligations.NoCandidateIsTrash := by
  unfold Obligations.NoCandidateIsTrash
  refine fun p classes => ⟨fun h => solveSolution_none (bestRun_none_iff.2 h), ?_⟩
  cases hb : bestRun p classes with
  | none => rw [solveSolution_none hb]; nofun
  | some r =>
    obtain ⟨⟨g, hg⟩, _⟩ := bestRun_some hb
    rw [solveSolution_some hb hg]
    nofun

/-! ### Saws, board measure and board length (R84 to R88) -/

theorem materialBothSides_iff (classes : Vector (Option SegMark) 12) (k : Nat) : materialBothSides classes k = true ↔
    isMaterial (classAt classes (k - 1)) = true ∧ isMaterial (classAt classes k) = true := by
  unfold materialBothSides
  exact Bool.and_eq_true_iff

/-- Bit `k` - 1 of a saw set is saw S`k`. -/
theorem sawsWhere_saw (f : Nat → Bool) {k : Nat} (h1 : 1 ≤ k) (h11 : k ≤ 11) : (sawsWhere f).getLsbD (k - 1) = f k := by
  have hbit := sawsWhere_getLsbD f ⟨k - 1, by omega⟩
  rwa [show k - 1 + 1 = k by omega] at hbit

theorem trashSaws_saw (classes : Vector (Option SegMark) 12) {k : Nat} (h1 : 1 ≤ k) (h11 : k ≤ 11) :
    (trashSaws classes).getLsbD (k - 1) = true ↔
      isMaterial (classAt classes (k - 1)) = true ∧ isMaterial (classAt classes k) = true := by
  unfold trashSaws
  rw [sawsWhere_saw _ h1 h11, materialBothSides_iff]

theorem pieceSaws_saw (classes : Vector (Option SegMark) 12) (a b : Nat) {k : Nat} (h1 : 1 ≤ k) (h11 : k ≤ 11) :
    (pieceSaws classes (a, b)).getLsbD (k - 1) = true ↔ ¬ (a < k ∧ k ≤ b) ∧
      isMaterial (classAt classes (k - 1)) = true ∧ isMaterial (classAt classes k) = true := by
  unfold pieceSaws
  rw [sawsWhere_saw _ h1 h11, Bool.and_eq_true, materialBothSides_iff]
  simp only [Bool.not_eq_true', Bool.and_eq_false_iff, decide_eq_false_iff_not, Classical.not_and_iff_not_or_not]

/-- R87: 16 quarter inches by 12 in by 24 ft are 960 tenths of a board-foot. -/
theorem bf10_le (p : Shadow) {len : Nat} (h : len ≤ 24) : bf10 p len ≤ 960 := by
  have hthick : planTq p ≤ 16 := by unfold planTq clamp; omega
  have hwide : planWn p ≤ 12 := by unfold planWn clamp; omega
  have hvolume : planTq p * planWn p * len ≤ 16 * 12 * 24 := Nat.mul_le_mul (Nat.mul_le_mul hthick hwide) h
  unfold bf10
  omega

theorem classAt_fin (classes : Vector (Option SegMark) 12) (j : Fin 12) : classAt classes j = classes[j] := by
  simp [classAt]

/-- The walk of R88 over the first `n` segments ends with the last material one. -/
theorem foldl_lastMaterial (classes : Vector (Option SegMark) 12) {n j : Nat} (hj : j < n)
    (hmat : isMaterial (classAt classes j) = true)
    (hlast : ∀ i, j < i → i < n → isMaterial (classAt classes i) = false) :
    (List.range n).foldl (fun m i => if isMaterial (classAt classes i) then 2 * (i + 1) else m) 0 = 2 * (j + 1) := by
  induction n with
  | zero => omega
  | succ n ih =>
    rw [List.range_succ, List.foldl_append, List.foldl_cons, List.foldl_nil]
    rcases Nat.lt_or_eq_of_le (Nat.le_of_lt_succ hj) with hlt | rfl
    · rw [hlast n hlt (Nat.lt_succ_self n), if_neg Bool.false_ne_true]
      exact ih hlt fun i hi hin => hlast i hi (Nat.lt_succ_of_lt hin)
    · rw [if_pos hmat]

theorem boardLength_eq {classes : Vector (Option SegMark) 12} {j : Fin 12} (hmat : isMaterial classes[j] = true)
    (hlast : ∀ i : Fin 12, j < i → isMaterial classes[i] = false) : boardLength classes = 2 * (j.val + 1) := by
  refine foldl_lastMaterial classes j.2 (by rwa [classAt_fin]) fun i hi hin => ?_
  exact (congrArg isMaterial (classAt_fin classes ⟨i, hin⟩)).trans (hlast ⟨i, hin⟩ hi)

/-- Settles O12: each saw by its own test, the measure by its clamps, the length by the last material segment. -/
theorem sawsAndMeasures : Obligations.SawsAndMeasures := by
  unfold Obligations.SawsAndMeasures
  refine ⟨fun classes a b k h1 h11 => ⟨pieceSaws_saw classes a b h1 h11, trashSaws_saw classes h1 h11, fun p => ⟨rfl, rfl⟩⟩,
    fun p len => rfl, fun p len h => bf10_le p h, fun classes j hmat hlast => boardLength_eq hmat hlast⟩

end Sys2Proof.Proofs
end

section
/-! SOLVE_END (R68, R70): the results written into the record of the solve in progress, and the next entry taken. -/

namespace Sys2Proof.Proofs

open Sys2Proof Sys2Proof.Machine Sys2Proof.Laws

/-! ### The start of the next solve (R68) -/

/-- An idle solver takes the head of its queue, or stays idle on an empty one. -/
theorem startSolve_idle {s : State} (h : s.solv.solving = none) :
    s.startSolve.solv = { queue := s.solv.queue.tail, solving := s.solv.queue.head? } ∧
      ∀ j : Fin 32, s.startSolve.lug.boards[j] =
        if (∃ m, s.solv.queue.head? = some m ∧ s.lookup m = some j) ∧ s.lug.boards[j].state = .queued then
          startedBoard s.lug.boards[j]
        else s.lug.boards[j] := by
  rcases hq : s.solv.queue with _ | ⟨n, rest⟩
  · rw [startSolve_empty hq]
    refine ⟨?_, fun j => (if_neg ?_).symm⟩
    · generalize s.solv = v at h hq
      obtain ⟨queue, solving⟩ := v
      cases h
      cases hq
      rfl
    · rintro ⟨⟨m, hm, _⟩, _⟩
      cases hm
  · obtain ⟨hsolv, _, hboards⟩ := startSolve_takes h hq
    refine ⟨hsolv, fun j => ?_⟩
    rw [hboards j]
    simp only [List.head?_cons, Option.some.injEq, exists_eq_left', and_comm]

/-! ### The results of the solve (R70) -/

/-- The event once the results of the solve of lug `n` are written, where its record is still SOLVING. -/
def resultsWritten (s : State) (n : Word16) : Ev :=
  match s.lookup n with
  | some i =>
    if s.lug.boards[i].state = .solving then (Ev.start s).changeBoard i fun b => b.solved (s.shadowOf b.bank)
    else Ev.start s
  | none => Ev.start s

/-- The results go into the record that lug `n` reaches, if it is SOLVING, or nothing is written. -/
theorem resultsWritten_cases (s : State) (n : Word16) :
    (∃ i, s.lookup n = some i ∧ s.lug.boards[i].state = .solving ∧
      resultsWritten s n = (Ev.start s).changeBoard i fun b => b.solved (s.shadowOf b.bank)) ∨
    ((∀ i, s.lookup n = some i → s.lug.boards[i].state ≠ .solving) ∧ resultsWritten s n = Ev.start s) := by
  unfold resultsWritten
  cases hi : s.lookup n with
  | none => exact Or.inr ⟨nofun, rfl⟩
  | some i =>
    by_cases hs : s.lug.boards[i].state = .solving
    · exact Or.inl ⟨i, rfl, hs, if_pos hs⟩
    · refine Or.inr ⟨fun j hj => ?_, if_neg hs⟩
      rwa [← Option.some.inj hj]

/-- The results touch the lug table's records alone, and ask for nothing. -/
theorem resultsWritten_ev (s : State) (n : Word16) : resultsWritten s n =
    { Ev.start s with st := { s with lug := { s.lug with boards := (resultsWritten s n).st.lug.boards } } } := by
  rcases resultsWritten_cases s n with ⟨i, _, _, h⟩ | ⟨_, h⟩ <;> rw [h] <;> rfl

theorem resultsWritten_read (s : State) (n : Word16) (j : Fin 32) : (resultsWritten s n).st.lug.boards[j] =
    if s.lookup n = some j ∧ s.lug.boards[j].state = .solving then
      s.lug.boards[j].solved (s.shadowOf s.lug.boards[j].bank)
    else s.lug.boards[j] := by
  rcases resultsWritten_cases s n with ⟨i, hi, hs, h⟩ | ⟨hno, h⟩
  · rw [h, changeBoard_read, hi]
    by_cases hj : j = i
    · subst hj
      rw [if_pos rfl, if_pos ⟨rfl, hs⟩]
      rfl
    · rw [if_neg hj, if_neg fun hc : some i = some j ∧ _ => hj (Option.some.inj hc.1).symm]
      rfl
  · rw [h, if_neg fun hc => hno j hc.1 hc.2]
    rfl

/-- A record SOLVED is the record still: lookups find it as before. -/
theorem seats_resultsWritten (s : State) (n : Word16) : Seats s (resultsWritten s n).st := by
  rcases resultsWritten_cases s n with ⟨i, _, hs, h⟩ | ⟨_, h⟩
  · rw [h]
    exact seats_changeBoard (Ev.start s) i _ (Seated.of_open .solved rfl rfl (by rw [Ev.start_st, hs]; decide) rfl
      (by simp only [Board.isFrozen, Ev.start_st, hs]; decide))
  · rw [h]
    exact Seats.refl s

/-! ### The whole event -/

/-- The event with the results written and the solver idle. -/
def endedSolve (s : State) (n : Word16) : Ev :=
  (resultsWritten s n).modify fun s => { s with solv := { s.solv with solving := none } }

theorem exec_solveEnd {s : State} {n : Word16} (hr : s.running = true) (hn : s.solv.solving = some n) :
    exec .solveEnd s = .next ((endedSolve s n).modify State.startSolve).finish := by
  show execSolveEnd s = _
  unfold execSolveEnd
  rw [if_pos hr, hn]
  rfl

theorem endedSolve_ev (s : State) (n : Word16) : endedSolve s n = { Ev.start s with
    st := { s with lug := { s.lug with boards := (resultsWritten s n).st.lug.boards }
                   solv := { s.solv with solving := none } } } := by
  unfold endedSolve
  rw [resultsWritten_ev]
  rfl

theorem endedSolve_lookup (s : State) (n m : Word16) : (endedSolve s n).st.lookup m = s.lookup m :=
  (seats_resultsWritten s n).lookup m

/-- The event asks for nothing, and changes only the records and the solver. -/
theorem solveEnd_finish (s : State) (n : Word16) : ((endedSolve s n).modify State.startSolve).finish =
    { s with lug := { s.lug with boards := (endedSolve s n).st.startSolve.lug.boards }
             solv := (endedSolve s n).st.startSolve.solv, path := { s.path with returned := [] } } := by
  have hev := endedSolve_ev s n
  have hstart : (endedSolve s n).st.startSolve =
      { (endedSolve s n).st with lug := (endedSolve s n).st.startSolve.lug, solv := (endedSolve s n).st.startSolve.solv } :=
    eq_mixed (keeps_startSolve _)
  have hquiet : ((endedSolve s n).modify State.startSolve).asked = [] := congrArg Ev.asked hev
  rw [startSolve_lug] at hstart
  rw [Ev.finish_of_quiet hquiet, Ev.modify_st, hstart]
  generalize (endedSolve s n).st.startSolve = t
  rw [hev]
  rfl

/-- What the event leaves of each record: the start finds the records with the results written. -/
theorem solveEnd_boards (s : State) (n : Word16) (j : Fin 32) : (endedSolve s n).st.startSolve.lug.boards[j] =
    if (∃ m, s.solv.queue.head? = some m ∧ s.lookup m = some j) ∧
        (resultsWritten s n).st.lug.boards[j].state = .queued then
      startedBoard (resultsWritten s n).st.lug.boards[j]
    else (resultsWritten s n).st.lug.boards[j] := by
  have hqueue : (endedSolve s n).st.solv.queue = s.solv.queue := by rw [endedSolve_ev]
  have hstart := (startSolve_idle (s := (endedSolve s n).st) rfl).2 j
  simp only [hqueue, endedSolve_lookup] at hstart
  exact hstart

theorem solveEnd_solv (s : State) (n : Word16) : (endedSolve s n).st.startSolve.solv =
    { queue := s.solv.queue.tail, solving := s.solv.queue.head? } := by
  rw [(startSolve_idle (s := (endedSolve s n).st) rfl).1, endedSolve_ev]

/-- Settles O32: the results first, then the start of an idle solver, which finds the records where they were. -/
theorem solveEnds : Obligations.SolveEnds := by
  unfold Obligations.SolveEnds
  intro s n hr hn
  refine ⟨_, (exec_solveEnd hr hn).trans (congrArg Host.Outcome.next (solveEnd_finish s n)), rfl, rfl, solveEnd_solv s n,
    fun i hi hs => ?_, fun i hi => ?_⟩
  · have hread := (resultsWritten_read s n i).trans (if_pos ⟨hi, hs⟩)
    refine (solveEnd_boards s n i).trans ?_
    rw [hread]
    exact if_neg fun hc => absurd hc.2 (nofun : BoardState.solved ≠ .queued)
  · have hread := (resultsWritten_read s n i).trans (if_neg fun hc => hi.elim (· hc.1) (· hc.2))
    refine (solveEnd_boards s n i).trans ?_
    rw [hread]
    rfl

end Sys2Proof.Proofs
end

section
/-! What each command may touch: the footprint of every row of the table, from the footprints of its operations. -/

namespace Sys2Proof.Laws

open Sys2Proof Sys2Proof.Machine Sys2Proof.Proofs

/-! ### Footprints of whole events -/

/-- Where every block but those listed may be taken from `s`, the state is within the footprint. -/
theorem Keeps.of_mixed {bs : List Block} {s t : State} (h : mixed bs s t = t) : Keeps bs s t := by
  rw [← h]
  intro b hb
  cases b <;> exact if_neg hb

section Events
variable {bs cs : List Block} {s t : State} {e e' : Ev}

/-- An operation within the event's footprint. -/
theorem Keeps.then (h : Keeps bs s e.st) (hk : Keeps cs e.st e'.st) (hb : ∀ b ∈ cs, b ∈ bs := by decide) :
    Keeps bs s e'.st := h.trans (hk.mono hb)

/-- The end of an event changes the path besides. -/
theorem Keeps.done (h : Keeps bs s e.st) (hd : e.done = .next t) (hp : ∀ b ∈ [Block.path], b ∈ bs := by decide) :
    Keeps bs s t := by
  rw [done_next hd]
  exact h.trans ((keeps_finish e).mono hp)

theorem Keeps.idle (h : notTaken s = .next t) : Keeps bs s t := by
  rw [notTaken_next h]
  exact Keeps.refl _ _

theorem Keeps.start : Keeps bs s (Ev.start s).st := Keeps.refl _ _

end Events

end Sys2Proof.Laws

namespace Sys2Proof.Proofs

open Sys2Proof Sys2Proof.Machine Sys2Proof.Laws

/-! ### The rows of the forwarded side -/

/-- The condition of each row that is a grant of the forwarded side. -/
def grantRow : Instr → Option (State → Txn → Bool)
  | .apertureWrite => some isApertureWrite
  | .planBankWrite => some isPlanBankWrite
  | .sliceWrite => some isSliceWrite
  | .planSelect => some fun s x => writesWord s x .planSelect fun _ => true
  | .admitHead h => some fun s x => writesWord s x (.headCommand h) fun w => w == 1
  | .release h => some fun s x => writesWord s x (.headCommand h) fun w => w == 2
  | .headCommandUnknown h => some fun s x => writesWord s x (.headCommand h) unknownCommand
  | .ovrProducer => some isOvrProducer
  | .decConsumer => some fun s x => writesWord s x .decConsumer fun _ => true
  | .tallyCloseShift => some fun s x => writesWord s x .tallyRequest asksCloseShift
  | .tallySnapshot => some fun s x => writesWord s x .tallyRequest asksSnapshot
  | .tallyClear => some fun s x => writesWord s x .tallyRequest asksClear
  | .tallyRequestRefused => some fun s x => writesWord s x .tallyRequest asksRefused
  | .notice => some fun s x => writesWord s x .notice fun _ => true
  | .noticeEnable => some fun s x => writesWord s x .noticeEnable fun _ => true
  | .trapClear => some fun s x => writesWord s x .trapClear fun _ => true
  | .lineRestart => some fun s x => writesWord s x .lineRestart fun w => w == 1
  | .forwardedSideGrant => some isForwardedSideGrant
  | _ => none

theorem exec_grantRow {c : Instr} {row : State → Txn → Bool} (hc : grantRow c = some row) (s : State) :
    exec c s = grantIf row s := by
  cases c <;> cases hc <;> rfl

/-! ### The commands -/

/-- The blocks that a command may change. -/
def footprint : Instr → List Block
  | .deviceReset => [.boot, .path, .src, .head, .asm, .lug, .solv, .plan, .ovr, .trim, .dec, .tally, .note, .restart, .mem,
      .freeCount]
  | .bootStart => [.boot, .path]
  | .bootAttemptEnd _ => [.boot, .path, .src, .head, .asm, .lug, .ovr, .trim, .dec, .note]
  | .lugEvent => [.lug, .note, .trim, .plan, .tally, .head, .solv, .dec, .freeCount, .path]
  | .encPulse => [.lug, .trim, .path]
  | .sawHoldExpiry _ => [.trim, .path]
  | .lampFlashToggle => [.head, .path]
  | .headPresentRise _ | .headReadyRise _ | .headReadyFall _ => [.pins, .head, .note, .path]
  | .headPresentFall _ => [.pins, .lug, .head, .solv, .note, .path]
  | .upstreamAccept _ => [.path, .src]
  | .sliceFold _ => [.asm, .lug, .head, .solv, .note, .path]
  | .solveEnd => [.lug, .solv, .path]
  | .overrideEntryTake => [.lug, .ovr, .path]
  | .lugTableRestart => [.restart, .lug, .plan, .path]
  | .headMonitorRestart => [.restart, .head, .path]
  | .intakeRestart => [.restart, .asm, .path]
  | .solverRestart => [.restart, .solv, .path]
  | .trimRestart => [.restart, .trim, .path]
  | .arbiterGrantOwn => [.path]
  | .memoryAnswer _ => [.path, .mem, .src, .tally, .note]
  | .ownTransactionAnswer _ => [.path, .mem, .ovr, .note, .dec, .tally]
  | .apertureWrite | .planBankWrite | .sliceWrite | .planSelect | .admitHead _ | .release _ | .headCommandUnknown _
  | .ovrProducer | .decConsumer | .tallyCloseShift | .tallySnapshot | .tallyClear | .tallyRequestRefused | .notice
  | .noticeEnable | .trapClear | .lineRestart | .forwardedSideGrant =>
    [.note, .plan, .tally, .restart, .ovr, .dec, .src, .head, .path, .asm, .lug]

section Commands
variable {s t : State} {h : Fin 6}

theorem keeps_deviceReset (hx : execDeviceReset s = .next t) : Keeps (footprint .deviceReset) s t := by
  injection hx with hx
  subst hx
  exact Keeps.of_mixed rfl

theorem keeps_bootStart (hx : execBootStart s = .next t) : Keeps (footprint .bootStart) s t := by
  unfold execBootStart at hx
  split at hx
  · injection hx with hx
    subst hx
    exact Keeps.of_mixed rfl
  · exact Keeps.idle hx

theorem keeps_bootAttemptEnd {a : Attempt} (hx : execBootAttemptEnd a s = .next t) :
    Keeps (footprint (.bootAttemptEnd a)) s t := by
  unfold execBootAttemptEnd at hx
  dsimp only at hx
  split at hx
  · split at hx <;> split at hx <;> (injection hx with hx; subst hx; exact Keeps.of_mixed rfl)
  · exact Keeps.idle hx

theorem keeps_lugEvent (hx : exec .lugEvent s = .next t) : Keeps (footprint .lugEvent) s t := by
  cases hr : s.running with
  | true =>
    rw [exec_lugEvent hr] at hx
    injection hx with hx
    exact hx ▸ keeps_afterLug s
  | false =>
    rw [exec_lugEvent_idle hr] at hx
    exact Keeps.idle hx

theorem keeps_encPulse (hx : execEncPulse s = .next t) : Keeps (footprint .encPulse) s t := by
  unfold execEncPulse at hx
  have hcount : Keeps [.lug, .trim, .path] s ((Ev.start s).modify fun s =>
      { s with lug := { s.lug with encCount := min 65535 (s.lug.encCount + 1) } }).st := Keeps.of_mixed rfl
  split at hx
  · dsimp only at hx
    split at hx
    · split at hx
      · exact (hcount.then (keeps_fire _ _)).done hx
      · exact hcount.done hx
    · exact hcount.done hx
  · exact Keeps.idle hx

theorem keeps_sawHoldExpiry {k : Fin 11} (hx : execSawHoldExpiry k s = .next t) :
    Keeps (footprint (.sawHoldExpiry k)) s t := by
  unfold execSawHoldExpiry at hx
  split at hx
  · exact Keeps.done (bs := [.trim, .path]) (Keeps.of_mixed rfl) hx
  · exact Keeps.idle hx

theorem keeps_lampFlashToggle (hx : execLampFlashToggle s = .next t) : Keeps (footprint .lampFlashToggle) s t :=
  Keeps.done (bs := [.head, .path]) (Keeps.of_mixed rfl) hx

theorem keeps_headPresentRise (hx : execHeadPresentRise h s = .next t) : Keeps (footprint (.headPresentRise h)) s t := by
  unfold execHeadPresentRise at hx
  dsimp only at hx
  have hpin : Keeps [.pins, .head, .note, .path] s ((Ev.start s).presentPin h true).st :=
    Keeps.start.then (keeps_presentPin _ _ _)
  have hlevel := hpin.then (keeps_changeHead _ h fun c => { c with present := true })
  split at hx
  · split at hx
    · split at hx
      · exact ((hlevel.then (keeps_changeHead _ _ _)).then (keeps_raise _ _)).done hx
      · exact (hlevel.then (keeps_changeHead _ _ _)).done hx
    all_goals exact hlevel.done hx
  · exact hpin.done hx

theorem keeps_headReadyRise (hx : execHeadReadyRise h s = .next t) : Keeps (footprint (.headReadyRise h)) s t := by
  unfold execHeadReadyRise at hx
  dsimp only at hx
  have hpin : Keeps [.pins, .head, .note, .path] s ((Ev.start s).readyPin h true).st :=
    Keeps.start.then (keeps_readyPin _ _ _)
  have hlevel := hpin.then (keeps_changeHead _ h fun c => { c with ready := true })
  split at hx
  · split at hx
    · exact ((hlevel.then (keeps_changeHead _ _ _)).then (keeps_raise _ _)).done hx
    all_goals exact hlevel.done hx
  · exact hpin.done hx

theorem keeps_headReadyFall (hx : execHeadReadyFall h s = .next t) : Keeps (footprint (.headReadyFall h)) s t := by
  unfold execHeadReadyFall at hx
  dsimp only at hx
  have hpin : Keeps [.pins, .head, .note, .path] s ((Ev.start s).readyPin h false).st :=
    Keeps.start.then (keeps_readyPin _ _ _)
  have hlevel := hpin.then (keeps_changeHead _ h fun c => { c with ready := false })
  split at hx
  · split at hx
    · exact (hlevel.then (keeps_changeHead _ _ _)).done hx
    · exact (((hlevel.then (keeps_changeHead _ _ _)).then (keeps_raise _ _)).then (keeps_parkTest _ _)).done hx
    all_goals exact hlevel.done hx
  · exact hpin.done hx

theorem keeps_headPresentFall (hx : execHeadPresentFall h s = .next t) : Keeps (footprint (.headPresentFall h)) s t := by
  unfold execHeadPresentFall at hx
  dsimp only at hx
  have hpin : Keeps [.pins, .lug, .head, .solv, .note, .path] s ((Ev.start s).presentPin h false).st :=
    Keeps.start.then (keeps_presentPin _ _ _)
  split at hx
  · refine Keeps.done (bs := [.pins, .lug, .head, .solv, .note, .path]) (Keeps.then ?_ (keeps_changeHead _ _ _)) hx
    split
    · exact hpin.then (keeps_loseHead _ _)
    · exact hpin.then (keeps_loseHead _ _)
    all_goals exact hpin
  · exact hpin.done hx

theorem keeps_upstreamAccept {x : Txn} (hx : execUpstreamAccept x s = .next t) :
    Keeps (footprint (.upstreamAccept x)) s t := by
  unfold execUpstreamAccept at hx
  have harrived : ∀ u : UpTxn, Keeps [.path, .src] s (arrived s u).st := fun u => Keeps.of_mixed rfl
  split at hx
  · split at hx
    · exact ((harrived _).then (keeps_returnResponses _)).done hx
    · unfold Ev.donePath at hx
      injection hx with hx
      subst hx
      exact (harrived _).trans ((keeps_finishPath _).mono (bs := [.path]) (cs := [.path, .src]) (by decide))
  · exact Keeps.idle hx

theorem keeps_sliceFold (hx : execSliceFold h s = .next t) : Keeps (footprint (.sliceFold h)) s t := by
  unfold execSliceFold at hx
  split at hx
  · split at hx
    · exact Keeps.idle hx
    · exact (Keeps.then (s := s) (bs := [.asm, .lug, .head, .solv, .note, .path]) (Keeps.of_mixed rfl)
        (keeps_foldHeld _ _ _)).done hx
  · exact Keeps.idle hx

theorem keeps_solveEnd (hx : execSolveEnd s = .next t) : Keeps (footprint .solveEnd) s t := by
  unfold execSolveEnd at hx
  have hended : ∀ e : Ev, Keeps [.lug, .solv, .path] s e.st → Keeps [.lug, .solv, .path] s
      ((e.modify fun s => { s with solv := { s.solv with solving := none } }).modify State.startSolve).st := fun e hk =>
    have hidle : Keeps [.solv] e.st { e.st with solv := { e.st.solv with solving := none } } := Keeps.of_mixed rfl
    (hk.trans (hidle.mono (by decide))).trans ((keeps_startSolve _).mono (by decide))
  split at hx
  · split at hx
    · exact Keeps.idle hx
    · refine (hended _ ?_).done hx
      split
      · split
        · exact Keeps.start.then (keeps_changeBoard _ _ _)
        · exact Keeps.start
      · exact Keeps.start
  · exact Keeps.idle hx

theorem keeps_overrideEntryTake (hx : execOverrideEntryTake s = .next t) : Keeps (footprint .overrideEntryTake) s t := by
  unfold execOverrideEntryTake at hx
  split at hx
  · split at hx
    · exact (((Keeps.start (bs := [.lug, .ovr, .path])).then (keeps_takeEntry _ _)).then (keeps_entryTaken _ _ _)).done hx
    · exact Keeps.idle hx
  · exact Keeps.idle hx

theorem keeps_lugTableRestart (hx : exec .lugTableRestart s = .next t) : Keeps (footprint .lugTableRestart) s t := by
  by_cases hc : s.running = true ∧ 0 < s.restart.lug
  · have hreleased : Keeps [.restart, .lug, .plan, .path] s (released s).st := (keeps_released s).mono (by decide)
    rw [exec_lugTableRestart hc.1 hc.2] at hx
    split at hx
    · exact hreleased.done hx
    · exact (hreleased.then (keeps_ask _ .lineStatus)).done hx
  · rw [exec_lugTableRestart_idle hc] at hx
    exact Keeps.idle hx

theorem keeps_headMonitorRestart (hx : execHeadMonitorRestart s = .next t) : Keeps (footprint .headMonitorRestart) s t := by
  unfold execHeadMonitorRestart at hx
  split at hx
  · refine (Keeps.then (s := s) (bs := [.restart, .head, .path]) (Keeps.of_mixed rfl)
      (keeps_foldl (bs := [.head]) _ (fun e k => ?_) _ _)).done hx
    split
    · exact keeps_changeHead e k _
    · exact Keeps.refl _ _
  · exact Keeps.idle hx

theorem keeps_intakeRestart (hx : execIntakeRestart s = .next t) : Keeps (footprint .intakeRestart) s t := by
  unfold execIntakeRestart at hx
  split at hx
  · exact Keeps.done (bs := [.restart, .asm, .path]) (Keeps.of_mixed rfl) hx
  · exact Keeps.idle hx

theorem keeps_solverRestart (hx : execSolverRestart s = .next t) : Keeps (footprint .solverRestart) s t := by
  unfold execSolverRestart at hx
  split at hx
  · exact Keeps.done (bs := [.restart, .solv, .path]) (Keeps.of_mixed rfl) hx
  · exact Keeps.idle hx

theorem keeps_trimRestart (hx : execTrimRestart s = .next t) : Keeps (footprint .trimRestart) s t := by
  unfold execTrimRestart at hx
  split at hx
  · exact Keeps.done (bs := [.restart, .trim, .path]) (Keeps.of_mixed rfl) hx
  · exact Keeps.idle hx

theorem keeps_arbiterGrantOwn (hx : execArbiterGrantOwn s = .next t) : Keeps (footprint .arbiterGrantOwn) s t := by
  unfold execArbiterGrantOwn at hx
  split at hx
  · exact Keeps.done (bs := [.path]) (Keeps.of_mixed rfl) hx
  · exact Keeps.idle hx

theorem keeps_memoryAnswer {ok : Bool} (hx : execMemoryAnswer ok s = .next t) :
    Keeps (footprint (.memoryAnswer ok)) s t := by
  unfold execMemoryAnswer at hx
  split at hx
  · rename_i i startsBatch startsTally w rest _
    have hanswered : Keeps [.path, .mem, .src, .tally, .note] s
        (((Ev.start s).popDown rest w ok).answerForwarded i (responseOf s.mem w ok)).st :=
      (Keeps.start.then (keeps_popDown _ _ _ _)).then (keeps_answerForwarded _ _ _)
    dsimp only at hx
    generalize ((Ev.start s).popDown rest w ok).answerForwarded i (responseOf s.mem w ok) = u at hx hanswered
    have hfetched : Keeps [.path, .mem, .src, .tally, .note] s (if startsBatch then u.fetchEntry else u).st := by
      split
      · exact hanswered.then (keeps_fetchEntry _)
      · exact hanswered
    split at hx
    · exact (hfetched.then (keeps_requestWriteAnswered _)).done hx
    · exact hfetched.done hx
  · exact Keeps.idle hx

theorem keeps_ownTransactionAnswer {ok : Bool} (hx : execOwnTransactionAnswer ok s = .next t) :
    Keeps (footprint (.ownTransactionAnswer ok)) s t := by
  unfold execOwnTransactionAnswer at hx
  split at hx
  · rename_i k w rest _
    have hreleased : Keeps [.path, .mem, .ovr, .note, .dec, .tally] s
        (((Ev.start s).popDown rest w ok).releaseLine k w).st :=
      (Keeps.start.then (keeps_popDown _ _ _ _)).then (keeps_releaseLine _ _ _)
    refine Keeps.done (bs := [.path, .mem, .ovr, .note, .dec, .tally]) (Keeps.then ?_ (keeps_ownAnswered _ _ _ _)) hx
    split
    · exact hreleased
    · exact hreleased.then (keeps_raise _ _)
  · exact Keeps.idle hx

theorem keeps_grantIf {row : State → Txn → Bool} (hx : grantIf row s = .next t) :
    Keeps (footprint .forwardedSideGrant) s t := by
  rcases grantIf_cases row s with ⟨x, -, -, hg⟩ | hg <;> (rw [hg] at hx; injection hx with hx; subst hx)
  · exact keeps_grant s x
  · exact Keeps.refl _ _

end Commands

/-- What a command may change, whatever the state. -/
theorem keeps_exec {c : Instr} {s t : State} (hx : exec c s = .next t) : Keeps (footprint c) s t := by
  cases c with
  | deviceReset => exact keeps_deviceReset hx
  | bootStart => exact keeps_bootStart hx
  | bootAttemptEnd => exact keeps_bootAttemptEnd hx
  | lugEvent => exact keeps_lugEvent hx
  | encPulse => exact keeps_encPulse hx
  | sawHoldExpiry => exact keeps_sawHoldExpiry hx
  | lampFlashToggle => exact keeps_lampFlashToggle hx
  | headPresentRise => exact keeps_headPresentRise hx
  | headPresentFall => exact keeps_headPresentFall hx
  | headReadyRise => exact keeps_headReadyRise hx
  | headReadyFall => exact keeps_headReadyFall hx
  | upstreamAccept => exact keeps_upstreamAccept hx
  | sliceFold => exact keeps_sliceFold hx
  | solveEnd => exact keeps_solveEnd hx
  | overrideEntryTake => exact keeps_overrideEntryTake hx
  | lugTableRestart => exact keeps_lugTableRestart hx
  | headMonitorRestart => exact keeps_headMonitorRestart hx
  | intakeRestart => exact keeps_intakeRestart hx
  | solverRestart => exact keeps_solverRestart hx
  | trimRestart => exact keeps_trimRestart hx
  | arbiterGrantOwn => exact keeps_arbiterGrantOwn hx
  | memoryAnswer => exact keeps_memoryAnswer hx
  | ownTransactionAnswer => exact keeps_ownTransactionAnswer hx
  | apertureWrite | planBankWrite | sliceWrite | planSelect | admitHead | release | headCommandUnknown | ovrProducer
    | decConsumer | tallyCloseShift | tallySnapshot | tallyClear | tallyRequestRefused | notice | noticeEnable | trapClear
    | lineRestart | forwardedSideGrant => exact keeps_grantIf ((exec_grantRow rfl s).symm.trans hx)

end Sys2Proof.Proofs
end

section
/-! The plan store's shadows (R91, R94, R103): which operations leave them, and that no command but device reset alters one
whose bank is bound. -/

namespace Sys2Proof.Proofs

open Sys2Proof Sys2Proof.Machine Sys2Proof.Laws

/-! ### The takes of the plan store (R92, R96) -/

/-- Table 5-2: the pending bank once PLAN_SELECT has named a bank, or none. -/
def selected (p : PlanStore) (named : Option Bank) : Option Bank :=
  if named = none then p.pendingBank else if named = p.active then none else named

theorem select_eq (p : PlanStore) (k : Bank) : p.select k = { p with pendingBank := selected p (some k) } := by
  unfold PlanStore.select selected
  rw [if_neg (nofun : some k ≠ none)]
  by_cases hk : p.active = some k
  · rw [if_pos hk, if_pos hk.symm]
  · rw [if_neg hk, if_neg (Ne.symm hk)]

/-- PLAN_SELECT changes the pending bank alone, and asks for LINE_STATUS where it does. -/
theorem takeSelect_takes (e : Ev) (w : Word32) :
    let pend := selected e.st.plan (bankOfField (fieldOf w 0 2))
    (e.takeSelect w).st = { e.st with plan := { e.st.plan with pendingBank := pend } } ∧
      (pend ≠ e.st.plan.pendingBank → .lineStatus ∈ (e.takeSelect w).asked) := by
  unfold Ev.takeSelect
  cases bankOfField (fieldOf w 0 2) with
  | none => exact ⟨rfl, fun hne => absurd rfl hne⟩
  | some k =>
    dsimp only
    rw [select_eq]
    split
    · rename_i hsame
      exact ⟨by rw [Ev.modify_st, select_eq], fun hne => absurd hsame hne⟩
    · exact ⟨by rw [Ev.ask_st, Ev.modify_st, select_eq], fun _ => by simp⟩

/-! ### Operations that leave both shadows -/

/-- Neither bank's shadow has changed. -/
def SameShadows (p q : PlanStore) : Prop := ∀ k, (q.bank k).shadow = (p.bank k).shadow

theorem SameShadows.refl (p : PlanStore) : SameShadows p p := fun _ => rfl

theorem SameShadows.trans {p q r : PlanStore} (h : SameShadows p q) (h' : SameShadows q r) : SameShadows p r :=
  fun k => (h' k).trans (h k)

theorem SameShadows.of_keeps {bs : List Block} {s t : State} (h : Keeps bs s t) (hp : Block.plan ∉ bs := by decide) :
    SameShadows s.plan t.plan := by
  rw [h.plan hp]
  exact SameShadows.refl _

theorem CountsOnly.sameShadows {p q : PlanStore} (h : CountsOnly p q) : SameShadows p q := by
  unfold CountsOnly at h
  intro k
  rw [h]
  cases k <;> rfl

theorem sameShadows_takeWord (e : Ev) (k : CtrlWord) (w : Word32) :
    SameShadows e.st.plan (e.takeWord k w).st.plan := by
  have hk := keeps_takeWord_touches e k w
  cases k with
  | planSelect =>
    show SameShadows _ (e.takeSelect w).st.plan
    rw [(takeSelect_takes e w).1]
    exact fun k => by cases k <;> rfl
  | headCommand h => exact SameShadows.of_keeps (bs := [.head, .note]) hk
  | notice | noticeEnable | tallyRequest | lineStatus | tallyStatus | lineRestart | ovrProducer | ovrConsumer
    | decProducer | decConsumer | trapClear | headStatus | sourceStatus | unlisted => exact SameShadows.of_keeps hk

theorem sameShadows_takeWords (ws : List (CtrlWord × Word32)) (e : Ev) :
    SameShadows e.st.plan (e.takeWords ws).st.plan := by
  induction ws generalizing e with
  | nil => exact SameShadows.refl _
  | cons p ws ih => exact (sameShadows_takeWord e p.1 p.2).trans (ih _)

/-! ### The grants of the forwarded side -/

/-- The aperture of a plan bank. -/
def planAperture : Bank → Aperture
  | .a => .planA
  | .b => .planB

/-- A write forwarded into another aperture leaves the bank's shadow. -/
theorem forwardWrite_shadow {ap : Aperture} {k : Bank} (hap : ap ≠ planAperture k) (e : Ev) (x : Txn) (off : Nat) :
    ((e.forwardWrite x ap off).st.plan.bank k).shadow = (e.st.plan.bank k).shadow := by
  cases ap with
  | ctrl => exact sameShadows_takeWords _ e k
  | planA =>
    cases k with
    | a => exact absurd rfl hap
    | b => rfl
  | planB =>
    cases k with
    | a => rfl
    | b => exact absurd rfl hap
  | scan | ovr | dec | tally => rfl

/-- A grant that does not forward its write by step 6 leaves the plan store. -/
theorem keeps_takeCourse_elsewhere (s : State) (x : Txn) {c : Machine.Course} (hc : ∀ ap off, c ≠ .forward ap off) :
    Keeps [.path, .src, .note, .asm, .lug] s ((Ev.start s).takeCourse x c).st := by
  have hstart : Keeps [.path, .src, .note, .asm, .lug] s (Ev.start s).st := Keeps.start
  have haccept := hstart.then (keeps_acceptWrite _ x.source)
  cases c with
  | asIssued => exact hstart.then (keeps_issue _ _ _ _ _ _)
  | bootRetry | refusedTrapped | retry => exact hstart.then (keeps_settle _ _)
  | refused => exact (hstart.then (keeps_trap _ _ _)).then (keeps_settle _ _)
  | refusedExhausted => exact (hstart.then (keeps_exhaust _ _)).then (keeps_settle _ _)
  | forward ap off => exact absurd rfl (hc ap off)
  | partialSlice => exact (haccept.then (keeps_raise _ _)).then (keeps_issue _ _ _ _ _ _)
  | passBy => exact haccept.then (keeps_issue _ _ _ _ _ _)
  | intake => exact (haccept.then (keeps_intake _ _ _)).then (keeps_issue _ _ _ _ _ _)
  | giveUp =>
    exact (((haccept.then (keeps_countBadSlice _ _ _)).then (keeps_raise _ _)).then (keeps_exhaust _ _)).then
      (keeps_issue _ _ _ _ _ _)

theorem sliceCourse_ne_forward (s : State) (x : Txn) (off : Nat) (ap : Aperture) (o : Nat) :
    sliceCourse s x off ≠ .forward ap o := by
  by_cases hw : wholeSlice off x = true
  · by_cases hs : Serving (ringOf s.path.scanSlots off) s
    · rw [sliceCourse_serves hw hs]
      split
      · nofun
      · split <;> nofun
    · rw [sliceCourse_passBy hw hs]
      nofun
  · rw [sliceCourse_partial hw]
    nofun

/-- R169, step 6: a write is forwarded into the aperture it decodes to, and into a plan bank only while that is not
bound. -/
theorem decideWrite_forward {s : State} {x : Txn} {ap ap' : Aperture} {off o : Nat}
    (hd : decideWrite s x ap off = .forward ap' o) :
    ap' = ap ∧ ∀ k, ap = planAperture k → s.plan.bound k = false := by
  unfold decideWrite at hd
  split at hd
  · cases hd
  · split at hd
    · cases hd
    · cases hd
    · cases ap with
      | planA | planB =>
        dsimp only at hd
        split at hd
        · cases hd
        · rename_i hb
          cases hd
          refine ⟨rfl, fun k hk => ?_⟩
          cases k <;> cases hk
          exact eq_false_of_ne_true hb
      | ctrl =>
        dsimp only at hd
        split at hd
        · split at hd <;> cases hd
        · cases hd
          exact ⟨rfl, fun k hk => by cases k <;> cases hk⟩
      | ovr =>
        cases hd
        exact ⟨rfl, fun k hk => by cases k <;> cases hk⟩
      | scan => exact absurd hd (sliceCourse_ne_forward _ _ _ _ _)
      | dec | tally => cases hd

/-- R94: a bound bank's write is not forwarded. -/
theorem courseOf_bound {s : State} {k : Bank} (hb : s.plan.bound k = true) (x : Txn) (off : Nat) :
    courseOf s x ≠ .forward (planAperture k) off := by
  intro hc
  unfold courseOf at hc
  split at hc
  · cases hc
  · split at hc
    · cases hc
    · cases hc
    · cases hc
    · split at hc
      · cases hc
      · obtain ⟨hap, hfree⟩ := decideWrite_forward hc
        rw [hfree k hap.symm] at hb
        cases hb

theorem grant_shadow {s : State} {k : Bank} (hb : s.plan.bound k = true) (x : Txn) :
    ((grant s x).plan.bank k).shadow = (s.plan.bank k).shadow := by
  have hbound := courseOf_bound hb x
  show (((Ev.start s).takeCourse x (courseOf s x)).st.plan.bank k).shadow = _
  generalize courseOf s x = c at hbound ⊢
  by_cases hc : ∃ ap off, c = .forward ap off
  · obtain ⟨ap, off, rfl⟩ := hc
    refine (forwardWrite_shadow (fun hap => hbound off (hap ▸ rfl)) (accepted s x) x off).trans ?_
    rw [accepted_st]
  · exact SameShadows.of_keeps (keeps_takeCourse_elsewhere s x fun ap off hf => hc ⟨ap, off, hf⟩) (by decide) k

/-! ### The LUG event and the lug table's restart (R98, R99, R104) -/

theorem sameShadows_initSlot (e : Ev) : SameShadows e.st.plan e.initSlot.st.plan := by
  cases ha : e.st.plan.active with
  | none => rw [initSlot_none ha]; exact SameShadows.refl _
  | some k =>
    rw [initSlot_some ha, (keeps_closeTest _ _).plan]
    exact PlanStore.bind_shadow e.st.plan k

theorem sameShadows_openBoard (e : Ev) : SameShadows e.st.plan e.openBoard.st.plan := by
  have hswitch : SameShadows e.st.plan e.switchPlan.st.plan := by
    rw [switchPlan_plan]
    exact fun k => by cases k <;> rfl
  have hadmit : SameShadows e.switchPlan.st.plan e.switchPlan.admitHeads.st.plan :=
    SameShadows.of_keeps (keeps_admitHeads _)
  unfold Ev.openBoard
  exact (hswitch.trans hadmit).trans (sameShadows_initSlot _)

theorem sameShadows_afterLug (s : State) : SameShadows s.plan (afterLug s).plan := by
  rw [afterLug_plan]
  exact (beforeOpen_plan s).sameShadows.trans (sameShadows_openBoard _)

theorem sameShadows_releaseSlot (e : Ev) (i : Fin 32) : SameShadows e.st.plan (e.releaseSlot i).st.plan := by
  unfold Ev.releaseSlot
  split
  · exact SameShadows.refl _
  · exact PlanStore.unbind_shadow e.st.plan e.st.lug.boards[i].bank

theorem sameShadows_releaseSlots (l : List (Fin 32)) (e : Ev) :
    SameShadows e.st.plan (l.foldl Ev.releaseSlot e).st.plan := by
  induction l generalizing e with
  | nil => exact SameShadows.refl _
  | cons i l ih => exact (sameShadows_releaseSlot e i).trans (ih _)

theorem sameShadows_released (s : State) : SameShadows s.plan (released s).st.plan := by
  unfold released
  exact sameShadows_releaseSlots _ _

/-! ### Every command -/

/-- The commands that may change the plan store. -/
theorem changes_plan {c : Instr} (hc : .plan ∈ footprint c) :
    c = .deviceReset ∨ c = .lugEvent ∨ c = .lugTableRestart ∨ ∃ row, grantRow c = some row := by
  revert hc
  cases c <;> simp [footprint, grantRow]

theorem sameShadows_lugEvent {s t : State} (hx : exec .lugEvent s = .next t) : SameShadows s.plan t.plan := by
  cases hr : s.running with
  | true =>
    rw [exec_lugEvent hr] at hx
    cases hx
    exact sameShadows_afterLug s
  | false =>
    rw [exec_lugEvent_idle hr] at hx
    cases hx
    exact SameShadows.refl _

theorem sameShadows_lugTableRestart {s t : State} (hx : exec .lugTableRestart s = .next t) :
    SameShadows s.plan t.plan := by
  by_cases hc : s.running = true ∧ 0 < s.restart.lug
  · rw [exec_lugTableRestart hc.1 hc.2] at hx
    cases hx
    split <;> exact sameShadows_released s
  · rw [exec_lugTableRestart_idle hc] at hx
    cases hx
    exact SameShadows.refl _

/-- Settles O59: a grant copies only into a bank that is not bound; the LUG event and the lug table's restart change of the
plan store its counts and its two bank fields; every other command leaves it. -/
theorem boundShadowKept : Obligations.BoundShadowKept := by
  unfold Obligations.BoundShadowKept
  intro c s t k hc hb hx
  by_cases hplan : .plan ∈ footprint c
  · rcases changes_plan hplan with rfl | rfl | rfl | ⟨row, hrow⟩
    · exact absurd rfl hc
    · exact sameShadows_lugEvent hx k
    · exact sameShadows_lugTableRestart hx k
    · rw [exec_grantRow hrow] at hx
      rcases grantIf_cases row s with ⟨x, -, -, hg⟩ | hg <;> (rw [hg] at hx; cases hx)
      · exact grant_shadow hb x
      · rfl
  · exact SameShadows.of_keeps (keeps_exec hx) hplan k

end Sys2Proof.Proofs
end

section
/-! The forwarded writes of the plan store: PLAN_BANK_WRITE copies the lanes written into the bank's shadow (R92, R94), and
PLAN_SELECT names the pending bank (R96). -/

namespace Sys2Proof.Proofs

open Sys2Proof Sys2Proof.Machine Sys2Proof.Laws

/-! ### The lanes of a write, copied into a shadow (R92) -/

theorem copyLanes_get (ls : List Lane) (sh : Shadow) (off : Nat) (n : Fin 208) : (copyLanes sh off ls)[n] =
    if off ≤ n.val ∧ (ls[n.val - off]?.map (·.strobe)).getD false = true then (ls[n.val - off]?.map (·.data)).getD 0
    else sh[n] := by
  induction ls generalizing sh off with
  | nil => rw [if_neg (by simp)]; rfl
  | cons l ls ih =>
    rw [copyLanes, ih]
    rcases eq_or_ne n.val off with rfl | hne
    · rw [if_neg fun h => by omega, Nat.sub_self]
      cases hs : l.strobe with
      | true => simp [hs]
      | false => simp [hs]
    · have hother : (if l.strobe = true then sh.setIfInBounds off l.data else sh)[n] = sh[n] := by
        split
        · exact Vector.getElem_setIfInBounds_ne n.isLt hne.symm
        · rfl
      rw [hother]
      by_cases hle : off ≤ n.val
      · have hnext : n.val - off = n.val - (off + 1) + 1 := by omega
        rw [hnext, List.getElem?_cons_succ]
        exact if_congr (and_congr_left' (by omega)) rfl rfl
      · rw [if_neg fun h => by omega, if_neg fun h => hle h.1]

/-! ### PLAN_BANK_WRITE (R92, R94) -/

section BankWrite
variable {s : State} {x : Txn} {k : Bank} {off : Nat}

/-- The plan store once the write's lanes have been copied into bank `k`. -/
def copied (s : State) (x : Txn) (k : Bank) (off : Nat) : PlanStore :=
  s.plan.setBank k { s.plan.bank k with shadow := copyLanes (s.plan.bank k).shadow off x.lanes }

/-- A source that is in the bank's mask and not trapped writes the bank while it is not bound. -/
theorem decideWrite_planBank (hw : wholeWords x.lanes = true) (ht : s.src.ctx[x.source].trapped = false)
    (hm : s.src.barred (planAperture k) x.source = false) (hb : s.plan.bound k = false) :
    decideWrite s x (planAperture k) off = .forward (planAperture k) off := by
  have hpass : permission s x (planAperture k) off = .pass := by
    cases k <;> exact permission_pass (words := []) rfl ht (by decide) rfl hm nofun rfl
  unfold decideWrite
  rw [hw, hpass]
  cases k <;> exact if_neg (Bool.eq_false_iff.1 hb)

/-- The row's grant: the write is counted, copied and issued. -/
theorem exec_planBankWrite (hg : s.grantsInto x (planAperture k) off = true)
    (hd : decideWrite s x (planAperture k) off = .forward (planAperture k) off) : exec .planBankWrite s =
      .next (((accepted s x).copyPlan k off x.lanes).issue x x.lanes false false false).finishPath := by
  have hrow : isPlanBankWrite s x = true := by
    unfold isPlanBankWrite
    rw [writeInto_of_grantsInto hg]
    cases k <;> rfl
  refine (grantIf_taken ((grantsInto_iff _ _ _ _).1 hg).2.1 hrow).trans ?_
  unfold grant
  rw [courseOf_write hg, hd]
  cases k <;> rfl

/-- What the grant leaves. -/
theorem planBankWrite_left (s : State) (x : Txn) (k : Bank) (off : Nat) :
    let t := (((accepted s x).copyPlan k off x.lanes).issue x x.lanes false false false).finishPath
    s.path.Issued t.path (downAs x x.lanes false false) false ∧
      t = { s with path := t.path, src := s.src.counted x.source, plan := copied s x k off } := by
  have hst : ((accepted s x).copyPlan k off x.lanes).st =
      { s with src := s.src.counted x.source, plan := copied s x k off } := by
    unfold Ev.copyPlan
    rw [Ev.modify_st, accepted_st]
    rfl
  obtain ⟨hissued, hframe⟩ := issue_grant (s := s) (e := (accepted s x).copyPlan k off x.lanes) (x := x) (ls := x.lanes)
    (g := false) (b := false) (r := false) (by rw [hst]) (accepted_returned s x)
  exact ⟨hissued, hframe.trans (by rw [hst])⟩

theorem copied_shadow (s : State) (x : Txn) (k : Bank) (off : Nat) :
    ((copied s x k off).bank k).shadow = copyLanes (s.plan.bank k).shadow off x.lanes := by
  unfold copied
  rw [PlanStore.bank_setBank_same]

/-- The row as the claim states it, by the bank's aperture. -/
theorem planBank_written (hg : s.grantsInto x (planAperture k) off = true) (hw : wholeWords x.lanes = true)
    (ht : s.src.ctx[x.source].trapped = false) (hm : s.src.barred (planAperture k) x.source = false)
    (hb : s.plan.bound k = false) :
    ∃ t, exec .planBankWrite s = .next t ∧ s.path.Issued t.path (downAs x x.lanes false false) false ∧
      t = { s with path := t.path, src := s.src.counted x.source, plan := t.plan } ∧
      t.plan = s.plan.setBank k { s.plan.bank k with shadow := (t.plan.bank k).shadow } ∧
      ∀ n : Fin 208, (t.plan.bank k).shadow[n] =
        if off ≤ n.val ∧ (x.lanes[n.val - off]?.map (·.strobe)).getD false = true then
          (x.lanes[n.val - off]?.map (·.data)).getD 0
        else (s.plan.bank k).shadow[n] := by
  obtain ⟨hissued, hframe⟩ := planBankWrite_left s x k off
  refine ⟨_, exec_planBankWrite hg (decideWrite_planBank hw ht hm hb), hissued, ?_⟩
  generalize (((accepted s x).copyPlan k off x.lanes).issue x x.lanes false false false).finishPath = t at hframe ⊢
  have hplan : t.plan = copied s x k off := congrArg State.plan hframe
  rw [hplan, copied_shadow]
  exact ⟨hframe, rfl, copyLanes_get _ _ _⟩

end BankWrite

/-- Settles O42, for each bank by its aperture and its mask. -/
theorem planBankWritten : Obligations.PlanBankWritten := by
  unfold Obligations.PlanBankWritten
  intro s x k off hg hw ht hm hb
  have hap : s.grantsInto x (planAperture k) off = true := by cases k <;> exact hg
  have hin : s.src.barred (planAperture k) x.source = false := by
    cases k <;> simpa [planAperture, SourceTable.barred, SourceTable.mask] using hm
  exact planBank_written hap hw ht hin hb

/-! ### PLAN_SELECT (R96) -/

/-- The bank that PLAN_SELECT names: 1 is A, 2 is B, 0 and 3 are none. -/
theorem bankOfField_low (w : Word32) : bankOfField (fieldOf w 0 2) =
    if w.toNat % 4 = 1 then some .a else if w.toNat % 4 = 2 then some .b else none := by
  have hfield : fieldOf w 0 2 = w.toNat % 4 := by simp [fieldOf]
  rw [hfield]
  generalize w.toNat % 4 = n
  match n with
  | 0 | 1 | 2 => rfl
  | n + 3 => rw [if_neg (by omega), if_neg (by omega)]; rfl

/-- A word other than PLAN_SELECT leaves the plan store. -/
theorem takeWords_plan {ws : List (CtrlWord × Word32)} (hn : ∀ p ∈ ws, p.1 ≠ .planSelect) (e : Ev) :
    (e.takeWords ws).st.plan = e.st.plan := by
  induction ws generalizing e with
  | nil => rfl
  | cons p ws ih =>
    have hp := hn p List.mem_cons_self
    refine (ih (fun q hq => hn q (List.mem_cons_of_mem _ hq)) _).trans ((keeps_takeWord_touches e p.1 p.2).plan ?_)
    revert hp
    cases p.1 <;> simp [wordTouches]

section Select
variable {s : State} {x : Txn} {off : Nat} {w : Word32}

/-- What the write leaves of the plan store, and what it asks for, whatever words it writes besides. -/
theorem planSelect_within (ho : writesOnce off x .planSelect w = true) :
    let pend := selected s.plan (bankOfField (fieldOf w 0 2))
    let t := ((accepted s x).forwardCtrl x off).finishPath
    t.plan = { s.plan with pendingBank := pend } ∧ (pend ≠ s.plan.pendingBank → t.path.asks .lineStatus = true) := by
  obtain ⟨l, r, hs, hl, hr⟩ := ctrlWords_split ho
  have hsplit : (accepted s x).takeWords (ctrlWords off x) =
      (((accepted s x).takeWords l).takeSelect w).takeWords r := by
    rw [hs, takeWords_append]; rfl
  have hbefore : ((accepted s x).takeWords l).st.plan = s.plan := (takeWords_plan hl _).trans (by rw [accepted_st])
  obtain ⟨hst, hasked⟩ := takeSelect_takes ((accepted s x).takeWords l) w
  rw [hbefore] at hst hasked
  unfold Ev.forwardCtrl
  dsimp only
  rw [hsplit]
  refine ⟨?_, fun hne => ?_⟩
  · rw [Ev.finishPath_plan, Ev.issue_plan, takeWords_plan hr, hst]
  · exact Ev.finishPath_asks ((takeWords_asked r _).1 _ (hasked hne)) nofun nofun

/-- PLAN_SELECT written alone is taken, and the write is issued as it came (R171). -/
theorem forwardCtrl_planSelect (ho : writesAlone off x .planSelect w = true) (e : Ev) :
    e.forwardCtrl x off = (e.takeSelect w).issue x x.lanes false false false := by
  refine (forwardCtrl_of_writesAlone ho e).trans ?_
  rw [substituteLanes_of_writesAlone ho rfl]
  rfl

/-- The write that writes the word alone: it reaches memory as written. -/
theorem planSelect_alone (ho : writesAlone off x .planSelect w = true) :
    let t := ((accepted s x).forwardCtrl x off).finishPath
    s.path.Issued t.path (downAs x x.lanes false false) false ∧
      t = { s with path := t.path, src := s.src.counted x.source, plan := t.plan } := by
  obtain ⟨hst, -⟩ := takeSelect_takes (accepted s x) w
  have hret := (grows_takeSelect (accepted s x) w).returned.trans (accepted_returned s x)
  rw [accepted_st] at hst
  rw [forwardCtrl_planSelect ho]
  generalize (accepted s x).takeSelect w = e at hst hret ⊢
  obtain ⟨hissued, hframe⟩ := issue_grant (s := s) (e := e) (x := x) (ls := x.lanes) (g := false)
    (b := false) (r := false) (by rw [hst]) hret
  refine ⟨hissued, hframe.trans ?_⟩
  rw [Ev.finishPath_plan, Ev.issue_plan, hst]

end Select

/-- Settles O43, by Table 5-2 within the write's other words. -/
theorem planSelected : Obligations.PlanSelected := by
  unfold Obligations.PlanSelected
  intro s x off w hf ho named pend
  have hnamed : bankOfField (fieldOf w 0 2) = named := bankOfField_low w
  obtain ⟨hplan, hasks⟩ := planSelect_within (s := s) ho
  rw [hnamed] at hplan hasks
  exact ⟨_, grantIf_ctrl hf ho rfl, hplan, hasks, planSelect_alone⟩

end Sys2Proof.Proofs
end

section
/-! The override set (R114 to R117) and its judgement at the end of a solve (R120). -/

namespace Sys2Proof.Proofs

open Sys2Proof Sys2Proof.Machine Sys2Proof.Laws

/-! ### What an entry does to a set (R116) -/

section Entries
variable {l : List Override} {n : Entry}

theorem setAfter_clear (h : n.asks = none) : setAfter l n = [] := by
  unfold setAfter
  rw [h]

theorem setAfter_force {w : OverrideWhat} (h : n.asks = some w) :
    setAfter l n = forceOverride l { what := w, station := n.station } := by
  unfold setAfter
  rw [h]

theorem asks_clear (h : n.kind = 1) : n.asks = none := by
  unfold Entry.asks
  rw [h]
  rfl

theorem asks_grade {g : Grade} (h : n.kind = 2) (hg : n.grade = g.code) : n.asks = some (.grade g) := by
  unfold Entry.asks
  rw [h, hg, gradeOfCode_code]
  rfl

theorem asks_trim (h : n.kind = 3) : n.asks = some (.trim n.first n.last) := by
  unfold Entry.asks
  rw [h]
  rfl

theorem asks_reman (h : n.kind = 4) : n.asks = some (.disposition .reman) := by
  unfold Entry.asks
  rw [h]
  rfl

theorem asks_trash (h : n.kind = 5) : n.asks = some (.disposition .trash) := by
  unfold Entry.asks
  rw [h]
  rfl

end Entries

/-- The part of a set that a grade or trim override `w` leaves in front of itself: neither its own kind nor a disposition. -/
def keptBefore (w : OverrideWhat) (l : List Override) : List Override :=
  withoutKind (.disposition .reman) (withoutKind w l)

theorem keptBefore_sublist (w : OverrideWhat) (l : List Override) : (keptBefore w l).Sublist l :=
  (withoutKind_sublist _ _).trans (withoutKind_sublist _ _)

theorem keptBefore_grade (g : Grade) (l : List Override) : gradeOf (keptBefore (.grade g) l) = none ∧
    dispositionOf (keptBefore (.grade g) l) = none ∧ trimOf (keptBefore (.grade g) l) = trimOf l := by
  obtain ⟨hgrade, htrim, -⟩ := withoutKind_parts (.grade g) l
  obtain ⟨hgrade', htrim', hdisp'⟩ := withoutKind_parts (.disposition .reman) (withoutKind (.grade g) l)
  exact ⟨hgrade'.trans hgrade, hdisp', htrim'.trans htrim⟩

theorem keptBefore_trim (a b : Nat) (l : List Override) : trimOf (keptBefore (.trim a b) l) = none ∧
    dispositionOf (keptBefore (.trim a b) l) = none ∧ gradeOf (keptBefore (.trim a b) l) = gradeOf l := by
  obtain ⟨hgrade, htrim, -⟩ := withoutKind_parts (.trim a b) l
  obtain ⟨hgrade', htrim', hdisp'⟩ := withoutKind_parts (.disposition .reman) (withoutKind (.trim a b) l)
  exact ⟨htrim'.trans htrim, hdisp', hgrade'.trans hgrade⟩

/-- Settles O14, kind by kind. -/
theorem overrideSetChanges : Obligations.OverrideSetChanges := by
  unfold Obligations.OverrideSetChanges
  intro l n g _
  refine ⟨fun hk => setAfter_clear (asks_clear hk), fun hk hg => ?_, fun hk => ?_,
    fun hk => setAfter_force (asks_reman hk), fun hk => setAfter_force (asks_trash hk)⟩
  · exact ⟨_, setAfter_force (asks_grade hk hg), keptBefore_sublist _ l, keptBefore_grade g l⟩
  · exact ⟨_, setAfter_force (asks_trim hk), keptBefore_sublist _ l, keptBefore_trim _ _ l⟩

/-! ### The standing decision (R117) -/

section Standing
variable {p : Shadow} {classes : Vector (Option SegMark) 12} {sol : Solution} {l : List Override}

theorem standingDecision_nil : standingDecision p classes sol [] = sol := rfl

theorem standingDecision_disposition {d : Disposition} (h : dispositionOf l = some d) :
    standingDecision p classes sol l = wholeSolution p classes d := by
  unfold standingDecision
  rw [h]

/-- With a run and a grade to stand by, the piece is cut from that run at that grade. -/
theorem standingDecision_piece {r : Nat × Nat} {g : Grade} (hl : l ≠ []) (hd : dispositionOf l = none)
    (hr : (trimOf l).or sol.run = some r) (hg : (gradeOf l).or (runGrade classes r) = some g) :
    standingDecision p classes sol l = pieceSolution p classes g r := by
  unfold standingDecision
  rw [hd]
  dsimp only
  rw [if_neg hl, hr]
  dsimp only
  rw [hg]

end Standing

/-- Settles O15: no override, a disposition, and otherwise the run and the grade of the override or the solution. (The bare
name is the model's function.) -/
theorem standingDecision_formed : Obligations.StandingDecision := by
  unfold Obligations.StandingDecision
  intro p classes sol l hlen
  refine ⟨fun hl => by rw [hl, standingDecision_nil], fun d hd => ?_, fun a b g hl hd hrun hgrade => ?_⟩
  · rw [standingDecision_disposition hd, hlen]
    rfl
  · rw [standingDecision_piece hl hd (Option.or_eq_some_iff.2 hrun)
      (Option.or_eq_some_iff.2 (hgrade.imp_right fun h => ⟨h.1, runGrade_iff.2 h.2⟩)), hlen]
    rfl

/-! ### The end-of-solve check (R115, R120) -/

section Judge
variable (classes : Vector (Option SegMark) 12) (sol : Option Solution) (l : List Override)

/-- R115: the set's trim override stands on an EMPTY segment, or on a REJECT segment without a grade override. -/
def trimFails : Bool :=
  match trimOf l with
  | some r => runHasEmpty classes r || (runHasReject classes r && (gradeOf l).isNone)
  | none => false

/-- R115: the set's grade override has no piece to grade. -/
def gradeFails : Bool := (gradeOf l).isSome && (trimOf l).isNone && !hasPiece sol

/-- A set is valid when neither of its overrides fails. -/
theorem validSet_iff : validSet classes sol l = true ↔ trimFails classes l = false ∧ gradeFails sol l = false := by
  unfold validSet trimFails gradeFails
  cases trimOf l <;> cases gradeOf l <;> simp

/-- Steps 1 and 2 of R120 together. -/
def trimJudged : List Override := judgeReject classes (judgeEmpty classes l)

theorem judgeEmpty_eq {r : Nat × Nat} (h : trimOf l = some r) :
    judgeEmpty classes l = if runHasEmpty classes r then withoutKind (.trim 0 0) l else l := by
  unfold judgeEmpty
  rw [h]

theorem judgeReject_eq {r : Nat × Nat} (h : trimOf l = some r) : judgeReject classes l =
    if runHasReject classes r && (gradeOf l).isNone then withoutKind (.trim 0 0) l else l := by
  unfold judgeReject
  rw [h]

/-- Without a trim override the first two steps remove nothing. -/
theorem trimSteps_untrimmed (h : trimOf l = none) : judgeEmpty classes l = l ∧ judgeReject classes l = l := by
  unfold judgeEmpty judgeReject
  rw [h]
  exact ⟨rfl, rfl⟩

theorem trimFails_trimmed {r : Nat × Nat} (h : trimOf l = some r) :
    trimFails classes l = (runHasEmpty classes r || (runHasReject classes r && (gradeOf l).isNone)) := by
  unfold trimFails
  rw [h]

theorem trimFails_untrimmed (h : trimOf l = none) : trimFails classes l = false := by
  unfold trimFails
  rw [h]

theorem trimJudged_eq : trimJudged classes l = if trimFails classes l then withoutKind (.trim 0 0) l else l := by
  unfold trimJudged
  cases ht : trimOf l with
  | none =>
    obtain ⟨hempty, hreject⟩ := trimSteps_untrimmed classes l ht
    rw [hempty, hreject, trimFails_untrimmed classes l ht, if_neg Bool.false_ne_true]
  | some r =>
    rw [judgeEmpty_eq classes l ht, trimFails_trimmed classes l ht]
    cases runHasEmpty classes r with
    | true =>
      rw [Bool.true_or, if_pos rfl]
      exact (trimSteps_untrimmed classes _ (withoutKind_parts (.trim 0 0) l).2.1).2
    | false =>
      rw [Bool.false_or, if_neg Bool.false_ne_true]
      exact judgeReject_eq classes l ht

theorem trimJudged_parts : gradeOf (trimJudged classes l) = gradeOf l ∧
    trimOf (trimJudged classes l) = (if trimFails classes l then none else trimOf l) ∧
    dispositionOf (trimJudged classes l) = dispositionOf l := by
  rw [trimJudged_eq]
  split
  · exact withoutKind_parts (.trim 0 0) l
  · exact ⟨rfl, rfl, rfl⟩

theorem judgeGrade_parts :
    gradeOf (judgeGrade sol l) = (if trimOf l = none ∧ hasPiece sol = false then none else gradeOf l) ∧
    trimOf (judgeGrade sol l) = trimOf l ∧ dispositionOf (judgeGrade sol l) = dispositionOf l := by
  unfold judgeGrade
  split
  · rename_i h
    obtain ⟨hgrade, htrim, hdisp⟩ := withoutKind_parts (.grade .g1) l
    simp only [Bool.and_eq_true, Option.isNone_iff_eq_none, Bool.not_eq_true'] at h
    exact ⟨hgrade.trans (if_pos ⟨h.1.2, h.2⟩).symm, htrim, hdisp⟩
  · rename_i h
    refine ⟨?_, rfl, rfl⟩
    split
    · rename_i hc
      simpa [hc] using h
    · rfl

/-- What the check leaves of each kind of override. -/
theorem judged_parts :
    trimOf (judged classes sol l) = (if trimFails classes l then none else trimOf l) ∧
    gradeOf (judged classes sol l) =
      (if trimOf (judged classes sol l) = none ∧ hasPiece sol = false then none else gradeOf l) ∧
    dispositionOf (judged classes sol l) = dispositionOf l := by
  obtain ⟨hgrade, htrim, hdisp⟩ := trimJudged_parts classes l
  obtain ⟨hgrade', htrim', hdisp'⟩ := judgeGrade_parts sol (trimJudged classes l)
  rw [← htrim', hgrade] at hgrade'
  exact ⟨htrim'.trans htrim, hgrade', hdisp'.trans hdisp⟩

theorem judged_sublist : (judged classes sol l).Sublist l := by
  have htrim : (trimJudged classes l).Sublist l := by
    rw [trimJudged_eq]
    split
    · exact withoutKind_sublist _ _
    · exact List.Sublist.refl _
  refine List.Sublist.trans ?_ htrim
  show (judgeGrade sol (trimJudged classes l)).Sublist _
  unfold judgeGrade
  split
  · exact withoutKind_sublist _ _
  · exact List.Sublist.refl _

/-- A valid set is left whole. -/
theorem judged_of_valid (h : validSet classes sol l = true) : judged classes sol l = l := by
  obtain ⟨htrim, hgrade⟩ := (validSet_iff _ _ _).1 h
  have hkept : trimJudged classes l = l := by rw [trimJudged_eq, htrim]; rfl
  show judgeGrade sol (trimJudged classes l) = l
  rw [hkept]
  exact if_neg (Bool.eq_false_iff.1 hgrade)

/-- The set left is valid. -/
theorem judged_valid : validSet classes sol (judged classes sol l) = true := by
  obtain ⟨htrim, hgrade, -⟩ := judged_parts classes sol l
  rw [validSet_iff]
  unfold gradeFails
  generalize judged classes sol l = m at htrim hgrade
  constructor
  · cases ht : trimOf m with
    | none => exact trimFails_untrimmed classes m ht
    | some r =>
      have hkept : gradeOf m = gradeOf l := by rw [hgrade, ht]; rfl
      rw [ht] at htrim
      split at htrim
      · cases htrim
      · rename_i hf
        rw [trimFails_trimmed classes l htrim.symm] at hf
        rw [trimFails_trimmed classes m ht, hkept]
        exact Bool.eq_false_iff.2 hf
  · rw [hgrade]
    cases trimOf m <;> cases hasPiece sol <;> simp

end Judge

theorem trimFails_iff {classes : Vector (Option SegMark) 12} {l : List Override} {r : Nat × Nat} (h : trimOf l = some r) :
    trimFails classes l = true ↔
      runHasEmpty classes r = true ∨ (runHasReject classes r = true ∧ gradeOf l = none) := by
  simp [trimFails_trimmed classes l h]

/-- Settles O16, from what the check leaves of each kind. -/
theorem endOfSolveCheck : Obligations.EndOfSolveCheck := by
  unfold Obligations.EndOfSolveCheck
  intro b c
  have hset : c.overrides = judged b.classes b.solution b.overrides := rfl
  have hsub := judged_sublist b.classes b.solution b.overrides
  obtain ⟨htrim, hgrade, hdisp⟩ := judged_parts b.classes b.solution b.overrides
  have hdropped : c.flags.overrideDropped = (b.flags.overrideDropped ||
      decide (c.overrides.length < b.overrides.length)) := rfl
  have hoverridden : c.flags.overridden = (b.flags.overridden || !c.overrides.isEmpty) := rfl
  have hstation : c.station = (match c.overrides.getLast? with
    | some o => some o.station
    | none => b.station) := rfl
  refine ⟨rfl, hsub, judged_valid _ _ _, fun r hr => ?_, hgrade, hdisp, judged_of_valid _ _ _, ?_, ?_, fun o ho => ?_,
    fun hnil => ?_⟩
  · rw [hset, htrim, hr]
    simp only [trimFails_iff hr]
  · have hlt : c.overrides.length < b.overrides.length ↔ c.overrides ≠ b.overrides :=
      ⟨fun h hc => absurd (congrArg List.length hc) (Nat.ne_of_lt h), fun h =>
        lt_of_le_of_ne hsub.length_le fun hc => h (hsub.eq_of_length hc)⟩
    rw [hdropped, decide_eq_decide.2 hlt]
  · rw [hoverridden]
    cases c.overrides <;> rfl
  · rw [hstation, ho]
  · rw [hstation, hnil]
    rfl

end Sys2Proof.Proofs
end

section
/-! OVERRIDE_ENTRY_TAKE (R109, R112, R113, R118, R119): the status an entry is given and the board it changes. -/

namespace Sys2Proof.Proofs

open Sys2Proof Sys2Proof.Machine Sys2Proof.Laws

/-! ### The entry against the lug table (R112, R113) -/

section Entry
variable {e : Ev} {data : Option (List Byte)}

/-- The fetch brought an entry, and a well-formed one (R112). -/
def Usable (data : Option (List Byte)) : Prop := data ≠ none ∧ (entryOf (data.getD [])).malformed = false

theorem takeEntry_unusable (h : ¬ Usable data) : takeEntry e data = (e, .invalid) := by
  cases data with
  | none => rfl
  | some bs => exact if_pos (Bool.not_eq_false _ |>.mp fun hm => h ⟨nofun, hm⟩)

theorem takeEntry_usable (h : Usable data) : takeEntry e data =
    match e.st.lookup (entryOf (data.getD [])).lug with
    | none => (e, .noBoard)
    | some i => (e.changeBoard i fun b => (takeAgainst b (entryOf (data.getD []))).1,
        (takeAgainst e.st.lug.boards[i] (entryOf (data.getD []))).2) := by
  obtain ⟨hne, hm⟩ := h
  cases data with
  | none => exact absurd rfl hne
  | some bs => exact if_neg (by rw [show (entryOf bs).malformed = false from hm]; decide)

theorem takeEntry_noBoard (h : Usable data) (hf : e.st.lookup (entryOf (data.getD [])).lug = none) :
    takeEntry e data = (e, .noBoard) := by
  rw [takeEntry_usable h, hf]

theorem takeEntry_found {i : Fin 32} (h : Usable data) (hf : e.st.lookup (entryOf (data.getD [])).lug = some i) :
    takeEntry e data = (e.changeBoard i fun b => (takeAgainst b (entryOf (data.getD []))).1,
      (takeAgainst e.st.lug.boards[i] (entryOf (data.getD []))).2) := by
  rw [takeEntry_usable h, hf]

/-- No board but the one found changes. -/
theorem takeEntry_others {j : Fin 32} (h : ¬ Usable data ∨ e.st.lookup (entryOf (data.getD [])).lug ≠ some j) :
    (takeEntry e data).1.st.lug.boards[j] = e.st.lug.boards[j] := by
  by_cases hu : Usable data
  · cases hf : e.st.lookup (entryOf (data.getD [])).lug with
    | none => rw [takeEntry_noBoard hu hf]
    | some i =>
      have hji : j ≠ i := fun hc => h.elim (absurd hu) fun hne => hne (by rw [hf, hc])
      rw [takeEntry_found hu hf, changeBoard_read, if_neg hji]
  · rw [takeEntry_unusable hu]

/-- The lug table changes in its records alone. -/
theorem takeEntry_sameTable (e : Ev) (data : Option (List Byte)) : SameTable e.st (takeEntry e data).1.st := by
  by_cases hu : Usable data
  · cases hf : e.st.lookup (entryOf (data.getD [])).lug with
    | none => rw [takeEntry_noBoard hu hf]; rfl
    | some i => rw [takeEntry_found hu hf]; rfl
  · rw [takeEntry_unusable hu]; rfl

end Entry

/-! ### The entry against its board (Table 6-1) -/

section Against
variable {b : Board} {n : Entry}

theorem takeAgainst_open (h : b.state = .scanning ∨ b.state = .queued ∨ b.state = .solving) :
    takeAgainst b n = ({ b with overrides := setAfter b.overrides n }, .attached) := by
  unfold takeAgainst
  rcases h with h | h | h <;> rw [h]

theorem takeAgainst_solved (h : b.state = .solved) : takeAgainst b n =
    if validSet b.classes b.solution (setAfter b.overrides n) then
      ({ b with overrides := setAfter b.overrides n, station := some n.station,
                flags := { b.flags with overridden := true } }, .applied)
    else (b, .invalid) := by
  unfold takeAgainst
  rw [h]

theorem takeAgainst_frozen (h : b.state = .committed ∨ b.state = .trimmed) : takeAgainst b n = (b, .tooLate) := by
  unfold takeAgainst
  rcases h with h | h <;> rw [h]

theorem takeAgainst_void (h : b.state = .void) : takeAgainst b n = (b, .noBoard) := by
  unfold takeAgainst
  rw [h]

end Against

/-! ### The batch goes on (R109; log 8) -/

section Batch
variable (e : Ev) (b : Batch) (st : EntryStatus)

/-- The override unit once the entry at the batch's index has its status. -/
def advancedUnit (u : OverrideUnit) (b : Batch) : OverrideUnit :=
  { u with fetched := none, statusOut := u.statusOut + 1, batch := some { b with index := b.index + 1 } }

theorem entryTaken_eq : e.entryTaken b st =
    let given := (e.changeOvr fun u => advancedUnit u b).ask (.ovrStatus (e.st.ovr.slot b.index) st.code)
    if b.index + 1 = b.stop then given else given.ask (.ovrFetch (e.st.ovr.slot (b.index + 1))) := rfl

theorem entryTaken_ovr : (e.entryTaken b st).st.ovr = advancedUnit e.st.ovr b := by
  rw [entryTaken_eq]
  dsimp only
  split <;> rfl

theorem entryTaken_asks_status : .ovrStatus (e.st.ovr.slot b.index) st.code ∈ (e.entryTaken b st).asked := by
  rw [entryTaken_eq]
  dsimp only
  split <;> simp

theorem entryTaken_asks_fetch {b : Batch} (h : b.index + 1 ≠ b.stop) :
    .ovrFetch (e.st.ovr.slot (b.index + 1)) ∈ (e.entryTaken b st).asked := by
  rw [entryTaken_eq]
  dsimp only
  rw [if_neg h]
  simp

end Batch

/-! ### The whole event -/

section Take
variable (s : State) (b : Batch) (data : Option (List Byte))

/-- The event of the take. -/
def entryEvent : Ev := (takeEntry (Ev.start s) data).1.entryTaken b (takeEntry (Ev.start s) data).2

variable {s b data}

theorem exec_overrideEntryTake (hr : s.running = true) (hw : s.path.statusWaiting = false) (hb : s.ovr.batch = some b)
    (hf : s.ovr.fetched = some data) : exec .overrideEntryTake s = .next (entryEvent s b data).finish := by
  show execOverrideEntryTake s = _
  unfold execOverrideEntryTake
  rw [hr, hw, hb, hf]
  rfl

theorem entryEvent_path : (entryEvent s b data).st.path = s.path :=
  (keeps_entryTaken _ _ _).path.trans (keeps_takeEntry _ _).path

theorem entryEvent_returned : (entryEvent s b data).returned = [] :=
  (grows_entryTaken _ _ _).returned.trans (grows_takeEntry _ _).returned

theorem takeEntry_ovr : (takeEntry (Ev.start s) data).1.st.ovr = s.ovr := (keeps_takeEntry _ _).ovr

theorem entryEvent_lug : (entryEvent s b data).st.lug = (takeEntry (Ev.start s) data).1.st.lug :=
  (keeps_entryTaken _ _ _).lug

theorem entryEvent_ovr : (entryEvent s b data).st.ovr = advancedUnit s.ovr b :=
  (entryTaken_ovr _ _ _).trans (by rw [takeEntry_ovr])

/-- R109: the status byte's write is asked for. -/
theorem entryEvent_gives {st : EntryStatus} (h : (takeEntry (Ev.start s) data).2 = st) :
    (entryEvent s b data).finish.path.asks (.ovrStatus (s.ovr.slot b.index) st.code) = true := by
  have hasked := entryTaken_asks_status (takeEntry (Ev.start s) data).1 b (takeEntry (Ev.start s) data).2
  rw [takeEntry_ovr, h] at hasked
  exact Ev.finish_asks (e := entryEvent s b data) (by unfold entryEvent; rwa [h]) nofun nofun

theorem entryEvent_fetches (h : b.index + 1 ≠ b.stop) :
    (entryEvent s b data).finish.path.asks (.ovrFetch (s.ovr.slot (b.index + 1))) = true := by
  have hasked := entryTaken_asks_fetch (takeEntry (Ev.start s) data).1 (takeEntry (Ev.start s) data).2 h
  rw [takeEntry_ovr] at hasked
  exact Ev.finish_asks hasked nofun nofun

/-- The board found becomes what Table 6-1 makes of it, and the entry is given the status that goes with it. -/
theorem entryEvent_found {i : Fin 32} {c : Board} {st : EntryStatus} (hu : Usable data)
    (hi : s.lookup (entryOf (data.getD [])).lug = some i)
    (h : takeAgainst s.lug.boards[i] (entryOf (data.getD [])) = (c, st)) :
    (entryEvent s b data).finish.path.asks (.ovrStatus (s.ovr.slot b.index) st.code) = true ∧
      (entryEvent s b data).finish.lug.boards[i] = c := by
  have hfound := takeEntry_found (e := Ev.start s) hu hi
  refine ⟨entryEvent_gives ?_, ?_⟩
  · rw [hfound, Ev.start_st, h]
  · rw [Ev.finish_lug, entryEvent_lug, hfound, changeBoard_read, if_pos rfl, Ev.start_st, h]

end Take

/-- Settles O49: the entry by what it finds, the board found by its state. -/
theorem overrideEntryTaken : Obligations.OverrideEntryTaken := by
  unfold Obligations.OverrideEntryTaken
  intro s b data hr hw hb hf n usable found slot given
  have hx := exec_overrideEntryTake hr hw hb hf
  refine ⟨_, hx, Ev.finish_grew entryEvent_path entryEvent_returned, eq_mixed (keeps_overrideEntryTake hx), ?_,
    entryEvent_ovr, entryEvent_fetches, fun j hj => ?_, fun hu => ?_, fun hu hno => ?_, fun i hu hi => ?_⟩
  · rw [Ev.finish_lug, entryEvent_lug]
    exact takeEntry_sameTable (Ev.start s) data
  · rw [Ev.finish_lug, entryEvent_lug]
    exact takeEntry_others hj
  · exact entryEvent_gives (congrArg Prod.snd (takeEntry_unusable hu))
  · exact entryEvent_gives (congrArg Prod.snd (takeEntry_noBoard hu hno))
  · exact ⟨fun hs => entryEvent_found hu hi (takeAgainst_void hs),
      fun hs => entryEvent_found hu hi (takeAgainst_open hs),
      fun hs hv => entryEvent_found hu hi ((takeAgainst_solved hs).trans (if_pos hv)),
      fun hs hv => entryEvent_found hu hi ((takeAgainst_solved hs).trans (if_neg (Bool.eq_false_iff.1 hv))),
      fun hs => entryEvent_found hu hi (takeAgainst_frozen hs)⟩

end Sys2Proof.Proofs
end

section
/-! MEMORY_ANSWER (R153, R166, R167, R177, R189): the response settled, the responses returned and counted, what memory holds,
and the completion of a tally request. -/

namespace Sys2Proof.Proofs

open Sys2Proof Sys2Proof.Machine Sys2Proof.Laws

/-! ### Completions asked for (R153, R172) -/

/-- Event `e'` asks for no completion of a tally request but those that `e` asked for. -/
def NoCompletion (e e' : Ev) : Prop := ∀ w, .tallyCompletion w ∈ e'.asked → .tallyCompletion w ∈ e.asked

theorem NoCompletion.refl (e : Ev) : NoCompletion e e := fun _ h => h

theorem NoCompletion.trans {e f g : Ev} (h : NoCompletion e f) (h' : NoCompletion f g) : NoCompletion e g :=
  fun w hw => h w (h' w hw)

theorem noCompletion_ask (e : Ev) {k : OwnTxn} (h : ∀ w, k ≠ .tallyCompletion w) : NoCompletion e (e.ask k) := by
  intro w hw
  rcases List.mem_append.1 hw with hw | hw
  · exact hw
  · exact absurd (List.mem_singleton.1 hw).symm (h w)

theorem noCompletion_raise (e : Ev) (n : Notice) : NoCompletion e (e.raise n) :=
  noCompletion_ask (e.modify fun s => { s with note := { s.note with word := s.note.word ||| n.mask } }) nofun

theorem noCompletion_changeTally (e : Ev) (f : Tally → Tally) : NoCompletion e (e.changeTally f) := by
  unfold Ev.changeTally
  dsimp only
  split
  · exact NoCompletion.refl e
  · exact noCompletion_ask (e.modify fun s => { s with tally := f s.tally }) nofun

theorem noCompletion_changeSource (e : Ev) (i : Fin 16) (f : SourceCtx → SourceCtx) :
    NoCompletion e (e.changeSource i f) := by
  unfold Ev.changeSource
  dsimp only
  split
  · exact NoCompletion.refl e
  · exact noCompletion_ask
      (e.modify fun s => { s with src := { s.src with ctx := s.src.ctx.set i (f e.st.src.ctx[i]) } }) nofun

theorem noCompletion_countAll (rs : List Returned) (e : Ev) : NoCompletion e (e.countAll rs) := by
  induction rs generalizing e with
  | nil => exact NoCompletion.refl e
  | cons r rs ih => exact (noCompletion_changeSource e _ _).trans (ih _)

theorem noCompletion_returnResponses (e : Ev) : NoCompletion e e.returnResponses :=
  noCompletion_countAll (returnFrom [] e.st.path.flight).2
    (e.modify fun s => { s with path := { s.path with flight := (returnFrom [] e.st.path.flight).1 } })

theorem noCompletion_fetchEntry (e : Ev) : NoCompletion e e.fetchEntry := by
  unfold Ev.fetchEntry
  split
  · exact noCompletion_ask e nofun
  · exact NoCompletion.refl e

/-- A request for anything else leaves a completion as it is. -/
theorem spares_completion {k : OwnTxn} {w : Word32} (h : ∀ v, k ≠ .tallyCompletion v) : k.spares (.tallyCompletion w) := by
  intro hr
  cases k
  case tallyCompletion v => exact absurd rfl (h v)
  all_goals cases hr

/-! ### A request whose work and whose write have ended (R153, R161) -/

section Complete
variable {e : Ev} {f : Tally → Tally}

/-- A change that TALLY_STATUS shows asks for its write. -/
theorem changeTally_shown (h : (f e.st.tally).shown ≠ e.st.tally.shown) :
    e.changeTally f = (e.modify fun s => { s with tally := f s.tally }).ask .tallyStatus := by
  unfold Ev.changeTally
  exact if_neg h

theorem changeTally_hidden (h : (f e.st.tally).shown = e.st.tally.shown) :
    e.changeTally f = e.modify fun s => { s with tally := f s.tally } := by
  unfold Ev.changeTally
  exact if_pos h

/-- The event in which the request in progress ends with the completion word `w`. -/
def completed (e : Ev) (w : Word32) : Ev :=
  (((e.modify fun s => { s with tally := { s.tally with request := none } }).ask .tallyStatus).ask
    (.tallyCompletion w)).raise .tallyRequestDone

theorem completed_asked (e : Ev) (w : Word32) :
    (completed e w).asked = e.asked ++ [.tallyStatus] ++ [.tallyCompletion w] ++ [.notice] := rfl

variable {q : TallyRequest} {st : RequestStatus}

theorem completeRequest_completes (hq : e.st.tally.request = some q) (hs : q.status = some st)
    (hw : q.writeAnswered = true) : e.completeRequest = completed e (tallyCompletionWord q st) := by
  have hshown : { e.st.tally with request := none }.shown ≠ e.st.tally.shown := by
    unfold Tally.shown
    rw [hq]
    nofun
  unfold Ev.completeRequest
  rw [hq]
  dsimp only
  rw [hs]
  dsimp only
  rw [if_pos hw, changeTally_shown (f := fun t => { t with request := none }) hshown]
  rfl

theorem completeRequest_none (hq : e.st.tally.request = none) : e.completeRequest = e := by
  unfold Ev.completeRequest
  rw [hq]

theorem completeRequest_working (hq : e.st.tally.request = some q) (hs : q.status = none) : e.completeRequest = e := by
  unfold Ev.completeRequest
  rw [hq]
  dsimp only
  rw [hs]

theorem completeRequest_unwritten (hq : e.st.tally.request = some q) (hw : q.writeAnswered = false) :
    e.completeRequest = e := by
  unfold Ev.completeRequest
  rw [hq]
  dsimp only
  split
  · rfl
  · exact if_neg (by rw [hw]; decide)

/-- The completion is asked for at the event's end, where no other was asked for. -/
theorem completed_asks {w : Word32} (h : ∀ v, .tallyCompletion v ∉ e.asked) :
    (completed e w).finish.path.asks (.tallyCompletion w) = true := by
  refine Ev.finish_asks_of (by simp [completed_asked]) fun k hk => ?_
  by_cases hkw : k = .tallyCompletion w
  · exact fun _ => hkw
  · refine spares_completion fun v hv => ?_
    subst hv
    simp only [completed_asked, List.mem_append, List.mem_singleton] at hk
    rcases hk with ((hk | hk) | hk) | hk
    · exact h v hk
    · cases hk
    · exact hkw hk
    · cases hk

end Complete

/-! ### The answer of a TALLY_REQUEST write (R153) -/

section RequestWrite
variable {e : Ev} {q : TallyRequest}

/-- The tally with the request's write answered. -/
def writeMarked (t : Tally) : Tally := { t with request := t.request.map fun q => { q with writeAnswered := true } }

theorem requestWriteAnswered_eq (e : Ev) :
    e.requestWriteAnswered = (e.modify fun s => { s with tally := writeMarked s.tally }).completeRequest := by
  have hshown : (writeMarked e.st.tally).shown = e.st.tally.shown := by simp [Tally.shown, writeMarked]
  exact congrArg Ev.completeRequest (changeTally_hidden (f := writeMarked) hshown)

theorem writeMarked_none {t : Tally} (h : t.request = none) : writeMarked t = t := by
  unfold writeMarked
  rw [h, Option.map_none, ← h]

theorem writeMarked_some {t : Tally} (h : t.request = some q) :
    writeMarked t = { t with request := some { q with writeAnswered := true } } := by
  unfold writeMarked
  rw [h, Option.map_some]

theorem requestWriteAnswered_none (h : e.st.tally.request = none) : e.requestWriteAnswered.st.tally = e.st.tally ∧
    e.requestWriteAnswered.st.note = e.st.note := by
  have hm := writeMarked_none h
  rw [requestWriteAnswered_eq, completeRequest_none (by rw [Ev.modify_st, hm, h])]
  exact ⟨hm, rfl⟩

theorem requestWriteAnswered_working (h : e.st.tally.request = some q) (hs : q.status = none) :
    e.requestWriteAnswered.st.note = e.st.note ∧
    e.requestWriteAnswered.st.tally = { e.st.tally with request := some { q with writeAnswered := true } } := by
  have hm := writeMarked_some h
  rw [requestWriteAnswered_eq, completeRequest_working (q := { q with writeAnswered := true }) (by rw [Ev.modify_st, hm]) hs]
  exact ⟨rfl, hm⟩

theorem requestWriteAnswered_completes {st : RequestStatus} (h : e.st.tally.request = some q) (hs : q.status = some st) :
    e.requestWriteAnswered =
      completed (e.modify fun s => { s with tally := writeMarked s.tally }) (tallyCompletionWord q st) := by
  have hm := writeMarked_some h
  rw [requestWriteAnswered_eq, completeRequest_completes (q := { q with writeAnswered := true }) (by rw [Ev.modify_st, hm]) hs
    rfl]
  rfl

end RequestWrite

/-! ### The transaction answered (R166, R167) -/

section Answer
variable {s : State} {i : Fin 16} {pre post : List UpTxn} {x : Txn} {g : Bool}

/-- The response goes to the source's oldest transaction IN_MEMORY. -/
theorem changeFirst_inMemory (r : Response) (hx : x.source = i) (hpre : ∀ u ∈ pre, u.txn.source ≠ i) :
    changeFirst (UpTxn.isInMemoryOf i) (fun u => u.answeredWith r) (pre ++ { txn := x, state := .inMemory g } :: post) =
      pre ++ { txn := x, state := .answered { response := r, counted := false, givenUp := g } } :: post := by
  induction pre with
  | nil => exact if_pos (by simp [UpTxn.isInMemoryOf, hx])
  | cons u pre ih =>
    have hu : UpTxn.isInMemoryOf i u = false := by
      unfold UpTxn.isInMemoryOf
      rw [decide_eq_false (hpre u (by simp)), Bool.false_and]
    simp only [List.cons_append, changeFirst, hu, Bool.false_eq_true, if_false, ih fun v hv => hpre v (by simp [hv])]

/-- With no earlier transaction of its source in flight a settled response is returned at once. -/
theorem returnFrom_returns {l : List UpTxn} {r : Settled} (blocked : List (Fin 16)) (hb : x.source ∉ blocked)
    (hpre : ∀ u ∈ pre, u.txn.source ≠ x.source) (hl : l = pre ++ { txn := x, state := .answered r } :: post) :
    { source := x.source, settled := r } ∈ (returnFrom blocked l).2 := by
  subst hl
  induction pre generalizing blocked with
  | nil =>
    rw [List.nil_append, returnFrom.eq_def]
    dsimp only
    rw [if_neg hb]
    exact List.mem_cons_self
  | cons u pre ih =>
    have hrest := fun blocked hb => ih blocked hb fun v hv => hpre v (by simp [hv])
    have hu : x.source ∉ u.txn.source :: blocked := by
      rw [List.mem_cons]
      exact not_or.2 ⟨fun hc => hpre u (by simp) hc.symm, hb⟩
    rw [List.cons_append, returnFrom.eq_def]
    dsimp only
    split
    · split
      · exact hrest _ hb
      · exact List.mem_cons_of_mem _ (hrest _ hb)
    all_goals exact hrest _ hu

end Answer

theorem responseOf_eq (m : Memory) (w : Wire) (ok : Bool) : responseOf m w ok =
    if ok then .complete (if w.kind = .read then m.bytes w.start (8 * w.beats) else []) else .refused := by
  unfold responseOf
  cases w.kind <;> rfl

/-! ### What memory holds after an answer (R166; log 19) -/

section Holds
variable {m : Memory} {w : Wire} {ok : Bool}

/-- The memory once it has answered `w`. -/
def answeredMemory (m : Memory) (w : Wire) (ok : Bool) : Memory := if ok then m.apply w else m

theorem answeredMemory_kept (h : ok = false ∨ w.kind = .read) : answeredMemory m w ok = m := by
  unfold answeredMemory
  rcases h with rfl | h
  · rfl
  · unfold Memory.apply
    rw [h]
    exact ite_self m

theorem answeredMemory_unstrobed {a : Nat}
    (h : ∀ j : Nat, a = w.start + j → (w.lanes[j]?.map (·.strobe)).getD false = false) :
    (answeredMemory m w ok).read a = m.read a := by
  unfold answeredMemory
  split
  · exact Memory.read_apply_other m w a h
  · rfl

theorem answeredMemory_strobed (hm : m.wf = true) (hok : ok = true) (hk : w.kind = .write) {j : Nat} {l : Lane}
    (hl : w.lanes[j]? = some l) (hs : l.strobe = true) : (answeredMemory m w ok).read (w.start + j) = l.data := by
  unfold answeredMemory Memory.apply
  rw [if_pos hok, hk]
  exact Memory.read_writeLanes w.lanes hm w.start j l hl hs

end Holds

/-! ### The whole event -/

section Event
variable (s : State) (ok : Bool) (i : Fin 16) (b r : Bool) (w : Wire) (rest : List Down)

/-- The event with the answer off the wire and the response settled: the responses are yet to be returned. -/
def settledAnswer : Ev := ((Ev.start s).popDown rest w ok).modify fun s' =>
  { s' with path :=
      { s'.path with
        flight := changeFirst (UpTxn.isInMemoryOf i) (fun u => u.answeredWith (responseOf s.mem w ok)) s'.path.flight } }

/-- The event with the responses returned, and the fetch of a batch's first entry asked for (R108). -/
def returnedAnswer : Ev :=
  if b then (settledAnswer s ok i w rest).returnResponses.fetchEntry else (settledAnswer s ok i w rest).returnResponses

/-- The whole event. -/
def answerEvent : Ev :=
  if r then (returnedAnswer s ok i b w rest).requestWriteAnswered else returnedAnswer s ok i b w rest

theorem exec_memoryAnswer (h : s.path.down = { origin := .forwarded i b r, wire := w } :: rest) :
    exec (.memoryAnswer ok) s = .next (answerEvent s ok i b r w rest).finish := by
  show execMemoryAnswer ok s = _
  unfold execMemoryAnswer
  rw [h]
  rfl

theorem fetchEntry_st (e : Ev) : e.fetchEntry.st = e.st := by
  unfold Ev.fetchEntry
  split <;> rfl

theorem returnedAnswer_st : (returnedAnswer s ok i b w rest).st = (settledAnswer s ok i w rest).returnResponses.st := by
  unfold returnedAnswer
  split
  · exact fetchEntry_st _
  · rfl

theorem grows_returnedAnswer :
    Grows (settledAnswer s ok i w rest).returnResponses (returnedAnswer s ok i b w rest) := by
  unfold returnedAnswer
  split
  · exact grows_fetchEntry _
  · exact Grows.refl _

theorem grows_answerEvent : Grows (returnedAnswer s ok i b w rest) (answerEvent s ok i b r w rest) := by
  unfold answerEvent
  split
  · exact grows_requestWriteAnswered _
  · exact Grows.refl _

/-- The request's part of the event changes the tally and the notices alone. -/
theorem keeps_answerEvent :
    Keeps [.tally, .note] (settledAnswer s ok i w rest).returnResponses.st (answerEvent s ok i b r w rest).st := by
  rw [← returnedAnswer_st s ok i b w rest]
  unfold answerEvent
  split
  · exact keeps_requestWriteAnswered _
  · exact Keeps.refl _ _

theorem answerEvent_mem : (answerEvent s ok i b r w rest).st.mem = answeredMemory s.mem w ok :=
  (keeps_answerEvent s ok i b r w rest).mem.trans (keeps_returnResponses (settledAnswer s ok i w rest)).mem

theorem returnedAnswer_untouched : (returnedAnswer s ok i b w rest).st.tally = s.tally ∧
    (returnedAnswer s ok i b w rest).st.note = s.note := by
  rw [returnedAnswer_st]
  exact ⟨(keeps_returnResponses (settledAnswer s ok i w rest)).tally, (keeps_returnResponses (settledAnswer s ok i w rest)).note⟩

/-- Nothing before the request's own part asks for a completion. -/
theorem returnedAnswer_noCompletion (v : Word32) : .tallyCompletion v ∉ (returnedAnswer s ok i b w rest).asked := by
  have hreturned := noCompletion_returnResponses (settledAnswer s ok i w rest)
  have hfetched : NoCompletion (settledAnswer s ok i w rest) (returnedAnswer s ok i b w rest) := by
    unfold returnedAnswer
    split
    · exact hreturned.trans (noCompletion_fetchEntry _)
    · exact hreturned
  exact fun h => absurd (hfetched v h) List.not_mem_nil

variable {s ok i b r w rest}

/-- R108: the answer of the write that began a batch asks for the fetch of its first entry. -/
theorem answerEvent_fetches {bt : Batch} (hb : b = true) (hbt : s.ovr.batch = some bt) :
    (answerEvent s ok i b r w rest).finish.path.asks (.ovrFetch (s.ovr.slot bt.index)) = true := by
  have hunit : (settledAnswer s ok i w rest).returnResponses.st.ovr = s.ovr := (keeps_returnResponses _).ovr
  refine Ev.finish_asks ((grows_answerEvent s ok i b r w rest).asked _ ?_) nofun nofun
  unfold returnedAnswer Ev.fetchEntry
  rw [if_pos hb, hunit, hbt]
  simp

section Request
variable {q : TallyRequest}

/-- An answer that carries no request, or finds none in progress, leaves the tally and the notices. -/
theorem answerEvent_requestless (h : r = false ∨ s.tally.request = none) :
    (answerEvent s ok i b r w rest).st.tally = s.tally ∧ (answerEvent s ok i b r w rest).st.note = s.note := by
  obtain ⟨htally, hnote⟩ := returnedAnswer_untouched s ok i b w rest
  unfold answerEvent
  split
  · rename_i hr
    have hnone := h.resolve_left (by rw [hr]; nofun)
    obtain ⟨ht, hn⟩ := requestWriteAnswered_none (e := returnedAnswer s ok i b w rest) (by rw [htally, hnone])
    exact ⟨ht.trans htally, hn.trans hnote⟩
  · exact ⟨htally, hnote⟩

/-- R153: a request whose work goes on has its write marked as answered. -/
theorem answerEvent_working (hr : r = true) (hq : s.tally.request = some q) (hs : q.status = none) :
    (answerEvent s ok i b r w rest).st.note = s.note ∧
    (answerEvent s ok i b r w rest).st.tally = { s.tally with request := some { q with writeAnswered := true } } := by
  obtain ⟨htally, hnote⟩ := returnedAnswer_untouched s ok i b w rest
  obtain ⟨hn, ht⟩ := requestWriteAnswered_working (e := returnedAnswer s ok i b w rest) (by rw [htally, hq]) hs
  unfold answerEvent
  rw [if_pos hr]
  exact ⟨hn.trans hnote, ht.trans (by rw [htally])⟩

/-- R153: a request whose work has ended completes. -/
theorem answerEvent_completes {st : RequestStatus} (hr : r = true) (hq : s.tally.request = some q)
    (hs : q.status = some st) :
    let e := answerEvent s ok i b r w rest
    e.st.tally = { s.tally with request := none } ∧
      e.finish.path.asks (.tallyCompletion (tallyCompletionWord q st)) = true ∧ e.finish.path.asks .tallyStatus = true ∧
      e.st.note = s.note.raised .tallyRequestDone ∧ e.finish.path.asks .notice = true := by
  obtain ⟨htally, hnote⟩ := returnedAnswer_untouched s ok i b w rest
  have hcompletes := requestWriteAnswered_completes (e := returnedAnswer s ok i b w rest) (by rw [htally, hq]) hs
  dsimp only
  unfold answerEvent
  rw [if_pos hr, hcompletes]
  refine ⟨?_, completed_asks (returnedAnswer_noCompletion s ok i b w rest), Ev.finish_asks ?_ nofun nofun, ?_,
    Ev.finish_asks (raise_asks _ _) nofun nofun⟩
  · show { writeMarked (returnedAnswer s ok i b w rest).st.tally with request := none } = _
    rw [htally]
    rfl
  · simp [completed_asked]
  · show (returnedAnswer s ok i b w rest).st.note.raised .tallyRequestDone = _
    rw [hnote]

end Request

/-- R167, R189: the responses due are returned and counted, and each count changed is shown. -/
theorem answerEvent_returns {flight : List UpTxn} (hflight : changeFirst (UpTxn.isInMemoryOf i)
      (fun u => u.answeredWith (responseOf s.mem w ok)) s.path.flight = flight) :
    let e := answerEvent s ok i b r w rest
    e.st.path = { s.path with down := rest, flight := (returnFrom [] flight).1 } ∧
      e.returned = (returnFrom [] flight).2 ∧ s.src.CountedBy e.st.src flight ∧
      ∀ j : Fin 16, e.st.src.ctx[j] ≠ s.src.ctx[j] → e.finish.path.asks (.sourceStatus j) = true := by
  subst hflight
  have hkept := keeps_answerEvent s ok i b r w rest
  have hgrow := (grows_returnedAnswer s ok i b w rest).trans (grows_answerEvent s ok i b r w rest)
  obtain ⟨hst, -, -, -, hreturned⟩ := Ev.returnResponses_st (settledAnswer s ok i w rest)
  refine ⟨hkept.path.trans (congrArg State.path hst), hgrow.returned.trans hreturned, ?_, fun j hj => ?_⟩
  · rw [hkept.src]
    exact Ev.returnResponses_counts (settledAnswer s ok i w rest)
  · rw [hkept.src] at hj
    exact Ev.finish_asks (hgrow.asked _ (countAll_asks _ _ j hj)) nofun nofun

end Event

/-- Settles O35: the response settled and returned with those due, the bytes memory holds, and the request's completion. -/
theorem memoryAnswers : Obligations.MemoryAnswers := by
  unfold Obligations.MemoryAnswers
  intro ok s i b r w rest pre x g post hdown hinflight hx hpre settled flight
  have hexec := exec_memoryAnswer s ok i b r w rest hdown
  have hflight : changeFirst (UpTxn.isInMemoryOf i) (fun u => u.answeredWith (responseOf s.mem w ok)) s.path.flight =
      flight := by
    rw [hinflight, changeFirst_inMemory _ hx hpre, responseOf_eq]
  obtain ⟨hpath, hreturned, hcounted, hasks⟩ := answerEvent_returns (b := b) (r := r) (rest := rest) hflight
  have hmem := answerEvent_mem s ok i b r w rest
  have hgiven : { source := i, settled := settled } ∈ (returnFrom [] flight).2 := by
    rw [← hx]
    exact returnFrom_returns [] List.not_mem_nil (by rw [hx]; exact hpre) rfl
  obtain ⟨more, waiting, hfinish, hwaiting⟩ := (answerEvent s ok i b r w rest).finish_path
  rw [hpath, hreturned] at hfinish
  rw [hpath] at hwaiting
  refine ⟨_, hexec, ?_, ?_, ?_, hcounted, hasks, fun h => hmem.trans (answeredMemory_kept h), fun a ha => ?_,
    fun hwf hok hk j l hl hs => ?_, eq_mixed (keeps_memoryAnswer hexec), ?_, ⟨more, ?_⟩, ?_,
    fun hb bt hbt => answerEvent_fetches hb hbt, answerEvent_requestless,
    fun hr q hq => ⟨answerEvent_working hr hq, fun st hs => answerEvent_completes hr hq hs⟩⟩
  · rw [hfinish]
  · rw [hfinish]; exact hgiven
  · rw [hfinish]; exact returnFrom_due flight
  · exact (congrArg (·.read a) hmem).trans (answeredMemory_unstrobed ha)
  · exact (congrArg (·.read (w.start + j)) hmem).trans (answeredMemory_strobed hwf hok hk hl hs)
  · rw [hfinish]
  · rw [hfinish]
  · rw [hfinish]; exact hwaiting

end Sys2Proof.Proofs
end

section
/-! OWN_TRANSACTION_ANSWER at the blocks (R109, R110, R139, R153, R159): the override unit, the decision writer and the tally. -/

namespace Sys2Proof.Proofs

open Sys2Proof Sys2Proof.Machine Sys2Proof.Laws

/-! ### The event before the block takes the answer -/

section Handed
variable (s : State) (ok : Bool) (k : OwnTxn) (w : Wire) (rest : List Down)

/-- The event with the answer off the wire, its line released and an ERROR noticed. -/
def beforeBlock : Ev :=
  if ok then ((Ev.start s).popDown rest w ok).releaseLine k w
  else (((Ev.start s).popDown rest w ok).releaseLine k w).raise .memoryError

theorem exec_ownTransactionAnswer (h : s.path.down = { origin := .own k, wire := w } :: rest) :
    exec (.ownTransactionAnswer ok) s =
      .next ((beforeBlock s ok k w rest).ownAnswered k ok (s.mem.bytes w.start (8 * w.beats))).finish := by
  show execOwnTransactionAnswer ok s = _
  unfold execOwnTransactionAnswer
  rw [h]
  rfl

theorem keeps_beforeBlock : Keeps [.path, .mem, .note] s (beforeBlock s ok k w rest).st := by
  have hreleased : Keeps [.path, .mem, .note] s (((Ev.start s).popDown rest w ok).releaseLine k w).st :=
    (Keeps.start.then (keeps_popDown _ _ _ _)).then (keeps_releaseLine _ _ _)
  unfold beforeBlock
  split
  · exact hreleased
  · exact hreleased.then (keeps_raise _ _)

theorem releaseLine_asked (e : Ev) : (e.releaseLine k w).asked = e.asked := by
  unfold Ev.releaseLine
  split <;> rfl

/-- Only the NOTICE of an ERROR is asked for so far. -/
theorem beforeBlock_asked {j : OwnTxn} (h : j ∈ (beforeBlock s ok k w rest).asked) : j = .notice := by
  unfold beforeBlock at h
  split at h
  · rw [releaseLine_asked] at h
    exact absurd h List.not_mem_nil
  · rw [Ev.raise_asked, releaseLine_asked] at h
    exact List.mem_singleton.1 h

end Handed

/-! ### The override unit (R110) -/

section Status
variable {e : Ev} {b : Batch}

/-- The event with one status byte fewer to be answered. -/
def statusCounted (e : Ev) : Ev := e.changeOvr fun u => { u with statusOut := u.statusOut - 1 }

theorem statusAnswered_eq (hb : e.st.ovr.batch = some b) : e.statusAnswered =
    if b.index = b.stop ∧ e.st.ovr.statusOut - 1 = 0 then (statusCounted e).endBatch b.stop else statusCounted e := by
  unfold Ev.statusAnswered Ev.changeOvr
  dsimp only [Ev.modify_st]
  rw [hb]
  rfl

/-- The last status byte of a batch whose entries have all been taken ends it. -/
theorem statusAnswered_ends (hb : e.st.ovr.batch = some b) (hi : b.index = b.stop) (hn : e.st.ovr.statusOut = 1) :
    e.statusAnswered = (statusCounted e).endBatch b.stop :=
  (statusAnswered_eq hb).trans (if_pos ⟨hi, by rw [hn]⟩)

theorem statusAnswered_waits (hb : e.st.ovr.batch = some b) (h : b.index ≠ b.stop ∨ e.st.ovr.statusOut ≠ 1)
    (hn : 1 ≤ e.st.ovr.statusOut) : e.statusAnswered = statusCounted e :=
  (statusAnswered_eq hb).trans (if_neg fun hc => h.elim (absurd hc.1) fun hne => hne (by omega))

/-- The consumer index a batch ends at is asked for, where notices alone were asked for before. -/
theorem endBatch_asks {v : Word16} (h : ∀ k ∈ e.asked, k = .notice) :
    (e.endBatch v).finish.path.asks (.ovrConsumer v) = true := by
  have hasked : (e.endBatch v).asked = e.asked ++ [.ovrConsumer v] ++ [.notice] := rfl
  refine Ev.finish_asks_of (by simp [hasked]) fun k hk => ?_
  simp only [hasked, List.mem_append, List.mem_singleton] at hk
  rcases hk with (hk | rfl) | rfl
  · rw [h k hk]; exact nofun
  · exact fun _ => rfl
  · exact nofun

end Status

/-! ### The decision writer (R138, R139) -/

section Records
variable {e : Ev}

theorem placeRecord_idle (h : e.st.dec.mayPlace = false) : e.placeRecord = e := by
  unfold Ev.placeRecord
  split
  · rfl
  · exact if_neg (Bool.eq_false_iff.1 h)

theorem mayPlace_iff (d : DecisionWriter) : d.mayPlace = true ↔
    d.writing = none ∧ (d.producer - d.consumerShadow).toNat < d.ringSize ∧ d.announcing = false := by
  simp [DecisionWriter.mayPlace, and_assoc]

/-- The decision writer with its oldest record, of `r` and `rs`, placed in the ring. -/
def placed (d : DecisionWriter) (r : DecRecord) (rs : List DecRecord) : DecisionWriter :=
  { d with list := rs, producer := d.producer + 1
           writing := some { record := r, slot := d.producer.toNat % d.ringSize } }

theorem placeRecord_places {r : DecRecord} {rs : List DecRecord} (hl : e.st.dec.list = r :: rs)
    (h : e.st.dec.mayPlace = true) : e.placeRecord.st.dec = placed e.st.dec r rs ∧
      .decRecord (e.st.dec.producer.toNat % e.st.dec.ringSize) r.bytes ∈ e.placeRecord.asked := by
  unfold Ev.placeRecord
  rw [hl]
  dsimp only
  rw [if_pos h]
  exact ⟨rfl, by simp⟩

/-- No record is placed while the announcement just asked for is pending. -/
theorem recordAnswered_eq (e : Ev) : e.recordAnswered = (e.ask (.decProducer e.st.dec.producer true)).changeDec fun d =>
    { d with writing := none, announcing := true } := by
  refine placeRecord_idle ?_
  exact Bool.eq_false_iff.2 fun hc => nomatch ((mayPlace_iff _).1 hc).2.2

/-- The answer of the announcement lets the next record be placed. -/
theorem producerAnswered_places {r : DecRecord} {rs : List DecRecord} (hw : e.st.dec.writing = none)
    (hroom : (e.st.dec.producer - e.st.dec.consumerShadow).toNat < e.st.dec.ringSize) (hl : e.st.dec.list = r :: rs) :
    (e.producerAnswered true).st.dec = placed { e.st.dec with announcing := false } r rs ∧
      .decRecord (e.st.dec.producer.toNat % e.st.dec.ringSize) r.bytes ∈ (e.producerAnswered true).asked := by
  have hdec : (e.changeDec fun d => { d with announcing := d.announcing && !true }).st.dec =
      { e.st.dec with announcing := false } := by
    simp [Ev.changeDec]
  obtain ⟨hplaced, hasked⟩ := placeRecord_places
    (e := e.changeDec fun d => { d with announcing := d.announcing && !true }) (r := r) (rs := rs) (by rw [hdec, hl])
    (by rw [hdec]; exact (mayPlace_iff _).2 ⟨hw, hroom, rfl⟩)
  rw [hdec] at hplaced hasked
  exact ⟨hplaced, hasked⟩

end Records

/-! ### The boards held by a snapshot, offered with no bank under snapshot (R148 to R150, R159) -/

section Counting

theorem counting_stranded {t : Tally} {o : TallyOffer} (h : t.openBank = none) : t.counting o = t.withStranded := by
  unfold Tally.counting
  rw [h]

theorem counting_open {t : Tally} {o : TallyOffer} {k : Bank} (h : t.openBank = some k) : t.counting o =
    if (t.bank k).fits o then t.setBank k ((t.bank k).add o)
    else if (t.bank k.other).state = .empty then
      ((t.withState k .full).withState k.other .opened).setBank k.other
        ((((t.withState k .full).withState k.other .opened).bank k.other).add o)
    else (t.withState k .full).withStranded := by
  unfold Tally.counting
  rw [h]

/-- The tally with its request replaced. -/
def withRequest (t : Tally) (q : Option TallyRequest) : Tally := { t with request := q }

theorem withRequest_bank (t : Tally) (q : Option TallyRequest) (k : Bank) : (withRequest t q).bank k = t.bank k := by
  cases k <;> rfl

/-- Counting does not read the request, and keeps it. -/
theorem counting_withRequest (t : Tally) (q : Option TallyRequest) (o : TallyOffer) :
    (withRequest t q).counting o = withRequest (t.counting o) q := by
  cases h : t.openBank with
  | none => rw [counting_stranded h, counting_stranded (t := withRequest t q) h]; rfl
  | some k =>
    rw [counting_open h, counting_open (t := withRequest t q) h, withRequest_bank, withRequest_bank,
      apply_ite (withRequest · q), apply_ite (withRequest · q)]
    cases k <;> rfl

theorem foldl_counting_withRequest (os : List TallyOffer) (t : Tally) (q : Option TallyRequest) :
    os.foldl Tally.counting (withRequest t q) = withRequest (os.foldl Tally.counting t) q := by
  induction os generalizing t with
  | nil => rfl
  | cons o os ih => rw [List.foldl_cons, List.foldl_cons, counting_withRequest, ih]

theorem foldl_counting_request (os : List TallyOffer) (t : Tally) : (os.foldl Tally.counting t).request = t.request :=
  (congrArg Tally.request (foldl_counting_withRequest os t t.request) :)

theorem underSnapshot_counting (t : Tally) (o : TallyOffer) : (t.counting o).underSnapshot = t.underSnapshot := by
  unfold Tally.underSnapshot
  rw [show (t.counting o).request = t.request from foldl_counting_request [o] t]

variable {e : Ev}

/-- With no bank under snapshot an offer counts the board or strands it, and a board stranded is noticed. -/
theorem offer_counting (o : TallyOffer) (h : e.st.tally.underSnapshot = none) :
    (e.offer o).st.tally = e.st.tally.counting o ∧
      (e.st.tally.stranded < (e.offer o).st.tally.stranded → (e.offer o).st.note.has .tallyStranded = true) := by
  obtain ⟨hnone, hsome⟩ := offer_outcome e o
  have hfree : ∀ k, e.st.tally.underSnapshot ≠ some k := fun k => by rw [h]; nofun
  cases hk : e.st.tally.openBank with
  | none =>
    obtain ⟨htally, hnote⟩ := hnone hk
    exact ⟨htally.trans (counting_stranded hk).symm, fun _ => hnote⟩
  | some k =>
    obtain ⟨-, hfits, hover⟩ := hsome k hk
    rw [counting_open hk]
    cases hf : (e.st.tally.bank k).fits o with
    | true =>
      have htally := hfits (hfree k) hf
      exact ⟨htally, fun hlt => absurd hlt (by rw [htally, Tally.setBank_stranded]; omega)⟩
    | false =>
      obtain ⟨-, hstrand, -, hturn⟩ := hover (hfree k) hf
      rw [if_neg Bool.false_ne_true]
      by_cases hempty : (e.st.tally.bank k.other).state = .empty
      · rw [if_pos hempty]
        have htally := hturn hempty h
        exact ⟨htally, fun hlt => absurd hlt (by simp [htally, Tally.withState])⟩
      · rw [if_neg hempty]
        obtain ⟨htally, hnote⟩ := hstrand hempty
        exact ⟨htally, fun _ => hnote⟩

/-- The boards offered in order are counted in order, and a board stranded among them is noticed. -/
theorem offerAll_counting (os : List TallyOffer) (h : e.st.tally.underSnapshot = none) :
    (e.offerAll os).st.tally = os.foldl Tally.counting e.st.tally ∧
      (e.st.tally.stranded < (e.offerAll os).st.tally.stranded →
        (e.offerAll os).st.note.has .tallyStranded = true) := by
  induction os generalizing e with
  | nil => exact ⟨rfl, fun hlt => absurd hlt (Nat.lt_irrefl _)⟩
  | cons o os ih =>
    obtain ⟨hfirst, hnoticed⟩ := offer_counting o h
    obtain ⟨hrest, hlater⟩ := ih (e := e.offer o) (by rw [hfirst, underSnapshot_counting, h])
    refine ⟨?_, fun hlt => ?_⟩
    · rw [Ev.offerAll, hrest, hfirst, List.foldl_cons]
    · by_cases hnow : e.st.tally.stranded < (e.offer o).st.tally.stranded
      · exact (grows_offerAll os (e.offer o)).has (hnoticed hnow)
      · exact hlater (Nat.lt_of_le_of_lt (Nat.not_lt.1 hnow) hlt)

theorem noCompletion_strand (e : Ev) : NoCompletion e e.strand :=
  (noCompletion_changeTally e _).trans (noCompletion_raise _ _)

theorem noCompletion_holdBoard (e : Ev) (o : TallyOffer) : NoCompletion e (e.holdBoard o) := by
  unfold Ev.holdBoard
  split
  · exact noCompletion_changeTally e _
  · exact noCompletion_strand e

theorem noCompletion_overflow (e : Ev) (k : Bank) (o : TallyOffer) : NoCompletion e (e.overflow k o) := by
  have hfilled : NoCompletion e (filled e k) := (noCompletion_changeTally e _).trans (noCompletion_raise _ _)
  have hturned : NoCompletion e (turned e k) := hfilled.trans (noCompletion_changeTally _ _)
  rw [overflow_eq]
  split
  · split
    · exact hturned.trans (noCompletion_holdBoard _ o)
    · exact hturned.trans (noCompletion_changeTally _ _)
  · exact hfilled.trans (noCompletion_strand _)

theorem noCompletion_offer (e : Ev) (o : TallyOffer) : NoCompletion e (e.offer o) := by
  unfold Ev.offer
  split
  · exact noCompletion_strand e
  · split
    · exact noCompletion_holdBoard e o
    · split
      · exact noCompletion_changeTally e _
      · exact noCompletion_overflow e _ o

theorem noCompletion_offerAll (os : List TallyOffer) (e : Ev) : NoCompletion e (e.offerAll os) := by
  induction os generalizing e with
  | nil => exact NoCompletion.refl e
  | cons o os ih => exact (noCompletion_offer e o).trans (ih _)

end Counting

/-! ### An image write answered (R159) -/

section Image
variable {e : Ev} {q : TallyRequest} {p : Snapshot} {ok : Bool}

/-- The snapshot with one more image write answered. -/
def imageCounted (p : Snapshot) (ok : Bool) : Snapshot :=
  { p with answered := p.answered + 1, error := p.error || !ok }

theorem imageAnswered_eq (hq : e.st.tally.request = some q) (hp : q.snapshot = some p) : e.imageAnswered ok =
    if p.answered + 1 = 13 then e.endSnapshot q (imageCounted p ok)
    else e.changeTally fun t => { t with request := some { q with snapshot := some (imageCounted p ok) } } := by
  unfold Ev.imageAnswered
  rw [hq]
  dsimp only
  rw [hp]
  rfl

theorem imageAnswered_counts (hq : e.st.tally.request = some q) (hp : q.snapshot = some p) (h : p.answered ≠ 12) :
    (e.imageAnswered ok).st.tally =
      { e.st.tally with request := some { q with snapshot := some (imageCounted p ok) } } := by
  rw [imageAnswered_eq hq hp, if_neg (by omega), changeTally_tally]

/-- The request once its snapshot has ended with status `st`. -/
def snapshotDone (q : TallyRequest) (st : RequestStatus) : TallyRequest :=
  { q with status := some st, snapshot := none }

/-- The event once the boards held have been offered, with the snapshot ended. -/
def drained (e : Ev) (q : TallyRequest) (st : RequestStatus) : Ev :=
  (e.changeTally fun t => { t with holding := [], request := some (snapshotDone q st) }).offerAll e.st.tally.holding

theorem imageAnswered_ends (hq : e.st.tally.request = some q) (hp : q.snapshot = some p) (h : p.answered = 12) :
    e.imageAnswered ok = (drained e q (if p.error || !ok then .memoryError else .ok)).completeRequest := by
  rw [imageAnswered_eq hq hp, if_pos (by omega)]
  rfl

/-- The tally after the boards held, with no request in progress. -/
def countedHeld (t : Tally) : Tally := t.holding.foldl Tally.counting { t with holding := [], request := none }

theorem countedHeld_request (t : Tally) : (countedHeld t).request = none := foldl_counting_request _ _

variable (e q) (st : RequestStatus)

theorem drained_counts : (drained e q st).st.tally = withRequest (countedHeld e.st.tally) (some (snapshotDone q st)) ∧
    (e.st.tally.stranded < (countedHeld e.st.tally).stranded → (drained e q st).st.note.has .tallyStranded = true) := by
  have hstart : (e.changeTally fun t => { t with holding := [], request := some (snapshotDone q st) }).st.tally =
      { e.st.tally with holding := [], request := some (snapshotDone q st) } := changeTally_tally _ _
  obtain ⟨htally, hnoticed⟩ := offerAll_counting
    (e := e.changeTally fun t => { t with holding := [], request := some (snapshotDone q st) }) e.st.tally.holding
    (by rw [hstart]; rfl)
  have hcounted : (drained e q st).st.tally = withRequest (countedHeld e.st.tally) (some (snapshotDone q st)) := by
    refine (htally.trans (congrArg (List.foldl Tally.counting · _) hstart)).trans ?_
    exact foldl_counting_withRequest _ { e.st.tally with holding := [], request := none } _
  refine ⟨hcounted, fun hlt => hnoticed ?_⟩
  rw [hstart]
  exact Nat.lt_of_lt_of_eq hlt (congrArg Tally.stranded hcounted).symm

theorem noCompletion_drained : NoCompletion e (drained e q st) :=
  (noCompletion_changeTally e _).trans (noCompletion_offerAll _ _)

variable {e q}

/-- R153, R159: the last image write ends the snapshot, and the request with it where its own write has been answered. -/
theorem imageAnswered_snapshotEnd (hasked : ∀ j ∈ e.asked, j = .notice) (hq : e.st.tally.request = some q)
    (hp : q.snapshot = some p) (h : p.answered = 12) :
    let st : RequestStatus := if p.error || !ok then .memoryError else .ok
    let e' := e.imageAnswered ok
    (e.st.tally.stranded < (countedHeld e.st.tally).stranded → e'.st.note.has .tallyStranded = true) ∧
      (q.writeAnswered = true → e'.st.tally = countedHeld e.st.tally ∧ e'.st.note.has .tallyRequestDone = true ∧
        e'.finish.path.asks (.tallyCompletion (tallyCompletionWord q st)) = true) ∧
      (q.writeAnswered = false → e'.st.tally = withRequest (countedHeld e.st.tally) (some (snapshotDone q st))) := by
  intro st e'
  obtain ⟨hcounted, hnoticed⟩ := drained_counts e q st
  have hends : e' = (drained e q st).completeRequest := imageAnswered_ends hq hp h
  have hrequest := congrArg Tally.request hcounted
  rw [hends]
  refine ⟨fun hlt => (grows_completeRequest _).has (hnoticed hlt), fun hw => ?_, fun hw => ?_⟩
  · rw [completeRequest_completes hrequest rfl hw]
    refine ⟨?_, raise_has _ _, completed_asks fun v hv => nomatch hasked _ (noCompletion_drained e q st v hv)⟩
    show withRequest (drained e q st).st.tally none = _
    rw [hcounted]
    show withRequest (countedHeld e.st.tally) none = _
    rw [← countedHeld_request e.st.tally]
    rfl
  · rw [completeRequest_unwritten hrequest hw]
    exact hcounted

end Image

/-- Settles O37, block by block; the event before the block takes the answer has changed none of the three. -/
theorem ownAnswerReachesBlock : Obligations.OwnAnswerReachesBlock := by
  unfold Obligations.OwnAnswerReachesBlock
  intro ok s k w rest hdown
  have hexec := exec_ownTransactionAnswer s ok k w rest hdown
  have hkept := keeps_beforeBlock s ok k w rest
  have hovr := hkept.ovr
  have hdec := hkept.dec
  have htally := hkept.tally
  have hasked : ∀ j ∈ (beforeBlock s ok k w rest).asked, j = .notice := fun _ => beforeBlock_asked s ok k w rest
  generalize beforeBlock s ok k w rest = e at hexec hovr hdec htally hasked
  refine ⟨_, hexec, fun slot hk => ?_, fun slot st b hk hb hi hn => ?_, fun slot st b hk hb hi hn => ?_,
    fun slot bs hk => ?_, fun v hk hw hroom r rs hl => ?_, fun bk n bs q p hk hq hp => ?_⟩
  · subst hk
    show { e.st.ovr with fetched := some (if ok then some (s.mem.bytes w.start (8 * w.beats)) else none) } = _
    rw [hovr]
  · subst hk
    rw [← hovr] at hb hn
    show (e.statusAnswered.finish.ovr = _ ∧ e.statusAnswered.finish.path.asks _ = true ∧
      e.statusAnswered.finish.note.has _ = true)
    rw [statusAnswered_ends hb hi hn]
    refine ⟨?_, endBatch_asks hasked, raise_has _ _⟩
    show { e.st.ovr with statusOut := e.st.ovr.statusOut - 1, consumer := b.stop, batch := none } = _
    rw [hn, hovr]
  · subst hk
    rw [← hovr] at hb hi hn
    show e.statusAnswered.finish.ovr = _
    rw [statusAnswered_waits hb hi hn, ← hovr]
    rfl
  · subst hk
    show e.recordAnswered.finish.dec = _ ∧ e.recordAnswered.finish.path.asks _ = true
    rw [recordAnswered_eq, ← hdec]
    exact ⟨rfl, Ev.finish_asks (by simp) nofun nofun⟩
  · subst hk
    rw [← hdec] at hw hroom hl
    obtain ⟨hplaced, hmem⟩ := producerAnswered_places hw hroom hl
    rw [hdec] at hplaced hmem
    exact ⟨hplaced, Ev.finish_asks hmem nofun nofun⟩
  · subst hk
    rw [← htally] at hq ⊢
    exact ⟨imageAnswered_counts hq hp, imageAnswered_snapshotEnd hasked hq hp⟩

end Sys2Proof.Proofs
end

section
/-! DEC_CONSUMER (R138, R140), and the bytes of a decision record (R213). -/

namespace Sys2Proof.Proofs

open Sys2Proof Sys2Proof.Machine Sys2Proof.Laws

/-! ### The consumer index taken (R138, R140) -/

/-- The decision writer with consumer index `v` taken. -/
def consumedTo (d : DecisionWriter) (v : Word16) : DecisionWriter := { d with consumerShadow := v }

/-- A value more than M behind the producer index is ignored. -/
theorem takeConsumer_far {e : Ev} {w : Word32} (h : e.st.dec.ringSize < (e.st.dec.producer - w.setWidth 16).toNat) :
    e.takeConsumer w = e := by
  unfold Ev.takeConsumer
  exact if_neg (Nat.not_le.2 h)

theorem takeConsumer_near {e : Ev} {w : Word32} (h : (e.st.dec.producer - w.setWidth 16).toNat ≤ e.st.dec.ringSize) :
    e.takeConsumer w = (e.changeDec (consumedTo · (w.setWidth 16))).placeRecord := by
  unfold Ev.takeConsumer
  exact if_pos h

section Consumer
variable {e : Ev} {w : Word32} {d : DecisionWriter} (hd : e.st.dec = d)
include hd

theorem takeConsumer_ignores (h : d.ringSize < (d.producer - w.setWidth 16).toNat) : (e.takeConsumer w).st.dec = d := by
  subst hd
  rw [takeConsumer_far h]

/-- With no record to place, or none that may be placed, the consumer shadow alone moves. -/
theorem takeConsumer_waits (h : (d.producer - w.setWidth 16).toNat ≤ d.ringSize)
    (hidle : d.list = [] ∨ (consumedTo d (w.setWidth 16)).mayPlace = false) :
    (e.takeConsumer w).st.dec = consumedTo d (w.setWidth 16) := by
  subst hd
  rw [takeConsumer_near h]
  have hkept : (e.changeDec (consumedTo · (w.setWidth 16))).placeRecord = e.changeDec (consumedTo · (w.setWidth 16)) :=
    hidle.elim (fun hlist => placeRecord_empty hlist) (fun hplace => placeRecord_idle hplace)
  rw [hkept]
  rfl

/-- The ring freed takes the oldest record of the list. -/
theorem takeConsumer_places (h : (d.producer - w.setWidth 16).toNat ≤ d.ringSize) {r : DecRecord} {rs : List DecRecord}
    (hlist : d.list = r :: rs) (hplace : (consumedTo d (w.setWidth 16)).mayPlace = true) :
    (e.takeConsumer w).st.dec = placed (consumedTo d (w.setWidth 16)) r rs ∧
      .decRecord (d.producer.toNat % d.ringSize) r.bytes ∈ (e.takeConsumer w).asked := by
  subst hd
  rw [takeConsumer_near h]
  exact placeRecord_places (e := e.changeDec (consumedTo · (w.setWidth 16))) hlist hplace

end Consumer

/-! ### The write of DEC_CONSUMER -/

/-- Words other than DEC_CONSUMER leave the decision writer. -/
theorem takeWords_dec {ws : List (CtrlWord × Word32)} (hn : ∀ p ∈ ws, p.1 ≠ .decConsumer) (e : Ev) :
    (e.takeWords ws).st.dec = e.st.dec := by
  refine (keeps_takeWords_touches (bs := ws.flatMap fun p => wordTouches p.1) ws
    (fun p hp b hb => List.mem_flatMap.2 ⟨p, hp, hb⟩) e).dec fun hdec => ?_
  obtain ⟨p, hp, hb⟩ := List.mem_flatMap.1 hdec
  have hne := hn p hp
  revert hne hb
  cases p.1 <;> simp [wordTouches]

section ConsumerWrite
variable {s : State} {x : Txn} {off : Nat} {w : Word32}

/-- Whatever words the write writes besides, the decision writer is as the take of this one leaves it, and a record placed by
the take is asked for. -/
theorem decConsumer_within (ho : writesOnce off x .decConsumer w = true) :
    let t := ((accepted s x).forwardCtrl x off).finishPath
    ∃ e : Ev, e.st.dec = s.dec ∧ t.dec = (e.takeConsumer w).st.dec ∧
      ∀ slot bs, .decRecord slot bs ∈ (e.takeConsumer w).asked → t.path.asks (.decRecord slot bs) = true := by
  obtain ⟨l, r, hs, hl, hr⟩ := ctrlWords_split ho
  have hsplit : (accepted s x).takeWords (ctrlWords off x) =
      (((accepted s x).takeWords l).takeConsumer w).takeWords r := by
    rw [hs, takeWords_append]; rfl
  unfold Ev.forwardCtrl
  dsimp only
  rw [hsplit]
  refine ⟨(accepted s x).takeWords l, (takeWords_dec hl _).trans (by rw [accepted_st]), ?_, fun slot bs hasked => ?_⟩
  · rw [Ev.finishPath_dec, Ev.issue_dec, takeWords_dec hr]
  · exact Ev.finishPath_asks ((takeWords_asked r _).1 _ hasked) nofun nofun

/-- DEC_CONSUMER written alone is taken, and the write is issued as it came (R171). -/
theorem forwardCtrl_decConsumer (ho : writesAlone off x .decConsumer w = true) (e : Ev) :
    e.forwardCtrl x off = (e.takeConsumer w).issue x x.lanes false false false := by
  refine (forwardCtrl_of_writesAlone ho e).trans ?_
  rw [substituteLanes_of_writesAlone ho rfl]
  rfl

/-- The write that writes the word alone: it reaches memory as written. -/
theorem decConsumer_alone (ho : writesAlone off x .decConsumer w = true) :
    let t := ((accepted s x).forwardCtrl x off).finishPath
    s.path.Issued t.path (downAs x x.lanes false false) false ∧
      t = { s with path := t.path, src := s.src.counted x.source, dec := t.dec } := by
  have hst : ((accepted s x).takeConsumer w).st =
      { (accepted s x).st with dec := ((accepted s x).takeConsumer w).st.dec } := eq_mixed (keeps_takeConsumer _ w)
  have hret := (grows_takeConsumer (accepted s x) w).returned.trans (accepted_returned s x)
  rw [accepted_st] at hst
  rw [forwardCtrl_decConsumer ho]
  generalize (accepted s x).takeConsumer w = e at hst hret ⊢
  obtain ⟨hissued, hframe⟩ := issue_grant (s := s) (e := e) (x := x) (ls := x.lanes) (g := false)
    (b := false) (r := false) (by rw [hst]) hret
  refine ⟨hissued, hframe.trans ?_⟩
  rw [Ev.finishPath_dec, Ev.issue_dec]
  exact congrArg (fun u : State => { u with path := (e.issue x x.lanes false false false).finishPath.path }) hst

end ConsumerWrite

/-! ### The bytes of a decision record (R213, Table 12-7) -/

section Bytes

theorem halfAt_leBytes (n : Nat) : halfAt (leBytes 2 n) 0 = n % 2 ^ 16 := by
  show (BitVec.ofNat 8 (n / 256 ^ 0)).toNat + 256 * (BitVec.ofNat 8 (n / 256 ^ 1)).toNat = _
  rw [BitVec.toNat_ofNat, BitVec.toNat_ofNat]
  omega

/-- A field of 16 bits is held whole. -/
theorem halfAt_leBytes_word {m : Nat} (v : BitVec m) (hm : m ≤ 16) : halfAt (leBytes 2 v.toNat) 0 = v.toNat := by
  rw [halfAt_leBytes]
  exact Nat.mod_eq_of_lt (v.isLt.trans_le (Nat.pow_le_pow_right (by decide) hm))

/-- Table 12-7, byte 13: the flags from bit 0 up. -/
theorem flagsByte_eq (f : BoardFlags) : f.byte = Nat.bit f.degraded (Nat.bit f.overridden (Nat.bit f.unsolved
    (Nat.bit f.overrideDropped (Nat.bit f.lateSlices (Nat.bit f.scanTimeout (Nat.bit f.headLost 0)))))) := by
  have hbit : ∀ b : Bool, b.toNat % 2 ^ 1 = b.toNat := by decide
  simp only [BoardFlags.byte, place, Nat.bit_val, hbit]
  omega

theorem segCode_lt (c : Option SegMark) : segCode c < 8 := by
  match c with
  | none | some .unscanned | some .empty | some .reject => decide
  | some (.grade g) => cases g <;> decide

variable (r : DecRecord)

theorem record_length : r.bytes.length = 32 := rfl

theorem record_flag {i : Nat} (h : i < 8) : (byteAt r.bytes 13).testBit i = r.flags.byte.testBit i := by
  show (BitVec.ofNat 8 r.flags.byte).toNat.testBit i = _
  rw [BitVec.toNat_ofNat, Nat.testBit_mod_two_pow, decide_eq_true h, Bool.true_and]

/-- The flags, each at its bit; bit 7 is 0. -/
theorem record_flags : let flag := fun i : Nat => (byteAt r.bytes 13).testBit i
    flag 0 = r.flags.degraded ∧ flag 1 = r.flags.overridden ∧ flag 2 = r.flags.unsolved ∧
      flag 3 = r.flags.overrideDropped ∧ flag 4 = r.flags.lateSlices ∧ flag 5 = r.flags.scanTimeout ∧
      flag 6 = r.flags.headLost ∧ flag 7 = false := by
  intro flag
  have hflag : ∀ i < 8, flag i = r.flags.byte.testBit i := fun i => record_flag r
  simp [hflag, flagsByte_eq, Nat.testBit_bit_succ]

theorem record_run_none (h : r.decision.run = none) : byteAt r.bytes 3 = 0xFF ∧ byteAt r.bytes 4 = 0xFF := by
  show (BitVec.ofNat 8 ((r.decision.run.map (·.1)).getD 255)).toNat = _ ∧
    (BitVec.ofNat 8 ((r.decision.run.map (·.2)).getD 255)).toNat = _
  rw [h]
  exact ⟨rfl, rfl⟩

theorem record_run_some {a b : Nat} (h : r.decision.run = some (a, b)) :
    byteAt r.bytes 3 = a % 256 ∧ byteAt r.bytes 4 = b % 256 := by
  show (BitVec.ofNat 8 ((r.decision.run.map (·.1)).getD 255)).toNat = _ ∧
    (BitVec.ofNat 8 ((r.decision.run.map (·.2)).getD 255)).toNat = _
  rw [h]
  exact ⟨BitVec.toNat_ofNat .., BitVec.toNat_ofNat ..⟩

theorem record_station : byteAt r.bytes 15 = (r.station.getD 255).toNat := rfl

theorem record_segments (j : Fin 6) : byteAt r.bytes (16 + j.val) =
    segCode (classAt r.classes (2 * j.val)) + 16 * segCode (classAt r.classes (2 * j.val + 1)) := by
  have hbyte : byteAt r.bytes (16 + j.val) = (BitVec.ofNat 8 (segByte r.classes j.val)).toNat := by
    fin_cases j <;> rfl
  have hlow := segCode_lt (classAt r.classes (2 * j.val))
  have hhigh := segCode_lt (classAt r.classes (2 * j.val + 1))
  rw [hbyte, BitVec.toNat_ofNat]
  exact Nat.mod_eq_of_lt (show segCode (classAt _ _) + 16 * segCode (classAt _ _) < 256 by omega)

/-- Each byte of the classes holds an even segment's code below and the next one's above. -/
theorem record_segment_codes (j : Fin 6) :
    byteAt r.bytes (16 + j.val) % 16 = segCode (classAt r.classes (2 * j.val)) ∧
      byteAt r.bytes (16 + j.val) / 16 = segCode (classAt r.classes (2 * j.val + 1)) := by
  have hlow := segCode_lt (classAt r.classes (2 * j.val))
  have hbyte := record_segments r j
  omega

theorem record_padding (n : Fin 8) : byteAt r.bytes (24 + n.val) = 0 := by
  fin_cases n <;> rfl

end Bytes

/-- Settles O50: the take by the value's distance behind the producer index and by the placement test, within the write's other
words; the record byte by byte. -/
theorem decisionConsumerWritten : Obligations.DecisionConsumerWritten := by
  unfold Obligations.DecisionConsumerWritten
  constructor
  · intro s x off w hf ho v behind free slot
    obtain ⟨e, hdec, htaken, hasks⟩ := decConsumer_within (s := s) ho
    have hfree : (consumedTo s.dec v).mayPlace = true ↔ free := mayPlace_iff _
    refine ⟨_, grantIf_ctrl hf ho rfl, fun hfar => htaken.trans (takeConsumer_ignores hdec hfar),
      fun hnear hidle => ?_, fun r rest hnear hlist hroom => ?_, decConsumer_alone⟩
    · rw [← hfree, Bool.not_eq_true] at hidle
      exact htaken.trans (takeConsumer_waits hdec hnear hidle)
    · obtain ⟨hplaced, hasked⟩ := takeConsumer_places hdec hnear hlist (hfree.2 hroom)
      exact ⟨htaken.trans hplaced, hasks _ _ hasked⟩
  · intro r d flag code
    have hcode : ∀ j, segCode (classAt r.classes j) = code j := fun j => by
      dsimp only [code]
      match classAt r.classes j with
      | none | some .unscanned | some .empty | some .reject => rfl
      | some (.grade g) => cases g <;> rfl
    refine ⟨record_length r, halfAt_leBytes_word r.lug le_rfl, ?_, record_run_none r, fun a b => record_run_some r,
      BitVec.toNat_ofNat .., halfAt_leBytes_word d.saws (by decide), halfAt_leBytes d.value, halfAt_leBytes d.bf10,
      BitVec.toNat_ofNat .., record_flags r, ?_, fun h => ?_, fun n h => ?_, fun j => ?_,
      halfAt_leBytes_word r.product le_rfl, record_padding r⟩
    · show (BitVec.ofNat 8 d.cls.code).toNat = _
      match d.cls with
      | .reman | .trash => rfl
      | .grade g => cases g <;> rfl
    · show (BitVec.ofNat 8 r.bank.recordCode).toNat = _
      cases r.bank <;> rfl
    · rw [record_station, h]; rfl
    · rw [record_station, h]; rfl
    · rw [← hcode, ← hcode]
      exact record_segment_codes r j

end Sys2Proof.Proofs
end

section
/-! The tally's banks through each command (R145, R146, R148): the LUG event's drop, the two kinds of answer and the grants of
the forwarded side change them; every other command leaves the tally unit. -/

namespace Sys2Proof.Proofs

open Sys2Proof Sys2Proof.Machine Sys2Proof.Laws

/-! ### The grants of the forwarded side -/

/-- Words other than TALLY_REQUEST leave the tally unit. -/
theorem takeWord_tally {k : CtrlWord} (hk : k ≠ .tallyRequest) (e : Ev) (w : Word32) :
    (e.takeWord k w).st.tally = e.st.tally := by
  refine (keeps_takeWord_touches e k w).tally ?_
  revert hk
  cases k <;> simp [wordTouches]

theorem takeWords_tally {ws : List (CtrlWord × Word32)} (hn : ∀ p ∈ ws, p.1 ≠ .tallyRequest) (e : Ev) :
    (e.takeWords ws).st.tally = e.st.tally := by
  induction ws generalizing e with
  | nil => rfl
  | cons p ws ih =>
    exact (ih (fun q hq => hn q (List.mem_cons_of_mem _ hq)) _).trans (takeWord_tally (hn p List.mem_cons_self) e p.2)

theorem takeWord_sound {e : Ev} (k : CtrlWord) (w : Word32) (h : SoundBanks e.st.tally) :
    SoundBanks (e.takeWord k w).st.tally := by
  by_cases hk : k = .tallyRequest
  · subst hk
    exact takeRequest_sound w h
  · rwa [takeWord_tally hk]

theorem takeWords_sound (ws : List (CtrlWord × Word32)) {e : Ev} (h : SoundBanks e.st.tally) :
    SoundBanks (e.takeWords ws).st.tally := by
  induction ws generalizing e with
  | nil => exact h
  | cons p ws ih => exact ih (takeWord_sound p.1 p.2 h)

/-- A write forwarded into the control block has its words taken; into any other aperture it leaves the tally unit. -/
theorem forwardWrite_sound {e : Ev} (x : Txn) (ap : Aperture) (off : Nat) (h : SoundBanks e.st.tally) :
    SoundBanks (e.forwardWrite x ap off).st.tally := by
  cases ap with
  | ctrl => exact takeWords_sound _ h
  | planA | planB | scan | ovr | dec | tally => exact h

theorem grant_sound {s : State} (x : Txn) (h : SoundBanks s.tally) : SoundBanks (grant s x).tally := by
  unfold grant
  rw [Ev.finishPath_tally]
  generalize courseOf s x = c
  by_cases hc : ∃ ap off, c = .forward ap off
  · obtain ⟨ap, off, rfl⟩ := hc
    refine forwardWrite_sound (e := accepted s x) x ap off ?_
    rwa [accepted_st]
  · rwa [(keeps_takeCourse_elsewhere s x fun ap off hf => hc ⟨ap, off, hf⟩).tally]

/-! ### The LUG event's drop (R18) -/

theorem dropBoard_sound {e : Ev} (h : SoundBanks e.st.tally) : SoundBanks e.dropBoard.st.tally := by
  unfold Ev.dropBoard
  split
  · exact h
  · dsimp only
    split
    · rw [(keeps_freeBoard _ _).tally]
      exact offer_sound _ h
    · rwa [(keeps_freeBoard _ _).tally]

/-- Of a LUG event only the drop reaches the tally unit. -/
theorem afterLug_sound {s : State} (h : SoundBanks s.tally) : SoundBanks (afterLug s).tally := by
  rw [after_tally]
  unfold beforeArm
  refine dropBoard_sound ?_
  rwa [(keeps_lateFire _).tally, (keeps_advanced s).tally]

theorem lugEvent_sound {s t : State} (h : SoundBanks s.tally) (hx : exec .lugEvent s = .next t) : SoundBanks t.tally := by
  cases hr : s.running with
  | true =>
    rw [exec_lugEvent hr] at hx
    cases hx
    exact afterLug_sound h
  | false =>
    rw [exec_lugEvent_idle hr] at hx
    cases hx
    exact h

/-! ### Memory's answers (R153, R159) -/

theorem answerEvent_sound {s : State} (ok : Bool) (i : Fin 16) (b r : Bool) (w : Wire) (rest : List Down)
    (h : SoundBanks s.tally) : SoundBanks (answerEvent s ok i b r w rest).st.tally := by
  rw [← (returnedAnswer_untouched s ok i b w rest).1] at h
  unfold answerEvent
  split
  · exact requestWriteAnswered_sound h
  · exact h

theorem memoryAnswer_sound {ok : Bool} {s t : State} (h : SoundBanks s.tally) (hx : exec (.memoryAnswer ok) s = .next t) :
    SoundBanks t.tally := by
  have hnext : execMemoryAnswer ok s = .next t := hx
  unfold execMemoryAnswer at hnext
  split at hnext
  · rename_i i b r w rest hdown
    rw [exec_memoryAnswer s ok i b r w rest hdown] at hx
    cases hx
    exact answerEvent_sound ok i b r w rest h
  · rwa [notTaken_next hnext]

/-- Of the own transactions only the image writes are the tally unit's. -/
theorem ownAnswered_sound {e : Ev} (k : OwnTxn) (ok : Bool) (d : List Byte) (h : SoundBanks e.st.tally) :
    SoundBanks (e.ownAnswered k ok d).st.tally := by
  cases k with
  | imageLine => exact imageAnswered_sound ok h
  | ovrFetch => rwa [show e.ownAnswered _ ok d = e.fetchAnswered _ from rfl, (keeps_fetchAnswered _ _).tally]
  | ovrStatus => rwa [show e.ownAnswered _ ok d = e.statusAnswered from rfl, (keeps_statusAnswered _).tally]
  | decRecord => rwa [show e.ownAnswered _ ok d = e.recordAnswered from rfl, (keeps_recordAnswered _).tally]
  | decProducer => rwa [show e.ownAnswered _ ok d = e.producerAnswered _ from rfl, (keeps_producerAnswered _ _).tally]
  | notice | lineStatus | headStatus | sourceStatus | tallyStatus | noticeEnable | ovrConsumer | tallyCompletion => exact h

theorem ownTransactionAnswer_sound {ok : Bool} {s t : State} (h : SoundBanks s.tally)
    (hx : exec (.ownTransactionAnswer ok) s = .next t) : SoundBanks t.tally := by
  have hnext : execOwnTransactionAnswer ok s = .next t := hx
  unfold execOwnTransactionAnswer at hnext
  split at hnext
  · rename_i k w rest hdown
    rw [exec_ownTransactionAnswer s ok k w rest hdown] at hx
    cases hx
    rw [← (keeps_beforeBlock s ok k w rest).tally] at h
    exact ownAnswered_sound k ok _ h
  · rwa [notTaken_next hnext]

/-! ### Every command -/

/-- The commands that may change the tally unit. -/
theorem changes_tally {c : Instr} (hc : .tally ∈ footprint c) :
    c = .deviceReset ∨ c = .lugEvent ∨ (∃ ok, c = .memoryAnswer ok) ∨ (∃ ok, c = .ownTransactionAnswer ok) ∨
      ∃ row, grantRow c = some row := by
  revert hc
  cases c <;> simp [footprint, grantRow]

theorem exec_sound {c : Instr} {s t : State} (h : SoundBanks s.tally) (hx : exec c s = .next t) : SoundBanks t.tally := by
  by_cases htally : .tally ∈ footprint c
  · rcases changes_tally htally with rfl | rfl | ⟨ok, rfl⟩ | ⟨ok, rfl⟩ | ⟨row, hrow⟩
    · cases hx
      exact (tallyInv_iff _).1 tallyInv_reset
    · exact lugEvent_sound h hx
    · exact memoryAnswer_sound h hx
    · exact ownTransactionAnswer_sound h hx
    · rw [exec_grantRow hrow] at hx
      rcases grantIf_cases row s with ⟨x, -, -, hg⟩ | hg <;> (rw [hg] at hx; cases hx)
      · exact grant_sound x h
      · exact h
  · rwa [(keeps_exec hx).tally htally]

/-- Settles O55: every command keeps the banks sound, by what its operations do to the tally unit; a step takes one command off
the queue, which the invariant does not read. -/
theorem tallyInvKept : Obligations.TallyInvKept := by
  unfold Obligations.TallyInvKept
  intro s t hs h
  unfold step at h
  split at h
  · cases h
    exact hs
  · rename_i c rest _
    exact (tallyInv_iff t).2 (exec_sound (s := { s with pending := rest }) ((tallyInv_iff s).1 hs) h)

end Sys2Proof.Proofs
end

section
/-! The write of TALLY_REQUEST (R151 to R157): taken while the request state is IDLE, held off or given up while it is BUSY;
and the bytes of a tally image (R215). -/

namespace Sys2Proof.Proofs

open Sys2Proof Sys2Proof.Machine Sys2Proof.Laws

/-! ### What a request word asks (R151, Table 8-3) -/

section Ask
variable {w : Word32}

theorem requestCode_toNat (w : Word32) : (requestCode w).toNat = w.toNat % 16 := BitVec.toNat_setWidth 4 w

theorem requestBank_toNat (w : Word32) : (requestBank w).toNat = w.toNat / 16 % 4 := by
  unfold requestBank
  rw [BitVec.toNat_setWidth, BitVec.toNat_ushiftRight, Nat.shiftRight_eq_div_pow]

theorem bankOfField_requestBank {k : Bank} (h : w.toNat / 16 % 4 = bankCode (some k)) :
    bankOfField (requestBank w).toNat = some k := by
  rw [requestBank_toNat, h]
  cases k <;> rfl

theorem bankOfField_unnamed (h : w.toNat / 16 % 4 = 0 ∨ w.toNat / 16 % 4 = 3) :
    bankOfField (requestBank w).toNat = none := by
  rw [requestBank_toNat]
  rcases h with h | h <;> rw [h] <;> rfl

theorem tallyAsk_closeShift (h : w.toNat % 16 = 1) : tallyAsk w = .closeShift := by
  unfold tallyAsk
  rw [requestCode_toNat, h]
  rfl

theorem tallyAsk_snapshot {k : Bank} (h : w.toNat % 16 = 2) (hk : w.toNat / 16 % 4 = bankCode (some k)) :
    tallyAsk w = .snapshot k := by
  unfold tallyAsk
  rw [requestCode_toNat, h, bankOfField_requestBank hk]
  rfl

theorem tallyAsk_clear {k : Bank} (h : w.toNat % 16 = 3) (hk : w.toNat / 16 % 4 = bankCode (some k)) :
    tallyAsk w = .clear k := by
  unfold tallyAsk
  rw [requestCode_toNat, h, bankOfField_requestBank hk]
  rfl

/-- Table 8-3: an unlisted code is refused, and so is a SNAPSHOT or CLEAR that names no bank. -/
theorem tallyAsk_refused (h : w.toNat % 16 = 0 ∨ 4 ≤ w.toNat % 16 ∨
      ((w.toNat % 16 = 2 ∨ w.toNat % 16 = 3) ∧ (w.toNat / 16 % 4 = 0 ∨ w.toNat / 16 % 4 = 3))) :
    tallyAsk w = .refused := by
  unfold tallyAsk
  rw [requestCode_toNat]
  rcases h with h | h | ⟨h, hf⟩
  · rw [h]
    rfl
  · split
    · omega
    · omega
    · omega
    · rfl
  · rw [bankOfField_unnamed hf]
    rcases h with h | h <;> (rw [h]; rfl)

end Ask

/-! ### A request taken (R151, R154, R155, R157) -/

/-- What a request makes of the banks, the status its own work leaves, and the snapshot it begins. -/
def requestOutcome (t : Tally) : TallyAsk → Tally × Option RequestStatus × Option Snapshot
  | .closeShift => (t.closeShift.1, some t.closeShift.2, none)
  | .clear k => ((t.clearBank k).1, some (t.clearBank k).2, none)
  | .refused => (t, some .refused, none)
  | .snapshot k => (t, none, some { bank := k, answered := 0, error := false })

/-- R154: with a bank OPEN and the other EMPTY the shift changes over. -/
theorem closeShift_shifts {t : Tally} {k : Bank} (hk : t.openBank = some k) (h : (t.bank k.other).state = .empty) :
    t.closeShift = ((t.setBank k { t.bank k with state := .closed }).setBank k.other
      { t.bank k.other with state := .opened }, .ok) := by
  unfold Tally.closeShift
  rw [hk]
  exact if_pos h

theorem closeShift_refused {t : Tally}
    (h : t.openBank = none ∨ ∃ k, t.openBank = some k ∧ (t.bank k.other).state ≠ .empty) :
    t.closeShift = (t, .refused) := by
  unfold Tally.closeShift
  rcases h with h | ⟨k, hk, h⟩
  · rw [h]
  · rw [hk]
    exact if_neg h

/-- R155, Table 8-5: a CLOSED or FULL bank is zeroed, and opened where the other is not OPEN. -/
theorem clearBank_zeroes {t : Tally} {k : Bank} (h : (t.bank k).state = .closed ∨ (t.bank k).state = .full) :
    t.clearBank k =
      (t.setBank k (TallyBank.zeroed (if (t.bank k.other).state = .opened then .empty else .opened)), .ok) := by
  unfold Tally.clearBank
  rcases h with h | h <;> rw [h] <;> dsimp only <;> split <;> rfl

theorem clearBank_opened {t : Tally} {k : Bank} (h : (t.bank k).state = .opened) : t.clearBank k = (t, .refused) := by
  unfold Tally.clearBank
  rw [h]

theorem clearBank_empty {t : Tally} {k : Bank} (h : (t.bank k).state = .empty) : t.clearBank k = (t, .ok) := by
  unfold Tally.clearBank
  rw [h]

section Take
variable (e : Ev) (w : Word32)

theorem takeRequest_tally {banks : Tally} {st : Option RequestStatus} {sn : Option Snapshot}
    (h : requestOutcome e.st.tally (tallyAsk w) = (banks, st, sn)) :
    (e.takeRequest w).st.tally = { banks with request := some (requestTaken w st sn) } := by
  unfold Ev.takeRequest
  cases ha : tallyAsk w <;> rw [ha] at h <;> cases h <;> exact changeTally_tally _ _

/-- R161: a request taken is shown in TALLY_STATUS. -/
theorem takeRequest_asks_status (h : e.st.tally.request = none) : .tallyStatus ∈ (e.takeRequest w).asked := by
  have hshown : ∀ f : Tally → Tally, (f e.st.tally).request.isSome = true → .tallyStatus ∈ (e.changeTally f).asked := by
    intro f hf
    rw [changeTally_shown fun hs => ?_]
    · simp
    · have hbusy : (f e.st.tally).request.isSome = e.st.tally.request.isSome := congrArg (·.2.2.1) hs
      rw [hf, h] at hbusy
      cases hbusy
  unfold Ev.takeRequest
  split
  · exact hshown _ rfl
  · exact hshown _ rfl
  · exact hshown _ rfl
  · exact List.mem_append_left _ (hshown _ rfl)

/-- R157: a snapshot asks for its 13 image writes. -/
theorem takeRequest_asks_image {k : Bank} (h : tallyAsk w = .snapshot k) {n : Nat} (hn : n < 13) :
    .imageLine k n (((imageBytes k (e.st.tally.bank k)).drop (64 * n)).take 64) ∈ (e.takeRequest w).asked := by
  unfold Ev.takeRequest
  rw [h]
  exact List.mem_append_right _ (List.mem_map.2 ⟨n, List.mem_range.2 hn, rfl⟩)

theorem requestOutcome_snapshot {t : Tally} {a : TallyAsk} {p : Snapshot} (h : (requestOutcome t a).2.2 = some p) :
    a = .snapshot p.bank := by
  cases a <;> cases h
  rfl

end Take

/-! ### The write of TALLY_REQUEST while IDLE -/

section RequestWritten
variable {s : State} {x : Txn} {off : Nat} {w : Word32}

theorem valueOf_isSome {k : CtrlWord} {w : Word32} {ws : List (CtrlWord × Word32)} (h : (k, w) ∈ ws) :
    (valueOf k ws).isSome = true := by
  induction ws with
  | nil => cases h
  | cons p ws ih =>
    show (if p.1 = k then some p.2 else valueOf k ws).isSome = true
    split
    · rfl
    · rename_i hp
      rcases List.mem_cons.1 h with rfl | h
      · exact absurd rfl hp
      · exact ih h

/-- R169, step 4: a write of a watched word whose block is busy is not forwarded. -/
theorem decideWrite_busy (h : busyWord s (ctrlWords off x) = true) : decideWrite s x .ctrl off ≠ .forward .ctrl off := by
  unfold decideWrite
  rw [if_pos h]
  split
  · nofun
  · split
    · nofun
    · nofun
    · dsimp only
      split <;> nofun

/-- R152: the word is forwarded only while no request is in progress. -/
theorem request_none_of_forwards (hf : s.forwardsCtrl x off = true) (ho : writesOnce off x .tallyRequest w = true) :
    s.tally.request = none := by
  have hd := ((forwardsCtrl_iff _ _ _).1 hf).2
  by_contra hbusy
  have hword : busyWord s (ctrlWords off x) = true := by
    unfold busyWord
    rw [valueOf_isSome (mem_of_writesOnce ho), Option.isSome_iff_ne_none.2 hbusy]
    exact Bool.or_true _
  exact decideWrite_busy hword hd

/-- Whatever words the write writes besides, the tally unit is as the take of this one leaves it, and what the take asks for
is asked for. -/
theorem tallyRequest_within (ho : writesOnce off x .tallyRequest w = true) :
    let t := ((accepted s x).forwardCtrl x off).finishPath
    ∃ e : Ev, e.st.tally = s.tally ∧ t.tally = (e.takeRequest w).st.tally ∧
      ∀ k ∈ (e.takeRequest w).asked, (∀ v, k ≠ .ovrConsumer v) → (∀ v, k ≠ .tallyCompletion v) →
        t.path.asks k = true := by
  obtain ⟨l, r, hs, hl, hr⟩ := ctrlWords_split ho
  have hsplit : (accepted s x).takeWords (ctrlWords off x) =
      (((accepted s x).takeWords l).takeRequest w).takeWords r := by
    rw [hs, takeWords_append]; rfl
  unfold Ev.forwardCtrl
  dsimp only
  rw [hsplit]
  refine ⟨(accepted s x).takeWords l, (takeWords_tally hl _).trans (by rw [accepted_st]), ?_, fun k hk h1 h2 => ?_⟩
  · rw [Ev.finishPath_tally, Ev.issue_tally, takeWords_tally hr]
  · exact Ev.finishPath_asks ((takeWords_asked r _).1 _ hk) h1 h2

/-- TALLY_REQUEST written alone is taken, and the write is issued as it came, carrying the request (R153, R171). -/
theorem forwardCtrl_tallyRequest (ho : writesAlone off x .tallyRequest w = true) (e : Ev) :
    e.forwardCtrl x off = (e.takeRequest w).issue x x.lanes false false true := by
  refine (forwardCtrl_of_writesAlone ho e).trans ?_
  rw [substituteLanes_of_writesAlone ho rfl]
  rfl

/-- The write that writes the word alone: it reaches memory as written. -/
theorem tallyRequest_alone (ho : writesAlone off x .tallyRequest w = true) :
    let t := ((accepted s x).forwardCtrl x off).finishPath
    s.path.Issued t.path (downAs x x.lanes false true) false ∧
      t = { s with path := t.path, src := s.src.counted x.source, tally := t.tally } := by
  have hst : ((accepted s x).takeRequest w).st =
      { (accepted s x).st with tally := ((accepted s x).takeRequest w).st.tally } := eq_mixed (keeps_takeRequest _ w)
  have hret := (grows_takeRequest (accepted s x) w).returned.trans (accepted_returned s x)
  rw [accepted_st] at hst
  rw [forwardCtrl_tallyRequest ho]
  generalize (accepted s x).takeRequest w = e at hst hret ⊢
  obtain ⟨hissued, hframe⟩ := issue_grant (s := s) (e := e) (x := x) (ls := x.lanes) (g := false)
    (b := false) (r := true) (by rw [hst]) hret
  refine ⟨hissued, hframe.trans ?_⟩
  rw [Ev.finishPath_tally, Ev.issue_tally]
  exact congrArg (fun u : State => { u with path := (e.issue x x.lanes false false true).finishPath.path }) hst

/-- Command `cmd` takes the request: it is BUSY with the word's code and bank, with the status and the snapshot given, and the
banks are those given. -/
def TakesRequest (s : State) (x : Txn) (off : Nat) (w : Word32) (cmd : Instr) (st : Option RequestStatus)
    (sn : Option Snapshot) (banks : Tally) : Prop :=
  ∃ t q, exec cmd s = .next t ∧
    (q.code.toNat = w.toNat % 16 ∧ q.bankField.toNat = w.toNat / 16 % 4 ∧ q.writeAnswered = false ∧ q.status = st ∧
      q.snapshot = sn) ∧
    t.tally = { banks with request := some q } ∧ t.path.asks .tallyStatus = true ∧
    (∀ p, sn = some p → ∀ n : Nat, n < 13 → t.path.asks (.imageLine p.bank n
      (((imageBytes p.bank (s.tally.bank p.bank)).drop (64 * n)).take 64)) = true) ∧
    (writesAlone off x .tallyRequest w = true →
      s.path.Issued t.path (downAs x x.lanes false true) false ∧
      t = { s with path := t.path, src := s.src.counted x.source, tally := t.tally })

/-- Each of the four rows takes the request by what the word asks. -/
theorem takesRequest {cmd : Instr} {p : Word32 → Bool} {st : Option RequestStatus} {sn : Option Snapshot} {banks : Tally}
    (hf : s.forwardsCtrl x off = true) (ho : writesOnce off x .tallyRequest w = true)
    (hrow : grantRow cmd = some fun s t => writesWord s t .tallyRequest p) (hp : p w = true)
    (hout : requestOutcome s.tally (tallyAsk w) = (banks, st, sn)) : TakesRequest s x off w cmd st sn banks := by
  obtain ⟨e, hunit, htally, hasks⟩ := tallyRequest_within (s := s) ho
  rw [← hunit] at hout
  refine ⟨_, requestTaken w st sn, (exec_grantRow hrow s).trans (grantIf_ctrl hf ho hp),
    ⟨requestCode_toNat w, requestBank_toNat w, rfl, rfl, rfl⟩, htally.trans (takeRequest_tally e w hout),
    hasks _ (takeRequest_asks_status e w (hunit ▸ request_none_of_forwards hf ho)) nofun nofun,
    fun snap hsn n hn => ?_, tallyRequest_alone⟩
  have hask : tallyAsk w = .snapshot snap.bank := requestOutcome_snapshot ((congrArg (·.2.2) hout).trans hsn)
  rw [← hunit]
  exact hasks _ (takeRequest_asks_image e w hask hn) nofun nofun

end RequestWritten

/-! ### The write of TALLY_REQUEST while BUSY (R152, R190) -/

section Busy
variable {s : State} {x : Txn} {off : Nat} {w : Word32}

/-- R184: the control source, untrapped and in the mask, passes with any words that are not owned. -/
theorem permission_control (hc : x.source = s.src.control) (ht : s.src.ctx[x.source].trapped = false)
    (hm : s.src.maskCtrl.getLsbD x.source = true) (ho : writesOwned true (ctrlWords off x) = false) :
    permission s x .ctrl off = .pass := by
  have hb : s.src.barred .ctrl x.source = false := by simp [SourceTable.barred, SourceTable.mask, hm]
  unfold permission
  dsimp only
  rw [if_pos rfl, ht, decide_eq_true hc, ho, hb]
  simp

/-- The row that takes the write while a request is in progress: it is held off, or given up. -/
theorem exec_tallyRequest_busy (hg : s.grantsInto x .ctrl off = true) (hwhole : wholeWords x.lanes = true)
    (hc : x.source = s.src.control) (ht : s.src.ctx[x.source].trapped = false)
    (hm : s.src.maskCtrl.getLsbD x.source = true) (ho : writesAlone off x .tallyRequest w = true)
    (hbusy : s.tally.request ≠ none) : exec .apertureWrite s =
      .next ((Ev.start s).takeCourse x (if s.src.exhausted x.source then .refusedExhausted else .retry)).finishPath := by
  obtain ⟨hrun, hturn, -, -⟩ := (grantsInto_iff _ _ _ _).1 hg
  have hwords : ctrlWords off x = [(.tallyRequest, w)] := by simpa [writesAlone] using ho
  have hpass : permission s x .ctrl off = .pass := permission_control hc ht hm (by rw [hwords]; rfl)
  have hword : busyWord s (ctrlWords off x) = true := by
    simp [busyWord, hwords, valueOf, Option.isSome_iff_ne_none.2 hbusy]
  have hd : decideWrite s x .ctrl off = if s.src.exhausted x.source then .refusedExhausted else .retry := by
    unfold decideWrite
    rw [hwhole, hpass, hword]
    rfl
  have hheld := decideWrite_busy hword
  have hrow : isApertureWrite s x = true := by
    unfold isApertureWrite hasOwnRow isPlanBankWrite isSliceWrite isOvrProducer forwardedWords
    rw [writeInto_of_grantsInto hg, if_pos (by simp [State.running, hrun])]
    simp [hheld, hwords, valueOf]
  refine (grantIf_taken hturn hrow).trans ?_
  unfold grant
  rw [courseOf_write hg, hd]

end Busy

/-! ### The bytes of an image (R215, Table 12-10) -/

section Image

theorem wordAt_leBytes (n : Nat) : wordAt (leBytes 4 n) 0 = n % 2 ^ 32 := by
  show (BitVec.ofNat 8 (n / 256 ^ 0)).toNat + 256 * (BitVec.ofNat 8 (n / 256 ^ 1)).toNat +
    65536 * ((BitVec.ofNat 8 (n / 256 ^ 2)).toNat + 256 * (BitVec.ofNat 8 (n / 256 ^ 3)).toNat) = _
  simp only [BitVec.toNat_ofNat]
  omega

/-- A cell's piece count is held in three bytes, and the fourth is 0. -/
theorem wordAt_pieces (c : TallyCell) (bs : List Byte) : wordAt (c.bytes ++ bs) 0 = c.pieces % 2 ^ 24 := by
  show (BitVec.ofNat 8 (c.pieces / 256 ^ 0)).toNat + 256 * (BitVec.ofNat 8 (c.pieces / 256 ^ 1)).toNat +
    65536 * ((BitVec.ofNat 8 (c.pieces / 256 ^ 2)).toNat + 256 * 0) = _
  simp only [BitVec.toNat_ofNat]
  omega

theorem wordAt_bf10 (c : TallyCell) (bs : List Byte) : wordAt (c.bytes ++ bs) 4 = c.bf10 % 2 ^ 32 :=
  wordAt_leBytes c.bf10

theorem wordAt_drop (bs : List Byte) (i j : Nat) : wordAt bs (i + j) = wordAt (bs.drop i) j := by
  have hbyte : ∀ j, byteAt bs (i + j) = byteAt (bs.drop i) j := fun j => by
    simp [byteAt, List.getD_eq_getElem?_getD, List.getElem?_drop]
  simp only [wordAt, halfAt, Nat.add_assoc, hbyte]

/-- Each cell takes 8 bytes of the image. -/
theorem drop_cells (l : List TallyCell) (n : Nat) :
    (l.flatMap TallyCell.bytes).drop (8 * n) = (l.drop n).flatMap TallyCell.bytes := by
  induction n generalizing l with
  | zero => rfl
  | succ n ih =>
    cases l with
    | nil => rfl
    | cons c l =>
      rw [List.drop_succ_cons, ← ih l, Nat.mul_succ, Nat.add_comm, ← List.drop_drop]
      rfl

variable (k : Bank) (b : TallyBank)

/-- The cells follow the image's 32 bytes of header, in order. -/
theorem image_drop_cell (n : Fin 96) : (imageBytes k b).drop (32 + 8 * n.val) =
    b.cells[n].bytes ++ (b.cells.toList.drop (n.val + 1)).flatMap TallyCell.bytes := by
  have hn : n.val < b.cells.toList.length := by simp
  calc (imageBytes k b).drop (32 + 8 * n.val)
    _ = (b.cells.toList.flatMap TallyCell.bytes).drop (8 * n.val) := by rw [← List.drop_drop]; rfl
    _ = (b.cells.toList.drop n.val).flatMap TallyCell.bytes := drop_cells _ _
    _ = _ := by rw [List.drop_eq_getElem_cons hn, List.flatMap_cons, Vector.getElem_toList]; rfl

theorem image_cell (n : Fin 96) :
    wordAt (imageBytes k b) (32 + 8 * n.val) = b.cells[n].pieces % 2 ^ 24 ∧
      wordAt (imageBytes k b) (36 + 8 * n.val) = b.cells[n].bf10 % 2 ^ 32 := by
  have hsecond : 36 + 8 * n.val = 32 + 8 * n.val + 4 := by omega
  refine ⟨?_, ?_⟩
  · refine (wordAt_drop _ (32 + 8 * n.val) 0).trans ?_
    rw [image_drop_cell, wordAt_pieces]
  · rw [hsecond, wordAt_drop, image_drop_cell, wordAt_bf10]

theorem image_length : (imageBytes k b).length = 800 := by
  have hcell : ∀ c : TallyCell, c.bytes.length = 8 := fun _ => rfl
  simp [imageBytes, leBytes, List.length_flatMap, hcell]

theorem image_padding (n : Fin 12) : byteAt (imageBytes k b) (20 + n.val) = 0 := by
  fin_cases n <;> rfl

end Image

/-- Settles O51: the four rows by what the word asks; the course while a request is in progress by whether the source is
exhausted; the image by its header and then cell by cell. -/
theorem tallyRequestsTaken : Obligations.TallyRequestsTaken := by
  unfold Obligations.TallyRequestsTaken
  refine ⟨?_, ?_, ?_⟩
  · intro s x off w hf ho code field busy takes
    have htakes : ∀ {cmd : Instr} {p : Word32 → Bool} {a : TallyAsk} {st : Option RequestStatus} {sn : Option Snapshot}
        {banks : Tally}, tallyAsk w = a → grantRow cmd = some (fun s t => writesWord s t .tallyRequest p) → p w = true →
        requestOutcome s.tally a = (banks, st, sn) → takes cmd st sn banks :=
      fun ha hrow hp hout => takesRequest hf ho hrow hp (ha ▸ hout)
    refine ⟨request_none_of_forwards hf ho, fun hcode => ?_, fun k hfield => ?_,
      fun hrefused => ?_⟩
    · have hask : tallyAsk w = .closeShift := tallyAsk_closeShift hcode
      have hp : asksCloseShift w = true := by simp [asksCloseShift, hask]
      refine ⟨fun k hk hempty => htakes hask rfl hp ?_, fun hnone => htakes hask rfl hp ?_⟩
      · simp only [requestOutcome, closeShift_shifts hk hempty]
      · simp only [requestOutcome, closeShift_refused hnone]
    · have hbank : w.toNat / 16 % 4 = bankCode (some k) := hfield.trans (by cases k <;> rfl)
      refine ⟨fun hcode => ?_, fun hcode => ?_⟩
      · have hask : tallyAsk w = .snapshot k := tallyAsk_snapshot hcode hbank
        exact htakes hask rfl (by cases k <;> simp [asksSnapshot, hask]) rfl
      · have hask : tallyAsk w = .clear k := tallyAsk_clear hcode hbank
        have hp : asksClear w = true := by cases k <;> simp [asksClear, hask]
        refine ⟨fun h => htakes hask rfl hp ?_, fun h => htakes hask rfl hp ?_, fun h => htakes hask rfl hp ?_⟩
        · simp only [requestOutcome, clearBank_zeroes h]
        · simp only [requestOutcome, clearBank_opened h]
        · simp only [requestOutcome, clearBank_empty h]
    · have hask : tallyAsk w = .refused := tallyAsk_refused hrefused
      exact htakes hask rfl (by simp [asksRefused, hask]) rfl
  · intro s x off w hg hwhole hc ht hm ho hbusy c exhausted
    have hready := forwardedTurn_oldestReady ((grantsInto_iff _ _ _ _).1 hg).2.1
    have hexhausted : s.src.exhausted x.source = true ↔ exhausted := exhausted_iff s.src x.source
    have hexec := exec_tallyRequest_busy hg hwhole hc ht hm ho hbusy
    by_cases he : exhausted
    · rw [if_pos (hexhausted.2 he)] at hexec
      obtain ⟨hsettled, hcounted, hasks, hframe⟩ := refusedExhausted_left hready
      exact ⟨_, hexec, hframe, fun hn => absurd he hn, fun _ => ⟨hsettled, hcounted, hasks⟩⟩
    · rw [if_neg (mt hexhausted.1 he)] at hexec
      obtain ⟨hsettled, hcounted, -, hframe⟩ := retry_left s x hready
      exact ⟨_, hexec, hframe, fun _ => ⟨hsettled, hcounted⟩, fun h => absurd h he⟩
  · intro k b image
    refine ⟨image_length k b, ?_, ?_, rfl, wordAt_leBytes _, wordAt_leBytes _, wordAt_leBytes _, wordAt_leBytes _,
      image_padding k b, image_cell k b⟩
    · cases k <;> rfl
    · show (BitVec.ofNat 8 b.state.code).toNat = _
      cases b.state <;> rfl

end Sys2Proof.Proofs
end

section
/-! Every command answers a next state (log 2) and keeps the queue of commands; the memory behind the part changes at memory's
answers and at a device reset alone (R180, log 19); and what a device reset leaves (R180, R201). -/

namespace Sys2Proof.Proofs

open Sys2Proof Sys2Proof.Machine Sys2Proof.Laws

/-! ### Every command answers (log 2) -/

theorem grantRow_answers {c : Instr} {row : State → Txn → Bool} (hc : grantRow c = some row) (s : State) :
    ∃ t, exec c s = .next t := by
  rw [exec_grantRow hc]
  rcases grantIf_cases row s with ⟨x, -, -, hg⟩ | hg
  · exact ⟨_, hg⟩
  · exact ⟨_, hg⟩

theorem lugEvent_answers (s : State) : ∃ t, exec .lugEvent s = .next t := by
  cases hr : s.running with
  | true => exact ⟨_, exec_lugEvent hr⟩
  | false => exact ⟨_, exec_lugEvent_idle hr⟩

theorem lugTableRestart_answers (s : State) : ∃ t, exec .lugTableRestart s = .next t := by
  by_cases hc : s.running = true ∧ 0 < s.restart.lug
  · rw [exec_lugTableRestart hc.1 hc.2]
    split <;> exact ⟨_, rfl⟩
  · exact ⟨_, exec_lugTableRestart_idle hc⟩

/-- A command is a grant's row, or each branch of its meaning ends an event or takes none. -/
theorem exec_answers (c : Instr) (s : State) : ∃ t, exec c s = .next t := by
  cases c
  case deviceReset | lampFlashToggle => exact ⟨_, rfl⟩
  case lugEvent => exact lugEvent_answers s
  case lugTableRestart => exact lugTableRestart_answers s
  case apertureWrite | planBankWrite | sliceWrite | planSelect | admitHead | release | headCommandUnknown | ovrProducer
      | decConsumer | tallyCloseShift | tallySnapshot | tallyClear | tallyRequestRefused | notice | noticeEnable | trapClear
      | lineRestart | forwardedSideGrant =>
    exact grantRow_answers rfl s
  all_goals
    dsimp only [exec, execBootStart, execBootAttemptEnd, execEncPulse, execSawHoldExpiry, execHeadPresentRise,
      execHeadPresentFall, execHeadReadyRise, execHeadReadyFall, execUpstreamAccept, execSliceFold, execSolveEnd,
      execOverrideEntryTake, execHeadMonitorRestart, execIntakeRestart, execSolverRestart, execTrimRestart,
      execArbiterGrantOwn, execMemoryAnswer, execOwnTransactionAnswer]
    repeat' split
    all_goals exact ⟨_, rfl⟩

theorem pending_notin_footprint (c : Instr) : .pending ∉ footprint c := by
  cases c <;> simp [footprint]

/-- R180, log 19: the commands that may change memory. -/
theorem changes_mem {c : Instr} (h : .mem ∈ footprint c) :
    c = .deviceReset ∨ (∃ ok, c = .memoryAnswer ok) ∨ ∃ ok, c = .ownTransactionAnswer ok := by
  cases c with
  | deviceReset => exact Or.inl rfl
  | memoryAnswer ok => exact Or.inr (Or.inl ⟨ok, rfl⟩)
  | ownTransactionAnswer ok => exact Or.inr (Or.inr ⟨ok, rfl⟩)
  | _ => simp [footprint] at h

/-- Settles O2: each command answers, and its footprint holds neither the queue nor, but for three commands, memory. -/
theorem everyCommandAnswers : Obligations.EveryCommandAnswers := by
  unfold Obligations.EveryCommandAnswers
  intro c s
  obtain ⟨t, ht⟩ := exec_answers c s
  refine ⟨t, ht, (keeps_exec ht).pending (pending_notin_footprint c), fun ⟨hreset, hforwarded, hown⟩ => ?_⟩
  refine (keeps_exec ht).mem fun hmem => ?_
  rcases changes_mem hmem with rfl | ⟨ok, rfl⟩ | ⟨ok, rfl⟩
  · exact hreset rfl
  · exact hforwarded ok rfl
  · exact hown ok rfl

/-! ### Device reset (R180, R201) -/

/-- R180: a byte that no write in flight strobes is as it was. -/
theorem read_landAll_other (n : Nat) (ds : List Down) (i : Nat) (m : Memory) (a : Nat)
    (h : ∀ d ∈ ds, d.wire.kind = .write → ∀ j : Nat, a = d.wire.start + j →
      (d.wire.lanes[j]?.map (·.strobe)).getD false = false) : (landAll n i m ds).read a = m.read a := by
  induction ds generalizing i m with
  | nil => rfl
  | cons d ds ih =>
    have hrest := fun d' hd' => h d' (List.mem_cons_of_mem _ hd')
    simp only [landAll]
    split
    · exact ih _ _ hrest
    · rename_i hk
      exact (ih _ _ hrest).trans (read_landLanes_other _ _ _ _ _ _ (h d List.mem_cons_self hk))

/-- Settles O5: the reset condition is the meaning itself, and memory is what the writes in flight leave. -/
theorem deviceResetDropsAll : Obligations.DeviceResetDropsAll := by
  unfold Obligations.DeviceResetDropsAll
  exact fun s => ⟨_, rfl, rfl, fun a ha => read_landAll_other _ _ _ _ _ ha⟩

end Sys2Proof.Proofs
end

section
/-! UPSTREAM_ACCEPT (R165, R166, R175): a transaction across a line is settled at once, and another joins the tail in its
source's order, held by the own writes pending on its line. -/

namespace Sys2Proof.Proofs

open Sys2Proof Sys2Proof.Machine Sys2Proof.Laws

/-! ### The two courses of an acceptance (R165) -/

section Accept
variable {s : State} {x : Txn} (hc : s.boot.condition ≠ .deviceReset) (hlen : s.path.flight.length < 8)
include hc hlen

theorem exec_upstreamAccept_crossing (hx : 64 < txnStart x % 64 + 8 * x.beats) : exec (.upstreamAccept x) s =
    .next (arrived s { txn := x, state := .answered { response := .refused, counted := false, givenUp := false }
      }).returnResponses.finish := by
  show execUpstreamAccept x s = _
  unfold execUpstreamAccept
  rw [if_pos ⟨hc, hlen⟩, if_pos (show crossesLine x = true from decide_eq_true hx)]
  rfl

theorem exec_upstreamAccept_within (hx : txnStart x % 64 + 8 * x.beats ≤ 64) : exec (.upstreamAccept x) s =
    .next (arrived s { txn := x, state := .behind }).finishPath := by
  have hwithin : ¬ crossesLine x = true := fun h => Nat.not_lt.2 hx (of_decide_eq_true h)
  show execUpstreamAccept x s = _
  unfold execUpstreamAccept
  rw [if_pos ⟨hc, hlen⟩, if_neg hwithin]
  rfl

end Accept

/-! ### The responses returned at the end of an event (R166) -/

theorem forall₂_mayPresent_refl (l : List UpTxn) : List.Forall₂ UpTxn.MayPresent l l :=
  List.forall₂_same.2 fun u _ => UpTxn.MayPresent.refl u

section Returned
variable {s : State} {e : Ev} {f : List UpTxn} (hp : e.st.path = { s.path with flight := f }) (hr : e.returned = [])
include hp hr

/-- An event that ends with the return of responses presents nothing. -/
theorem returnResponses_finish : e.returnResponses.finish.path.flight = (returnFrom [] f).1 ∧
    e.returnResponses.finish.path.returned = (returnFrom [] f).2 ∧ s.path.Returns e.returnResponses.finish.path f := by
  obtain ⟨more, waiting, hfinish, hgrew⟩ := e.returnResponses.finish_path
  obtain ⟨hst, -, -, -, hreturned⟩ := Ev.returnResponses_st e
  have hpath : e.returnResponses.st.path = { s.path with flight := (returnFrom [] f).1 } := by
    rw [hst, hp]
  rw [hr, hp, List.nil_append] at hreturned
  rw [hpath, hreturned] at hfinish
  rw [hpath] at hgrew
  rw [hfinish]
  exact ⟨rfl, rfl, rfl, rfl, rfl, rfl, ⟨more, rfl⟩, hgrew, _, returnFrom_due f, forall₂_mayPresent_refl _⟩

/-- A settled transaction in the flight is given its response, or keeps it (Table 9-1). -/
theorem returnResponses_finish_answered {u : UpTxn} {r : Settled} (hu : u ∈ f) (hs : u.state = .answered r) :
    { source := u.txn.source, settled := r } ∈ e.returnResponses.finish.path.returned ∨
      u ∈ e.returnResponses.finish.path.flight := by
  obtain ⟨hflight, hreturned, -⟩ := returnResponses_finish hp hr
  rw [hflight, hreturned]
  exact returnFrom_answered hu hs

end Returned

/-! ### Presentation of the last transaction (R166, R175) -/

/-- The transaction keeps a later one of source `i` BEHIND: it is of that source, and itself BEHIND, READY or HELD (R166). -/
def Queues (i : Fin 16) (u : UpTxn) : Prop :=
  u.txn.source = i ∧ (u.state = .behind ∨ u.state = .ready ∨ ∃ n, u.state = .held n)

/-- Past one transaction, the sources blocked are those blocked before it and its own if it queues. -/
theorem presentFrom_cons (s : State) (blocked : List (Fin 16)) (u : UpTxn) :
    ∃ v blocked', (∀ l, presentFrom s blocked (u :: l) = v :: presentFrom s blocked' l) ∧
      ∀ i, i ∈ blocked' ↔ i ∈ blocked ∨ Queues i u := by
  obtain ⟨x, st⟩ := u
  cases st with
  | behind =>
    by_cases hb : x.source ∈ blocked
    · refine ⟨_, blocked, fun l => by rw [presentFrom.eq_def]; exact if_pos hb, fun i => ?_⟩
      exact ⟨Or.inl, fun h => h.elim id fun hq => hq.1 ▸ hb⟩
    · refine ⟨_, x.source :: blocked, fun l => by rw [presentFrom.eq_def]; exact if_neg hb, fun i => ?_⟩
      simp [Queues, eq_comm, or_comm]
  | held | ready => exact ⟨_, x.source :: blocked, fun l => by rw [presentFrom.eq_def], fun i => by
      simp [Queues, eq_comm, or_comm]⟩
  | inMemory | answered => exact ⟨_, blocked, fun l => by rw [presentFrom.eq_def], fun i => by simp [Queues]⟩

/-- The last transaction is presented unless its source is blocked or queues earlier. -/
theorem presentFrom_concat (s : State) (x : Txn) (l : List UpTxn) (blocked : List (Fin 16)) :
    ∃ v, presentFrom s blocked (l ++ [{ txn := x, state := .behind }]) = presentFrom s blocked l ++ [v] ∧ v.txn = x ∧
      ((x.source ∈ blocked ∨ ∃ u ∈ l, Queues x.source u) → v.state = .behind) ∧
      (¬ (x.source ∈ blocked ∨ ∃ u ∈ l, Queues x.source u) → v.state = presented s x) := by
  induction l generalizing blocked with
  | nil =>
    by_cases hb : x.source ∈ blocked
    · exact ⟨{ txn := x, state := .behind }, by simp [presentFrom, hb], rfl, fun _ => rfl, fun h => absurd (Or.inl hb) h⟩
    · exact ⟨{ txn := x, state := presented s x }, by simp [presentFrom, hb], rfl, by simp [hb], fun _ => rfl⟩
  | cons u l ih =>
    obtain ⟨w, blocked', hcons, hmem⟩ := presentFrom_cons s blocked u
    obtain ⟨v, hv, htxn, hbehind, hpresented⟩ := ih blocked'
    have hiff : (x.source ∈ blocked ∨ ∃ u' ∈ u :: l, Queues x.source u') ↔
        x.source ∈ blocked' ∨ ∃ u' ∈ l, Queues x.source u' := by
      simp [hmem, or_assoc]
    refine ⟨v, ?_, htxn, fun h => hbehind (hiff.1 h), fun h => hpresented (mt hiff.2 h)⟩
    rw [List.cons_append, hcons, hcons, hv, List.cons_append]

theorem presented_free {s : State} {x : Txn} (h : holdsOn s (lineOf (txnStart x)) = 0) : presented s x = .ready := by
  unfold presented
  rw [h]

theorem presented_held {s : State} {x : Txn} (h : holdsOn s (lineOf (txnStart x)) ≠ 0) :
    presented s x = .held (holdsOn s (lineOf (txnStart x))) := by
  unfold presented
  split
  · rename_i h0; exact absurd h0 h
  · rename_i n hn; rw [hn]

/-- R175: the holds of a line follow from the own writes pending and the blocks' bases. -/
theorem holdsOn_congr {s t : State} (hown : pendingOwn t.path = pendingOwn s.path) (hb : t.path.bases = s.path.bases)
    (line : Nat) : holdsOn t line = holdsOn s line := by
  have hstart : ∀ k, ownStart t k = ownStart s k := fun k => by cases k <;> simp only [ownStart, hb]
  unfold holdsOn
  simp only [hown, hstart]

/-! ### The acceptance within a line -/

section Within
variable (s : State) (x : Txn)

/-- The event asks for nothing, so the state at which the transaction is tested differs in the flight alone. -/
theorem arrived_finish (u : UpTxn) : (arrived s u).finish =
    { s with path := { s.path with flight := s.path.flight ++ [u], returned := [] } } :=
  Ev.finish_of_quiet rfl

/-- R166, R175: what the acceptance leaves of the flight, and that nothing else changes. -/
theorem arrived_presented :
    let t := (arrived s { txn := x, state := .behind }).finishPath
    t = { s with path := { s.path with flight := t.path.flight, returned := [] } } ∧
      ∃ v, t.path.flight.getLast? = some v ∧ List.Forall₂ UpTxn.MayPresent s.path.flight t.path.flight.dropLast ∧
        v.txn = x ∧ ((∃ u ∈ s.path.flight, Queues x.source u) → v.state = .behind) ∧
        (¬ (∃ u ∈ s.path.flight, Queues x.source u) →
          (holdsOn s (lineOf (txnStart x)) = 0 → v.state = .ready) ∧
          (holdsOn s (lineOf (txnStart x)) ≠ 0 → v.state = .held (holdsOn s (lineOf (txnStart x))))) := by
  intro t
  have ht : t = { s with path := { s.path with
      flight := presentFrom (arrived s { txn := x, state := .behind }).finish []
        (s.path.flight ++ [{ txn := x, state := .behind }])
      returned := [] } } := by
    show Ev.finishPath _ = _
    rw [Ev.finishPath_eq, arrived_finish]
  have hholds : holdsOn (arrived s { txn := x, state := .behind }).finish (lineOf (txnStart x)) =
      holdsOn s (lineOf (txnStart x)) := by
    rw [arrived_finish]
    exact holdsOn_congr rfl rfl _
  generalize (arrived s { txn := x, state := .behind }).finish = s' at ht hholds
  obtain ⟨v, hv, htxn, hbehind, hpresented⟩ := presentFrom_concat s' x s.path.flight []
  rw [hv] at ht
  simp only [List.not_mem_nil, false_or] at hbehind hpresented
  rw [ht]
  refine ⟨rfl, v, List.getLast?_concat, ?_, htxn, hbehind, fun hn => ?_⟩
  · rw [List.dropLast_concat]
    exact presentFrom_forall s' s.path.flight []
  · rw [hpresented hn, ← hholds]
    exact ⟨presented_free, presented_held⟩

end Within

/-- Settles O33: the refusal returned or kept with the responses due; else the order of the source and the holds of the
line. -/
theorem upstreamAccepts : Obligations.UpstreamAccepts := by
  unfold Obligations.UpstreamAccepts
  intro x s hc hlen
  refine ⟨?_, ?_⟩
  · intro hx refused flight
    have hexec := exec_upstreamAccept_crossing hc hlen hx
    have hp : (arrived s { txn := x, state := .answered refused }).st.path = { s.path with flight := flight } := rfl
    have hlast : { txn := x, state := .answered refused } ∈ flight := by simp [flight]
    obtain ⟨-, -, hreturns⟩ := returnResponses_finish hp rfl
    exact ⟨_, hexec, hreturns, Ev.returnResponses_counts (arrived s _),
      fun i hi => Ev.finish_asks (countAll_asks _ _ i hi) nofun nofun,
      (returnResponses_finish_answered hp rfl hlast rfl).imp_right fun h => ⟨_, h, rfl, rfl⟩,
      eq_mixed (keeps_upstreamAccept hexec)⟩
  · intro hx early writes
    obtain ⟨hframe, v, hlast, hothers, htxn, hbehind, hfree⟩ := arrived_presented s x
    exact ⟨_, v, exec_upstreamAccept_within hc hlen hx, htxn, hbehind, fun hn => (hfree hn).1, fun hn => (hfree hn).2,
      hlast, hothers, hframe⟩

end Sys2Proof.Proofs
end

section
/-! ARBITER_GRANT_OWN (R172, R173, R176): the entry issued with the data of that moment; where each own transaction lies
(R209), and the fields of the words it carries (R210, Tables 12-2 to 12-4). -/

namespace Sys2Proof.Proofs

open Sys2Proof Sys2Proof.Machine Sys2Proof.Laws

/-! ### The grant (R172, R176) -/

theorem oldestReady_eq_none {s : State} (h : ∀ u ∈ s.path.flight, u.state ≠ .ready) : s.oldestReady = none := by
  have hnone : s.path.flight.find? UpTxn.isReady = none :=
    List.find?_eq_none.2 fun u hu hr => h u hu ((UpTxn.isReady_iff u).1 hr)
  unfold State.oldestReady
  rw [hnone]
  rfl

theorem exec_arbiterGrantOwn {s : State} {k : OwnTxn} {rest : List OwnTxn} (hq : s.path.queue = k :: rest)
    (hturn : (∀ u ∈ s.path.flight, u.state ≠ .ready) ∨ s.path.lastGranted = .forwarded) : exec .arbiterGrantOwn s =
      .next { s with path := { s.path with
        queue := rest ++ s.path.waiting.take 1, waiting := s.path.waiting.drop 1
        down := s.path.down ++ [{ origin := .own k, wire := ownWire s k }], lastGranted := .own, returned := [] } } := by
  have hown : s.ownTurn = some k := by
    unfold State.ownTurn
    rw [if_pos (hturn.imp_left oldestReady_eq_none), hq]
    rfl
  show execArbiterGrantOwn s = _
  unfold execArbiterGrantOwn
  rw [hown, hq]
  exact congrArg Host.Outcome.next (Ev.finish_of_quiet rfl)

/-! ### The beats of an own write (R173, R209) -/

section Lanes
variable (a : Nat) (bs : List Byte)

/-- The bytes strobed are those written, in order. -/
theorem strobedLanes_bytes : ((strobedLanes a bs).filter (·.strobe)).map (·.data) = bs := by
  have hdata : ((bs.map fun b => ({ strobe := true, data := b } : Lane)).filter (·.strobe)).map (·.data) = bs := by
    simp [List.filter_map, Function.comp_def]
  unfold strobedLanes
  simp [List.filter_append, hdata]

/-- Counted from the first beat, the lanes strobed are those of the bytes written. -/
theorem strobedLanes_strobe (j : Nat) : ((strobedLanes a bs)[j]?.map (·.strobe)).getD false = true ↔
    a % 8 ≤ j ∧ j < a % 8 + bs.length := by
  unfold strobedLanes
  rw [List.append_assoc]
  by_cases h1 : j < a % 8
  · rw [List.getElem?_append_left (by simpa using h1)]
    simp [h1]
  · rw [List.getElem?_append_right (by simpa using h1), List.length_replicate]
    by_cases h2 : j - a % 8 < bs.length
    · rw [List.getElem?_append_left (by simpa using h2)]
      simp [h2]
      omega
    · rw [List.getElem?_append_right (by simpa using h2)]
      rw [List.getElem?_replicate]
      split <;> simp <;> omega

end Lanes

section Wire
variable {s : State} {k : OwnTxn}

theorem ownWire_start : (ownWire s k).start = ownStart s k / 8 * 8 := by
  unfold ownWire
  split <;> rfl

theorem ownWire_read (h : k.isWrite = false) : (ownWire s k).kind = .read ∧ (ownWire s k).beats = 1 := by
  unfold ownWire
  rw [h]
  exact ⟨rfl, rfl⟩

theorem ownWire_write (h : k.isWrite = true) : (ownWire s k).kind = .write ∧
    (ownWire s k).lanes = strobedLanes (ownStart s k) (ownBytes s k) := by
  unfold ownWire
  rw [h]
  exact ⟨rfl, rfl⟩

/-- R209: an own write strobes its bytes and no other. -/
theorem ownWire_strobe (h : k.isWrite = true) (j : Nat) :
    ((ownWire s k).lanes[j]?.map (·.strobe)).getD false = true ↔
      ownStart s k ≤ (ownWire s k).start + j ∧ (ownWire s k).start + j < ownStart s k + (ownBytes s k).length := by
  rw [(ownWire_write h).2, ownWire_start, strobedLanes_strobe]
  omega

end Wire

/-! ### The words an own write carries (R173, R210) -/

theorem length_leBytes (len n : Nat) : (leBytes len n).length = len := by
  simp [leBytes]

/-- The field of a word's bits `low` to `low` + `width` - 1, as it is read back. -/
def fieldRead (n low width : Nat) : Nat := wordAt (leBytes 4 n) 0 / 2 ^ low % 2 ^ width

/-- A value of at most 32 bits is read back whole. -/
theorem fieldRead_whole {m : Nat} (v : BitVec m) (hm : m ≤ 32) : fieldRead v.toNat 0 32 = v.toNat := by
  have hv : v.toNat < 2 ^ 32 := Nat.lt_of_lt_of_le v.isLt (Nat.pow_le_pow_right (by decide) hm)
  simp only [fieldRead, wordAt_leBytes]
  omega

theorem bankCode_lt (k : Option Bank) : bankCode k < 3 := by
  rcases k with _ | _ | _ <;> decide

/-- LINE_STATUS, field by field (R1, R102). -/
theorem lineStatus_fields (s : State) :
    fieldRead (lineStatusWord s) 0 16 = s.lug.current.toNat ∧
      fieldRead (lineStatusWord s) 16 2 = bankCode s.plan.active ∧
      fieldRead (lineStatusWord s) 18 2 = bankCode s.plan.pendingBank ∧
      fieldRead (lineStatusWord s) 20 1 = (s.plan.bound .a).toNat ∧
      fieldRead (lineStatusWord s) 21 1 = (s.plan.bound .b).toNat ∧ fieldRead (lineStatusWord s) 22 10 = 0 := by
  have hactive := bankCode_lt s.plan.active
  have hpending := bankCode_lt s.plan.pendingBank
  have hcurrent := s.lug.current.isLt
  have ha := Bool.toNat_lt (s.plan.bound .a)
  have hb := Bool.toNat_lt (s.plan.bound .b)
  simp only [fieldRead, wordAt_leBytes, lineStatusWord, PlanStore.boundMask, place]
  refine ⟨?_, ?_, ?_, ?_, ?_, ?_⟩ <;> omega

/-- TALLY_STATUS, field by field (R161). -/
theorem tallyStatus_fields (t : Tally) :
    fieldRead (tallyStatusWord t) 0 2 = t.bankA.state.code ∧ fieldRead (tallyStatusWord t) 2 2 = t.bankB.state.code ∧
      fieldRead (tallyStatusWord t) 4 2 = bankCode t.openBank ∧
      fieldRead (tallyStatusWord t) 6 1 = t.request.isSome.toNat ∧ fieldRead (tallyStatusWord t) 7 9 = 0 ∧
      fieldRead (tallyStatusWord t) 16 16 = t.stranded % 2 ^ 16 := by
  have hcode : ∀ st : TallyState, st.code < 4 := fun st => by cases st <;> decide
  have ha := hcode t.bankA.state
  have hb := hcode t.bankB.state
  have hopen := bankCode_lt t.openBank
  have hbusy := Bool.toNat_lt t.request.isSome
  simp only [fieldRead, wordAt_leBytes, tallyStatusWord, place]
  refine ⟨?_, ?_, ?_, ?_, ?_, ?_⟩ <;> omega

/-- HEAD_STATUS, field by field (R22). -/
theorem headStatus_fields (c : HeadCtx) :
    fieldRead (headStatusWord c) 0 3 = c.state.code ∧ fieldRead (headStatusWord c) 3 2 = c.state.lamp.code ∧
      fieldRead (headStatusWord c) 5 1 = c.admitPending.toNat ∧ fieldRead (headStatusWord c) 6 2 = c.last.code ∧
      fieldRead (headStatusWord c) 8 8 = c.badLast % 2 ^ 8 ∧ fieldRead (headStatusWord c) 16 16 = 0 := by
  have hstate : c.state.code < 6 := by cases c.state <;> decide
  have hlamp : c.state.lamp.code < 3 := by cases c.state <;> decide
  have hlast : c.last.code < 3 := by cases c.last <;> decide
  have hadmit := Bool.toNat_lt c.admitPending
  simp only [fieldRead, wordAt_leBytes, headStatusWord, place]
  refine ⟨?_, ?_, ?_, ?_, ?_, ?_⟩ <;> omega

/-- SOURCE_STATUS, field by field (R182). -/
theorem sourceStatus_fields (c : SourceCtx) :
    fieldRead (sourceStatusWord c) 0 1 = c.trapped.toNat ∧ fieldRead (sourceStatusWord c) 1 1 = c.range.toNat ∧
      fieldRead (sourceStatusWord c) 2 1 = c.shape.toNat ∧ fieldRead (sourceStatusWord c) 3 1 = c.ownedWord.toNat ∧
      fieldRead (sourceStatusWord c) 4 1 = c.planBound.toNat ∧ fieldRead (sourceStatusWord c) 5 1 = c.mark.toNat ∧
      fieldRead (sourceStatusWord c) 6 2 = 0 ∧ fieldRead (sourceStatusWord c) 8 8 = c.retries % 2 ^ 8 ∧
      fieldRead (sourceStatusWord c) 16 16 = c.accepted.toNat := by
  have h0 := Bool.toNat_lt c.trapped
  have h1 := Bool.toNat_lt c.range
  have h2 := Bool.toNat_lt c.shape
  have h3 := Bool.toNat_lt c.ownedWord
  have h4 := Bool.toNat_lt c.planBound
  have h5 := Bool.toNat_lt c.mark
  have haccepted := c.accepted.isLt
  simp only [fieldRead, wordAt_leBytes, sourceStatusWord, place]
  refine ⟨?_, ?_, ?_, ?_, ?_, ?_, ?_, ?_, ?_⟩ <;> omega

/-- The completion of a tally request, field by field (R153). -/
theorem tallyCompletion_fields (q : TallyRequest) (st : RequestStatus) :
    let w := (tallyCompletionWord q st).toNat
    w % 2 ^ 4 = q.code.toNat ∧ w / 2 ^ 4 % 2 ^ 2 = q.bankField.toNat ∧ w / 2 ^ 6 % 2 ^ 2 = 0 ∧ w / 2 ^ 8 % 2 = 1 ∧
      w / 2 ^ 9 = st.code := by
  have hcode := q.code.isLt
  have hfield := q.bankField.isLt
  have hstatus : st.code < 3 := by cases st <;> decide
  simp only [tallyCompletionWord, BitVec.toNat_ofNat, place]
  refine ⟨?_, ?_, ?_, ?_, ?_⟩ <;> omega

/-- Each word of the control block that the part writes is four bytes (R209). -/
theorem ownBytes_word (s : State) {k : OwnTxn} (h : k.isStatusWord = true ∨ (∃ w, k = .noticeEnable w) ∨
    (∃ v, k = .ovrConsumer v) ∨ (∃ v b, k = .decProducer v b) ∨ ∃ w, k = .tallyCompletion w) :
    (ownBytes s k).length = 4 := by
  rcases h with h | ⟨w, rfl⟩ | ⟨v, rfl⟩ | ⟨v, b, rfl⟩ | ⟨w, rfl⟩
  · cases k with
    | notice | lineStatus | headStatus | sourceStatus | tallyStatus => exact length_leBytes 4 _
    | _ => simp [OwnTxn.isStatusWord] at h
  all_goals exact length_leBytes 4 _

/-- Settles O34: the grant with the wire's lanes; then the addresses of Table 12-3, and the words field by field. -/
theorem arbiterGrantsOwn : Obligations.ArbiterGrantsOwn := by
  unfold Obligations.ArbiterGrantsOwn
  refine ⟨fun s k rest hq hturn => ?_, ?_⟩
  · refine ⟨_, { origin := .own k, wire := ownWire s k }, exec_arbiterGrantOwn hq hturn, rfl, rfl, ownWire_start,
      ownWire_read, fun hw => ⟨(ownWire_write hw).1, ?_, ownWire_strobe hw⟩⟩
    show ((ownWire s k).lanes.filter (·.strobe)).map (·.data) = ownBytes s k
    rw [(ownWire_write hw).2]
    exact strobedLanes_bytes _ _
  · intro s at0 field bit bankField tallyState
    have hbit : ∀ b : Bool, b.toNat = bit b := toNat_eq_ite
    have hbank : ∀ k : Option Bank, bankCode k = bankField k := fun k => by rcases k with _ | _ | _ <;> rfl
    have htally : ∀ st : TallyState, st.code = tallyState st := fun st => by cases st <;> rfl
    refine ⟨⟨rfl, fun _ => rfl, rfl, fun _ => rfl, rfl, fun _ => rfl, fun _ _ => rfl, fun _ => rfl, fun _ => rfl,
      fun _ _ => rfl, fun _ => rfl, fun _ _ => rfl, fun _ _ => rfl, fun _ _ => rfl⟩, fun k => ownBytes_word s, ?_, ?_, ?_,
      fun h => ?_, fun i => ?_, fun q st => ?_, fun _ _ => rfl, ⟨rfl, rfl, rfl, rfl, rfl⟩, fun _ _ => rfl, fun _ _ _ => rfl⟩
    · exact ⟨fieldRead_whole _ (by decide), fun w => fieldRead_whole w (by decide), fun v => fieldRead_whole v (by decide),
        fun v _ => fieldRead_whole v (by decide), fun w => fieldRead_whole w (by decide)⟩
    · rw [← hbank, ← hbank, ← hbit, ← hbit]
      exact lineStatus_fields s
    · rw [← htally, ← htally, ← hbank, ← hbit]
      exact tallyStatus_fields s.tally
    · intro c
      obtain ⟨hstate, hlamp, hadmit, hlast, hbad⟩ := headStatus_fields c
      refine ⟨hstate.trans ?_, hlamp.trans ?_, hadmit.trans (hbit _), hlast.trans ?_, hbad⟩
      · cases c.state <;> rfl
      · cases c.state <;> rfl
      · cases c.last <;> rfl
    · intro c
      simp only [← hbit]
      exact sourceStatus_fields c
    · intro w
      obtain ⟨hcode, hfield, hgap, hdone, hstatus⟩ := tallyCompletion_fields q st
      refine ⟨hcode, hfield, hgap, hdone, hstatus.trans ?_⟩
      cases st <;> rfl

end Sys2Proof.Proofs
end

section
/-! OWN_TRANSACTION_ANSWER at the path and at memory (R174, R175; log 19): the write in memory, its line's holds lightened, and
an ERROR noticed. -/

namespace Sys2Proof.Proofs

open Sys2Proof Sys2Proof.Machine Sys2Proof.Laws

section Answered
variable (s : State) (ok : Bool) (k : OwnTxn) (w : Wire) (rest : List Down)

/-- R175: the flight once memory has answered own transaction `k`. -/
def releasedFlight (k : OwnTxn) (w : Wire) (f : List UpTxn) : List UpTxn :=
  if k.isWrite then f.map (releaseHold (lineOf w.start)) else f

/-- The answer off the wire: memory has acted on it, and the holds of its line are one fewer. -/
theorem releaseLine_popDown : ((Ev.start s).popDown rest w ok).releaseLine k w = Ev.start { s with
    path := { s.path with down := rest, flight := releasedFlight k w s.path.flight }
    mem := answeredMemory s.mem w ok } := by
  unfold Ev.releaseLine releasedFlight
  split <;> rfl

theorem beforeBlock_ok : beforeBlock s true k w rest = Ev.start { s with
    path := { s.path with down := rest, flight := releasedFlight k w s.path.flight }
    mem := answeredMemory s.mem w true } :=
  releaseLine_popDown s true k w rest

theorem beforeBlock_path : (beforeBlock s ok k w rest).st.path =
    { s.path with down := rest, flight := releasedFlight k w s.path.flight } := by
  unfold beforeBlock
  rw [releaseLine_popDown]
  split <;> rfl

theorem beforeBlock_mem : (beforeBlock s ok k w rest).st.mem = answeredMemory s.mem w ok := by
  unfold beforeBlock
  rw [releaseLine_popDown]
  split <;> rfl

theorem beforeBlock_returned : (beforeBlock s ok k w rest).returned = [] := by
  unfold beforeBlock
  rw [releaseLine_popDown]
  split <;> rfl

/-- R174: an ERROR is noticed before the block takes the answer. -/
theorem beforeBlock_error : (beforeBlock s false k w rest).st.note.has .memoryError = true ∧
    .notice ∈ (beforeBlock s false k w rest).asked :=
  ⟨raise_has _ _, raise_asks _ _⟩

end Answered

/-- A status word's answer is handed to no block. -/
theorem ownAnswered_statusWord {k : OwnTxn} (h : k.isStatusWord = true) (e : Ev) (ok : Bool) (data : List Byte) :
    e.ownAnswered k ok data = e := by
  cases k with
  | notice | lineStatus | headStatus | sourceStatus | tallyStatus => rfl
  | _ => simp [OwnTxn.isStatusWord] at h

/-- Settles O36: the block that takes the answer leaves the path and memory, and takes back no notice. -/
theorem ownTransactionAnswered : Obligations.OwnTransactionAnswered := by
  unfold Obligations.OwnTransactionAnswered
  intro ok s k w rest hdown
  have hexec := exec_ownTransactionAnswer s ok k w rest hdown
  have hframe := eq_mixed (keeps_ownTransactionAnswer hexec)
  have hkept := keeps_ownAnswered (beforeBlock s ok k w rest) k ok (s.mem.bytes w.start (8 * w.beats))
  have hgrow := grows_ownAnswered (beforeBlock s ok k w rest) k ok (s.mem.bytes w.start (8 * w.beats))
  obtain ⟨more, waiting, hfinish, -⟩ :=
    ((beforeBlock s ok k w rest).ownAnswered k ok (s.mem.bytes w.start (8 * w.beats))).finish_path
  rw [hkept.path, beforeBlock_path, hgrow.returned, beforeBlock_returned] at hfinish
  have hmem := hkept.mem.trans (beforeBlock_mem s ok k w rest)
  refine ⟨_, hexec, by rw [hfinish], by rw [hfinish], ?_, ?_, fun a ha => ?_, fun hwf hok hk j l hl hs => ?_, hframe, ?_⟩
  · rw [hfinish]
    rfl
  · rintro rfl
    obtain ⟨hhas, hasked⟩ := beforeBlock_error s k w rest
    exact ⟨hmem, hgrow.has hhas, Ev.finish_asks (hgrow.asked _ hasked) nofun nofun⟩
  · exact (congrArg (·.read a) hmem).trans (answeredMemory_unstrobed ha)
  · exact (congrArg (·.read (w.start + j)) hmem).trans (answeredMemory_strobed hwf hok hk hl hs)
  · rintro hword rfl
    rw [ownAnswered_statusWord hword, beforeBlock_ok]
    rfl

end Sys2Proof.Proofs
end

section
/-! The grants of the forwarded side (R168, R169, R176): what FORWARDED_SIDE_GRANT issues or holds off (R178, R179), and that
each grant is the event of some row (log 13). -/

namespace Sys2Proof.Proofs

open Sys2Proof Sys2Proof.Machine Sys2Proof.Laws

/-! ### FORWARDED_SIDE_GRANT (R168, R178, R179) -/

section SideGrant
variable {s : State} {x : Txn}

/-- R168, R179: a READ, a write that no aperture decodes, and while PASSIVE any transaction. -/
def Undecoded (s : State) (x : Txn) : Prop :=
  x.kind = .read ∨ (s.running = true ∧ s.decode x = none) ∨ s.boot.condition = .passive

theorem courseOf_undecoded (h : Undecoded s x) : courseOf s x = .asIssued := by
  unfold courseOf
  rcases h with h | ⟨hrun, hdecode⟩ | h
  · rw [h]
  · have hrunning : s.boot.condition = .running := by simpa [State.running] using hrun
    rw [hrunning, hdecode]
    cases x.kind <;> rfl
  · rw [h]
    cases x.kind <;> rfl

theorem isForwardedSideGrant_undecoded (h : Undecoded s x) : isForwardedSideGrant s x = true := by
  unfold isForwardedSideGrant
  split
  · rename_i hrun
    have hinto : writeInto s x = none := by
      unfold writeInto
      rcases h with h | ⟨-, hdecode⟩ | h
      · rw [h, if_neg (by simp)]
      · rw [hdecode, ite_self]
      · simp [State.running, h] at hrun
    rw [hinto]
    rfl
  · rfl

/-- R178: while booting either row takes a write, and it is held off. -/
theorem bootRetry_rows (hk : x.kind = .write) (hb : s.boot.condition = .booting) :
    isForwardedSideGrant s x = true ∧ isApertureWrite s x = true ∧ courseOf s x = .bootRetry := by
  have hidle : s.running = false := by simp [State.running, hb]
  unfold isForwardedSideGrant isApertureWrite courseOf
  rw [hidle, hk, hb]
  exact ⟨rfl, rfl, rfl⟩

/-- The issue of a transaction that no block takes anything of. -/
theorem asIssued_left (s : State) (x : Txn) :
    let t := ((Ev.start s).takeCourse x .asIssued).finishPath
    s.path.Issued t.path (downAs x x.lanes false false) false ∧ t = { s with path := t.path } :=
  issue_grant (e := Ev.start s) rfl rfl

end SideGrant

/-- Settles O38, by the course of the transaction granted. -/
theorem forwardedSideGranted : Obligations.ForwardedSideGranted := by
  unfold Obligations.ForwardedSideGranted
  refine fun s x hturn => ⟨fun hx => ?_, ?_⟩
  · have hgrant : grant s x = ((Ev.start s).takeCourse x .asIssued).finishPath := by
      unfold grant
      rw [courseOf_undecoded hx]
    exact ⟨_, (grantIf_taken hturn (isForwardedSideGrant_undecoded hx)).trans (congrArg _ hgrant), asIssued_left s x⟩
  · intro hk hb r
    obtain ⟨hside, haperture, hcourse⟩ := bootRetry_rows hk hb
    have hgrant : grant s x = ((Ev.start s).settle r).finishPath := by
      unfold grant
      rw [hcourse]
      rfl
    exact ⟨_, (grantIf_taken hturn hside).trans (congrArg _ hgrant),
      (grantIf_taken hturn haperture).trans (congrArg _ hgrant),
      settle_grant (e := Ev.start s) (forwardedTurn_oldestReady hturn) rfl rfl⟩

/-! ### The row of a grant (log 13) -/

/-- Some row of the table that is a grant of the forwarded side takes the grant of `x`. -/
def HasRow (s : State) (x : Txn) : Prop := ∃ c ∈ grantRows, ∃ row, grantRow c = some row ∧ row s x = true

theorem grantRow_of_mem {c : Instr} (hc : c ∈ grantRows) : ∃ row, grantRow c = some row := by
  revert hc
  cases c <;> simp [grantRows, grantRow]

section Rows
variable {s : State} {x : Txn} {k : CtrlWord} {w : Word32}

theorem hasRow {c : Instr} {row : State → Txn → Bool} (hc : grantRow c = some row) (hr : row s x = true)
    (hm : c ∈ grantRows := by simp [grantRows]) : HasRow s x :=
  ⟨c, hm, row, hc, hr⟩

theorem writesWord_of_mem {p : Word32 → Bool} (h : (k, w) ∈ forwardedWords s x) (hp : p w = true) :
    writesWord s x k p = true :=
  List.any_eq_true.2 ⟨(k, w), h, by simp [hp]⟩

/-- R31: a HEAD_COMMAND other than 0 is an ADMIT, a RELEASE or unknown. -/
theorem hasRow_headCommand {h : Fin 6} (hm : (.headCommand h, w) ∈ forwardedWords s x) (hw : w ≠ 0) : HasRow s x := by
  by_cases h1 : w = 1
  · exact hasRow (c := .admitHead h) rfl (writesWord_of_mem hm (by simp [h1]))
  · by_cases h2 : w = 2
    · exact hasRow (c := .release h) rfl (writesWord_of_mem hm (by simp [h2]))
    · exact hasRow (c := .headCommandUnknown h) rfl (writesWord_of_mem hm (by
        unfold unknownCommand; rw [decide_eq_true hw, decide_eq_true h1, decide_eq_true h2]; rfl))

/-- R151: a TALLY_REQUEST asks for one of the three requests, or is refused. -/
theorem hasRow_tallyRequest (hm : (.tallyRequest, w) ∈ forwardedWords s x) : HasRow s x := by
  cases ha : tallyAsk w with
  | closeShift => exact hasRow (c := .tallyCloseShift) rfl (writesWord_of_mem hm (by simp [asksCloseShift, ha]))
  | snapshot k => exact hasRow (c := .tallySnapshot) rfl (writesWord_of_mem hm (by cases k <;> simp [asksSnapshot, ha]))
  | clear k => exact hasRow (c := .tallyClear) rfl (writesWord_of_mem hm (by cases k <;> simp [asksClear, ha]))
  | refused => exact hasRow (c := .tallyRequestRefused) rfl (writesWord_of_mem hm (by simp [asksRefused, ha]))

/-- A write that APERTURE_WRITE leaves to another row has that row. -/
theorem hasRow_of_hasOwnRow (h : hasOwnRow s x = true) : HasRow s x := by
  unfold hasOwnRow at h
  simp only [Bool.or_eq_true, List.any_eq_true] at h
  rcases h with ((hplan | hslice) | hovr) | ⟨⟨k, w⟩, hm, hk⟩
  · exact hasRow (c := .planBankWrite) rfl hplan
  · exact hasRow (c := .sliceWrite) rfl hslice
  · exact hasRow (c := .ovrProducer) rfl hovr
  · cases k with
    | notice => exact hasRow (c := .notice) rfl (writesWord_of_mem hm rfl)
    | noticeEnable => exact hasRow (c := .noticeEnable) rfl (writesWord_of_mem hm rfl)
    | planSelect => exact hasRow (c := .planSelect) rfl (writesWord_of_mem hm rfl)
    | decConsumer => exact hasRow (c := .decConsumer) rfl (writesWord_of_mem hm rfl)
    | trapClear => exact hasRow (c := .trapClear) rfl (writesWord_of_mem hm rfl)
    | lineRestart => exact hasRow (c := .lineRestart) rfl (writesWord_of_mem hm hk)
    | tallyRequest => exact hasRow_tallyRequest hm
    | headCommand j => exact hasRow_headCommand hm (by simpa using hk)
    | lineStatus | tallyStatus | ovrProducer | ovrConsumer | decProducer | headStatus | sourceStatus | unlisted => cases hk

variable (s x)

/-- Every transaction granted is of the kind of some row. -/
theorem hasRow_any : HasRow s x := by
  by_cases hside : isForwardedSideGrant s x = true
  · exact hasRow (c := .forwardedSideGrant) rfl hside
  · by_cases hown : hasOwnRow s x = true
    · exact hasRow_of_hasOwnRow hown
    · refine hasRow (c := .apertureWrite) rfl ?_
      unfold isForwardedSideGrant at hside
      unfold isApertureWrite
      cases hrun : s.running with
      | false => simp [hrun] at hside
      | true =>
        rw [hrun, if_pos rfl] at hside
        simpa [hown, Option.isSome_iff_ne_none] using hside

end Rows

/-- Settles O39: a row takes the grant of the transaction the arbiter would grant, or leaves the state. -/
theorem everyGrantHasARow : Obligations.EveryGrantHasARow := by
  unfold Obligations.EveryGrantHasARow
  refine fun s x hturn => ⟨?_, fun c hc => ?_⟩
  · obtain ⟨c, hc, row, hrow, hx⟩ := hasRow_any s x
    exact ⟨c, hc, (exec_grantRow hrow s).trans (grantIf_taken hturn hx)⟩
  · obtain ⟨row, hrow⟩ := grantRow_of_mem hc
    rw [exec_grantRow hrow]
    refine (grantIf_cases row s).imp_left fun ⟨y, hy, _, hgrant⟩ => ?_
    obtain rfl : x = y := Option.some.inj (hturn.symm.trans hy)
    exact hgrant

end Sys2Proof.Proofs
end

section
/-! The refusals of a write into an aperture (R170, R184, R186, R187): the course by the tests of Table 9-2 in their order, and
what a refusal leaves. -/

namespace Sys2Proof.Proofs

open Sys2Proof Sys2Proof.Machine Sys2Proof.Laws

/-! ### The tests (R170, R184) -/

section Tests
variable (s : State) (x : Txn) (ap : Aperture) (off : Nat)

/-- The words of the control block that the permission test looks at. -/
def wordsTested : List (CtrlWord × Word32) := if ap = .ctrl then ctrlWords off x else []

/-- R170: a byte written belongs to no whole word, in an aperture that takes whole words alone. -/
def PartialWord : Prop := (ap = .ctrl ∨ ap = .planA ∨ ap = .planB ∨ ap = .ovr) ∧ wholeWords x.lanes = false

/-- R184, test 1: the control source writes NOTICE and TRAP_CLEAR alone. -/
def Exempt : Prop := x.source = s.src.control ∧ wordsTested x ap off ≠ [] ∧
  ∀ p ∈ wordsTested x ap off, p.1 = .notice ∨ p.1 = .trapClear

/-- R184, test 1, fails. -/
def Trapped : Prop := s.src.ctx[x.source].trapped = true ∧ ¬ Exempt s x ap off

/-- R184, test 2: a byte written is the part's own. -/
def WritesOwn : Prop := ap = .dec ∨ ap = .tally ∨
  ∃ p ∈ wordsTested x ap off, p.1.owned = true ∨ (p.1 = .notice ∧ x.source ≠ s.src.control)

/-- R184, tests 3 to 5: the source may not write there. -/
def Outside : Prop := (∃ m, s.src.mask ap = some m ∧ m.getLsbD x.source = false) ∨
  (ap = .scan ∧ x.source ≠ s.src.headSource[ringOf s.path.scanSlots off]) ∨
  ∃ p ∈ wordsTested x ap off, p.1.reserved = true ∧ x.source ≠ s.src.control

variable {s x ap off}

theorem partialWord_iff : (ap.needsWords && !wholeWords x.lanes) = true ↔ PartialWord x ap := by
  unfold PartialWord
  cases ap <;> simp [Aperture.needsWords]

theorem exempt_iff : (decide (x.source = s.src.control) && clearsOnly (wordsTested x ap off)) = true ↔
    Exempt s x ap off := by
  simp [Exempt, clearsOnly]

theorem trapped_iff : (s.src.ctx[x.source].trapped && !(decide (x.source = s.src.control) &&
    clearsOnly (wordsTested x ap off))) = true ↔ Trapped s x ap off := by
  rw [Bool.and_eq_true, Bool.not_eq_true', ← Bool.not_eq_true, exempt_iff]
  rfl

theorem writesOwn_iff : (ap = .dec || ap = .tally ||
    writesOwned (decide (x.source = s.src.control)) (wordsTested x ap off)) = true ↔ WritesOwn s x ap off := by
  simp [WritesOwn, writesOwned, or_assoc]

theorem barred_iff : s.src.barred ap x.source = true ↔ ∃ m, s.src.mask ap = some m ∧ m.getLsbD x.source = false := by
  unfold SourceTable.barred
  cases s.src.mask ap <;> simp

theorem reserves_iff : (writesReserved (wordsTested x ap off) && !decide (x.source = s.src.control)) = true ↔
    ∃ p ∈ wordsTested x ap off, p.1.reserved = true ∧ x.source ≠ s.src.control := by
  rw [Bool.and_eq_true, writesReserved, List.any_eq_true, Bool.not_eq_true', decide_eq_false_iff_not]
  exact ⟨fun ⟨⟨p, hp, hr⟩, hne⟩ => ⟨p, hp, hr, hne⟩, fun ⟨p, hp, hr, hne⟩ => ⟨⟨p, hp, hr⟩, hne⟩⟩

theorem outside_iff : Outside s x ap off ↔ s.src.barred ap x.source = true ∨
    (ap = .scan && decide (x.source ≠ s.src.headSource[ringOf s.path.scanSlots off])) = true ∨
    (writesReserved (wordsTested x ap off) && !decide (x.source = s.src.control)) = true := by
  rw [barred_iff, reserves_iff, Bool.and_eq_true, decide_eq_true_iff, decide_eq_true_iff]
  rfl

end Tests

/-! ### The course of a write (R169, Table 9-2) -/

section Course
variable {s : State} {x : Txn} {ap : Aperture} {off : Nat}

theorem permission_trapped (ht : Trapped s x ap off) : permission s x ap off = .trapped := by
  unfold permission
  exact if_pos (trapped_iff.2 ht)

theorem permission_owned (ht : ¬ Trapped s x ap off) (ho : WritesOwn s x ap off) :
    permission s x ap off = .cause .ownedWord := by
  unfold permission
  exact (if_neg (mt trapped_iff.1 ht)).trans (if_pos (writesOwn_iff.2 ho))

theorem permission_outside (ht : ¬ Trapped s x ap off) (ho : ¬ WritesOwn s x ap off) (hr : Outside s x ap off) :
    permission s x ap off = .cause .range := by
  unfold permission
  refine ((if_neg (mt trapped_iff.1 ht)).trans (if_neg (mt writesOwn_iff.1 ho))).trans ?_
  by_cases h1 : s.src.barred ap x.source = true
  · exact if_pos h1
  · refine (if_neg h1).trans ?_
    by_cases h2 : (ap = .scan && decide (x.source ≠ s.src.headSource[ringOf s.path.scanSlots off])) = true
    · exact if_pos h2
    · exact (if_neg h2).trans (if_pos (((outside_iff.1 hr).resolve_left h1).resolve_left h2))

theorem permission_passes (ht : ¬ Trapped s x ap off) (ho : ¬ WritesOwn s x ap off) (hr : ¬ Outside s x ap off) :
    permission s x ap off = .pass := by
  obtain ⟨h1, h2, h3⟩ : _ ∧ _ ∧ _ := by simpa only [outside_iff, not_or] using hr
  unfold permission
  exact ((if_neg (mt trapped_iff.1 ht)).trans (if_neg (mt writesOwn_iff.1 ho))).trans
    ((if_neg h1).trans ((if_neg h2).trans (if_neg h3)))

theorem decideWrite_partial (hp : PartialWord x ap) : decideWrite s x ap off = .refused .shape := by
  unfold decideWrite
  exact if_pos (partialWord_iff.2 hp)

theorem decideWrite_trapped (hp : ¬ PartialWord x ap) (h : permission s x ap off = .trapped) :
    decideWrite s x ap off = .refusedTrapped := by
  unfold decideWrite
  rw [if_neg (mt partialWord_iff.1 hp), h]

theorem decideWrite_cause {c : Cause} (hp : ¬ PartialWord x ap) (h : permission s x ap off = .cause c) :
    decideWrite s x ap off = .refused c := by
  unfold decideWrite
  rw [if_neg (mt partialWord_iff.1 hp), h]

/-- R94: a bound bank is not written. -/
theorem decideWrite_bound (hp : ¬ PartialWord x ap) (h : permission s x ap off = .pass)
    (hb : ap = .planA ∧ s.plan.bound .a = true ∨ ap = .planB ∧ s.plan.bound .b = true) :
    decideWrite s x ap off = .refused .planBound := by
  unfold decideWrite
  rw [if_neg (mt partialWord_iff.1 hp), h]
  rcases hb with ⟨rfl, hb⟩ | ⟨rfl, hb⟩ <;> exact if_pos hb

end Course

/-! ### What a refusal leaves (R186, R187, R189) -/

/-- R186: the source's context with the cause joined to it, if there is one. -/
def withCause (c : SourceCtx) (cause : Option Cause) : SourceCtx :=
  { c with trapped := c.trapped || cause.isSome, range := c.range || cause == some .range
           shape := c.shape || cause == some .shape, ownedWord := c.ownedWord || cause == some .ownedWord
           planBound := c.planBound || cause == some .planBound }

theorem withCause_some (c : SourceCtx) (cause : Cause) : withCause c (some cause) = c.addCause cause := by
  cases cause <;> simp [withCause, SourceCtx.addCause]

theorem withCause_none (c : SourceCtx) : withCause c none = c := by
  simp [withCause]

/-- R186: the source table once the refusal's cause has joined the source's context. -/
def trappedTable (t : SourceTable) (i : Fin 16) (cause : Option Cause) : SourceTable :=
  { t with ctx := t.ctx.set i (withCause t.ctx[i] cause) }

theorem trappedTable_none (t : SourceTable) (i : Fin 16) : trappedTable t i none = t := by
  unfold trappedTable
  rw [withCause_none]
  simp

theorem trap_st (s : State) (i : Fin 16) (c : Cause) : ((Ev.start s).trap i c).st =
    { s with src := trappedTable s.src i (some c), note := s.note.raised .sourceTrapped } := by
  unfold Ev.trap Ev.raise trappedTable
  rw [Ev.ask_st, Ev.modify_st, Ev.ask_st, Ev.changeSource_src, withCause_some]
  rfl

section Refused
variable (s : State) (x : Txn)

/-- The grant of `x` that leaves `t` has refused it: with a cause, which traps its source, or of a trapped source. -/
def Refuses (t : State) (cause : Option Cause) : Prop :=
  let r : Settled := { response := .refused, counted := false, givenUp := false }
  s.path.SettledBy t.path x r ∧ (trappedTable s.src x.source cause).CountedBy t.src (s.path.settledFlight r) ∧
    t = { s with path := t.path, src := t.src, note := t.note } ∧
    t.note = (if cause = none then s.note else s.note.raised .sourceTrapped) ∧
    (cause ≠ none → t.path.asks .notice = true ∧ t.path.asks (.sourceStatus x.source) = true)

variable {s x}

theorem note_of_framed {t : State} {n : NoticeUnit} (hframe : t = { s with path := t.path, src := t.src, note := n }) :
    t.note = n ∧ t = { s with path := t.path, src := t.src, note := t.note } := by
  have hnote : t.note = n := congrArg State.note hframe
  refine ⟨hnote, ?_⟩
  rw [hnote]
  exact hframe

theorem refused_refuses (hready : s.oldestReady = some x) (c : Cause) :
    Refuses s x ((Ev.start s).takeCourse x (.refused c)).finishPath (some c) := by
  have hst := trap_st s x.source c
  have hstatus : .sourceStatus x.source ∈ ((Ev.start s).trap x.source c).asked := by simp [Ev.trap]
  have hnotice : .notice ∈ ((Ev.start s).trap x.source c).asked := raise_asks _ _
  obtain ⟨hsettled, hcounted, hframe⟩ := settle_grant (e := (Ev.start s).trap x.source c)
    (r := { response := .refused, counted := false, givenUp := false }) hready (by rw [hst]) (grows_trap _ _ _).returned
  rw [hst] at hcounted hframe
  obtain ⟨hnote, hframe⟩ := note_of_framed (s := s) (n := s.note.raised .sourceTrapped) hframe
  exact ⟨hsettled, hcounted, hframe, hnote, fun _ => ⟨Ev.finishPath_asks (settle_asked _ _ hnotice) nofun nofun,
    Ev.finishPath_asks (settle_asked _ _ hstatus) nofun nofun⟩⟩

theorem refusedTrapped_refuses (hready : s.oldestReady = some x) :
    Refuses s x ((Ev.start s).takeCourse x .refusedTrapped).finishPath none := by
  obtain ⟨hsettled, hcounted, hframe⟩ := settle_grant (e := Ev.start s)
    (r := { response := .refused, counted := false, givenUp := false }) hready rfl rfl
  obtain ⟨hnote, hframe⟩ := note_of_framed (s := s) (n := s.note) hframe
  refine ⟨hsettled, ?_, hframe, hnote, fun hn => absurd rfl hn⟩
  rw [trappedTable_none]
  exact hcounted

end Refused

/-- Settles O40: the course by the tests in their order, and what the refusal leaves. -/
theorem protectionRefuses : Obligations.ProtectionRefuses := by
  unfold Obligations.ProtectionRefuses
  intro s x ap off hg words c partialWord exempt owned outside r t refused
  have hready := forwardedTurn_oldestReady ((grantsInto_iff _ _ _ _).1 hg).2.1
  have hcause : ∀ {cause}, decideWrite s x ap off = .refused cause → refused (some cause) := fun {cause} hd => by
    have hrefuses := refused_refuses hready cause
    rw [← hd, ← courseOf_write hg] at hrefuses
    exact hrefuses
  have htrapped : decideWrite s x ap off = .refusedTrapped → refused none := fun hd => by
    have hrefuses := refusedTrapped_refuses hready
    rw [← hd, ← courseOf_write hg] at hrefuses
    exact hrefuses
  exact ⟨fun hp => hcause (decideWrite_partial hp),
    fun hp ht he => htrapped (decideWrite_trapped hp (permission_trapped ⟨ht, he⟩)),
    fun hp ht ho => hcause (decideWrite_cause hp (permission_owned ht ho)),
    fun hp ht ho hr => hcause (decideWrite_cause hp (permission_outside ht ho hr)),
    fun hp ht ho hr hb => hcause (decideWrite_bound hp (permission_passes ht ho hr) hb)⟩

end Sys2Proof.Proofs
end

section
/-! Four words of the control block and what their writes leave: NOTICE and NOTICE_ENABLE (R198 to R200), TRAP_CLEAR (R193) and
LINE_RESTART (R207). -/

namespace Sys2Proof.Proofs

open Sys2Proof Sys2Proof.Machine Sys2Proof.Laws

/-! ### A block that one word alone touches -/

theorem eq_trapClear {k : CtrlWord} (h : .src ∈ wordTouches k) : k = .trapClear := by
  revert h
  cases k <;> simp [wordTouches]

theorem eq_lineRestart {k : CtrlWord} (h : .restart ∈ wordTouches k) : k = .lineRestart := by
  revert h
  cases k <;> simp [wordTouches]

/-- A block that word `k` alone touches is as it was after the other words. -/
theorem takeWords_same {b : Block} {k : CtrlWord} (honly : ∀ j, b ∈ wordTouches j → j = k)
    {ws : List (CtrlWord × Word32)} (hn : ∀ p ∈ ws, p.1 ≠ k) (e : Ev) : b.same e.st (e.takeWords ws).st :=
  keeps_takeWords_touches (bs := ws.flatMap fun p => wordTouches p.1) ws
    (fun p hp _ hb => List.mem_flatMap.2 ⟨p, hp, hb⟩) e b fun hb =>
      have ⟨p, hp, ht⟩ := List.mem_flatMap.1 hb
      hn p hp (honly p.1 ht)

/-! ### A word of the control block written alone -/

section Alone
variable {s : State} {x : Txn} {off : Nat} {k : CtrlWord} {w : Word32} (ho : writesAlone off x k w = true)
include ho

/-- The word the memory is given for a word written alone: `o` is where the word lies. -/
theorem wordsOf_substituted (n : NoticeSet) :
    ∃ o, ctrlWordAt o = k ∧ wordsOf off (substituteLanes n off x.lanes) = [(o, substituteWord n o w)] := by
  obtain ⟨o, hwords, hk⟩ := wordsOf_of_writesAlone ho
  exact ⟨o, hk, by rw [wordsOf_substituteLanes, hwords]; rfl⟩

/-- A word that neither the override unit nor the tally unit answers for is taken, and its write issued with the word
substituted: `u` is what the take leaves. -/
theorem ctrlAlone_issued (hovr : k ≠ .ovrProducer) (htally : k ≠ .tallyRequest) {u : State}
    (hst : ((accepted s x).takeWord k w).st = u) (hpath : u.path = s.path) :
    let t := ((accepted s x).forwardCtrl x off).finishPath
    s.path.Issued t.path (downAs x (substituteLanes s.note.word off x.lanes) false false) false ∧
      t = { u with path := t.path } := by
  have hnow : (accepted s x).st.note.word = s.note.word := by rw [accepted_st]
  have hret := (takeWord_asked (accepted s x) k w).2.trans (accepted_returned s x)
  rw [forwardCtrl_of_writesAlone ho, hnow, decide_eq_false hovr, decide_eq_false htally, Bool.false_and]
  subst hst
  exact issue_grant hpath hret

end Alone

/-! ### NOTICE and NOTICE_ENABLE (R198 to R200) -/

section Notice
variable {s : State} {x : Txn} {off : Nat} {w : Word32}

theorem takeWord_notice_st : ((accepted s x).takeWord .notice w).st =
    { s with src := s.src.counted x.source, note := { s.note with word := s.note.word &&& ~~~ w.setWidth 18 } } :=
  congrArg (fun u : State => { u with note := { u.note with word := u.note.word &&& ~~~ w.setWidth 18 } }) (accepted_st s x)

theorem takeWord_noticeEnable_st : ((accepted s x).takeWord .noticeEnable w).st =
    { s with src := s.src.counted x.source, note := { s.note with enable := w.setWidth 18 } } :=
  congrArg (fun u : State => { u with note := { u.note with enable := w.setWidth 18 } }) (accepted_st s x)

/-- R198: the notices named are cleared, and the write carries the word as it then stands. -/
theorem notice_alone (ho : writesAlone off x .notice w = true) :
    let t := ((accepted s x).forwardCtrl x off).finishPath
    let cleared : NoticeSet := s.note.word &&& ~~~ w.setWidth 18
    ∃ lanes, s.path.Issued t.path (downAs x lanes false false) false ∧
      wordsOf off lanes = [(0, cleared.setWidth 32)] ∧
      t = { s with path := t.path, src := s.src.counted x.source, note := { s.note with word := cleared } } := by
  obtain ⟨hissued, hframe⟩ := ctrlAlone_issued (s := s) ho nofun nofun takeWord_notice_st rfl
  obtain ⟨o, hk, hwords⟩ := wordsOf_substituted ho s.note.word
  obtain rfl := ctrlWordAt_notice hk
  exact ⟨_, hissued, hwords, hframe⟩

/-- R199: the enable is the word written, which reaches memory as it came. -/
theorem noticeEnable_alone (ho : writesAlone off x .noticeEnable w = true) :
    let t := ((accepted s x).forwardCtrl x off).finishPath
    s.path.Issued t.path (downAs x x.lanes false false) false ∧
      t = { s with path := t.path, src := s.src.counted x.source, note := { s.note with enable := w.setWidth 18 } } := by
  have hleft := ctrlAlone_issued (s := s) ho nofun nofun takeWord_noticeEnable_st rfl
  rwa [substituteLanes_of_writesAlone ho rfl] at hleft

theorem takeProducer_enable (e : Ev) (w : Word32) : (e.takeProducer w).st.note.enable = e.st.note.enable := by
  unfold Ev.takeProducer
  dsimp only
  split
  · rfl
  · split <;> rfl

theorem takeHeadCommand_enable (e : Ev) (h : Fin 6) (w : Word32) :
    (e.takeHeadCommand h w).st.note.enable = e.st.note.enable := by
  by_cases hw : w = 0
  · subst hw; rfl
  · rw [(takeHeadCommand_answers h e hw).moves.st]
    generalize (commandAnswer _ _ _).notice = n
    cases n <;> rfl

/-- A word other than NOTICE_ENABLE leaves the enable. -/
theorem takeWord_enable {k : CtrlWord} (hk : k ≠ .noticeEnable) (e : Ev) (w : Word32) :
    (e.takeWord k w).st.note.enable = e.st.note.enable := by
  have hkept : .note ∉ wordTouches k → (e.takeWord k w).st.note.enable = e.st.note.enable := fun h =>
    congrArg NoticeUnit.enable ((keeps_takeWord_touches e k w).note h)
  cases k with
  | notice => rfl
  | noticeEnable => exact absurd rfl hk
  | ovrProducer => exact takeProducer_enable e w
  | headCommand h => exact takeHeadCommand_enable e h w
  | _ => exact hkept (by decide)

theorem takeWords_enable {ws : List (CtrlWord × Word32)} (hn : ∀ p ∈ ws, p.1 ≠ .noticeEnable) (e : Ev) :
    (e.takeWords ws).st.note.enable = e.st.note.enable := by
  induction ws generalizing e with
  | nil => rfl
  | cons p ws ih =>
    exact (ih (fun q hq => hn q (List.mem_cons_of_mem _ hq)) _).trans (takeWord_enable (hn p List.mem_cons_self) e p.2)

/-- The enable after the write, whatever words it writes besides. -/
theorem noticeEnable_within (ho : writesOnce off x .noticeEnable w = true) :
    ((accepted s x).forwardCtrl x off).finishPath.note.enable = w.setWidth 18 := by
  obtain ⟨l, r, hs, -, hr⟩ := ctrlWords_split ho
  unfold Ev.forwardCtrl
  dsimp only
  rw [hs, takeWords_append, Ev.finishPath_note, Ev.issue_note]
  exact takeWords_enable hr _

/-- R200: NOTICE_N is asserted while some notice is had and enabled. -/
theorem noticeAsserted_iff {t : State} : t.noticeAsserted = true ↔
    ∃ i : Fin 18, t.note.word.getLsbD i = true ∧ t.note.enable.getLsbD i = true := by
  unfold State.noticeAsserted
  have hbit : ∀ i : Nat, (t.note.word &&& t.note.enable).getLsbD i = true ↔
      t.note.word.getLsbD i = true ∧ t.note.enable.getLsbD i = true := fun i => by
    rw [BitVec.getLsbD_and, Bool.and_eq_true]
  rw [bne_iff_ne]
  refine ⟨fun hne => ?_, fun ⟨i, hi⟩ hz => ?_⟩
  · by_contra hnone
    refine hne (BitVec.eq_of_getLsbD_eq fun i hi => ?_)
    refine (Bool.eq_false_iff.2 fun hset => ?_).trans BitVec.getLsbD_zero.symm
    exact hnone ⟨⟨i, hi⟩, (hbit i).1 hset⟩
  · have hset := (hbit i).2 hi
    rw [hz] at hset
    simp at hset

theorem getLsbD_setWidth_low (i : Fin 18) : (w.setWidth 18).getLsbD i = w.getLsbD i := by
  rw [BitVec.getLsbD_setWidth, decide_eq_true i.2, Bool.true_and]

end Notice

/-- Settles O46: the take of each word, and its write as it goes on. -/
theorem noticeWordsWritten : Obligations.NoticeWordsWritten := by
  unfold Obligations.NoticeWordsWritten
  refine ⟨fun s x off w hf ho => ?_, fun s x off w hf ho => ?_⟩
  · obtain ⟨lanes, hissued, hwords, hframe⟩ := notice_alone (s := s) ho
    have hx : exec .notice s = .next ((accepted s x).forwardCtrl x off).finishPath :=
      grantIf_ctrl hf (writesOnce_of_writesAlone ho) rfl
    generalize ((accepted s x).forwardCtrl x off).finishPath = t at hissued hframe hx
    have hnote : t.note = { s.note with word := s.note.word &&& ~~~ w.setWidth 18 } := congrArg State.note hframe
    refine ⟨t, lanes, hx, ?_, fun i => ?_, hissued, ?_, ?_⟩
    · rw [hnote]
    · rw [hnote, BitVec.getLsbD_and, BitVec.getLsbD_not, decide_eq_true i.2, Bool.true_and, getLsbD_setWidth_low]
    · rw [hnote]; exact hwords
    · rw [hnote]; exact hframe
  · have hx : exec .noticeEnable s = .next ((accepted s x).forwardCtrl x off).finishPath :=
      grantIf_ctrl hf ho rfl
    have henable := noticeEnable_within (s := s) ho
    have halone := noticeEnable_alone (s := s) (x := x) (off := off) (w := w)
    generalize ((accepted s x).forwardCtrl x off).finishPath = t at henable halone hx
    have hbits : ∀ i : Fin 18, t.note.enable.getLsbD i = w.getLsbD i := fun i => by rw [henable, getLsbD_setWidth_low]
    refine ⟨t, hx, hbits, ?_, fun ha => ?_⟩
    · rw [noticeAsserted_iff]
      simp only [hbits]
    · obtain ⟨hissued, hframe⟩ := halone ha
      have hnote : t.note = { s.note with enable := w.setWidth 18 } := congrArg State.note hframe
      refine ⟨hissued, by rw [hnote], ?_⟩
      rw [hnote]
      exact hframe

/-! ### TRAP_CLEAR (R193) -/

section Clear
variable {s : State} {x : Txn} {off : Nat} {w : Word32}

/-- R193: source `i`'s part of the take. -/
def freeNamed (w : Word32) (e : Ev) (i : Fin 16) : Ev := if w.getLsbD i then e.changeSource i SourceCtx.freed else e

theorem takeTrapClear_eq (e : Ev) (w : Word32) : e.takeTrapClear w = (List.finRange 16).foldl (freeNamed w) e := rfl

/-- A source's context after the take has come to it. -/
def clearedBy (w : Word32) (i : Fin 16) (c : SourceCtx) : SourceCtx := if w.getLsbD i then c.freed else c

theorem clearedBy_clearedBy (w : Word32) (i : Fin 16) (c : SourceCtx) :
    clearedBy w i (clearedBy w i c) = clearedBy w i c := by
  unfold clearedBy
  split <;> rfl

theorem freeNamed_ctx (w : Word32) (e : Ev) (i j : Fin 16) :
    (freeNamed w e i).st.src.ctx[j] = if j = i then clearedBy w j e.st.src.ctx[j] else e.st.src.ctx[j] := by
  unfold freeNamed clearedBy
  by_cases hw : w.getLsbD i = true
  · rw [if_pos hw, Ev.changeSource_ctx]
    split
    next h => subst h; rw [if_pos hw]
    next => rfl
  · rw [if_neg hw]
    split
    next h => subst h; rw [if_neg hw]
    next => rfl

theorem freeNamed_asked (w : Word32) (e : Ev) (i : Fin 16) : ∀ k ∈ e.asked, k ∈ (freeNamed w e i).asked := by
  unfold freeNamed
  split
  · exact Ev.changeSource_asked _ _ _
  · exact fun _ h => h

theorem freeNamed_asks (w : Word32) (e : Ev) (i j : Fin 16)
    (hc : (freeNamed w e i).st.src.ctx[j] ≠ e.st.src.ctx[j]) : .sourceStatus j ∈ (freeNamed w e i).asked := by
  unfold freeNamed at hc ⊢
  split at hc
  next hw => rw [if_pos hw]; exact changeSource_asks e i j _ hc
  next => exact absurd rfl hc

theorem freeAll_ctx (is : List (Fin 16)) (e : Ev) (j : Fin 16) :
    (is.foldl (freeNamed w) e).st.src.ctx[j] = if j ∈ is then clearedBy w j e.st.src.ctx[j] else e.st.src.ctx[j] := by
  induction is generalizing e with
  | nil => rfl
  | cons i is ih =>
    rw [List.foldl_cons, ih, freeNamed_ctx]
    by_cases hji : j = i
    · subst hji
      simp [clearedBy_clearedBy]
    · simp [hji]

theorem freeAll_asked (is : List (Fin 16)) (e : Ev) : ∀ k ∈ e.asked, k ∈ (is.foldl (freeNamed w) e).asked := by
  induction is generalizing e with
  | nil => exact fun _ h => h
  | cons i is ih => exact fun k hk => ih _ k (freeNamed_asked w e i k hk)

theorem freeAll_asks (is : List (Fin 16)) (e : Ev) (j : Fin 16)
    (hc : (is.foldl (freeNamed w) e).st.src.ctx[j] ≠ e.st.src.ctx[j]) :
    .sourceStatus j ∈ (is.foldl (freeNamed w) e).asked := by
  induction is generalizing e with
  | nil => exact absurd rfl hc
  | cons i is ih =>
    by_cases h : (freeNamed w e i).st.src.ctx[j] = e.st.src.ctx[j]
    · exact ih _ (by rw [h]; exact hc)
    · exact freeAll_asked is _ _ (freeNamed_asks w e i j h)

theorem freeAll_src (is : List (Fin 16)) (e : Ev) : (is.foldl (freeNamed w) e).st =
    { e.st with src := { e.st.src with ctx := (is.foldl (freeNamed w) e).st.src.ctx } } := by
  induction is generalizing e with
  | nil => rfl
  | cons i is ih =>
    have hone : (freeNamed w e i).st =
        { e.st with src := { e.st.src with ctx := (freeNamed w e i).st.src.ctx } } := by
      unfold freeNamed
      split
      · rw [Ev.changeSource_src]
      · rfl
    refine (ih (freeNamed w e i)).trans ?_
    rw [hone]
    rfl

theorem takeTrapClear_ctx (e : Ev) (j : Fin 16) :
    (e.takeTrapClear w).st.src.ctx[j] = clearedBy w j e.st.src.ctx[j] := by
  rw [takeTrapClear_eq, freeAll_ctx, if_pos (List.mem_finRange j)]

/-- Words other than TRAP_CLEAR leave the source table. -/
theorem takeWords_src {ws : List (CtrlWord × Word32)} (hn : ∀ p ∈ ws, p.1 ≠ .trapClear) (e : Ev) :
    (e.takeWords ws).st.src = e.st.src :=
  takeWords_same (b := .src) (fun _ hb => eq_trapClear hb) hn e

/-- The contexts after the write, whatever words it writes besides; a context that changed is shown. -/
theorem trapClear_within (ho : writesOnce off x .trapClear w = true) (i : Fin 16) :
    let t := ((accepted s x).forwardCtrl x off).finishPath
    t.src.ctx[i] = clearedBy w i (s.src.counted x.source).ctx[i] ∧
      (t.src.ctx[i] ≠ s.src.ctx[i] → t.path.asks (.sourceStatus i) = true) := by
  obtain ⟨l, r, hs, hl, hr⟩ := ctrlWords_split ho
  have hsplit : (accepted s x).takeWords (ctrlWords off x) =
      (((accepted s x).takeWords l).takeTrapClear w).takeWords r := by
    rw [hs, takeWords_append]; rfl
  have hbefore : ((accepted s x).takeWords l).st.src = s.src.counted x.source :=
    (takeWords_src hl _).trans (by rw [accepted_st])
  unfold Ev.forwardCtrl
  dsimp only
  rw [hsplit, Ev.finishPath_src, Ev.issue_src, takeWords_src hr]
  refine ⟨by rw [takeTrapClear_ctx, hbefore], fun hne => ?_⟩
  refine Ev.finishPath_asks ((takeWords_asked r _).1 _ ?_) nofun nofun
  by_cases htake : (((accepted s x).takeWords l).takeTrapClear w).st.src.ctx[i] = ((accepted s x).takeWords l).st.src.ctx[i]
  · refine freeAll_asked _ _ _ ((takeWords_asked l _).1 _ (changeSource_asks (Ev.start s) x.source i _ ?_))
    rw [htake, takeWords_src hl] at hne
    exact hne
  · exact freeAll_asks _ _ i htake

/-- The write that writes the word alone: it reaches memory as 0. -/
theorem trapClear_alone (ho : writesAlone off x .trapClear w = true) :
    let t := ((accepted s x).forwardCtrl x off).finishPath
    (∃ lanes, s.path.Issued t.path (downAs x lanes false false) false ∧ wordsOf off lanes = [(0x2C, 0)]) ∧
      t = { s with path := t.path, src := { s.src with ctx := t.src.ctx } } := by
  have hst : ((accepted s x).takeWord .trapClear w).st =
      { s with src := { s.src with ctx := ((accepted s x).takeWord .trapClear w).st.src.ctx } } := by
    refine (freeAll_src (List.finRange 16) (accepted s x)).trans ?_
    rw [accepted_st]
    rfl
  obtain ⟨hissued, hframe⟩ := ctrlAlone_issued (s := s) ho nofun nofun hst rfl
  obtain ⟨o, hk, hwords⟩ := wordsOf_substituted ho s.note.word
  obtain rfl := ctrlWordAt_trapClear hk
  generalize ((accepted s x).forwardCtrl x off).finishPath = t at hissued hframe
  refine ⟨⟨_, hissued, hwords⟩, ?_⟩
  have hctx : t.src.ctx = ((accepted s x).takeWord .trapClear w).st.src.ctx := by
    rw [hframe]
  rw [hctx]
  exact hframe

end Clear

/-- Settles O47, source by source. -/
theorem trapsCleared : Obligations.TrapsCleared := by
  unfold Obligations.TrapsCleared
  intro s x off w hf ho
  exact ⟨_, grantIf_ctrl hf ho rfl, fun i => (trapClear_within ho i).1, fun i => (trapClear_within ho i).2, trapClear_alone⟩

/-! ### LINE_RESTART (R207) -/

section Restart
variable {s : State} {x : Txn} {off : Nat}

/-- One more restart asked of each block that holds line state. -/
def oneMore (r : Restart) : Restart :=
  { lug := r.lug + 1, head := r.head + 1, asm := r.asm + 1, solv := r.solv + 1, trim := r.trim + 1 }

/-- Words other than LINE_RESTART leave the requests. -/
theorem takeWords_restart {ws : List (CtrlWord × Word32)} (hn : ∀ p ∈ ws, p.1 ≠ .lineRestart) (e : Ev) :
    (e.takeWords ws).st.restart = e.st.restart :=
  takeWords_same (b := .restart) (fun _ hb => eq_lineRestart hb) hn e

theorem takeWord_lineRestart_st (e : Ev) :
    (e.takeWord .lineRestart 1).st = { e.st with restart := oneMore e.st.restart } := rfl

/-- The requests after the write, whatever words it writes besides. -/
theorem lineRestart_within (ho : writesOnce off x .lineRestart 1 = true) :
    ((accepted s x).forwardCtrl x off).finishPath.restart = oneMore s.restart := by
  obtain ⟨l, r, hs, hl, hr⟩ := ctrlWords_split ho
  have hsplit : (accepted s x).takeWords (ctrlWords off x) =
      (((accepted s x).takeWords l).takeWord .lineRestart 1).takeWords r := by
    rw [hs, takeWords_append]; rfl
  unfold Ev.forwardCtrl
  dsimp only
  rw [hsplit, Ev.finishPath_restart, Ev.issue_restart, takeWords_restart hr, takeWord_lineRestart_st, takeWords_restart hl,
    accepted_st]

/-- The write that writes the word alone: it reaches memory as 0. -/
theorem lineRestart_alone (ho : writesAlone off x .lineRestart 1 = true) :
    let t := ((accepted s x).forwardCtrl x off).finishPath
    (∃ lanes, s.path.Issued t.path (downAs x lanes false false) false ∧ wordsOf off lanes = [(0x18, 0)]) ∧
      t = { s with path := t.path, src := s.src.counted x.source, restart := t.restart } := by
  have hst : ((accepted s x).takeWord .lineRestart 1).st =
      { s with src := s.src.counted x.source, restart := oneMore s.restart } := by
    rw [takeWord_lineRestart_st, accepted_st]
  obtain ⟨hissued, hframe⟩ := ctrlAlone_issued (s := s) ho nofun nofun hst rfl
  obtain ⟨o, hk, hwords⟩ := wordsOf_substituted ho s.note.word
  obtain rfl := ctrlWordAt_lineRestart hk
  refine ⟨⟨_, hissued, hwords⟩, ?_⟩
  rw [lineRestart_within (writesOnce_of_writesAlone ho)]
  exact hframe

end Restart

/-- Settles O52: the requests after the write, and the write alone. -/
theorem lineRestartRequested : Obligations.LineRestartRequested := by
  unfold Obligations.LineRestartRequested
  intro s x off hf ho
  exact ⟨_, grantIf_ctrl hf ho rfl, lineRestart_within ho, lineRestart_alone⟩

end Sys2Proof.Proofs
end

section
/-! Boot (R201 to R206, R216): its start, the failures of an attempt, when an image is good, and the clamps of the image's
values. -/

namespace Sys2Proof.Proofs

open Sys2Proof Sys2Proof.Machine Sys2Proof.Laws

/-! ### A boot attempt that does not succeed (R202, R203, R206) -/

section Attempts
variable {a : Attempt} {s : State} (hc : s.boot.condition = .booting)
include hc

/-- R202, R206: after a failed attempt the part is PASSIVE if that was the third, and booting still if not. -/
theorem exec_bootAttemptEnd_failed (hf : Sys2Proof.Machine.Attempt.fails a = true) :
    exec (.bootAttemptEnd a) s = .next { s with
      boot := { condition := if s.boot.attemptsEnded + 1 = 3 then .passive else .booting
                attemptsEnded := s.boot.attemptsEnded + 1, image := s.boot.image }
      path := { s.path with returned := [] } } := by
  change execBootAttemptEnd a s = _
  unfold execBootAttemptEnd
  rw [if_pos hc]
  dsimp only
  rw [if_pos hf, hc]
  by_cases hthird : s.boot.attemptsEnded + 1 = 3
  · rw [if_pos hthird, if_pos hthird]
    rfl
  · rw [if_neg hthird, if_neg hthird]

/-- R203, R206: an image read that shows a failure makes the part PASSIVE, whichever attempt read it. -/
theorem exec_bootAttemptEnd_bad (hf : Sys2Proof.Machine.Attempt.fails a = false) (hb : imageGood a.bytes = false) :
    exec (.bootAttemptEnd a) s = .next { s with
      boot := { condition := .passive, attemptsEnded := s.boot.attemptsEnded + 1, image := a.bytes }
      path := { s.path with returned := [] } } := by
  change execBootAttemptEnd a s = _
  unfold execBootAttemptEnd
  rw [if_pos hc]
  dsimp only
  rw [if_neg (by rw [hf]; decide), if_neg (by rw [hb]; decide)]
  rfl

end Attempts

/-! ### The examination of the image (R203) -/

/-- One span ends before the other begins. -/
def Apart (x y : Nat × Nat) : Prop := x.1 + x.2 ≤ y.1 ∨ y.1 + y.2 ≤ x.1

theorem spansOverlap_eq_false_iff {x y : Nat × Nat} : spansOverlap x y = false ↔ Apart x y := by
  unfold spansOverlap Apart
  rw [Bool.and_eq_false_iff, decide_eq_false_iff_not, decide_eq_false_iff_not, Nat.not_lt, Nat.not_lt]
  exact or_comm

theorem allDisjoint_iff (l : List (Nat × Nat)) : allDisjoint l = true ↔ l.Pairwise Apart := by
  induction l with
  | nil => exact iff_of_true rfl List.Pairwise.nil
  | cons x xs ih =>
    unfold allDisjoint
    rw [Bool.and_eq_true, ih, List.pairwise_cons, List.all_eq_true]
    simp only [Bool.not_eq_true', spansOverlap_eq_false_iff]

theorem imageGood_iff (bs : List Byte) : imageGood bs = true ↔ byteAt bs 0 = 0x5A ∧ byteAt bs 1 = 0xC3 ∧ byteAt bs 2 = 1 ∧
    (bootSpans bs).Pairwise Apart ∧ (∀ x ∈ bootSpans bs, x.1 + x.2 ≤ 2 ^ 32) ∧ bootDropPos bs ≤ 31 := by
  unfold imageGood
  simp only [Bool.and_eq_true, beq_iff_eq, decide_eq_true_eq, allDisjoint_iff, List.all_eq_true, and_assoc]
  rfl

/-! ### The clamps (R204) -/

section Clamps
variable {lo hi x : Nat}

theorem ringSizeOf_below (h : x < lo) : ringSizeOf lo hi x = lo := if_pos h

theorem ringSizeOf_above (hl : lo ≤ hi) (h : hi < x) : ringSizeOf lo hi x = hi := by
  unfold ringSizeOf
  rw [if_neg (by omega), if_pos h]

theorem ringSizeOf_within (h1 : lo ≤ x) (h2 : x ≤ hi) : ringSizeOf lo hi x = 2 ^ Nat.log2 x := by
  unfold ringSizeOf
  rw [if_neg (by omega), if_neg (by omega)]

end Clamps

/-- Settles O8: the start, the two ways to fail, the examination of the image, and the clamp of a ring size. -/
theorem bootStartsAndFails : Obligations.BootStartsAndFails := by
  unfold Obligations.BootStartsAndFails
  refine ⟨fun s hc => if_pos hc, fun a s hc _ => ⟨fun hbad => exec_bootAttemptEnd_failed hc hbad,
    fun hok himage => exec_bootAttemptEnd_bad hc hok himage⟩, fun bs => ⟨imageGood_iff bs, rfl⟩, fun lo hi x hlo hle => ?_⟩
  refine ⟨ringSizeOf_below, ringSizeOf_above hle, fun h1 h2 => ⟨Nat.log2 x, ringSizeOf_within h1 h2, ?_, ?_⟩⟩
  · exact Nat.log2_self_le (by omega)
  · exact Nat.lt_log2_self

end Sys2Proof.Proofs
end

section
/-! The notice word through each command (R197, R198): every operation but the take of a NOTICE word keeps the notices, and
only the control source's forwarded write has such a word taken. -/

namespace Sys2Proof.Proofs

open Sys2Proof Sys2Proof.Machine Sys2Proof.Laws

/-! ### Operations that keep every notice -/

/-- Every notice of `s` is one of `t`. -/
def NoticesKept (s t : State) : Prop := ∀ n : Notice, s.note.has n = true → t.note.has n = true

section Kept
variable {s t u : State} {e f : Ev}

theorem NoticesKept.trans (h : NoticesKept s t) (h' : NoticesKept t u) : NoticesKept s u := fun n hn => h' n (h n hn)

theorem NoticesKept.of_note (h : t.note = s.note) : NoticesKept s t := fun n hn => by rwa [h]

theorem NoticesKept.of_keeps {bs : List Block} (h : Keeps bs s t) (hb : Block.note ∉ bs := by decide) : NoticesKept s t :=
  .of_note (h.note hb)

theorem NoticesKept.of_grows (h : Grows e f) : NoticesKept e.st f.st := fun _ hn => h.has hn

theorem NoticesKept.idle (h : notTaken s = .next t) : NoticesKept s t := .of_note (by rw [notTaken_next h])

/-- A command whose event only adds keeps the notices: the end of an event touches none. -/
theorem NoticesKept.of_event {c : Instr} (hg : Grows (Ev.start s) e) (he : exec c s = .next e.finish)
    (hx : exec c s = .next t) : NoticesKept s t := by
  rw [he] at hx
  cases hx
  exact .of_grows hg

end Kept

/-! ### The grants of the forwarded side -/

section Grant
variable {s : State} {x : Txn} {off : Nat}

/-- A write writes NOTICE at most once, and before any other word. -/
theorem ctrlWords_notice_cases (off : Nat) (x : Txn) : (∀ p ∈ ctrlWords off x, p.1 ≠ .notice) ∨
    ∃ w r, ctrlWords off x = (.notice, w) :: r ∧ ∀ p ∈ r, p.1 ≠ .notice := by
  cases hs : ctrlWords off x with
  | nil => exact Or.inl nofun
  | cons p r =>
    have hr : ∀ q ∈ r, q.1 ≠ .notice := ctrlWords_notice_first (l := []) hs
    obtain ⟨k, w⟩ := p
    by_cases hk : k = .notice
    · subst hk
      exact Or.inr ⟨w, r, rfl, hr⟩
    · exact Or.inl (List.forall_mem_cons.2 ⟨hk, hr⟩)

theorem writesOnce_of_cons {k : CtrlWord} {w : Word32} {r : List (CtrlWord × Word32)}
    (hs : ctrlWords off x = (k, w) :: r) (hr : ∀ p ∈ r, p.1 ≠ k) : writesOnce off x k w = true := by
  have hnone : r.filter (fun p => p.1 == k) = [] := List.filter_eq_nil_iff.2 fun p hp => by simpa using hr p hp
  unfold writesOnce
  rw [hs, List.filter_cons_of_pos (by simp), hnone]
  exact beq_self_eq_true _

/-- A write into the control block that is forwarded has passed the permission test, and keeps its offset. -/
theorem decideWrite_forward_ctrl {o : Nat} (h : decideWrite s x .ctrl off = .forward .ctrl o) :
    o = off ∧ permission s x .ctrl off = .pass := by
  unfold decideWrite at h
  split at h
  · cases h
  · split at h
    · cases h
    · cases h
    · rename_i hpass
      dsimp only at h
      split at h
      · split at h <;> cases h
      · cases h
        exact ⟨rfl, hpass⟩

/-- The grant of a write that goes to the control block is the grant of a write it forwards. -/
theorem forwardsCtrl_of_courseOf (ht : s.forwardedTurn = some x) (hc : courseOf s x = .forward .ctrl off) :
    s.forwardsCtrl x off = true := by
  unfold courseOf at hc
  split at hc
  · cases hc
  · rename_i hwrite
    split at hc
    · cases hc
    · cases hc
    · cases hc
    · rename_i hrun
      split at hc
      · cases hc
      · rename_i ap o hdec
        obtain ⟨rfl, -⟩ := decideWrite_forward hc
        obtain ⟨rfl, -⟩ := decideWrite_forward_ctrl hc
        have hinto : s.grantsInto x .ctrl off = true := (grantsInto_iff _ _ _ _).2 ⟨hrun, ht, hwrite, hdec⟩
        exact (forwardsCtrl_iff _ _ _).2 ⟨hinto, hc⟩

/-- R184, test 2: NOTICE is the control source's alone to write. -/
theorem control_of_permission_pass (hp : permission s x .ctrl off = .pass) {w : Word32}
    (hw : (.notice, w) ∈ ctrlWords off x) : x.source = s.src.control := by
  by_contra hne
  by_cases htrapped : Trapped s x .ctrl off
  · rw [permission_trapped htrapped] at hp
    cases hp
  · have howned : WritesOwn s x .ctrl off := Or.inr (Or.inr ⟨(.notice, w), hw, Or.inr ⟨rfl, hne⟩⟩)
    rw [permission_owned htrapped howned] at hp
    cases hp

/-- The take of NOTICE takes out only notices that the word names (R198). -/
theorem takeWord_notice_clears {e : Ev} {w : Word32} {n : Notice} (hn : e.st.note.has n = true)
    (ht : (e.takeWord .notice w).st.note.has n = false) : w.getLsbD n.bit = true := by
  have hbit : n.bit < 18 := by cases n <;> decide
  change (e.st.note.word &&& ~~~ w.setWidth 18).getLsbD n.bit = false at ht
  change e.st.note.word.getLsbD n.bit = true at hn
  rw [BitVec.getLsbD_and, hn, BitVec.getLsbD_not, BitVec.getLsbD_setWidth, decide_eq_true hbit] at ht
  simpa using ht

theorem accepted_noticesKept (s : State) (x : Txn) : NoticesKept s (accepted s x).st :=
  .of_note (by rw [accepted_st])

/-- A write forwarded into the control block keeps the notices, but for those named by a NOTICE word. -/
theorem forwardCtrl_notices (s : State) (x : Txn) (off : Nat) :
    let t := ((accepted s x).forwardCtrl x off).finishPath
    NoticesKept s t ∨ ∃ w, (.notice, w) ∈ ctrlWords off x ∧ writesOnce off x .notice w = true ∧
      ∀ n : Notice, s.note.has n = true → t.note.has n = false → w.getLsbD n.bit = true := by
  have haccepted := accepted_noticesKept s x
  rcases ctrlWords_notice_cases off x with hnone | ⟨w, r, hs, hr⟩
  · exact Or.inl (haccepted.trans (.of_grows ((grows_takeWords hnone _).trans (grows_issue _ _ _ _ _ _))))
  · refine Or.inr ⟨w, by rw [hs]; exact List.mem_cons_self, writesOnce_of_cons hs hr, fun n hn hgone => ?_⟩
    have hrest := NoticesKept.of_grows (grows_takeWords hr ((accepted s x).takeWord .notice w)) n
    refine takeWord_notice_clears (haccepted n hn) (Bool.eq_false_iff.2 fun htaken => ?_)
    unfold Ev.forwardCtrl at hgone
    rw [hs] at hgone
    exact absurd (hrest htaken) (Bool.eq_false_iff.1 hgone)

/-- A grant of any course but a forwarding keeps the notices. -/
theorem takeCourse_noticesKept (s : State) (x : Txn) {c : Machine.Course} (hc : ∀ ap off, c ≠ .forward ap off) :
    NoticesKept s ((Ev.start s).takeCourse x c).st := by
  have hsettle : ∀ (e : Ev) (r : Settled), NoticesKept s e.st → NoticesKept s (e.settle r).st := fun e r h =>
    h.trans (.of_keeps (keeps_settle e r))
  have haccept := grows_acceptWrite (Ev.start s) x.source
  cases c with
  | asIssued => exact .of_grows (grows_issue (Ev.start s) _ _ _ _ _)
  | bootRetry | refusedTrapped | retry => exact hsettle (Ev.start s) _ (.of_note rfl)
  | refused cause => exact hsettle _ _ (.of_grows (grows_trap (Ev.start s) x.source cause))
  | refusedExhausted => exact hsettle _ _ (.of_grows (grows_exhaust (Ev.start s) x.source))
  | forward ap off => exact absurd rfl (hc ap off)
  | partialSlice => exact .of_grows ((haccept.trans (grows_raise _ _)).trans (grows_issue _ _ _ _ _ _))
  | passBy => exact .of_grows (haccept.trans (grows_issue _ _ _ _ _ _))
  | intake => exact .of_grows ((haccept.trans (grows_intake _ _ _)).trans (grows_issue _ _ _ _ _ _))
  | giveUp =>
    exact .of_grows ((((haccept.trans (grows_countBadSlice _ _ _)).trans (grows_raise _ _)).trans
      (grows_exhaust _ _)).trans (grows_issue _ _ _ _ _ _))

/-- A write forwarded into an aperture other than the control block keeps the notices. -/
theorem forwardWrite_noticesKept (s : State) (x : Txn) (off : Nat) {ap : Aperture} (hap : ap ≠ .ctrl) :
    NoticesKept s ((accepted s x).forwardWrite x ap off).st := by
  refine (accepted_noticesKept s x).trans ?_
  cases ap with
  | ctrl => exact absurd rfl hap
  | planA | planB => exact .of_grows ((grows_copyPlan (accepted s x) _ _ _).trans (grows_issue _ _ _ _ _ _))
  | scan | ovr | dec | tally => exact .of_grows (grows_issue (accepted s x) _ _ _ _ _)

/-- A grant keeps the notices, or it is the grant of the control source's write that clears those it takes out. -/
theorem grant_notices (ht : s.forwardedTurn = some x) : NoticesKept s (grant s x) ∨
    ∃ off w, s.forwardsCtrl x off = true ∧ x.source = s.src.control ∧ writesOnce off x .notice w = true ∧
      ∀ n : Notice, s.note.has n = true → (grant s x).note.has n = false → w.getLsbD n.bit = true := by
  by_cases hctrl : ∃ off, courseOf s x = .forward .ctrl off
  · obtain ⟨off, hc⟩ := hctrl
    have hf := forwardsCtrl_of_courseOf ht hc
    obtain ⟨-, hpass⟩ := decideWrite_forward_ctrl ((forwardsCtrl_iff _ _ _).1 hf).2
    rw [grant_forwardsCtrl hf]
    exact (forwardCtrl_notices s x off).imp_right fun ⟨w, hmem, honce, hcleared⟩ =>
      ⟨off, w, hf, control_of_permission_pass hpass hmem, honce, hcleared⟩
  · left
    show NoticesKept s ((Ev.start s).takeCourse x (courseOf s x)).st
    generalize courseOf s x = c at hctrl
    by_cases hforward : ∃ ap off, c = .forward ap off
    · obtain ⟨ap, off, rfl⟩ := hforward
      exact forwardWrite_noticesKept s x off fun hap => hctrl ⟨off, by rw [hap]⟩
    · exact takeCourse_noticesKept s x fun ap off hc => hforward ⟨ap, off, hc⟩

end Grant

/-! ### The other commands that raise notices -/

section Commands
variable {s t : State} {h : Fin 6} {ok : Bool}

/-- R205: the notice raised at the end of boot joins those that stand. -/
theorem bootSucceed_noticesKept (s : State) (bs : List Byte) : NoticesKept s (bootSucceed s bs) := by
  intro n hn
  change (ite _ _ _ : NoticeSet).getLsbD n.bit = true
  split
  · rw [BitVec.getLsbD_or, Bool.or_eq_true]
    exact Or.inl hn
  · exact hn

theorem bootAttemptEnd_noticesKept {a : Attempt} (hx : exec (.bootAttemptEnd a) s = .next t) : NoticesKept s t := by
  by_cases hc : s.boot.condition = .booting
  · cases hf : Sys2Proof.Machine.Attempt.fails a with
    | true =>
      rw [exec_bootAttemptEnd_failed hc hf] at hx
      cases hx
      exact .of_note rfl
    | false =>
      cases hg : imageGood a.bytes with
      | true =>
        rw [exec_bootAttemptEnd_good hc hf hg] at hx
        cases hx
        exact bootSucceed_noticesKept _ _
      | false =>
        rw [exec_bootAttemptEnd_bad hc hf hg] at hx
        cases hx
        exact .of_note rfl
  · exact .idle ((if_neg hc).symm.trans hx)

theorem lugEvent_noticesKept (hx : exec .lugEvent s = .next t) : NoticesKept s t := by
  cases hr : s.running with
  | true =>
    rw [exec_lugEvent hr] at hx
    cases hx
    exact (NoticesKept.of_grows ((grows_advanced s).trans (grows_opened s))).trans (.of_note (after_note s))
  | false =>
    rw [exec_lugEvent_idle hr] at hx
    exact .idle hx

theorem headPresentRise_noticesKept (hx : exec (.headPresentRise h) s = .next t) : NoticesKept s t := by
  by_cases ht : s.takesEdges h = true
  · obtain ⟨e', he, hm⟩ := exec_headPresentRise ht
    exact .of_event ((grows_presentPin (Ev.start s) h true).trans hm.grows) he hx
  · exact .of_event (c := .headPresentRise h) (grows_presentPin (Ev.start s) h true) (if_neg ht) hx

theorem headReadyRise_noticesKept (hx : exec (.headReadyRise h) s = .next t) : NoticesKept s t := by
  by_cases ht : s.takesEdges h = true
  · obtain ⟨e', he, hm⟩ := exec_headReadyRise ht
    exact .of_event ((grows_readyPin (Ev.start s) h true).trans hm.grows) he hx
  · exact .of_event (c := .headReadyRise h) (grows_readyPin (Ev.start s) h true) (if_neg ht) hx

/-- HEAD_READY_FALL at a fitted head is an event that only adds, whatever state it finds (R27). -/
theorem exec_headReadyFall_grows (ht : s.takesEdges h = true) :
    ∃ e', exec (.headReadyFall h) s = .next e'.finish ∧ Grows ((Ev.start s).readyPin h false) e' := by
  by_cases hw : s.head.ctx[h].state = .waiting
  · obtain ⟨e', he, hm⟩ := exec_headReadyFall_waiting ht hw
    exact ⟨e', he, hm.grows⟩
  · by_cases ha : s.head.ctx[h].state = .active
    · obtain ⟨e', he, hm⟩ := exec_headReadyFall_active ht ha
      exact ⟨e', he, hm.grows⟩
    · obtain ⟨e', he, hm⟩ := exec_headReadyFall_other ht hw ha
      exact ⟨e', he, hm.grows⟩

theorem headReadyFall_noticesKept (hx : exec (.headReadyFall h) s = .next t) : NoticesKept s t := by
  by_cases ht : s.takesEdges h = true
  · obtain ⟨e', he, hg⟩ := exec_headReadyFall_grows ht
    exact .of_event ((grows_readyPin (Ev.start s) h false).trans hg) he hx
  · exact .of_event (c := .headReadyFall h) (grows_readyPin (Ev.start s) h false) (if_neg ht) hx

theorem headPresentFall_noticesKept (hx : exec (.headPresentFall h) s = .next t) : NoticesKept s t := by
  have hpinned : Grows (Ev.start s) (pinned h s) := grows_presentPin (Ev.start s) h false
  by_cases ht : s.takesEdges h = true
  · obtain ⟨hr, hf⟩ := takesEdges_iff.1 ht
    have hlost : Grows (Ev.start s) (if Serving h s then (pinned h s).loseHead h else pinned h s) := by
      split
      · exact hpinned.trans (grows_loseHead _ h)
      · exact hpinned
    exact .of_event (hlost.trans (grows_changeHead _ h absentHead)) (exec_headPresentFall hr hf) hx
  · exact .of_event (c := .headPresentFall h) hpinned (if_neg ht) hx

theorem sliceFold_noticesKept (hx : exec (.sliceFold h) s = .next t) : NoticesKept s t := by
  have hnext : execSliceFold h s = .next t := hx
  unfold execSliceFold at hnext
  split at hnext
  · rename_i hr
    split at hnext
    · exact .idle hnext
    · rename_i sl rest hheld
      have htaken : Grows (Ev.start s) (taken s h rest) := grows_modify _ _ rfl
      exact .of_event (htaken.trans (grows_foldHeld _ h sl)) (exec_sliceFold hr hheld) hx
  · exact .idle hnext

theorem memoryAnswer_noticesKept (hx : exec (.memoryAnswer ok) s = .next t) : NoticesKept s t := by
  have hnext : execMemoryAnswer ok s = .next t := hx
  unfold execMemoryAnswer at hnext
  split at hnext
  · rename_i i b r w rest hdown
    rw [exec_memoryAnswer s ok i b r w rest hdown] at hx
    cases hx
    have hreturned : NoticesKept s (settledAnswer s ok i w rest).returnResponses.st :=
      .of_note (keeps_returnResponses (settledAnswer s ok i w rest)).note
    have hanswered := (grows_returnedAnswer s ok i b w rest).trans (grows_answerEvent s ok i b r w rest)
    exact (hreturned.trans (.of_grows hanswered)).trans (.of_note (Ev.finish_note _))
  · exact .idle hnext

theorem grows_beforeBlock (s : State) (ok : Bool) (k : OwnTxn) (w : Wire) (rest : List Down) :
    Grows (Ev.start s) (beforeBlock s ok k w rest) := by
  have hreleased := (grows_popDown (Ev.start s) rest w ok).trans (grows_releaseLine _ k w)
  unfold beforeBlock
  split
  · exact hreleased
  · exact hreleased.trans (grows_raise _ _)

theorem ownTransactionAnswer_noticesKept (hx : exec (.ownTransactionAnswer ok) s = .next t) : NoticesKept s t := by
  have hnext : execOwnTransactionAnswer ok s = .next t := hx
  unfold execOwnTransactionAnswer at hnext
  split at hnext
  · rename_i k w rest hdown
    exact .of_event ((grows_beforeBlock s ok k w rest).trans (grows_ownAnswered _ k ok _))
      (exec_ownTransactionAnswer s ok k w rest hdown) hx
  · exact .idle hnext

/-! ### Every command -/

theorem mem_grantRows {c : Instr} {row : State → Txn → Bool} (hc : grantRow c = some row) : c ∈ grantRows := by
  revert hc
  cases c <;> simp [grantRows, grantRow]

/-- No command but device reset takes a notice out, unless it is a grant of the forwarded side. -/
theorem exec_noticesKept {c : Instr} (hc : c ≠ .deviceReset) (hrow : grantRow c = none) (hx : exec c s = .next t) :
    NoticesKept s t := by
  cases c with
  | deviceReset => exact absurd rfl hc
  | bootAttemptEnd => exact bootAttemptEnd_noticesKept hx
  | lugEvent => exact lugEvent_noticesKept hx
  | headPresentRise => exact headPresentRise_noticesKept hx
  | headPresentFall => exact headPresentFall_noticesKept hx
  | headReadyRise => exact headReadyRise_noticesKept hx
  | headReadyFall => exact headReadyFall_noticesKept hx
  | sliceFold => exact sliceFold_noticesKept hx
  | memoryAnswer => exact memoryAnswer_noticesKept hx
  | ownTransactionAnswer => exact ownTransactionAnswer_noticesKept hx
  | bootStart | encPulse | sawHoldExpiry | lampFlashToggle | upstreamAccept | solveEnd | overrideEntryTake | lugTableRestart
    | headMonitorRestart | intakeRestart | solverRestart | trimRestart | arbiterGrantOwn =>
    exact .of_keeps (keeps_exec hx) (by simp [footprint])
  | apertureWrite | planBankWrite | sliceWrite | planSelect | admitHead | release | headCommandUnknown | ovrProducer
    | decConsumer | tallyCloseShift | tallySnapshot | tallyClear | tallyRequestRefused | notice | noticeEnable | trapClear
    | lineRestart | forwardedSideGrant => cases hrow

end Commands

/-- Settles O60: a grant takes out what its NOTICE word names, and every other command but device reset only adds. -/
theorem noticesAreSticky : Obligations.NoticesAreSticky := by
  unfold Obligations.NoticesAreSticky
  intro c s t hx hc
  cases hrow : grantRow c with
  | none => exact Or.inl (exec_noticesKept hc hrow hx)
  | some row =>
    rw [exec_grantRow hrow] at hx
    rcases grantIf_cases row s with ⟨x, hturn, -, hg⟩ | hg <;> (rw [hg] at hx; cases hx)
    · exact (grant_notices hturn).imp_right fun ⟨off, w, hf, hsource, honce, hcleared⟩ =>
        ⟨x, off, w, mem_grantRows hrow, rfl, hf, hsource, honce, hcleared⟩
    · exact Or.inl fun _ hn => hn

end Sys2Proof.Proofs
end

section
/-! The step, by the queue it finds (log 3), and the memory's canonical form through it (log 1): memory takes the write that an
answer acknowledges (log 19) and, at a device reset, what the writes in flight leave (R180); both keep the form. -/

namespace Sys2Proof.Proofs

open Sys2Proof Sys2Proof.Machine Sys2Proof.Laws

/-! ### The step -/

theorem step_front {s : State} {c : Instr} {rest : List Instr} (h : s.pending = c :: rest) :
    step s = exec c { s with pending := rest } := by
  unfold step
  rw [h]

theorem step_idle {s : State} (h : s.pending = []) : step s = .next s := by
  unfold step
  rw [h]

/-- Settles O1: the two branches of the step. -/
theorem stepTakesFront : Obligations.StepTakesFront := by
  unfold Obligations.StepTakesFront
  exact ⟨fun _ _ _ h => step_front h, fun _ h => step_idle h⟩

/-! ### What memory holds after each command that may change it -/

/-- R166: memory takes the answered transaction; where the oldest in flight is not a forwarded one, nothing happens. -/
theorem memoryAnswer_mem {ok : Bool} {s t : State} (hx : exec (.memoryAnswer ok) s = .next t) :
    t.mem = s.mem ∨ ∃ w, t.mem = answeredMemory s.mem w ok := by
  have hnext : execMemoryAnswer ok s = .next t := hx
  unfold execMemoryAnswer at hnext
  split at hnext
  · rename_i i b r w rest hdown
    rw [exec_memoryAnswer s ok i b r w rest hdown] at hx
    cases hx
    exact Or.inr ⟨w, (Ev.finish_mem _).trans (answerEvent_mem s ok i b r w rest)⟩
  · exact Or.inl (congrArg State.mem (notTaken_next hnext))

/-- R174: memory takes the answered transaction before the block that asked for it does, and no block touches memory. -/
theorem ownTransactionAnswer_mem {ok : Bool} {s t : State} (hx : exec (.ownTransactionAnswer ok) s = .next t) :
    t.mem = s.mem ∨ ∃ w, t.mem = answeredMemory s.mem w ok := by
  have hnext : execOwnTransactionAnswer ok s = .next t := hx
  unfold execOwnTransactionAnswer at hnext
  split at hnext
  · rename_i k w rest hdown
    rw [exec_ownTransactionAnswer s ok k w rest hdown] at hx
    cases hx
    have hblock := (keeps_ownAnswered (beforeBlock s ok k w rest) k ok (s.mem.bytes w.start (8 * w.beats))).mem
    exact Or.inr ⟨w, (Ev.finish_mem _).trans (hblock.trans (beforeBlock_mem s ok k w rest))⟩
  · exact Or.inl (congrArg State.mem (notTaken_next hnext))

theorem deviceReset_mem {s t : State} (hx : exec .deviceReset s = .next t) :
    t.mem = landAll s.freeCount 0 s.mem s.path.down := by
  cases hx
  rfl

/-! ### The canonical form (log 1) -/

theorem wf_answeredMemory {m : Memory} (h : m.wf = true) (w : Wire) (ok : Bool) : (answeredMemory m w ok).wf = true := by
  unfold answeredMemory
  split
  · exact Memory.wf_apply h w
  · exact h

/-- Memory after an answer is as it was, or has taken the transaction answered. -/
theorem memoryInv_of_answered {s t : State} {ok : Bool} (hs : MemoryInv s)
    (h : t.mem = s.mem ∨ ∃ w, t.mem = answeredMemory s.mem w ok) : MemoryInv t := by
  unfold MemoryInv at hs ⊢
  rcases h with hmem | ⟨w, hmem⟩
  · rwa [hmem]
  · rw [hmem]
    exact wf_answeredMemory hs w ok

theorem memoryInv_deviceReset {s t : State} (hs : MemoryInv s) (hx : exec .deviceReset s = .next t) : MemoryInv t := by
  unfold MemoryInv at hs ⊢
  rw [deviceReset_mem hx]
  exact wf_landAll _ _ _ hs

theorem memoryInv_exec {c : Instr} {s t : State} (hs : MemoryInv s) (hx : exec c s = .next t) : MemoryInv t := by
  by_cases hmem : .mem ∈ footprint c
  · rcases changes_mem hmem with rfl | ⟨ok, rfl⟩ | ⟨ok, rfl⟩
    · exact memoryInv_deviceReset hs hx
    · exact memoryInv_of_answered hs (memoryAnswer_mem hx)
    · exact memoryInv_of_answered hs (ownTransactionAnswer_mem hx)
  · unfold MemoryInv at hs ⊢
    rwa [(keeps_exec hx).mem hmem]

/-- Settles O54: every command keeps the memory's form, by the three that may change memory; a step takes one command off the
queue, which the invariant does not read. -/
theorem memoryInvKept : Obligations.MemoryInvKept := by
  unfold Obligations.MemoryInvKept
  intro s t hs h
  cases hp : s.pending with
  | nil =>
    rw [step_idle hp] at h
    cases h
    exact hs
  | cons c rest =>
    rw [step_front hp] at h
    exact memoryInv_exec (s := { s with pending := rest }) hs h

end Sys2Proof.Proofs
end
